-- ==== Sys2Proof/Word.lean ====
section
/-! DEFINITION. The plain words of the ZS-531: bytes, store addresses, word numbers, station, channel, entry and window numbers. -/

namespace Sys2Proof

/-- One byte. -/
abbrev Byte := BitVec 8

/-- A store address, 0x00000 to 0x1FFFF (R1). -/
abbrev Addr := BitVec 17

/-- The number of a word of the store, 0 to 16,383 (R1). -/
abbrev WordNo := BitVec 14

/-- A station number that has a peer record, 0 to 30 (R142). -/
abbrev Station := Fin 31

/-- A channel number, 0 to 3 (R35). -/
abbrev ChannelNo := Fin 4

/-- A request table entry number, 0 to 15 (R63). -/
abbrev Slot := Fin 16

/-- An export window number, 0 to 7 (R89). -/
abbrev WindowNo := Fin 8

end Sys2Proof
end

