-- ==== Sys2Proof/Syntax.lean ====
section
/-! DEFINITION. The commands of the block: one constructor for each row of spec/opcode_table.json. -/

namespace Sys2Proof

/-- The condition in which the check finds a word of the store (R2). -/
inductive Condition where
  | good | correctable | uncorrectable
deriving DecidableEq, Repr

/-- How much of a host command with operands has been clocked in (R169, log 9): its command byte alone, which takes the
transaction to OPERANDS, or all of its operand bytes, which is its decision point (for STORE-READ and STORE-WRITE, the end
of the address). -/
inductive Taken (α : Type) where
  | code
  | whole (operands : α)
deriving DecidableEq, Repr

/-- The part of a claim slot that a CLAIM_SLOT reports (R138, R139, log 11): the slot begins; it ends, with the numbers
that the other stations claiming in it drove; or the whole slot at once. -/
inductive SlotPart where
  | begins
  | ends (others : List (BitVec 5))
  | whole (others : List (BitVec 5))
deriving DecidableEq, Repr

/-- Operands of SUBMIT (R180). -/
structure SubmitOps where
  channel : Byte
  cls     : Byte
  head    : BitVec 24
deriving DecidableEq, Repr

/-- Operands of RESUME (R180). -/
structure ResumeOps where
  channel : Byte
  cls     : Byte
deriving DecidableEq, Repr

/-- Operands of SET-WINDOW (R180). The sender set is the 4 bytes of R180's station set, the first byte most significant. -/
structure WindowOps where
  window    : Byte
  base      : BitVec 16
  length    : BitVec 16
  rights    : Byte
  senders   : BitVec 32
  singleUse : Byte
  gate      : Byte
deriving DecidableEq, Repr

/-- Operands of GATE (R180). -/
structure GateOps where
  window : Byte
  gate   : Byte
deriving DecidableEq, Repr

/-- The commands of the part, one for each row of spec/opcode_table.json. -/
inductive Instr where
  /-- HARDWARE_RESET (R186): the RESET pin is asserted; `made` says whether the access holding a grant is completed (R13). -/
  | hardwareReset (straps : BitVec 5) (made : Bool)
  /-- POWER_UP (R15): power is applied; `content` and `marks` are the arbitrary bytes and conditions the words then hold. -/
  | powerUp (straps : BitVec 5) (content : List Host.Cell) (marks : List (WordNo × Condition))
  /-- STORE_DISTURBANCE (R2): `bits` bits of one word are disturbed; where R2 leaves the result open, the check finds the
  word `found`; `raw` are its bytes where they may differ from those last written. -/
  | storeDisturbance (word : WordNo) (bits : Nat) (found : Condition) (raw : List Byte)
  /-- STORE_ACCESS_END (R16). -/
  | storeAccessEnd
  /-- ISSUE_TURN (R45). -/
  | issueTurn
  /-- REPLY_TAKE (R71). -/
  | replyTake
  /-- DEADLINE_PASS (R83), of the entry named. -/
  | deadlinePass (slot : Slot)
  /-- BUSY_BACKOFF_END (R76), of the target named. -/
  | busyBackoffEnd (target : Station)
  /-- REQUEST_TAKE (R95). -/
  | requestTake
  /-- FRAME_END (R127): the bytes received from the first of the frame to the last. -/
  | frameEnd (received : List Byte)
  /-- CLAIM_WINDOW_OPEN (R136). -/
  | claimWindowOpen
  /-- CLAIM_SLOT (R138), of the slot named. -/
  | claimSlot (slot : Fin 62) (part : SlotPart)
  /-- CLAIM_WINDOW_END (R137). -/
  | claimWindowEnd
  /-- TRANSMISSION_END (R140). -/
  | transmissionEnd
  /-- SELECT_ASSERT (R170), with the level of the clock (R168). -/
  | selectAssert (clockHigh : Bool)
  /-- SELECT_RELEASE (R169), with the number of bits clocked of an unfinished byte. -/
  | selectRelease (bits : Fin 8)
  /-- TRANSACTION_COMPLETE (R169). -/
  | transactionComplete
  /-- UNKNOWN_COMMAND (R171). -/
  | unknownCommand (code : Byte)
  /-- STATUS (R177). -/
  | status
  /-- STORE_READ (R173), with its 3-byte address. -/
  | storeRead (t : Taken (BitVec 24))
  /-- STORE_WRITE (R174), with its 3-byte address; its data bytes are STREAM_BYTEs and its release a SELECT_RELEASE. -/
  | storeWrite (t : Taken (BitVec 24))
  /-- TAKE_EVENT (R176). -/
  | takeEvent
  /-- TAKE_NOTICE (R119). -/
  | takeNotice
  /-- TAKE_CHANGES (R163). -/
  | takeChanges
  /-- SUBMIT (R38). -/
  | submit (t : Taken SubmitOps)
  /-- RESUME (R39). -/
  | resume (t : Taken ResumeOps)
  /-- ABORT (R60), with its channel byte. -/
  | abort (t : Taken Byte)
  /-- READ_CHANNEL (R177), with its channel byte. -/
  | readChannel (t : Taken Byte)
  /-- READ_PEER (R177), with its station byte. -/
  | readPeer (t : Taken Byte)
  /-- SET_WINDOW (R187). -/
  | setWindow (t : Taken WindowOps)
  /-- SET_LABEL (R187), with the 8 bytes of the label. -/
  | setLabel (t : Taken (List Byte))
  /-- SET_TIMING (R187), with its timing choice. -/
  | setTiming (t : Taken Byte)
  /-- SEAL (R188). -/
  | sealStation
  /-- GATE (R90). -/
  | gate (t : Taken GateOps)
  /-- MASK (R164), with its enables byte. -/
  | mask (t : Taken Byte)
  /-- LEAVE (R190). -/
  | leave
  /-- RESET_END (R186): the RESET pin is released. -/
  | resetEnd (straps : BitVec 5)
  /-- STREAM_BYTE (R173): the host clocks one byte of the STREAM state, or one byte of a record, or an operand byte before the last
  (R168, log 9); `data` is what it drives on data in. -/
  | streamByte (data : Byte)
deriving DecidableEq, Repr

/-- The host port's commands (R172). -/
inductive HostCode where
  | status | storeRead | storeWrite | takeEvent | takeNotice | takeChanges | submit | resume | abort
  | readChannel | readPeer | setWindow | setLabel | setTiming | sealStation | gate | mask | leave
deriving DecidableEq, Repr

end Sys2Proof
end

