-- ==== Sys2Proof/Decode.lean ====
section
/-! DEFINITION. The decoder: the table gives no row bits, so no word spells a command. Beside it, the byte form of the host
commands (R180): command byte and operand bytes, read and written. -/

namespace Sys2Proof

/-- The command that a word spells by the table's bits. No row of spec/opcode_table.json gives bits, so no word spells one. -/
def decodeTableWord (_nbits _w : Nat) : Option Instr := none

/-- The command byte of each host command (R180). -/
def codeByte : HostCode → Byte
  | .status => 0x00
  | .storeRead => 0x10
  | .storeWrite => 0x11
  | .takeEvent => 0x20
  | .takeNotice => 0x21
  | .takeChanges => 0x22
  | .submit => 0x30
  | .resume => 0x31
  | .abort => 0x32
  | .readChannel => 0x38
  | .readPeer => 0x39
  | .setWindow => 0x40
  | .setLabel => 0x41
  | .setTiming => 0x42
  | .sealStation => 0x4F
  | .gate => 0x50
  | .mask => 0x51
  | .leave => 0x5F

/-- Every host command, in the order of R180. -/
def hostCodes : List HostCode :=
  [.status, .storeRead, .storeWrite, .takeEvent, .takeNotice, .takeChanges, .submit, .resume, .abort,
   .readChannel, .readPeer, .setWindow, .setLabel, .setTiming, .sealStation, .gate, .mask, .leave]

/-- The host command of a command byte, if it is one of R180's codes. -/
def hostCodeOf (b : Byte) : Option HostCode := hostCodes.find? fun c => codeByte c = b

/-- How many operand bytes a host command takes before its decision point (R180; for STORE-WRITE, its address). -/
def operandCount : HostCode → Nat
  | .status | .takeEvent | .takeNotice | .takeChanges | .sealStation | .leave => 0
  | .storeRead | .storeWrite => 3
  | .submit => 5
  | .resume | .gate => 2
  | .abort | .readChannel | .readPeer | .setTiming | .mask => 1
  | .setWindow => 12
  | .setLabel => 8

/-- The two bytes of a 16-bit number, most significant first (R180). -/
def bytes16 (v : BitVec 16) : List Byte := [v.extractLsb' 8 8, v.extractLsb' 0 8]

/-- The three bytes of a 24-bit number, most significant first (R180). -/
def bytes24 (v : BitVec 24) : List Byte := [v.extractLsb' 16 8, v.extractLsb' 8 8, v.extractLsb' 0 8]

/-- The four bytes of a 32-bit number, most significant first (R180). -/
def bytes32 (v : BitVec 32) : List Byte :=
  [v.extractLsb' 24 8, v.extractLsb' 16 8, v.extractLsb' 8 8, v.extractLsb' 0 8]

/-- A command of one operand byte. -/
def one (f : Byte → Instr) : List Byte → Option Instr
  | [a] => some (f a)
  | _ => none

/-- A command of two operand bytes. -/
def two (f : Byte → Byte → Instr) : List Byte → Option Instr
  | [a, b] => some (f a b)
  | _ => none

/-- A command of a 3-byte number. -/
def three (f : BitVec 24 → Instr) : List Byte → Option Instr
  | [a, b, d] => some (f (a ++ b ++ d))
  | _ => none

/-- The operand bytes of SUBMIT: channel, class, head address (R180). -/
def submitOf : List Byte → Option Instr
  | [ch, cl, a, b, d] => some (.submit (.whole ⟨ch, cl, a ++ b ++ d⟩))
  | _ => none

/-- The operand bytes of SET-WINDOW: window, base page, length, rights, sender set, single-use, gate (R180). -/
def setWindowOf : List Byte → Option Instr
  | [w, b1, b0, l1, l0, r, s0, s1, s2, s3, u, g] =>
    some (.setWindow (.whole ⟨w, b1 ++ b0, l1 ++ l0, r, s0 ++ s1 ++ s2 ++ s3, u, g⟩))
  | _ => none

/-- Reads the operand bytes of a host command (R180): all of them, no more and no fewer. -/
def operandsOf (c : HostCode) (ops : List Byte) : Option Instr :=
  match c with
  | .status => if ops = [] then some .status else none
  | .storeRead => three (fun a => .storeRead (.whole a)) ops
  | .storeWrite => three (fun a => .storeWrite (.whole a)) ops
  | .takeEvent => if ops = [] then some .takeEvent else none
  | .takeNotice => if ops = [] then some .takeNotice else none
  | .takeChanges => if ops = [] then some .takeChanges else none
  | .submit => submitOf ops
  | .resume => two (fun ch cl => .resume (.whole ⟨ch, cl⟩)) ops
  | .abort => one (fun ch => .abort (.whole ch)) ops
  | .readChannel => one (fun ch => .readChannel (.whole ch)) ops
  | .readPeer => one (fun n => .readPeer (.whole n)) ops
  | .setWindow => setWindowOf ops
  | .setLabel => if ops.length = 8 then some (.setLabel (.whole ops)) else none
  | .setTiming => one (fun t => .setTiming (.whole t)) ops
  | .sealStation => if ops = [] then some .sealStation else none
  | .gate => two (fun w g => .gate (.whole ⟨w, g⟩)) ops
  | .mask => one (fun e => .mask (.whole e)) ops
  | .leave => if ops = [] then some .leave else none

/-- The host command that the bytes of a transaction up to its decision point make (R168, R180): the command byte and all
the operand bytes; a command byte that is no code is UNKNOWN at once (R171). -/
def hostCommandOf : List Byte → Option Instr
  | [] => none
  | b :: ops =>
    match hostCodeOf b with
    | none => if ops = [] then some (.unknownCommand b) else none
    | some c => operandsOf c ops

/-- The bytes of a host command with operands, taken whole; none for its command byte alone. -/
def wholeBytes {α : Type} (f : α → List Byte) : Taken α → Option (List Byte)
  | .code => none
  | .whole x => some (f x)

/-- The operand bytes of SET-WINDOW (R180). -/
def windowBytes (o : WindowOps) : List Byte :=
  [o.window] ++ bytes16 o.base ++ bytes16 o.length ++ [o.rights] ++ bytes32 o.senders ++ [o.singleUse, o.gate]

/-- The bytes the host clocks in for a command up to its decision point (R180); none for what is no whole host command. -/
def hostBytes (i : Instr) : Option (List Byte) :=
  match i with
  | .status => some [0x00]
  | .storeRead t => wholeBytes (fun a => [0x10] ++ bytes24 a) t
  | .storeWrite t => wholeBytes (fun a => [0x11] ++ bytes24 a) t
  | .takeEvent => some [0x20]
  | .takeNotice => some [0x21]
  | .takeChanges => some [0x22]
  | .submit t => wholeBytes (fun o => [0x30, o.channel, o.cls] ++ bytes24 o.head) t
  | .resume t => wholeBytes (fun o => [0x31, o.channel, o.cls]) t
  | .abort t => wholeBytes (fun ch => [0x32, ch]) t
  | .readChannel t => wholeBytes (fun ch => [0x38, ch]) t
  | .readPeer t => wholeBytes (fun n => [0x39, n]) t
  | .setWindow t => wholeBytes (fun o => [0x40] ++ windowBytes o) t
  | .setLabel t => wholeBytes (fun l => [0x41] ++ l) t
  | .setTiming t => wholeBytes (fun n => [0x42, n]) t
  | .sealStation => some [0x4F]
  | .gate t => wholeBytes (fun o => [0x50, o.window, o.gate]) t
  | .mask t => wholeBytes (fun e => [0x51, e]) t
  | .leave => some [0x5F]
  | .unknownCommand b => some [b]
  | .hardwareReset _ _ => none
  | .powerUp _ _ _ => none
  | .storeDisturbance _ _ _ _ => none
  | .storeAccessEnd => none
  | .issueTurn => none
  | .replyTake => none
  | .deadlinePass _ => none
  | .busyBackoffEnd _ => none
  | .requestTake => none
  | .frameEnd _ => none
  | .claimWindowOpen => none
  | .claimSlot _ _ => none
  | .claimWindowEnd => none
  | .transmissionEnd => none
  | .selectAssert _ => none
  | .selectRelease _ => none
  | .transactionComplete => none
  | .resetEnd _ => none
  | .streamByte _ => none

end Sys2Proof
end

