-- ==== Sys2Proof/Config.lean ====
section
/-! DEFINITION. What the manual leaves open and the model does not choose: opaque sources of free values. -/

namespace Sys2Proof.Config

/-- The n-th free byte: a byte of a matching reply that the reply should carry and does not (R71, log 14).
Nothing constrains it. -/
opaque freeByte : Nat → Byte

/-- The n-th free position: which of the positions past the end of its descriptor a channel's current line and offset take once
no segment is left to issue (R35, R48, R49, log 13). Nothing constrains it. -/
opaque freePosition : Nat → Nat

end Sys2Proof.Config
end

