-- ==== Sys2Proof/Machine/State.lean ====
section
/-! DEFINITION. The state of one ZS-531 station: plain data, every piece of state the manual names, block by block, and the
queue of commands that wait. -/

namespace Sys2Proof.Machine

/-! ## Outcomes -/

/-- Reasons to stop with a fault. The spec gives every command an effect, so there is none: no meaning raises one. -/
inductive Fault where
deriving DecidableEq, Repr

/-- Reasons to refuse a command. -/
inductive Refusal where
  /-- Raised by exec alone, for a command that has no meaning yet. Safe: the machine stops. No arm raises it. -/
  | notModelled (mnemonic : String)
deriving DecidableEq, Repr

/-! ## The page store and its arbiter (ST) -/

/-- The bytes of the store and the conditions of its words (R1, R2), each a list in canonical form: keys strictly rising,
no entry equal to what an unlisted key reads as (0x00, log 2; GOOD). The bytes are those the store reports after any
correction; those of an UNCORRECTABLE word are the bytes as they stand. -/
structure PageStore where
  cells      : List Host.Cell := []
  conditions : List (Nat × Condition) := []
deriving DecidableEq, Repr

/-- The three requesters of the store (R8). -/
inductive Requester where
  | hp | ce | su
deriving DecidableEq, Repr

/-- One word access (R1): a partial write changes the bytes from `first` on; a swap takes the upper or lower half. -/
inductive Access where
  | read (w : WordNo)
  | full (w : WordNo) (bytes : List Byte)
  | part (w : WordNo) (first : Nat) (bytes : List Byte)
  | swap (w : WordNo) (upper : Bool) (compare new : List Byte)
deriving DecidableEq, Repr

/-- What an access returns to its requester (R16). The bytes of a refused read are those that stand in the word (R3). -/
inductive StoreOutcome where
  | data (bytes : List Byte)
  | storeError (bytes : List Byte)
  | written
  | swapped (old : List Byte)
  | unchanged (old : List Byte)
deriving DecidableEq, Repr

/-- A range of bytes being read word by word (R12): what this access is to give (`skip` bytes of the word dropped, `take`
kept), where the next access starts, how many bytes are left after this one, and what has been read before it. -/
structure RangeRead where
  skip : Nat
  take : Nat
  next : Nat
  left : Nat
  got  : List Byte
deriving DecidableEq, Repr

/-- A range of bytes being written word by word (R12): the bytes left after this access and where they go, and whether a
partial write has been refused. -/
structure RangeWrite where
  next    : Nat
  rest    : List Byte
  refused : Bool
deriving DecidableEq, Repr

/-! ## Channels (CE) -/

/-- The states of a channel (R35). -/
inductive ChannelState where
  | idle | active | awaiting | held | draining | faulted
deriving DecidableEq, Repr

/-- The classes of a chain (R35). -/
inductive ChainClass where
  | urgent | normal | bulk
deriving DecidableEq, Repr

/-- The fault codes (R53, R158). -/
inductive FaultCode where
  | badDescriptor | storeError | peerAbsent | peerUnreachable | peerRestarted | peerLeft | notJoined
  | remoteDenied | remoteStoreError | remoteMalformed | targetBusy
deriving DecidableEq, Repr

/-- The kinds of event (R158). -/
inductive EventKind where
  | descriptorNotify | chainDone | chainFault | chainAborted
deriving DecidableEq, Repr

/-- An event record (R158). -/
structure Event where
  kind    : EventKind
  channel : ChannelNo
  code    : Option FaultCode
  address : Addr
  detail  : Nat
deriving DecidableEq, Repr

/-- A fault record (R35). -/
structure FaultRecord where
  code    : FaultCode
  address : Addr
  offset  : Nat
deriving DecidableEq, Repr

/-- The current descriptor: the 32 bytes taken at fetch and the address they came from (R23). -/
structure Current where
  address : Addr
  bytes   : List Byte
deriving DecidableEq, Repr

/-- What a SWAP reported (R35, R52). -/
inductive SwapResult where
  | swapped | unchanged
deriving DecidableEq, Repr

/-- A channel context record (R35). The field `allIssued` is the model's own: no segment of the current descriptor is left to
issue, so that `line` and `offset` name none (log 13). -/
structure Channel where
  state        : ChannelState := .idle
  cls          : ChainClass := .normal
  resume       : Option Addr := none
  current      : Option Current := none
  line         : Nat := 0
  offset       : Nat := 0
  issued       : Nat := 0
  completed    : Nat := 0
  allIssued    : Bool := false
  outstanding  : Nat := 0
  swapResult   : Option SwapResult := none
  fault        : Option FaultRecord := none
  pendingEvent : Option Event := none
deriving DecidableEq, Repr

/-- The work a channel engine access belongs to (R9). `dropped` is work that has been abandoned: the access is still made
and its outcome disregarded (R8). -/
inductive CeWork where
  | fetch (ch : ChannelNo) (address : Addr) (got : List Byte)
  | payload (r : RangeRead)
  | getWrite (ch : ChannelNo) (r : RangeWrite) (offset : Nat)
  | resultWrite (ch : ChannelNo)
  | valueWrite (ch : ChannelNo) (r : RangeWrite)
  | advanceLocal (ch : ChannelNo)
  | advanceRemote (ch : ChannelNo)
  | doneStatus (ch : ChannelNo)
  | faultStatus (ch : ChannelNo) (record : FaultRecord)
  | dropped
deriving DecidableEq, Repr

/-- The work a host port access belongs to (R9). -/
inductive HpWork where
  | stream
  | commit (r : RangeWrite)
  | dropped
deriving DecidableEq, Repr

/-- The work a service unit access belongs to (R9). -/
inductive SuWork where
  | write (r : RangeWrite)
  | read (r : RangeRead)
  | swap
deriving DecidableEq, Repr

/-- The store arbiter: the last grantee, the holder of the grant, and each requester's accesses in the order asked for; the
head of a list is the one that waits for or holds the grant (R8, R10). -/
structure Arbiter where
  last    : Requester := .su
  granted : Option Requester := none
  hp      : List (Access × HpWork) := []
  ce      : List (Access × CeWork) := []
  su      : List (Access × SuWork) := []
deriving DecidableEq, Repr

/-- A turn of the issue engine (R45): of a channel, with the target of the frame it builds, or of a resend. -/
inductive Turn where
  | channel (ch : ChannelNo) (target : Station)
  | resend (slot : Slot)
deriving DecidableEq, Repr

/-- The rotation pointers of the three classes (R47). -/
structure Rotation where
  urgent : ChannelNo := 0
  normal : ChannelNo := 0
  bulk   : ChannelNo := 0
deriving DecidableEq, Repr

/-- The channel engine (CE). -/
structure ChannelEngine where
  channels : Vector Channel 4 := Vector.replicate 4 {}
  rotation : Rotation := {}
  held     : List ChannelNo := []
  turn     : Option Turn := none
deriving DecidableEq, Repr

/-! ## Frames -/

/-- The request kinds (R124). -/
inductive RequestKind where
  | write | read | swap | notice
deriving DecidableEq, Repr

/-- The reply kinds (R124). -/
inductive ReplyKind where
  | ack | readData | swapReply | nak
deriving DecidableEq, Repr

/-- The kinds of frame, by class (R124). -/
inductive FrameKind where
  | presence
  | request (k : RequestKind)
  | reply (k : ReplyKind)
deriving DecidableEq, Repr

/-- The flags of a frame (R124). -/
structure FrameFlags where
  sync    : Bool := false
  final   : Bool := false
  hello   : Bool := false
  leaving : Bool := false
deriving DecidableEq, Repr

/-- A frame by its named fields (R124), without its check. -/
structure Frame where
  kind     : FrameKind
  flags    : FrameFlags
  sender   : Byte
  target   : Byte
  sequence : Byte
  address  : Addr
  length   : BitVec 16
  code     : Byte
  payload  : List Byte
deriving DecidableEq, Repr

/-! ## The request table (RT) and the peer table -/

/-- The state of a held entry, with the deadline of WAITING and the charge of REWIND (R63). -/
inductive EntryState where
  | queued
  | waiting (deadline : Nat)
  | rewind (charged : Bool)
deriving DecidableEq, Repr

/-- A held request table entry (R63). -/
structure Entry where
  channel  : ChannelNo
  orphan   : Bool
  kind     : RequestKind
  target   : Station
  sequence : Byte
  localAt  : Addr
  remoteAt : Addr
  length   : Nat
  tag      : BitVec 16
  offset   : Nat
  final    : Bool
  sync     : Bool
  tries    : Nat
  state    : EntryState
deriving DecidableEq, Repr

/-- The request table: sixteen entries and the order in which the held ones were taken (R63). -/
structure RequestTable where
  entries : Vector (Option Entry) 16 := Vector.replicate 16 none
  order   : List Slot := []
deriving DecidableEq, Repr

/-- The statuses of a station (R142). -/
inductive PeerStatus where
  | self | absent | present | unreachable
deriving DecidableEq, Repr

/-- The transmit part of a peer record (R64). -/
structure TransmitPart where
  nextSeq    : Byte := 0
  held       : Nat := 0
  syncNeeded : Bool := false
  backoff    : Option Nat := none
deriving DecidableEq, Repr

/-- The outcomes a reply cache record may hold (R92). -/
inductive CacheOutcome where
  | ack | readData
  | swapped (old : List Byte)
  | unchanged (old : List Byte)
  | denied | store | malformed
deriving DecidableEq, Repr

/-- A reply cache record; its outcome is filled in when the request's execution ends (R92, R99). -/
structure CacheRecord where
  sequence : Byte
  kind     : RequestKind
  outcome  : Option CacheOutcome
deriving DecidableEq, Repr

/-- The receive part of a peer record (R92). -/
structure ReceivePart where
  expected : Byte := 0
  cache    : List CacheRecord := []
deriving DecidableEq, Repr

/-- A peer record (R142). The label of the own record is the station's own, `HostPort.label` (R143). -/
structure Peer where
  status : PeerStatus := .absent
  label  : List Byte := List.replicate 8 0
  tx     : TransmitPart := {}
  rx     : ReceivePart := {}
deriving DecidableEq, Repr

/-! ## The service unit (SU) and the notice queue (NQ) -/

/-- The rights of an export window (R89). -/
structure Rights where
  read  : Bool := false
  write : Bool := false
  swap  : Bool := false
deriving DecidableEq, Repr

/-- An export window (R89). Bit n of the sender set is station n. -/
structure Window where
  base      : Nat := 0
  length    : Nat := 0
  rights    : Rights := {}
  senders   : BitVec 31 := 0
  singleUse : Bool := false
  isOpen    : Bool := false
deriving DecidableEq, Repr

/-- The request in execution (R95): the frame, its sender, and whether it is the fresh read of a duplicate (R100). -/
structure Execution where
  request   : Frame
  sender    : Station
  duplicate : Bool
deriving DecidableEq, Repr

/-- The service unit. -/
structure ServiceUnit where
  windows   : Vector Window 8 := Vector.replicate 8 {}
  execution : Option Execution := none
deriving DecidableEq, Repr

/-- A notice record (R113). -/
structure Notice where
  sender : Station
  tag    : BitVec 16
  value  : List Byte
deriving DecidableEq, Repr

/-- A waiter (R114): its filter is a station number, or 31 for any sender. -/
structure Waiter where
  channel : ChannelNo
  tag     : BitVec 16
  filter  : Byte
deriving DecidableEq, Repr

/-- The notice queue: records, oldest first, and waiters, earliest first (R113, R114). -/
structure NoticeQueue where
  records : List Notice := []
  waiters : List Waiter := []
deriving DecidableEq, Repr

/-! ## The station line unit (SL) -/

/-- A frame of the request queue with its entry (R134), and whether it is to be withdrawn if the station defers (R135). -/
structure QueuedFrame where
  slot      : Slot
  frame     : Frame
  withdrawn : Bool
deriving DecidableEq, Repr

/-- Which frame a claim commits (R138). -/
inductive Committed where
  | reply | presence | request
deriving DecidableEq, Repr

/-- The commitment of the line unit: none, a claim mark driven in a slot, or a frame being sent (R135, R139). -/
inductive Claim where
  | idle
  | marking (slot : Fin 62) (what : Committed)
  | sending (what : Committed)
deriving DecidableEq, Repr

/-- An open claim window as this station sees it: its own two slots, whether it takes part, and whether it has claimed
(R136, R138). -/
structure ClaimWindow where
  takesPart   : Bool
  replySlot   : Nat
  requestSlot : Nat
  claimed     : Bool
deriving DecidableEq, Repr

/-- The station line unit. -/
structure LineUnit where
  rotor        : Station := 0
  inRequests   : List Frame := []
  inReplies    : List Frame := []
  replyQueue   : List Frame := []
  requestQueue : List QueuedFrame := []
  holder       : Option Frame := none
  aside        : Option Frame := none
  window       : Option ClaimWindow := none
  claim        : Claim := .idle
  /-- The model's own: the bytes of the last frame sent (log 18). -/
  lastSent     : List Byte := []
deriving DecidableEq, Repr

/-! ## The event unit (EV) -/

/-- The event unit: the event queue, the two change sets and the three attention enables (R158, R161, R162, R164). -/
structure EventUnit where
  events       : List Event := []
  peerFlags    : BitVec 31 := 0
  windowFlags  : BitVec 8 := 0
  eventEnable  : Bool := false
  noticeEnable : Bool := false
  changeEnable : Bool := false
deriving DecidableEq, Repr

/-! ## The host port (HP) -/

/-- The phases of the part (R170, R186). -/
inductive Phase where
  | config | joining | running | leaving | detached
deriving DecidableEq, Repr

/-- The reasons of a refusal (R171). -/
inductive RefusalReason where
  | state | busy | range | length | sealed | unknown
deriving DecidableEq, Repr

/-- What a record-returning command has taken, which its completion or its release settles (R176): nothing, the event head
(unless it was NONE), the notice set apart, or the copied change sets. -/
inductive Took where
  | copy
  | event (removes : Bool)
  | notice (n : Option Notice)
  | changes (peers : BitVec 31) (windows : BitVec 8)
deriving DecidableEq, Repr

/-- A word in hand for a STORE-READ stream: its bytes and whether it returned STORE-ERROR (R173). -/
structure StreamWord where
  bytes : List Byte
  bad   : Bool
deriving DecidableEq, Repr

/-- A STORE-READ stream (R173): the address of the next byte, the word it comes from once it is in hand, the word requested
ahead once it is in hand, whether the first byte out of the word in hand is still to be shifted, and whether a byte of an
unreadable word has been shifted out in full. -/
structure ReadStream where
  position : Addr
  word     : Option StreamWord
  ahead    : Option StreamWord
  fresh    : Bool
  sawBad   : Bool
deriving DecidableEq, Repr

/-- The transaction in progress (R169): OPERANDS with the number of operand bytes still to come, OUTPUT with the bytes of the record
still to be shifted out; STREAM is `reading` or `writing`, the latter with its address and the number of data bytes taken (R174). -/
inductive Transaction where
  | idle
  | command
  | operands (c : HostCode) (left : Nat)
  | output (record : List Byte) (took : Took)
  | reading (r : ReadStream)
  | writing (start : Addr) (taken : Nat)
  | spent
deriving DecidableEq, Repr

/-- The data-out wire (R168): undriven, waiting for the first falling edge of the clock, or driven. -/
inductive DataOut where
  | undriven | awaitsEdge | driven
deriving DecidableEq, Repr

/-- The host port. -/
structure HostPort where
  phase      : Phase := .config
  txn        : Transaction := .idle
  buffer     : List Byte := []
  commit     : Bool := false
  refused    : Bool := false
  writeError : Bool := false
  readError  : Bool := false
  reason     : Option RefusalReason := none
  status     : Byte := 0
  label      : List Byte := List.replicate 8 0
  timing     : Fin 4 := 1
  sdo        : DataOut := .undriven
  /-- The model's own: the whole bytes shifted out since select was asserted (log 18). -/
  out        : List Byte := []
deriving DecidableEq, Repr

/-- The input pins whose level the part follows (R179): select asserted, RESET held low. -/
structure Pins where
  selected : Bool := false
  resetLow : Bool := false
deriving DecidableEq, Repr

/-! ## The whole station -/

/-- The peer table after hardware reset (R143): the record of the own number is SELF, every other ABSENT, all parts at their
reset values (R88, R92). Number 31 has no record. -/
def resetPeers (own : BitVec 5) : Vector Peer 31 :=
  Vector.ofFn fun p => if p.val = own.toNat then { status := .self } else {}

/-- One ZS-531 station. The fields `now`, `draws` and `pending` are the model's own: the clock in CLK periods (log 6), the
number of free values drawn (log 13, log 14), the commands that wait (log 20). -/
structure State where
  st      : PageStore
  arb     : Arbiter
  ce      : ChannelEngine
  rt      : RequestTable
  peers   : Vector Peer 31
  su      : ServiceUnit
  nq      : NoticeQueue
  sl      : LineUnit
  ev      : EventUnit
  hp      : HostPort
  own     : BitVec 5
  pins    : Pins
  now     : Nat
  draws   : Nat
  pending : List Instr
deriving DecidableEq, Repr

/-- The machine right after hardware reset, at the values of R13, R37, R88, R89, R92, R123, R141, R143, R167, R170, R171 and
R186. The store content and the straps, which no reset value fixes, are as log 1 says. -/
def State.reset : State where
  st := {}
  arb := {}
  ce := {}
  rt := {}
  peers := resetPeers 0
  su := {}
  nq := {}
  sl := {}
  ev := {}
  hp := {}
  own := 0
  pins := {}
  now := 0
  draws := 0
  pending := []

end Sys2Proof.Machine
end

