-- ==== Sys2Proof/Machine/Clock.lean ====
section
/-! DEFINITION. The passing of one CLK period (R179), which is what a step on an empty queue is (log 6). -/

namespace Sys2Proof.Machine

/-- One CLK period passes: the clock against which deadlines and backoffs are set (R69, R76) advances, and nothing else. -/
def tick (s : State) : State := { s with now := s.now + 1 }

end Sys2Proof.Machine
end

