-- ==== Sys2Proof/Machine/Bytes.lean ====
section
/-! DEFINITION. Byte order, the numbers of the layouts (R180) and the cyclic check of a frame (R126). -/

namespace Sys2Proof.Machine

/-- Byte `i` of a record; a record shorter than its layout reads as 0 there. -/
def byteAt (b : List Byte) (i : Nat) : Byte := b.getD i 0

/-- The 16-bit number at byte `i`, most significant byte first (R180). -/
def num16At (b : List Byte) (i : Nat) : BitVec 16 := byteAt b i ++ byteAt b (i + 1)

/-- The store address at byte `i`: the lower 17 bits of three bytes, the upper 7 ignored (R180). -/
def addrAt (b : List Byte) (i : Nat) : Addr := (byteAt b i ++ byteAt b (i + 1) ++ byteAt b (i + 2)).setWidth 17

/-- The bytes of a number, most significant first, in a field of two bytes (R180). -/
def nat16 (n : Nat) : List Byte := [BitVec.ofNat 8 (n / 256), BitVec.ofNat 8 n]

/-- The bytes of a number, most significant first, in a field of four bytes (R180). -/
def nat32 (n : Nat) : List Byte :=
  [BitVec.ofNat 8 (n / 16777216), BitVec.ofNat 8 (n / 65536), BitVec.ofNat 8 (n / 256), BitVec.ofNat 8 n]

/-- A store address as a 3-byte field, its upper 7 bits 0 (R180). -/
def addrBytes (a : Addr) : List Byte := [(a.extractLsb' 16 1).setWidth 8, a.extractLsb' 8 8, a.extractLsb' 0 8]

/-- A station set as 4 bytes, station 8i + n at bit n of byte i (R180). -/
def stationSetBytes (s : BitVec 31) : List Byte :=
  [s.extractLsb' 0 8, s.extractLsb' 8 8, s.extractLsb' 16 8, (s.extractLsb' 24 7).setWidth 8]

/-- The station set of the 4 operand bytes, the first byte most significant in the operand; bit 7 of the fourth byte is
unused (R180). -/
def stationSetOf (v : BitVec 32) : BitVec 31 :=
  (v.extractLsb' 0 8 ++ v.extractLsb' 8 8 ++ v.extractLsb' 16 8 ++ v.extractLsb' 24 8).setWidth 31

/-- A station number with a peer record, from a byte (R142). -/
def stationOf (b : Byte) : Option Station := if h : b.toNat < 31 then some ⟨b.toNat, h⟩ else none

/-- A station number as a byte. -/
def stationByte (p : Station) : Byte := BitVec.ofNat 8 p.val

/-- The generator of the frame check (R126). -/
def checkGenerator : BitVec 32 := 0x04C11DB7

/-- One bit of the check register's work (R126). -/
def checkShift (r : BitVec 32) : BitVec 32 := if r.msb then (r <<< 1) ^^^ checkGenerator else r <<< 1

/-- The check register after one byte, most significant bit first (R126). -/
def checkByte (r : BitVec 32) (b : Byte) : BitVec 32 :=
  checkShift (checkShift (checkShift (checkShift (checkShift (checkShift (checkShift (checkShift
    (r ^^^ (b.setWidth 32 <<< 24)))))))))

/-- The four check bytes of a header and payload: the register starts with all bits set, and its ones' complement is sent
most significant byte first (R126). -/
def frameCheck (body : List Byte) : List Byte := bytes32 (~~~ (body.foldl checkByte 0xFFFFFFFF))

end Sys2Proof.Machine
end

