-- ==== Sys2Proof/Machine/Store.lean ====
section
/-! DEFINITION. The page store (R1 to R7): sparse lists in canonical form, and the four kinds of word access. -/

namespace Sys2Proof.Machine

/-- What a sparse list holds at a key: its entry, or `d`. -/
def sparseGet {α : Type} (d : α) : List (Nat × α) → Nat → α
  | [], _ => d
  | (k, v) :: m, a => if k = a then v else sparseGet d m a

/-- Puts a value at a key and keeps the canonical form: keys rising, no entry equal to `d`. -/
def sparsePut {α : Type} [DecidableEq α] (d : α) (a : Nat) (v : α) : List (Nat × α) → List (Nat × α)
  | [] => if v = d then [] else [(a, v)]
  | (k, u) :: m =>
    if k < a then (k, u) :: sparsePut d a v m
    else if k = a then (if v = d then m else (a, v) :: m)
    else (if v = d then (k, u) :: m else (a, v) :: (k, u) :: m)

/-- The canonical form of a sparse list: keys strictly rising, below a bound, no entry equal to `d`. -/
def sparseWf {α : Type} [DecidableEq α] (d : α) (bound : Nat) (m : List (Nat × α)) : Bool :=
  decide ((m.map Prod.fst).Pairwise (· < ·)) && m.all fun e => decide (e.1 < bound) && decide (e.2 ≠ d)

/-- The canonical form of the store: bytes below 131,072, conditions of words below 16,384 (R1, R2). -/
def PageStore.wf (st : PageStore) : Bool :=
  sparseWf (0 : Byte) 131072 st.cells && sparseWf Condition.good 16384 st.conditions

/-- The byte stored at an address (R1); an unlisted one is 0x00 (log 2). -/
def storedByte (st : PageStore) (a : Nat) : Byte := sparseGet 0 st.cells a

/-- The condition of a word (R2). -/
def condition (st : PageStore) (w : WordNo) : Condition := sparseGet .good st.conditions w.toNat

/-- The 8 bytes of a word in address order (R1). -/
def wordBytes (st : PageStore) (w : WordNo) : List Byte :=
  (List.range 8).map fun k => storedByte st (8 * w.toNat + k)

/-- Gives a word its 8 bytes. -/
def putWord (st : PageStore) (w : WordNo) (bytes : List Byte) : PageStore :=
  { st with cells := (List.range 8).foldl (fun m k => sparsePut 0 (8 * w.toNat + k) (byteAt bytes k) m) st.cells }

/-- Gives a word its condition. -/
def setCondition (st : PageStore) (w : WordNo) (c : Condition) : PageStore :=
  { st with conditions := sparsePut .good w.toNat c st.conditions }

/-- Merges a run of bytes into the bytes of a word from `first` on (R5). -/
def mergeRun (old : List Byte) (first : Nat) (run : List Byte) : List Byte :=
  old.take first ++ run ++ old.drop (first + run.length)

/-- The 4-byte half of a word's bytes that a swap compares (R6). -/
def halfOf (upper : Bool) (bytes : List Byte) : List Byte := (bytes.drop (if upper then 4 else 0)).take 4

/-- A word read (R3). -/
def readAccess (st : PageStore) (w : WordNo) : PageStore × StoreOutcome :=
  match condition st w with
  | .uncorrectable => (st, .storeError (wordBytes st w))
  | _ => (setCondition st w .good, .data (wordBytes st w))

/-- A full-word write (R4). -/
def fullAccess (st : PageStore) (w : WordNo) (bytes : List Byte) : PageStore × StoreOutcome :=
  (setCondition (putWord st w bytes) w .good, .written)

/-- A partial-word write (R5). -/
def partAccess (st : PageStore) (w : WordNo) (first : Nat) (run : List Byte) : PageStore × StoreOutcome :=
  match condition st w with
  | .uncorrectable => (st, .storeError [])
  | _ => (setCondition (putWord st w (mergeRun (wordBytes st w) first run)) w .good, .written)

/-- A swap access (R6). -/
def swapAccess (st : PageStore) (w : WordNo) (upper : Bool) (compare new : List Byte) : PageStore × StoreOutcome :=
  match condition st w with
  | .uncorrectable => (st, .storeError [])
  | _ =>
    let old := halfOf upper (wordBytes st w)
    if old = compare then
      (setCondition (putWord st w (mergeRun (wordBytes st w) (if upper then 4 else 0) new)) w .good, .swapped old)
    else (setCondition st w .good, .unchanged old)

/-- One word access, from start to end, in one grant (R11). -/
def performAccess (st : PageStore) : Access → PageStore × StoreOutcome
  | .read w => readAccess st w
  | .full w bytes => fullAccess st w bytes
  | .part w first run => partAccess st w first run
  | .swap w upper compare new => swapAccess st w upper compare new

/-- The word that holds an address (R1). -/
def wordOf (a : Nat) : WordNo := BitVec.ofNat 14 (a / 8)

/-- The access that reads the first word of `left` bytes from address `a`, and the read it begins (R12). -/
def readPiece (a left : Nat) (got : List Byte) : Access × RangeRead :=
  let n := min (8 - a % 8) left
  (.read (wordOf a), { skip := a % 8, take := n, next := a + n, left := left - n, got := got })

/-- What a range read has in hand once the bytes of its present word have been returned (R12). -/
def RangeRead.inHand (r : RangeRead) (bytes : List Byte) : List Byte := r.got ++ (bytes.drop r.skip).take r.take

/-- The access that writes the first word of `bytes` from address `a`: a full-word write where it covers the word, a partial
one elsewhere, and the write it begins (R12). -/
def writePiece (a : Nat) (bytes : List Byte) (refused : Bool) : Access × RangeWrite :=
  let n := min (8 - a % 8) bytes.length
  (if n = 8 then .full (wordOf a) (bytes.take 8) else .part (wordOf a) (a % 8) (bytes.take n),
   { next := a + n, rest := bytes.drop n, refused := refused })

/-- The store with every byte at the content an outside cause leaves there (R15): the bytes of `content` that lie in the
store, 0x00 elsewhere; the conditions of `marks`, GOOD elsewhere. -/
def contentStore (content : List Host.Cell) (marks : List (WordNo × Condition)) : PageStore where
  cells := content.foldl (fun m c => if c.1 < 131072 then sparsePut 0 c.1 c.2 m else m) []
  conditions := marks.foldl (fun m c => sparsePut .good c.1.toNat c.2 m) []

/-- A disturbance of `bits` bits of a word (R2). One bit of a GOOD word leaves it CORRECTABLE and its reported bytes as they
were. One bit of a CORRECTABLE word, or two of a GOOD one, leave it UNCORRECTABLE with bytes of which nothing is stated.
Every other disturbance may leave the word in any condition, with bytes that may differ (log 4). -/
def disturb (st : PageStore) (w : WordNo) (bits : Nat) (found : Condition) (raw : List Byte) : PageStore :=
  match bits, condition st w with
  | 0, _ => st
  | 1, .good => setCondition st w .correctable
  | 1, .correctable => setCondition (putWord st w raw) w .uncorrectable
  | 2, .good => setCondition (putWord st w raw) w .uncorrectable
  | _, _ => setCondition (putWord st w raw) w found

end Sys2Proof.Machine
end

