-- ==== Sys2Proof/Machine/Operands.lean ====
section
/-! DEFINITION. Operands: the descriptor record and what its fields say (R17 to R28, R182), and the encodings of the host
commands' operands (R180). -/

namespace Sys2Proof.Machine

/-! ## Host command operands (R180) -/

/-- The channel a channel byte names, if any. -/
def channelOf (b : Byte) : Option ChannelNo := if h : b.toNat < 4 then some ⟨b.toNat, h⟩ else none

/-- The window a window byte names, if any. -/
def windowOf (b : Byte) : Option WindowNo := if h : b.toNat < 8 then some ⟨b.toNat, h⟩ else none

/-- The class of a class byte (R180). -/
def classOf (b : Byte) : Option ChainClass :=
  match b.toNat with
  | 0 => some .urgent
  | 1 => some .normal
  | 2 => some .bulk
  | _ => none

/-- The gate of a gate byte: whether it is OPEN (R180). -/
def gateOf (b : Byte) : Option Bool :=
  match b.toNat with
  | 0 => some false
  | 1 => some true
  | _ => none

/-- The timing choice of a timing byte (R180). -/
def timingOf (b : Byte) : Option (Fin 4) := if h : b.toNat < 4 then some ⟨b.toNat, h⟩ else none

/-- The reply timeout of a timing choice, in CLK periods of 1/16 µs: 200 µs, 800 µs, 3.2 ms, 12.8 ms (R82). -/
def timeoutOf (t : Fin 4) : Nat :=
  match t.val with
  | 0 => 3200
  | 1 => 12800
  | 2 => 51200
  | _ => 204800

/-- The rights of a rights byte; its other bits are ignored (R180). -/
def rightsOf (b : Byte) : Rights := { read := b.getLsbD 0, write := b.getLsbD 1, swap := b.getLsbD 2 }

/-! ## The descriptor (R17, R182) -/

/-- The operations of a descriptor (R17). -/
inductive Op where
  | put | get | swap | notice | await
deriving DecidableEq, Repr

/-- The named fields of a descriptor (R17, R182), less its status byte, which a channel never reads (R22). -/
structure Descriptor where
  next        : Addr
  op          : Option Op
  stop        : Bool
  notify      : Bool
  final       : Bool
  advLocal    : Bool
  advRemote   : Bool
  plane       : Bool
  keepValue   : Bool
  target      : Byte
  tag         : BitVec 16
  count       : Nat
  lines       : Nat
  localAt     : Addr
  remoteAt    : Addr
  localPitch  : Nat
  remotePitch : Nat
deriving DecidableEq, Repr

/-- The operation of an op byte (R182). -/
def opOf (b : Byte) : Option Op :=
  match b.toNat with
  | 1 => some .put
  | 2 => some .get
  | 3 => some .swap
  | 4 => some .notice
  | 5 => some .await
  | _ => none

/-- Reads the fields of a descriptor from its 32 bytes (R182). -/
def descriptorOf (b : List Byte) : Descriptor where
  next := addrAt b 0
  op := opOf (byteAt b 3)
  stop := (byteAt b 4).getLsbD 0
  notify := (byteAt b 4).getLsbD 1
  final := (byteAt b 4).getLsbD 2
  advLocal := (byteAt b 4).getLsbD 3
  advRemote := (byteAt b 4).getLsbD 4
  plane := (byteAt b 4).getLsbD 5
  keepValue := (byteAt b 4).getLsbD 6
  target := byteAt b 5
  tag := num16At b 6
  count := (num16At b 8).toNat
  lines := (num16At b 10).toNat
  localAt := addrAt b 12
  remoteAt := addrAt b 16
  localPitch := (num16At b 20).toNat
  remotePitch := (num16At b 22).toNat

/-- Whether an op moves a block: PUT or GET (R18). -/
def Op.isBlock : Op → Bool
  | .put | .get => true
  | _ => false

/-- Whether an op is a remote op: each sends at least one request frame (R18). -/
def Op.isRemote : Op → Bool
  | .await => false
  | _ => true

/-- Whether the PLANE part is present: the PLANE flag of a PUT or GET (R17). -/
def Descriptor.hasPlane (d : Descriptor) : Bool := d.plane && (d.op.any Op.isBlock)

/-- The number of lines: the lines field with the PLANE part, else 1 (R19). -/
def Descriptor.lineCount (d : Descriptor) : Nat := if d.hasPlane then d.lines else 1

/-- The local pitch in force. Without the PLANE part there is one line, and it is not read. -/
def Descriptor.localStep (d : Descriptor) : Nat := if d.hasPlane then d.localPitch else 0

/-- The remote pitch in force. -/
def Descriptor.remoteStep (d : Descriptor) : Nat := if d.hasPlane then d.remotePitch else 0

/-- Fetch check 4 (R24, R182): the target of a remote op is 0 to 30, that of an AWAIT 0 to 31, and not the own number. -/
def Descriptor.targetOk (d : Descriptor) (op : Op) (own : BitVec 5) : Bool :=
  d.target.toNat ≤ (if op.isRemote then 30 else 31) && d.target.toNat ≠ own.toNat

/-- Fetch check 5 (R24): count, and lines if PLANE, within the ranges of R17 and R18. -/
def Descriptor.countOk (d : Descriptor) (op : Op) : Bool :=
  match op with
  | .put | .get => 1 ≤ d.count && (!d.plane || (1 ≤ d.lines && d.lines ≤ 4096))
  | .swap => true
  | .notice => d.count = 4
  | .await => d.count = 4 || (d.count = 0 && !d.keepValue)

/-- The last byte of the local range, if the op has one (R25). The arithmetic is exact. -/
def Descriptor.localLast (d : Descriptor) (op : Op) : Option Nat :=
  match op with
  | .put | .get => some (d.localAt.toNat + (d.lineCount - 1) * d.localStep + d.count - 1)
  | .swap => some (d.localAt.toNat + 11)
  | .notice => some (d.localAt.toNat + 3)
  | .await => if d.keepValue then some (d.localAt.toNat + 3) else none

/-- The last byte of the remote range, if the op has one (R25). -/
def Descriptor.remoteLast (d : Descriptor) (op : Op) : Option Nat :=
  match op with
  | .put | .get => some (d.remoteAt.toNat + (d.lineCount - 1) * d.remoteStep + d.count - 1)
  | .swap => some (d.remoteAt.toNat + 3)
  | .notice | .await => none

/-- Fetch check 6 (R24, R25): every range ends at or below 0x1FFFF. -/
def Descriptor.rangesOk (d : Descriptor) (op : Op) : Bool :=
  (d.localLast op).all (· ≤ 0x1FFFF) && (d.remoteLast op).all (· ≤ 0x1FFFF)

/-- Fetch check 7 (R24): the addresses of a SWAP are multiples of 4. -/
def Descriptor.alignedOk (d : Descriptor) (op : Op) : Bool :=
  match op with
  | .swap => d.localAt.toNat % 4 = 0 && d.remoteAt.toNat % 4 = 0
  | _ => true

/-- Fetch checks 2 to 8 (R24): the fault of the first that fails, or none. -/
def Descriptor.check (d : Descriptor) (own : BitVec 5) (targetPresent : Bool) : Option FaultCode :=
  match d.op with
  | none => some .badDescriptor
  | some op =>
    if d.next.toNat % 32 = 0 && d.targetOk op own && d.countOk op && d.rangesOk op && d.alignedOk op then
      if op.isRemote && !targetPresent then some .peerAbsent else none
    else some .badDescriptor

/-! ## Segments (R27, R28) -/

/-- A segment of a PUT or GET, or the single step of a SWAP or NOTICE (R27): its first bytes on either side, its length, its
byte offset, and whether it is the last of the descriptor in issue order. -/
structure Segment where
  localAt  : Nat
  remoteAt : Nat
  length   : Nat
  offset   : Nat
  last     : Bool
deriving DecidableEq, Repr

/-- The segment that starts at a line and an offset within it: to the end of the remote page or of the line (R19, R27, R28).
The step of a SWAP or NOTICE has byte offset 0; its length is the frame's length field (R63). -/
def Descriptor.segmentAt (d : Descriptor) (line offset : Nat) : Segment :=
  match d.op with
  | some .swap => { localAt := d.localAt.toNat, remoteAt := d.remoteAt.toNat, length := 8, offset := 0, last := true }
  | some .notice => { localAt := d.localAt.toNat, remoteAt := 0, length := 6, offset := 0, last := true }
  | _ =>
    let remote := d.remoteAt.toNat + line * d.remoteStep + offset
    let length := min (256 - remote % 256) (d.count - offset)
    { localAt := d.localAt.toNat + line * d.localStep + offset, remoteAt := remote, length := length,
      offset := line * d.count + offset,
      last := decide (line + 1 = d.lineCount) && decide (offset + length = d.count) }

/-- The line and offset past a segment that is not the last one (R48): the next byte of the line, or the first of the next line. -/
def Descriptor.positionAfter (d : Descriptor) (line offset : Nat) : Nat × Nat :=
  match d.op with
  | some .put | some .get =>
    let length := (d.segmentAt line offset).length
    if offset + length < d.count then (line, offset + length) else (line + 1, 0)
  | _ => (line + 1, 0)

/-- The first position past the end of a descriptor (R48, R49), the positions within the ranges of R35 counted line by line:
offset 0 to 65534 of line 0, then of line 1, and so on. The step of a SWAP or NOTICE takes one position. -/
def Descriptor.pastEnd (d : Descriptor) : Nat := (d.lineCount - 1) * 65535 + if d.op.any Op.isBlock then d.count else 1

/-- The line and offset past the last segment (R48, R49): the position past the end of the descriptor that a free value `x`
picks, of those within the ranges of R35. A descriptor of 4,096 lines of 65,535 bytes leaves none there; the free value then picks
any within those ranges (log 13). -/
def Descriptor.endPosition (d : Descriptor) (x : Nat) : Nat × Nat :=
  let positions := 4096 * 65535
  let k := if d.pastEnd < positions then d.pastEnd + x % (positions - d.pastEnd) else x % positions
  (k / 65535, k % 65535)

/-- The request kind of a remote op's frames (R18, R27). -/
def Op.request : Op → Option RequestKind
  | .put => some .write
  | .get => some .read
  | .swap => some .swap
  | .notice => some .notice
  | .await => none

/-- The advanced local address (R31): modulo 2^17. -/
def Descriptor.advancedLocal (d : Descriptor) : Addr :=
  BitVec.ofNat 17 (d.localAt.toNat + if d.hasPlane then d.lines * d.localPitch else d.count)

/-- The advanced remote address (R31): modulo 2^17. -/
def Descriptor.advancedRemote (d : Descriptor) : Addr :=
  BitVec.ofNat 17 (d.remoteAt.toNat + if d.hasPlane then d.lines * d.remotePitch else d.count)

/-- How many payload bytes a request of a kind carries and reads from its own store, for an entry of a given length (R29,
R68): the data of a WRITE, the compare and new values of a SWAP, the value of a NOTICE; a READ none. -/
def payloadSize (k : RequestKind) (length : Nat) : Nat :=
  match k with
  | .write => length
  | .read => 0
  | .swap => 8
  | .notice => 4

/-! ## Codes (R182, R183) -/

/-- The number of a fault code (R182). -/
def faultByte : FaultCode → Byte
  | .badDescriptor => 0x01
  | .storeError => 0x02
  | .peerAbsent => 0x03
  | .peerUnreachable => 0x04
  | .peerRestarted => 0x05
  | .peerLeft => 0x06
  | .notJoined => 0x07
  | .remoteDenied => 0x08
  | .remoteStoreError => 0x09
  | .remoteMalformed => 0x0A
  | .targetBusy => 0x0B

/-- The faulted status byte of a fault code: 0x80 plus the code (R22). -/
def faultedStatus (c : FaultCode) : Byte := 0x80 + faultByte c

end Sys2Proof.Machine
end

