-- ==== Sys2Proof/Machine/Frames.lean ====
section
/-! DEFINITION. Frames on the line (R124 to R126, R183): their bytes, the check of a received frame, and the frames a ZS-531
builds (R68, R110, R125). -/

namespace Sys2Proof.Machine

/-- The kind nibble of a frame (R183). -/
def kindNibble : FrameKind → BitVec 4
  | .presence => 0x1
  | .request .write => 0x2
  | .request .read => 0x3
  | .request .swap => 0x4
  | .request .notice => 0x5
  | .reply .ack => 0x8
  | .reply .readData => 0x9
  | .reply .swapReply => 0xA
  | .reply .nak => 0xB

/-- The nine kinds (R124). -/
def frameKinds : List FrameKind :=
  [.presence, .request .write, .request .read, .request .swap, .request .notice,
   .reply .ack, .reply .readData, .reply .swapReply, .reply .nak]

/-- The kind of a nibble, if it is one of the nine (R183). -/
def kindOf (n : BitVec 4) : Option FrameKind := frameKinds.find? fun k => kindNibble k = n

/-- The flag nibble of a frame: bit 3 SYNC, bit 2 FINAL, bit 1 HELLO, bit 0 LEAVING (R183). -/
def flagNibble (f : FrameFlags) : BitVec 4 :=
  BitVec.ofBool f.sync ++ BitVec.ofBool f.final ++ BitVec.ofBool f.hello ++ BitVec.ofBool f.leaving

/-- The flags of a nibble (R183). -/
def flagsOf (n : BitVec 4) : FrameFlags :=
  { sync := n.getLsbD 3, final := n.getLsbD 2, hello := n.getLsbD 1, leaving := n.getLsbD 0 }

/-- The header of a frame, 10 bytes (R183). -/
def headerBytes (f : Frame) : List Byte :=
  [kindNibble f.kind ++ flagNibble f.flags, f.sender, f.target, f.sequence] ++ addrBytes f.address ++ bytes16 f.length ++ [f.code]

/-- The bytes of a frame as sent: header, payload, check (R124, R126). -/
def frameBytes (f : Frame) : List Byte :=
  headerBytes f ++ f.payload ++ frameCheck (headerBytes f ++ f.payload)

/-- Reads the header of a received frame over its payload, if its kind is one of the nine (R183). -/
def frameOf (header payload : List Byte) : Option Frame :=
  (kindOf ((byteAt header 0).extractLsb' 4 4)).map fun k =>
    { kind := k, flags := flagsOf ((byteAt header 0).extractLsb' 0 4), sender := byteAt header 1, target := byteAt header 2,
      sequence := byteAt header 3, address := addrAt header 4, length := num16At header 7, code := byteAt header 9,
      payload := payload }

/-- What the line unit makes of a frame it has received whole (R127, R183): a failed frame, a good frame of no known kind, or a
good frame. -/
inductive Received where
  | failed
  | unknownKind (sender : Station)
  | good (sender : Station) (f : Frame)
deriving DecidableEq, Repr

/-- The check of a received frame (R126, R127): at least 14 bytes, at most 256 of payload, the check equal, and the sender at
most 30 (R183). -/
def receiveBytes (b : List Byte) : Received :=
  let body := b.take (b.length - 4)
  if b.length < 14 || 270 < b.length || frameCheck body ≠ b.drop (b.length - 4) then .failed
  else
    match stationOf (byteAt body 1) with
    | none => .failed
    | some p =>
      match frameOf (body.take 10) (body.drop 10) with
      | none => .unknownKind p
      | some f => .good p f

/-! ## Reply codes (R183) -/

/-- The codes of a NAK (R124, R183). -/
inductive NakCode where
  | denied | store | sequence | busy | notJoined | malformed
deriving DecidableEq, Repr

/-- The number of a NAK code (R183). -/
def nakByte : NakCode → Byte
  | .denied => 0x01
  | .store => 0x02
  | .sequence => 0x03
  | .busy => 0x04
  | .notJoined => 0x05
  | .malformed => 0x06

/-- The NAK code of a number (R183). -/
def nakOf (b : Byte) : Option NakCode :=
  match b.toNat with
  | 1 => some .denied
  | 2 => some .store
  | 3 => some .sequence
  | 4 => some .busy
  | 5 => some .notJoined
  | 6 => some .malformed
  | _ => none

/-- The code SWAPPED or UNCHANGED (R183). -/
def swapByte : SwapResult → Byte
  | .swapped => 0x10
  | .unchanged => 0x11

/-- The result a SWAP-REPLY code reports (R71, R183). -/
def swapOf (b : Byte) : Option SwapResult :=
  match b.toNat with
  | 16 => some .swapped
  | 17 => some .unchanged
  | _ => none

/-! ## The frames a ZS-531 builds -/

/-- The own station number as a frame's sender byte. -/
def ownByte (own : BitVec 5) : Byte := own.setWidth 8

/-- A presence frame (R125, R135): HELLO, LEAVING or unmarked. -/
def presenceFrame (own : BitVec 5) (label : List Byte) (hello leaving : Bool) : Frame where
  kind := .presence
  flags := { hello := hello, leaving := leaving }
  sender := ownByte own
  target := 31
  sequence := 0
  address := 0
  length := 8
  code := 0
  payload := label

/-- The frame of an entry (R68): `read` is what was read from the local store for it. A NOTICE carries its tag first. -/
def requestFrame (own : BitVec 5) (e : Entry) (read : List Byte) : Frame where
  kind := .request e.kind
  flags := { sync := e.sync, final := decide (e.kind = .write) && e.final }
  sender := ownByte own
  target := stationByte e.target
  sequence := e.sequence
  address := e.remoteAt
  length := BitVec.ofNat 16 e.length
  code := 0
  payload := if e.kind = .notice then bytes16 e.tag ++ read else read

/-- The answers of the service unit (R110). -/
inductive Answer where
  | ack
  | readData (bytes : List Byte)
  | swapReply (r : SwapResult) (old : List Byte)
  | nak (c : NakCode)
deriving DecidableEq, Repr

/-- The reply frame of an answer to a request (R110). -/
def replyFrame (own : BitVec 5) (req : Frame) (a : Answer) : Frame :=
  let base : Frame :=
    { kind := .reply .ack, flags := {}, sender := ownByte own, target := req.sender, sequence := req.sequence,
      address := req.address, length := 0, code := 0, payload := [] }
  match a with
  | .ack => base
  | .readData bytes => { base with kind := .reply .readData, length := req.length, payload := bytes }
  | .swapReply r old => { base with kind := .reply .swapReply, length := 4, code := swapByte r, payload := old }
  | .nak c => { base with kind := .reply .nak, code := nakByte c }

/-- The answer a cache record gives, but for a READ-DATA record, which is read afresh (R100). -/
def cachedAnswer : CacheOutcome → Option Answer
  | .ack => some .ack
  | .readData => none
  | .swapped old => some (.swapReply .swapped old)
  | .unchanged old => some (.swapReply .unchanged old)
  | .denied => some (.nak .denied)
  | .store => some (.nak .store)
  | .malformed => some (.nak .malformed)

end Sys2Proof.Machine
end

