-- ==== Sys2Proof/Machine/Flags.lean ====
section
/-! DEFINITION. Flags: the attention condition (R165), the change flags (R154, R161, R162), the status byte (R170, R181) and the
enables byte (R164, R180). -/

namespace Sys2Proof.Machine

/-- The attention condition, which ATTN follows (R165). -/
def attention (s : State) : Bool :=
  (!s.ev.events.isEmpty && s.ev.eventEnable)
    || (!s.nq.records.isEmpty && s.ev.noticeEnable)
    || ((decide (s.ev.peerFlags ≠ 0) || decide (s.ev.windowFlags ≠ 0)) && s.ev.changeEnable)

/-- The number of a phase (R181). -/
def phaseBits : Phase → BitVec 3
  | .config => 0
  | .joining => 1
  | .running => 2
  | .leaving => 3
  | .detached => 4

/-- The number of a refusal reason, 0 for none (R181). -/
def reasonByte : Option RefusalReason → Byte
  | none => 0
  | some .state => 1
  | some .busy => 2
  | some .range => 3
  | some .length => 4
  | some .sealed => 5
  | some .unknown => 6

/-- The status byte as the port composes it (R170, R181). -/
def statusByte (s : State) : Byte :=
  BitVec.ofBool (attention s) ++ BitVec.ofBool s.hp.readError ++ BitVec.ofBool s.hp.writeError
    ++ BitVec.ofBool s.hp.refused ++ BitVec.ofBool s.hp.commit ++ phaseBits s.hp.phase

/-- The attention enables as the MASK operand (R180, R181). Bits 7-3, of which R180 says only that they are ignored in the operand, are
0: DESIGN CHOICE (log 31). -/
def enablesByte (e : EventUnit) : Byte :=
  0#5 ++ BitVec.ofBool e.changeEnable ++ BitVec.ofBool e.noticeEnable ++ BitVec.ofBool e.eventEnable

/-- Sets the flag of a station in the peer change set (R154, R161). -/
def flagPeer (p : Station) (s : State) : State :=
  { s with ev := { s.ev with peerFlags := s.ev.peerFlags ||| (1#31 <<< p.val) } }

/-- Sets the flag of a window in the window change set (R162). -/
def flagWindow (w : WindowNo) (s : State) : State :=
  { s with ev := { s.ev with windowFlags := s.ev.windowFlags ||| (1#8 <<< w.val) } }

/-- How many flags of a station set are set (R180). -/
def flagCount (f : BitVec 31) : Nat := (List.range 31).countP fun i => f.getLsbD i

end Sys2Proof.Machine
end

