-- ==== Sys2Proof/Machine/Records.lean ====
section
/-! DEFINITION. The records the host port shifts out (R177, R181, R184, R185). -/

namespace Sys2Proof.Machine

/-- The number of an event kind (R184). -/
def eventKindByte : EventKind → Byte
  | .descriptorNotify => 1
  | .chainDone => 2
  | .chainFault => 3
  | .chainAborted => 4

/-- The number of an optional fault code, 0 for none. -/
def codeByteOf (c : Option FaultCode) : Byte := (c.map faultByte).getD 0

/-- An 8-byte event record (R184): kind and channel, code, descriptor address divided by 32, detail. Bits 3-2 of byte 0, which no
layout names, are 0: DESIGN CHOICE (log 31). -/
def eventRecord (e : Event) : List Byte :=
  [(eventKindByte e.kind <<< 4) ||| BitVec.ofNat 8 e.channel.val, codeByteOf e.code]
    ++ nat16 (e.address.toNat / 32) ++ nat32 e.detail

/-- An 8-byte notice record (R184). -/
def noticeRecord (n : Notice) : List Byte := [1, stationByte n.sender] ++ bytes16 n.tag ++ n.value

/-- A record of kind NONE (R184). -/
def noneRecord : List Byte := List.replicate 8 0

/-- The number of a channel state (R185). -/
def channelStateByte : ChannelState → Byte
  | .idle => 0
  | .active => 1
  | .awaiting => 2
  | .held => 3
  | .draining => 4
  | .faulted => 5

/-- The number of a class (R180, R185). -/
def classByte : ChainClass → Byte
  | .urgent => 0
  | .normal => 1
  | .bulk => 2

/-- The number of a peer status (R185). -/
def peerStatusByte : PeerStatus → Byte
  | .absent => 0
  | .present => 1
  | .unreachable => 2
  | .self => 3

/-- The presence marks of a channel record (R185). Bits 7-4, which no layout names, are 0: DESIGN CHOICE (log 31). -/
def presenceMarks (c : Channel) : Byte :=
  0#4 ++ BitVec.ofBool c.pendingEvent.isSome ++ BitVec.ofBool c.fault.isSome
    ++ BitVec.ofBool c.current.isSome ++ BitVec.ofBool c.resume.isSome

/-- An optional store address, zeros when absent (R177). -/
def addrBytes? (a : Option Addr) : List Byte := addrBytes (a.getD 0)

/-- The 64-byte channel record (R185). A part that is absent reads as zeros (R177). -/
def channelRecord (c : Channel) : List Byte :=
  [channelStateByte c.state, classByte c.cls, presenceMarks c, BitVec.ofNat 8 c.outstanding]
    ++ addrBytes? c.resume ++ addrBytes? (c.current.map Current.address)
    ++ nat16 c.line ++ nat16 c.offset ++ nat32 c.issued ++ nat32 c.completed
    ++ [codeByteOf (c.fault.map FaultRecord.code), (c.pendingEvent.map fun e => eventKindByte e.kind).getD 0]
    ++ addrBytes? (c.fault.map FaultRecord.address)
    ++ [(c.swapResult.map swapByte).getD 0]
    ++ nat32 ((c.fault.map FaultRecord.offset).getD 0)
    ++ (c.current.map Current.bytes).getD (List.replicate 32 0)

/-- The label a peer record shows: the own record shows the station's own label (R143). -/
def shownLabel (s : State) (p : Station) : List Byte :=
  if p.val = s.own.toNat then s.hp.label else (s.peers.get p).label

/-- The 16-byte peer record of a station (R185). Bits 7-3 of byte 1, which no layout names, are 0: DESIGN CHOICE (log 31). -/
def peerRecord (s : State) (p : Station) : List Byte :=
  let r := s.peers.get p
  [peerStatusByte r.status,
   0#5 ++ BitVec.ofBool (s.ev.peerFlags.getLsbD p.val) ++ BitVec.ofBool r.tx.backoff.isSome ++ BitVec.ofBool r.tx.syncNeeded,
   r.tx.nextSeq, BitVec.ofNat 8 r.tx.held, r.rx.expected, 0, 0, 0]
    ++ shownLabel s p

/-- The number of held request table entries, orphans included (R177). -/
def tableOccupancy (s : State) : Nat := (List.finRange 16).countP fun i => (s.rt.entries.get i).isSome

/-- The 8-byte output of STATUS (R177, R181); for bits 7-3 of byte 6 see enablesByte (log 31). -/
def statusRecord (s : State) : List Byte :=
  [(phaseBits s.hp.phase).setWidth 8, reasonByte s.hp.reason, BitVec.ofNat 8 s.ev.events.length,
   BitVec.ofNat 8 s.nq.records.length, BitVec.ofNat 8 (tableOccupancy s), ownByte s.own, enablesByte s.ev,
   BitVec.ofNat 8 s.hp.timing.val]

/-- The 6 bytes of TAKE-CHANGES (R163, R180). That bit 7 of byte 3, which R180 calls unused, is 0 is DEDUCED (log 31). -/
def changesRecord (peers : BitVec 31) (windows : BitVec 8) : List Byte :=
  stationSetBytes peers ++ [BitVec.ofNat 8 (flagCount peers), windows]

end Sys2Proof.Machine
end

