-- ==== Sys2Proof/Machine/Ops.lean ====
section
/-! DEFINITION. The named operations over the state: reading and writing its records, asking for the store and granting it (R8,
R10), loading the presence holder (R135), and what closes every happening. -/

namespace Sys2Proof.Machine

/-! ## Records -/

/-- A channel's context record (R35). -/
def State.channel (s : State) (ch : ChannelNo) : Channel := s.ce.channels.get ch

/-- Replaces a channel's context record. -/
def setChannel (ch : ChannelNo) (c : Channel) (s : State) : State :=
  { s with ce := { s.ce with channels := s.ce.channels.set ch.val c ch.isLt } }

/-- Changes a channel's context record. -/
def modChannel (ch : ChannelNo) (f : Channel → Channel) (s : State) : State := setChannel ch (f (s.channel ch)) s

/-- Replaces the held list (R58). -/
def setHeld (held : List ChannelNo) (s : State) : State := { s with ce := { s.ce with held := held } }

/-- Replaces the turn in progress (R45). -/
def setTurn (t : Option Turn) (s : State) : State := { s with ce := { s.ce with turn := t } }

/-- A peer record (R142). -/
def State.peer (s : State) (p : Station) : Peer := s.peers.get p

/-- Replaces a peer record. -/
def setPeer (p : Station) (r : Peer) (s : State) : State := { s with peers := s.peers.set p.val r p.isLt }

/-- Changes the transmit part of a peer record (R64). -/
def modTx (p : Station) (f : TransmitPart → TransmitPart) (s : State) : State :=
  setPeer p { s.peer p with tx := f (s.peer p).tx } s

/-- Changes the receive part of a peer record (R92). -/
def modRx (p : Station) (f : ReceivePart → ReceivePart) (s : State) : State :=
  setPeer p { s.peer p with rx := f (s.peer p).rx } s

/-- Changes the status of a station (R142). -/
def setStatus (p : Station) (v : PeerStatus) (s : State) : State := setPeer p { s.peer p with status := v } s

/-- A request table entry, if it is held (R63). -/
def State.entry (s : State) (i : Slot) : Option Entry := s.rt.entries.get i

/-- Replaces a request table entry. -/
def setEntry (i : Slot) (e : Option Entry) (s : State) : State :=
  { s with rt := { s.rt with entries := s.rt.entries.set i.val e i.isLt } }

/-- Replaces the order of taking (R63). -/
def setOrder (order : List Slot) (s : State) : State := { s with rt := { s.rt with order := order } }

/-- Changes the line unit. -/
def modLine (f : LineUnit → LineUnit) (s : State) : State := { s with sl := f s.sl }

/-- Changes the host port. -/
def modPort (f : HostPort → HostPort) (s : State) : State := { s with hp := f s.hp }

/-- Changes the notice queue. -/
def modNotices (f : NoticeQueue → NoticeQueue) (s : State) : State := { s with nq := f s.nq }

/-- Changes the service unit. -/
def modService (f : ServiceUnit → ServiceUnit) (s : State) : State := { s with su := f s.su }

/-- Adds an event record at the tail of the queue (R159). -/
def pushEvent (e : Event) (s : State) : State := { s with ev := { s.ev with events := s.ev.events ++ [e] } }

/-! ## The store arbiter -/

/-- The channel engine asks for an access (R8). -/
def askCe (a : Access) (w : CeWork) (s : State) : State := { s with arb := { s.arb with ce := s.arb.ce ++ [(a, w)] } }

/-- The host port asks for an access (R8). -/
def askHp (a : Access) (w : HpWork) (s : State) : State := { s with arb := { s.arb with hp := s.arb.hp ++ [(a, w)] } }

/-- The service unit asks for an access (R8). -/
def askSu (a : Access) (w : SuWork) (s : State) : State := { s with arb := { s.arb with su := s.arb.su ++ [(a, w)] } }

/-- Abandons the channel engine's accesses whose work a test picks out: they are still made, and their outcomes disregarded
(R8). That an access asked for which still waits behind another of the channel engine counts as requested, and so is made, is
the model's choice (log 24). -/
def dropCe (test : CeWork → Bool) (s : State) : State :=
  { s with arb := { s.arb with ce := s.arb.ce.map fun j => if test j.2 then (j.1, .dropped) else j } }

/-- Abandons the host port's accesses of a STORE-READ stream (R173). -/
def dropStream (s : State) : State :=
  { s with arb := { s.arb with hp := s.arb.hp.map fun j => if j.2 = .stream then (j.1, .dropped) else j } }

/-- Whether a requester waits for the store (R8). -/
def waits (a : Arbiter) : Requester → Bool
  | .hp => !a.hp.isEmpty
  | .ce => !a.ce.isEmpty
  | .su => !a.su.isEmpty

/-- The order of preference for the grant after each last grantee (R10). -/
def preference : Requester → List Requester
  | .hp => [.ce, .su, .hp]
  | .ce => [.su, .hp, .ce]
  | .su => [.hp, .ce, .su]

/-- Grants the free store to the first waiting requester after the last grantee (R10). -/
def grantNext (s : State) : State :=
  match s.arb.granted with
  | some _ => s
  | none =>
    match (preference s.arb.last).find? (waits s.arb) with
    | none => s
    | some r => { s with arb := { s.arb with granted := some r, last := r } }

/-- The partial-word write of one byte (R22). -/
def byteWrite (a : Nat) (b : Byte) : Access := .part (wordOf a) (a % 8) [b]

/-! ## The presence holder -/

/-- Whether the claim commits, or sends, the presence frame (R135). -/
def presenceCommitted (sl : LineUnit) : Bool :=
  match sl.claim with
  | .marking _ .presence | .sending .presence => true
  | _ => false

/-- Whether the claim commits, or sends, the head of the request queue (R135). -/
def requestCommitted (sl : LineUnit) : Bool :=
  match sl.claim with
  | .marking _ .request | .sending .request => true
  | _ => false

/-- The load of a LEAVING frame (R135): loaded into an empty holder; kept aside behind a committed frame; it replaces a frame
that is not committed, unless that is a HELLO. -/
def loadLeavingFrame (own : BitVec 5) (label : List Byte) (sl : LineUnit) : LineUnit :=
  let frame := presenceFrame own label false true
  match sl.holder with
  | none => { sl with holder := some frame }
  | some f =>
    if presenceCommitted sl then { sl with aside := some frame }
    else if f.flags.hello then sl
    else { sl with holder := some frame }

/-- What a frame kept aside does when the commitment ends (R135). -/
def loadAside (sl : LineUnit) : LineUnit :=
  match sl.aside with
  | none => sl
  | some l =>
    match sl.holder with
    | none => { sl with holder := some l, aside := none }
    | some f => if f.flags.hello then { sl with aside := none } else { sl with holder := some l, aside := none }

/-- Loads an unmarked presence frame when the membership unit is asked to (R150): in RUNNING and LEAVING, into an empty holder;
dropped otherwise. -/
def askPresence (s : State) : State :=
  if (s.hp.phase = .running ∨ s.hp.phase = .leaving) ∧ s.sl.holder = none then
    modLine (fun sl => { sl with holder := some (presenceFrame s.own s.hp.label false false) }) s
  else s

/-- Whether the request table holds no entry (R190). -/
def tableEmpty (s : State) : Bool := (List.finRange 16).all fun i => (s.entry i).isNone

/-- Whether the LEAVING frame has been loaded already: it is in the holder or kept aside. -/
def leavingLoaded (sl : LineUnit) : Bool := sl.aside.isSome || (sl.holder.any fun f => f.flags.leaving)

/-- Loads the LEAVING presence frame in the first happening in LEAVING in which the request table holds no entry (R190). -/
def loadLeaving (s : State) : State :=
  if s.hp.phase = .leaving ∧ tableEmpty s ∧ leavingLoaded s.sl = false then
    modLine (loadLeavingFrame s.own s.hp.label) s
  else s

/-! ## Happenings -/

/-- What closes every happening: the LEAVING frame is loaded if it is due (R190), and the free store is granted (R10). -/
def settle (s : State) : State := grantNext (loadLeaving s)

/-- One happening (00, Conventions). While RESET is held low the part does nothing (R186, log 8). -/
def happening (f : State → State) (s : State) : Host.Outcome State Fault Refusal :=
  .next (if s.pins.resetLow then s else settle (f s))

end Sys2Proof.Machine
end

