-- ==== Sys2Proof/Machine/Channels.lean ====
section
/-! DEFINITION. What a channel does: fetching, posting events, draining and faulting, completing a descriptor, receiving a
notice (R22, R23, R30 to R33, R41, R42, R44, R50 to R62). -/

namespace Sys2Proof.Machine

/-- The current descriptor of a channel, by its fields. -/
def Channel.descriptor (c : Channel) : Option Descriptor := c.current.map fun d => descriptorOf d.bytes

/-- The address of the current descriptor. A channel that asks for it holds one. -/
def Channel.address (c : Channel) : Addr := (c.current.map Current.address).getD 0

/-- Whether a channel has unissued segments of a descriptor (R27, R48); an AWAIT has none. -/
def Channel.unissued (c : Channel) (d : Descriptor) : Bool := d.op.any Op.isRemote && !c.allIssued

/-- A channel with no progress: a fetch sets all of it to 0 (R35, R41). -/
def Channel.restarted (c : Channel) : Channel :=
  { c with line := 0, offset := 0, issued := 0, completed := 0, allIssued := false, swapResult := none }

/-- A channel with no descriptor in hand and no progress (R38 to R40, R60). -/
def Channel.cleared (c : Channel) : Channel := { c.restarted with current := none }

/-- The channel a piece of work belongs to; a payload read belongs to the turn in progress. -/
def CeWork.owner : CeWork → Option ChannelNo
  | .fetch ch _ _ | .getWrite ch _ _ | .resultWrite ch | .valueWrite ch _ | .advanceLocal ch | .advanceRemote ch
  | .doneStatus ch | .faultStatus ch _ => some ch
  | .payload _ | .dropped => none

/-- Whether a piece of work is a payload read (R29, R79). -/
def CeWork.isPayload : CeWork → Bool
  | .payload _ => true
  | _ => false

/-- Whether a data or result-slot write of a channel is under way (R54, R56). -/
def writeUnderWay (s : State) (ch : ChannelNo) : Bool :=
  s.arb.ce.any fun j =>
    match j.2 with
    | .getWrite c _ _ | .resultWrite c => c = ch
    | _ => false

/-! ## Fetching and posting -/

/-- Begins the fetch of the descriptor at the resume address (R23, R41). The progress is 0 from the beginning of the fetch on
(R35, log 29). -/
def startFetch (ch : ChannelNo) (s : State) : State :=
  match (s.channel ch).resume with
  | none => s
  | some a => askCe (.read (wordOf a.toNat)) (.fetch ch a []) (modChannel ch Channel.restarted s)

/-- Completion step 3 (R32): the resume address becomes the next field, and the current descriptor is gone (R35). -/
def stepPast (c : Channel) : Channel :=
  { c with resume := (c.descriptor.map Descriptor.next).or c.resume, current := none, swapResult := none }

/-- Completion steps 3 and 4 without STOP (R32): the next descriptor is fetched. -/
def moveOn (ch : ChannelNo) (s : State) : State :=
  startFetch ch (modChannel ch (fun c => { stepPast c with state := .active }) s)

/-- What a channel does once its event is posted (R58). -/
def afterPost (ch : ChannelNo) (k : EventKind) (s : State) : State :=
  match k with
  | .descriptorNotify => moveOn ch s
  | .chainDone => modChannel ch (fun c => { c with state := .idle }) s
  | .chainFault => modChannel ch (fun c => { c with state := .faulted }) s
  | .chainAborted => s

/-- A channel offers an event (R58, R159): it is added if the queue holds fewer than 32 records; otherwise the channel becomes
HELD at the end of the held list with the event pending. -/
def offerEvent (ch : ChannelNo) (e : Event) (s : State) : State :=
  if s.ev.events.length < 32 then afterPost ch e.kind (pushEvent e s)
  else setHeld (s.ce.held ++ [ch]) (modChannel ch (fun c => { c with state := .held, pendingEvent := some e }) s)

/-- The head of the held list posts into the place that a taken event has freed (R59, R160). -/
def postHeld (s : State) : State :=
  match s.ce.held with
  | [] => s
  | ch :: rest =>
    match (s.channel ch).pendingEvent with
    | none => s
    | some e => afterPost ch e.kind (pushEvent e (setHeld rest (modChannel ch (fun c => { c with pendingEvent := none }) s)))

/-! ## Faults -/

/-- Posts CHAIN-FAULT for a fault record (R42, R56). -/
def reportFault (ch : ChannelNo) (r : FaultRecord) (s : State) : State :=
  offerEvent ch { kind := .chainFault, channel := ch, code := some r.code, address := r.address, detail := r.offset }
    (modChannel ch (fun c => { c with fault := some r }) s)

/-- Asks for the status write that a fault report makes first: byte 31 of the descriptor, 0x80 plus the code (R22, R182). -/
def askFaultStatus (ch : ChannelNo) (r : FaultRecord) (s : State) : State :=
  askCe (byteWrite (r.address.toNat + 31) (faultedStatus r.code)) (.faultStatus ch r) s

/-- A fetch or a check has failed (R26, R42): the fault record is formed at byte offset 0, and no descriptor is kept. The progress
is 0, as after each fetch (R35). -/
def failFetch (ch : ChannelNo) (a : Addr) (code : FaultCode) (s : State) : State :=
  askFaultStatus ch ⟨code, a, 0⟩ (modChannel ch (fun c => { c.cleared with fault := some ⟨code, a, 0⟩ }) s)

/-- Whether a turn is a given channel's. -/
def Turn.isOf (ch : ChannelNo) : Turn → Bool
  | .channel c _ => c = ch
  | .resend _ => false

/-- Gives up the turn in progress of a channel: its payload read is still made and its data disregarded (R49). The read that is
still made is the word access already asked for; the words of the payload not yet asked for are not read: the model's choice
(log 25). -/
def giveUpTurn (ch : ChannelNo) (s : State) : State :=
  if s.ce.turn.any (Turn.isOf ch) then setTurn none (dropCe CeWork.isPayload s) else s

/-- Ends draining when nothing is outstanding and no data or result write is under way (R56): the status byte is written
first. -/
def checkDrain (ch : ChannelNo) (s : State) : State :=
  let c := s.channel ch
  if c.state = .draining ∧ c.outstanding = 0 ∧ writeUnderWay s ch = false then
    match c.fault with
    | some r => askFaultStatus ch r s
    | none => s
  else s

/-- A segment or step of a channel fails (R55, R56): in ACTIVE the fault is recorded, the turn given up and the channel drains;
in DRAINING the first fault is kept. -/
def failSegment (ch : ChannelNo) (code : FaultCode) (offset : Nat) (s : State) : State :=
  match (s.channel ch).state with
  | .active =>
    checkDrain ch
      (modChannel ch (fun c => { c with state := .draining, fault := some ⟨code, c.address, offset⟩ }) (giveUpTurn ch s))
  | .draining => checkDrain ch s
  | _ => s

/-! ## Completion -/

/-- Asks for the status write of a completed descriptor (R22, R32): DONE-UNCHANGED for a SWAP that reported UNCHANGED, DONE
otherwise. -/
def askDoneStatus (ch : ChannelNo) (d : Descriptor) (s : State) : State :=
  let c := s.channel ch
  let b : Byte := if d.op = some .swap ∧ c.swapResult = some .unchanged then 0x02 else 0x01
  askCe (byteWrite (c.address.toNat + 31) b) (.doneStatus ch) s

/-- The advance write-back of the remote address if it is due, and then the status write (R31, R182). -/
def advanceRemote (ch : ChannelNo) (d : Descriptor) (s : State) : State :=
  if d.op.any Op.isBlock && d.advRemote then
    askCe (.part (wordOf ((s.channel ch).address.toNat + 16)) 0 (addrBytes d.advancedRemote)) (.advanceRemote ch) s
  else askDoneStatus ch d s

/-- The advance write-back of the local address if it is due, and then what follows it (R31, R182). -/
def advanceLocal (ch : ChannelNo) (d : Descriptor) (s : State) : State :=
  if d.op.any Op.isBlock && d.advLocal then
    askCe (.part (wordOf ((s.channel ch).address.toNat + 12)) 4 (addrBytes d.advancedLocal)) (.advanceLocal ch) s
  else advanceRemote ch d s

/-- Begins the completion of the current descriptor (R31, R32). -/
def startCompletion (ch : ChannelNo) (s : State) : State :=
  match (s.channel ch).descriptor with
  | none => s
  | some d => advanceLocal ch d s

/-- Finishes a descriptor whose status byte has been written (R32, steps 2 to 4). -/
def finishDescriptor (ch : ChannelNo) (s : State) : State :=
  let c := s.channel ch
  match c.descriptor with
  | none => s
  | some d =>
    let event (k : EventKind) : Event := { kind := k, channel := ch, code := none, address := c.address, detail := 0 }
    if d.stop then offerEvent ch (event .chainDone) (modChannel ch stepPast s)
    else if d.notify then offerEvent ch (event .descriptorNotify) s
    else moveOn ch s

/-- The completion test of R54. -/
def completeIfDone (ch : ChannelNo) (s : State) : State :=
  let c := s.channel ch
  match c.descriptor with
  | none => s
  | some d =>
    if c.state = .active ∧ d.op.any Op.isRemote ∧ c.unissued d = false ∧ c.completed = c.issued
        ∧ writeUnderWay s ch = false then startCompletion ch s
    else s

/-- A segment or step has been applied with success (R50 to R52): it is counted, and completion or the end of draining is
tested. -/
def segmentDone (ch : ChannelNo) (s : State) : State :=
  checkDrain ch (completeIfDone ch (modChannel ch (fun c => { c with completed := c.completed + 1 }) s))

/-! ## Notices handed to a channel -/

/-- A notice is given to a channel (R44): with KEEP-VALUE its value is written first, otherwise the descriptor is complete and its
status write is asked for at once. DESIGN CHOICE (log 30): if ABORT is taken before that write is made, R62 says for an arriving
notice that no status byte is written, and for a completion that a write already asked for is performed; the model performs it. -/
def giveNotice (ch : ChannelNo) (n : Notice) (s : State) : State :=
  let s1 := modChannel ch (fun c => { c with state := .active }) s
  match (s.channel ch).descriptor with
  | none => s1
  | some d =>
    if d.keepValue then
      let p := writePiece d.localAt.toNat n.value false
      askCe p.1 (.valueWrite ch p.2) s1
    else startCompletion ch s1

end Sys2Proof.Machine
end

