-- ==== Sys2Proof/Machine/Notices.lean ====
section
/-! DEFINITION. The notice queue: matching, arrivals, AWAIT starts, and the return of a record that a TAKE-NOTICE did not carry
out (R113 to R119, R176). -/

namespace Sys2Proof.Machine

/-- Whether a notice record matches a tag and a sender filter (R115). -/
def noticeMatches (n : Notice) (tag : BitVec 16) (filter : Byte) : Bool :=
  n.tag = tag && (filter = 31 || filter = stationByte n.sender)

/-- The earliest waiter that a record matches (R116). -/
def matchingWaiter (q : NoticeQueue) (n : Notice) : Option Waiter :=
  q.waiters.find? fun w => noticeMatches n w.tag w.filter

/-- Takes a channel's entry off the list of waiters (R114). -/
def withdrawWaiter (ch : ChannelNo) (s : State) : State :=
  modNotices (fun q => { q with waiters := q.waiters.filter fun w => w.channel ≠ ch }) s

/-- A record goes to the earliest waiter it matches, or else into the queue by `add` (R116, R176). -/
def settleNotice (n : Notice) (add : List Notice → List Notice) (s : State) : State :=
  match matchingWaiter s.nq n with
  | some w => giveNotice w.channel n (withdrawWaiter w.channel s)
  | none => modNotices (fun q => { q with records := add q.records }) s

/-- A notice arrives (R116): to the earliest matching waiter, or to the tail of the queue. -/
def noticeArrives (n : Notice) (s : State) : State := settleNotice n (fun rs => rs ++ [n]) s

/-- A record set apart for a TAKE-NOTICE is returned (R176): to the earliest matching waiter, or to the head of the queue. -/
def returnNotice (n : Notice) (s : State) : State := settleNotice n (fun rs => n :: rs) s

/-- The oldest record that matches a tag and filter, and the queue without it (R117). -/
def takeMatching (tag : BitVec 16) (filter : Byte) : List Notice → Option (Notice × List Notice)
  | [] => none
  | n :: rs =>
    if noticeMatches n tag filter then some (n, rs)
    else (takeMatching tag filter rs).map fun r => (r.1, n :: r.2)

/-- A channel starts an AWAIT (R43, R117): it takes the oldest matching record, or joins the waiters at their end. -/
def startAwait (ch : ChannelNo) (d : Descriptor) (s : State) : State :=
  match takeMatching d.tag d.target s.nq.records with
  | some (n, rest) => giveNotice ch n (modNotices (fun q => { q with records := rest }) s)
  | none =>
    modNotices (fun q => { q with waiters := q.waiters ++ [⟨ch, d.tag, d.target⟩] })
      (modChannel ch (fun c => { c with state := .awaiting }) s)

/-- How many records are set apart for a TAKE-NOTICE transaction (R176). -/
def setApart (s : State) : Nat :=
  match s.hp.txn with
  | .output _ (.notice (some _)) => 1
  | _ => 0

/-- The room test of a NOTICE request: whether the queue counts as full (R101, R121, R176). -/
def noticesFull (s : State) : Bool := 16 ≤ s.nq.records.length + setApart s

end Sys2Proof.Machine
end

