-- ==== Sys2Proof/Machine/Table.lean ====
section
/-! DEFINITION. The request table: ages, openness, readiness, taking and freeing entries, and the membership unit's records of
peers lost and found (R63 to R88, R145 to R151). -/

namespace Sys2Proof.Machine

/-- The held entries with their numbers, in the order of taking (R63). -/
def heldEntries (s : State) : List (Slot × Entry) := s.rt.order.filterMap fun i => (s.entry i).map fun e => (i, e)

/-- The held entries of a target, in the order of taking, which is the order of age, oldest first (R65, R78, log 16). -/
def entriesFor (s : State) (p : Station) : List (Slot × Entry) := (heldEntries s).filter fun x => x.2.target = p

/-- The age of an entry (R65). -/
def age (s : State) (e : Entry) : Nat := ((s.peer e.target).tx.nextSeq - e.sequence).toNat

/-- Whether an entry is in REWIND (R63). -/
def Entry.inRewind (e : Entry) : Bool :=
  match e.state with
  | .rewind _ => true
  | _ => false

/-- Whether a target is open for new frames (R66). -/
def targetOpen (s : State) (p : Station) : Bool :=
  (s.peer p).tx.backoff.isNone && (entriesFor s p).all fun x => !x.2.inRewind && decide (age s x.2 ≠ 4)

/-- Whether an entry is the oldest of its target (R65, R74). -/
def isOldest (s : State) (e : Entry) : Bool := (entriesFor s e.target).all fun x => decide (age s x.2 ≤ age s e)

/-- Whether an entry is ready for resend (R78). -/
def readyToResend (s : State) (e : Entry) : Bool :=
  e.inRewind && (s.peer e.target).tx.backoff.isNone
    && (entriesFor s e.target).all fun x => decide (age s x.2 ≤ age s e) || decide (x.2.state = .queued)

/-- The free entry of lowest number (R63). -/
def lowestFree (s : State) : Option Slot := (List.finRange 16).find? fun i => (s.entry i).isNone

/-- Places an entry's frame at the end of the request queue (R67, R79). -/
def placeRequest (i : Slot) (e : Entry) (read : List Byte) (s : State) : State :=
  modLine (fun sl => { sl with requestQueue := sl.requestQueue ++ [⟨i, requestFrame s.own e read, false⟩] }) s

/-- The request queue without the frames of an entry; a committed frame at its head is only marked, to be withdrawn if the
station defers (R70, R135). -/
def withdrawn (committed : Bool) (i : Slot) (q : List QueuedFrame) : List QueuedFrame :=
  match committed, q with
  | true, f :: rest =>
    (if f.slot = i then { f with withdrawn := true } else f) :: rest.filter fun g => decide (g.slot ≠ i)
  | _, q => q.filter fun g => decide (g.slot ≠ i)

/-- Frees an entry (R64, R36, R70): it leaves the table and the order of taking, the held count of its target falls by one, the
outstanding count of its channel too unless it is an orphan, and the frame of a QUEUED entry is withdrawn. -/
def freeEntry (i : Slot) (e : Entry) (s : State) : State :=
  let s1 := setOrder (s.rt.order.erase i) (setEntry i none s)
  let s2 := modTx e.target (fun t => { t with held := t.held - 1 }) s1
  let s3 := if e.orphan then s2 else modChannel e.channel (fun c => { c with outstanding := c.outstanding - 1 }) s2
  if e.state = .queued then
    modLine (fun sl => { sl with requestQueue := withdrawn (requestCommitted sl) i sl.requestQueue }) s3
  else s3

/-- Frees an entry and hands its failure to its channel, unless it is an orphan (R53, R86). -/
def failEntry (code : FaultCode) (i : Slot) (e : Entry) (s : State) : State :=
  let s1 := freeEntry i e s
  if e.orphan then s1 else failSegment e.channel code e.offset s1

/-- Frees every entry held for a station, oldest first, handing over the failures one after another (R77, R85, R87). -/
def failAll (p : Station) (code : FaultCode) (s : State) : State :=
  (entriesFor s p).foldl (fun s x => failEntry code x.1 x.2 s) s

/-- Sets sync-needed for a station (R81). -/
def needSync (p : Station) (s : State) : State := modTx p (fun t => { t with syncNeeded := true }) s

/-- Stops the busy backoff of a station (R76). -/
def stopBackoff (p : Station) (s : State) : State := modTx p (fun t => { t with backoff := none }) s

/-- Declares a target unreachable (R85) and marks it so in the peer table (R149). -/
def declareUnreachable (p : Station) (s : State) : State :=
  flagPeer p (setStatus p .unreachable (needSync p (stopBackoff p (failAll p .peerUnreachable s))))

/-- A request or reply has been taken from a station: if it was UNREACHABLE it is PRESENT again, with sync-needed (R151), and its
change flag is set, in DETACHED too: the model follows R156 and R161 where R166 says that nothing more is added (log 27). -/
def hearFrom (p : Station) (s : State) : State :=
  if (s.peer p).status = .unreachable then flagPeer p (needSync p (setStatus p .present s)) else s

/-- Resets the transmit part for a station (R87). -/
def resetTransmit (p : Station) (code : FaultCode) (s : State) : State := modTx p (fun _ => {}) (failAll p code s)

/-- Resets the receive part for a station (R94). -/
def resetReceive (p : Station) (s : State) : State := modRx p (fun _ => {}) s

/-- The reply timeout in force, in CLK periods (R82). -/
def State.timeout (s : State) : Nat := timeoutOf s.hp.timing

end Sys2Proof.Machine
end

