-- ==== Sys2Proof/Machine/Port.lean ====
section
/-! DEFINITION. The host port's transactions (R168 to R176): select, the decision point of a command, the streams, completion and
release; the commands SELECT_ASSERT, SELECT_RELEASE, TRANSACTION_COMPLETE, STREAM_BYTE, UNKNOWN_COMMAND. -/

namespace Sys2Proof.Machine

/-! ## The course of a transaction -/

/-- Whole bytes shifted out (R168). -/
def shiftOut (bytes : List Byte) (s : State) : State :=
  modPort (fun p => { p with out := p.out ++ bytes, sdo := .driven }) s

/-- A command has been carried out at its completion point: REFUSED is cleared, and the transaction is SPENT (R169, R170). -/
def carryOut (s : State) : State := modPort (fun p => { p with refused := false, txn := .spent }) s

/-- A command is refused (R171): REFUSED and the reason are set, and the transaction is SPENT. -/
def refuse (r : RefusalReason) (s : State) : State :=
  modPort (fun p => { p with refused := true, reason := some r, txn := .spent }) s

/-- A command that returns a record shifts it out from its decision point on (R169). -/
def present (record : List Byte) (took : Took) (s : State) : State := modPort (fun p => { p with txn := .output record took }) s

/-- A command without operands reaches its decision point at the end of the command byte, during which the status byte is
shifted out (R168, R169). In any other state of the transaction the byte is no command byte (log 7). -/
def atCommand (f : State → State) (s : State) : State :=
  if s.hp.txn = .command then f (shiftOut [s.hp.status] s) else s

/-- A command with operands (R168, R169, log 9): its command byte takes the transaction to OPERANDS; the end of its last operand
byte is its decision point. While operands come in, 0x00 is shifted out, one for each operand byte still to come. -/
def withOperands {α : Type} (c : HostCode) (t : Taken α) (f : α → State → State) (s : State) : State :=
  match t, s.hp.txn with
  | .code, .command => modPort (fun p => { p with txn := .operands c (operandCount c) }) (shiftOut [s.hp.status] s)
  | .whole x, .command => f x (shiftOut (s.hp.status :: List.replicate (operandCount c) 0) s)
  | .whole x, .operands c' left => if c' = c then f x (shiftOut (List.replicate left 0) s) else s
  | _, _ => s

/-! ## Select -/

/-- Select is asserted (R168, R170): a transaction begins and the status byte is composed. While RESET is held low the pin is
followed and nothing else (R178). -/
def assertSelect (clockHigh : Bool) (s : State) : State :=
  if s.pins.selected then s
  else
    let s1 := { s with pins := { s.pins with selected := true } }
    if s.pins.resetLow then s1
    else modPort (fun p => { p with txn := .command, status := statusByte s, out := [],
                                    sdo := if clockHigh then .awaitsEdge else .driven }) s1

/-- The release of a STORE-READ stream (R173): READ-ERROR takes its new value and REFUSED is cleared; the reads asked for are
still made and their outcomes disregarded. A first byte of a word that had begun has asked for the next word (log 10). -/
def endReadStream (bits : Fin 8) (r : ReadStream) (s : State) : State :=
  let s1 := dropStream s
  let s2 := if bits ≠ 0 ∧ r.fresh ∧ r.word.isSome then askHp (.read (wordOf (r.position.toNat + 8))) .dropped s1 else s1
  modPort (fun p => { p with readError := r.sawBad, refused := false }) s2

/-- Begins the commit of a STORE-WRITE's bytes (R174, R175). -/
def beginCommit (start : Addr) (taken : Nat) (s : State) : State :=
  let w := writePiece start.toNat (s.hp.buffer.take taken) false
  askHp w.1 (.commit w.2) (modPort (fun p => { p with commit := true, refused := false }) s)

/-- The release of a STORE-WRITE stream, its decision point (R174, check 4). -/
def endWriteStream (bits : Fin 8) (start : Addr) (taken : Nat) (s : State) : State :=
  if bits ≠ 0 ∨ taken = 0 then s
  else if 256 < taken ∨ 0x1FFFF < start.toNat + taken - 1 then refuse .length s
  else beginCommit start taken s

/-- The release of a TAKE command before its completion point undoes what it took (R176); a record that only was copied needs
nothing. -/
def undoTake (took : Took) (s : State) : State :=
  match took with
  | .notice (some n) => returnNotice n s
  | .changes peers windows =>
    { s with ev := { s.ev with
        peerFlags := s.ev.peerFlags ||| peers
        windowFlags := s.ev.windowFlags ||| windows } }
  | _ => s

/-- Settles the transaction in progress at the release of select (R169). -/
def endTransaction (bits : Fin 8) (s : State) : State :=
  match s.hp.txn with
  | .output _ took => undoTake took s
  | .reading r => endReadStream bits r s
  | .writing start taken => endWriteStream bits start taken s
  | _ => s

/-- The transaction is IDLE and the data-out wire undriven (R168, R169). -/
def toIdle (s : State) : State := modPort (fun p => { p with txn := .idle, sdo := .undriven }) s

/-- Select is released (R168, R169), with `bits` bits of an unfinished byte clocked. -/
def releaseSelect (bits : Fin 8) (s : State) : State :=
  if s.pins.selected = false then s
  else
    let s1 := { s with pins := { s.pins with selected := false } }
    if s.pins.resetLow then s1 else toIdle (endTransaction bits s1)

/-! ## Streams -/

/-- One byte of a STORE-READ stream (R173): the byte at the position is shifted out; the first byte of a word asks for the next
word. Until its word is in hand there is no byte to shift (log 10). -/
def streamOut (r : ReadStream) (s : State) : State :=
  match r.word with
  | none => s
  | some w =>
    let ends := r.position.toNat % 8 = 7
    let next : ReadStream :=
      { position := r.position + 1
        word := if ends then r.ahead else r.word
        ahead := if ends then none else r.ahead
        fresh := decide ends
        sawBad := r.sawBad || w.bad }
    let s1 := modPort (fun p => { p with txn := .reading next }) (shiftOut [byteAt w.bytes (r.position.toNat % 8)] s)
    if r.fresh then askHp (.read (wordOf (r.position.toNat + 8))) .stream s1 else s1

/-- A word of the stream has been read (R173): it is the word in hand, or the one ahead of it. -/
def streamWord (bytes : List Byte) (bad : Bool) (s : State) : State :=
  match s.hp.txn with
  | .reading r =>
    let w : StreamWord := ⟨bytes, bad⟩
    let r' : ReadStream := if r.word.isNone then { r with word := some w } else { r with ahead := some w }
    modPort (fun p => { p with txn := .reading r' }) s
  | _ => s

/-- One data byte of a STORE-WRITE (R174, check 3): the first 256 go into the commit buffer, further ones are counted. -/
def streamIn (start : Addr) (taken : Nat) (data : Byte) (s : State) : State :=
  modPort (fun p => { p with
    buffer := if taken < 256 then p.buffer ++ [data] else p.buffer
    txn := .writing start (taken + 1) }) (shiftOut [0] s)

/-! ## Completion -/

/-- The event head is removed, and the head of the held list posts into its place (R160). -/
def removeEvent (s : State) : State := postHeld { s with ev := { s.ev with events := s.ev.events.drop 1 } }

/-- What is left of a record is shifted out to its last byte (R169): the command is carried out. -/
def completeTransaction (s : State) : State :=
  match s.hp.txn with
  | .output record took =>
    let s1 := carryOut (shiftOut record s)
    if took = .event true then removeEvent s1 else s1
  | _ => s

/-! ## Single bytes -/

/-- One byte of a record (R168): it is shifted out; with the last one the command is carried out (R169). -/
def recordByte (record : List Byte) (took : Took) (s : State) : State :=
  match record with
  | b :: c :: rest => modPort (fun p => { p with txn := .output (c :: rest) took }) (shiftOut [b] s)
  | [_] => completeTransaction s
  | [] => s

/-- An operand byte before the last (R168): 0x00 is shifted out. The last one is the command's own (log 9). -/
def operandByte (c : HostCode) (left : Nat) (s : State) : State :=
  if 1 < left then modPort (fun p => { p with txn := .operands c (left - 1) }) (shiftOut [0] s) else s

/-- The host clocks one byte of a stream, of a record, of the operands, or a further byte of a SPENT transaction, which is answered
with 0x00 (R168, R173, R174). DESIGN CHOICE (log 9): STREAM_BYTE stands for the bytes of a record and of operands too, for which the
table has no row. -/
def clockByte (data : Byte) (s : State) : State :=
  match s.hp.txn with
  | .reading r => streamOut r s
  | .writing start taken => streamIn start taken data s
  | .output record took => recordByte record took s
  | .operands c left => operandByte c left s
  | .spent => shiftOut [0] s
  | _ => s

/-! ## The commands -/

/-- SELECT_ASSERT (R170). -/
def execSelectAssert (clockHigh : Bool) (s : State) : Host.Outcome State Fault Refusal :=
  .next (if s.pins.resetLow then assertSelect clockHigh s else settle (assertSelect clockHigh s))

/-- SELECT_RELEASE (R169). -/
def execSelectRelease (bits : Fin 8) (s : State) : Host.Outcome State Fault Refusal :=
  .next (if s.pins.resetLow then releaseSelect bits s else settle (releaseSelect bits s))

/-- TRANSACTION_COMPLETE (R169). -/
def execTransactionComplete (s : State) : Host.Outcome State Fault Refusal := happening completeTransaction s

/-- UNKNOWN_COMMAND (R171): a command byte that is no command code is refused UNKNOWN. -/
def execUnknownCommand (code : Byte) (s : State) : Host.Outcome State Fault Refusal :=
  happening (fun s => if hostCodeOf code = none then atCommand (refuse .unknown) s else s) s

/-- STREAM_BYTE (R173). -/
def execStreamByte (data : Byte) (s : State) : Host.Outcome State Fault Refusal := happening (clockByte data) s

end Sys2Proof.Machine
end

