-- ==== Sys2Proof/Machine/HostChains.lean ====
section
/-! DEFINITION. The host commands that start, resume and abort chains: SUBMIT, RESUME, ABORT (R38 to R40, R60 to R62). -/

namespace Sys2Proof.Machine

/-- The decision point of SUBMIT (R38). -/
def decideSubmit (o : SubmitOps) (s : State) : State :=
  if s.hp.phase ≠ .running then refuse .state s
  else
    match channelOf o.channel, classOf o.cls with
    | some ch, some k =>
      if (s.channel ch).state ≠ .idle then refuse .state s
      else if o.head.toNat % 32 ≠ 0 ∨ 0x1FFFF < o.head.toNat then refuse .range s
      else
        startFetch ch (modChannel ch (fun c =>
          { c.cleared with cls := k, resume := some (o.head.setWidth 17), state := .active }) (carryOut s))
    | _, _ => refuse .range s

/-- SUBMIT (R38). -/
def execSubmit (t : Taken SubmitOps) (s : State) : Host.Outcome State Fault Refusal :=
  happening (withOperands .submit t decideSubmit) s

/-- A channel takes RESUME (R39, R40): from IDLE with a resume address, or from FAULTED. -/
def restart (ch : ChannelNo) (k : ChainClass) (s : State) : State :=
  startFetch ch (modChannel ch (fun c => { c.cleared with cls := k, fault := none, state := .active }) (carryOut s))

/-- The decision point of RESUME (R39). -/
def decideResume (o : ResumeOps) (s : State) : State :=
  if s.hp.phase ≠ .running then refuse .state s
  else
    match channelOf o.channel, classOf o.cls with
    | some ch, some k =>
      match (s.channel ch).state, (s.channel ch).resume with
      | .idle, some _ => restart ch k s
      | .faulted, _ => restart ch k s
      | _, _ => refuse .state s
    | _, _ => refuse .range s

/-- RESUME (R39). -/
def execResume (t : Taken ResumeOps) (s : State) : Host.Outcome State Fault Refusal :=
  happening (withOperands .resume t decideResume) s

/-- An entry once a channel's entries have become orphans (R60, R86). -/
def orphaned (ch : ChannelNo) (e : Entry) : Entry := if e.channel = ch then { e with orphan := true } else e

/-- The entries of a channel become orphans, and its outstanding count 0 (R36, R60, R86). -/
def orphanEntries (ch : ChannelNo) (s : State) : State :=
  modChannel ch (fun c => { c with outstanding := 0 })
    { s with rt := { s.rt with entries := s.rt.entries.map (Option.map (orphaned ch)) } }

/-- A channel that has taken ABORT (R60, R61): IDLE, its class and resume address left as they stand. -/
def Channel.aborted (c : Channel) : Channel := { c.cleared with state := .idle, fault := none, pendingEvent := none }

/-- CHAIN-ABORTED is posted if the event queue has room (R60). -/
def postAborted (ch : ChannelNo) (s : State) : State :=
  if s.ev.events.length < 32 then
    pushEvent { kind := .chainAborted, channel := ch, code := none, address := ((s.channel ch).resume).getD 0, detail := 0 } s
  else s

/-- ABORT taken in ACTIVE, AWAITING, HELD or DRAINING (R60, R62). -/
def abortRunning (ch : ChannelNo) (s : State) : State :=
  let s1 := giveUpTurn ch (orphanEntries ch s)
  let s2 := dropCe (fun w => decide (w.owner = some ch)) s1
  let s3 := setHeld (s2.ce.held.erase ch) (withdrawWaiter ch s2)
  postAborted ch (modChannel ch Channel.aborted s3)

/-- The decision point of ABORT (R60, R61). -/
def decideAbort (b : Byte) (s : State) : State :=
  if s.hp.phase = .config ∨ s.hp.phase = .detached then refuse .state s
  else
    match channelOf b with
    | none => refuse .range s
    | some ch =>
      match (s.channel ch).state with
      | .idle => refuse .state s
      | .faulted => modChannel ch Channel.aborted (carryOut s)
      | _ => abortRunning ch (carryOut s)

/-- ABORT (R60). -/
def execAbort (t : Taken Byte) (s : State) : Host.Outcome State Fault Refusal :=
  happening (withOperands .abort t decideAbort) s

end Sys2Proof.Machine
end

