-- ==== Sys2Proof/Machine/Service.lean ====
section
/-! DEFINITION. The service unit: windows, classification, acceptance, execution and answers; the command REQUEST_TAKE (R89 to
R112). -/

namespace Sys2Proof.Machine

/-! ## Windows -/

/-- The bytes a request concerns: first and last (R103). -/
def requestRange (k : RequestKind) (f : Frame) : Nat × Nat :=
  match k with
  | .swap => (f.address.toNat, f.address.toNat + 3)
  | _ => (f.address.toNat, f.address.toNat + f.length.toNat - 1)

/-- Whether rights include an operation; a NOTICE is not window checked (R91, R103). -/
def Rights.allow (r : Rights) : RequestKind → Bool
  | .read => r.read
  | .write => r.write
  | .swap => r.swap
  | .notice => true

/-- Whether a window passes the check for a sender, an operation and a range of bytes (R91). -/
def windowPasses (w : Window) (p : Station) (k : RequestKind) (first last : Nat) : Bool :=
  w.isOpen && decide (w.length ≠ 0) && decide (256 * w.base ≤ first) && decide (last < 256 * (w.base + w.length))
    && w.rights.allow k && w.senders.getLsbD p.val

/-- The window used: the lowest-numbered one that passes (R91). -/
def windowUsed (s : State) (p : Station) (k : RequestKind) (first last : Nat) : Option WindowNo :=
  (List.finRange 8).find? fun w => windowPasses (s.su.windows.get w) p k first last

/-- Sets the gate of a window (R90). -/
def setGate (w : WindowNo) (isOpen : Bool) (s : State) : State :=
  modService (fun u => { u with windows := u.windows.set w.val { u.windows.get w with isOpen := isOpen } w.isLt }) s

/-- A FINAL write accepted through a single-use window shuts it and flags it (R105). -/
def shutSingleUse (w : WindowNo) (k : RequestKind) (f : Frame) (s : State) : State :=
  if k = .write ∧ f.flags.final ∧ (s.su.windows.get w).singleUse then flagWindow w (setGate w false s) else s

/-! ## Answers and cache records -/

/-- Places the reply of an answer at the end of the reply queue (R110). -/
def answer (f : Frame) (a : Answer) (s : State) : State :=
  modLine (fun sl => { sl with replyQueue := sl.replyQueue ++ [replyFrame s.own f a] }) s

/-- Fills an outcome into the record of the request in execution, if a reset has not removed it (R94, R99). -/
def fillOutcome (p : Station) (o : CacheOutcome) (s : State) : State :=
  modRx p (fun r => { r with cache := r.cache.map fun c => if c.outcome = none then { c with outcome := some o } else c }) s

/-- Answers an accepted request: its outcome is recorded and its reply placed (R99, R110). -/
def conclude (p : Station) (f : Frame) (o : CacheOutcome) (a : Answer) (s : State) : State := answer f a (fillOutcome p o s)

/-- Ends the execution in progress (R95, R110): a duplicate's fresh read fills no record (R100). -/
def endExecution (x : Execution) (o : CacheOutcome) (a : Answer) (s : State) : State :=
  let s1 := modService (fun u => { u with execution := none }) s
  if x.duplicate then answer x.request a s1 else conclude x.sender x.request o a s1

/-! ## Execution -/

/-- Puts a request in execution (R95). -/
def beginExecution (p : Station) (f : Frame) (duplicate : Bool) (s : State) : State :=
  modService (fun u => { u with execution := some ⟨f, p, duplicate⟩ }) s

/-- Begins the word reads of a READ (R100, R106). -/
def beginRead (p : Station) (f : Frame) (duplicate : Bool) (s : State) : State :=
  let r := readPiece f.address.toNat f.length.toNat []
  askSu r.1 (.read r.2) (beginExecution p f duplicate s)

/-- Begins the execution of a request that has passed its checks (R104, R106, R107); a NOTICE is handed over at once (R108). -/
def beginRequest (p : Station) (k : RequestKind) (f : Frame) (s : State) : State :=
  match k with
  | .write =>
    let w := writePiece f.address.toNat f.payload false
    askSu w.1 (.write w.2) (beginExecution p f false s)
  | .read => beginRead p f false s
  | .swap =>
    askSu (.swap (wordOf f.address.toNat) (decide (f.address.toNat % 8 = 4)) (f.payload.take 4) (f.payload.drop 4)) .swap
      (beginExecution p f false s)
  | .notice =>
    conclude p f .ack .ack
      (noticeArrives { sender := p, tag := num16At f.payload 0, value := f.payload.drop 2 } s)

/-! ## Classification and acceptance -/

/-- The bounds of a WRITE or READ (R102): a length of 1 to 256 within one page. -/
def inBounds (f : Frame) : Bool :=
  1 ≤ f.length.toNat && f.length.toNat ≤ 256 && f.address.toNat % 256 + f.length.toNat ≤ 256

/-- The form check (R102). -/
def wellFormedRequest (k : RequestKind) (f : Frame) : Bool :=
  match k with
  | .write => inBounds f && f.payload.length = f.length.toNat
  | .read => inBounds f && f.payload.length = 0
  | .swap => f.length.toNat = 8 && f.payload.length = 8 && f.address.toNat % 4 = 0
  | .notice => f.length.toNat = 6 && f.payload.length = 6

/-- The receive part after a request is accepted (R92, R99): SYNC empties the cache, E becomes q + 1, and a record is added at
the end of the cache, the oldest of four removed. -/
def acceptInto (k : RequestKind) (f : Frame) (r : ReceivePart) : ReceivePart :=
  let kept := if f.flags.sync then [] else if r.cache.length < 4 then r.cache else r.cache.drop 1
  { expected := f.sequence + 1, cache := kept ++ [{ sequence := f.sequence, kind := k, outcome := none }] }

/-- Accepts a request (R99) and carries it out: form check (R102), window check (R103), single-use shut (R105), execution. -/
def acceptRequest (p : Station) (k : RequestKind) (f : Frame) (s : State) : State :=
  let s1 := modRx p (acceptInto k f) s
  if wellFormedRequest k f = false then conclude p f .malformed (.nak .malformed) s1
  else if k = .notice then beginRequest p k f s1
  else
    match windowUsed s1 p k (requestRange k f).1 (requestRange k f).2 with
    | none => conclude p f .denied (.nak .denied) s1
    | some w => beginRequest p k f (shutSingleUse w k f s1)

/-- The cache record that makes a request a duplicate: of its sequence and its kind (R98). -/
def duplicateRecord (s : State) (p : Station) (k : RequestKind) (q : Byte) : Option CacheRecord :=
  (s.peer p).rx.cache.find? fun r => decide (r.sequence = q) && decide (r.kind = k)

/-- Answers a duplicate from its record (R100). A record has its outcome whenever a request is taken (R95). That the bounds a
duplicate READ must meet include the empty payload of R102 is the model's choice (log 26). -/
def answerDuplicate (p : Station) (f : Frame) (o : Option CacheOutcome) (s : State) : State :=
  match o with
  | none => s
  | some o =>
    match cachedAnswer o with
    | some a => answer f a s
    | none => if inBounds f && f.payload.length = 0 then beginRead p f true s else answer f (.nak .malformed) s

/-- Classifies a request (R98, R101). -/
def classify (p : Station) (k : RequestKind) (f : Frame) (s : State) : State :=
  match duplicateRecord s p k f.sequence with
  | some r => answerDuplicate p f r.outcome s
  | none =>
    if f.sequence = (s.peer p).rx.expected ∨ f.flags.sync then
      if k = .notice ∧ noticesFull s then answer f (.nak .busy) s else acceptRequest p k f s
    else answer f (.nak .sequence) s

/-- Acts on a request taken with room for its reply, by its sender's status (R97). -/
def serve (p : Station) (k : RequestKind) (f : Frame) (s : State) : State :=
  if (s.peer p).status = .absent then askPresence (answer f (.nak .notJoined) s)
  else classify p k f (hearFrom p s)

/-- The service unit takes a request (R95, R96). -/
def takeRequest (s : State) : State :=
  if (s.hp.phase ≠ .running ∧ s.hp.phase ≠ .leaving) ∨ s.su.execution.isSome then s
  else
    match s.sl.inRequests with
    | [] => s
    | f :: rest =>
      let s1 := modLine (fun sl => { sl with inRequests := rest }) s
      if 8 ≤ s.sl.replyQueue.length then s1
      else
        match stationOf f.sender, f.kind with
        | some p, .request k => serve p k f s1
        | _, _ => s1

/-- REQUEST_TAKE (R95). -/
def execRequestTake (s : State) : Host.Outcome State Fault Refusal := happening takeRequest s

end Sys2Proof.Machine
end

