-- ==== Sys2Proof/Machine/HostConfig.lean ====
section
/-! DEFINITION. The host commands of configuration and phase: SET_WINDOW, SET_LABEL, SET_TIMING, SEAL, GATE, MASK, LEAVE (R90, R164,
R187, R188, R190). -/

namespace Sys2Proof.Machine

/-- The decision point of SET-WINDOW (R187). -/
def decideSetWindow (o : WindowOps) (s : State) : State :=
  if s.hp.phase ≠ .config then refuse .sealed s
  else
    match windowOf o.window, gateOf o.gate with
    | some w, some g =>
      if 511 < o.base.toNat ∨ 512 < o.length.toNat then refuse .range s
      else
        let v : Window :=
          { base := o.base.toNat, length := o.length.toNat, rights := rightsOf o.rights, senders := stationSetOf o.senders,
            singleUse := o.singleUse.getLsbD 0, isOpen := g }
        modService (fun u => { u with windows := u.windows.set w.val v w.isLt }) (carryOut s)
    | _, _ => refuse .range s

/-- SET_WINDOW (R187). -/
def execSetWindow (t : Taken WindowOps) (s : State) : Host.Outcome State Fault Refusal :=
  happening (withOperands .setWindow t decideSetWindow) s

/-- The decision point of SET-LABEL (R187). -/
def decideSetLabel (label : List Byte) (s : State) : State :=
  if s.hp.phase ≠ .config then refuse .sealed s
  else modPort (fun p => { p with label := label }) (carryOut s)

/-- Whether the operand of a SET-LABEL is its 8 bytes, or only its command byte has been taken (R172). -/
def labelTaken : Taken (List Byte) → Bool
  | .code => true
  | .whole label => decide (label.length = 8)

/-- SET_LABEL (R187). -/
def execSetLabel (t : Taken (List Byte)) (s : State) : Host.Outcome State Fault Refusal :=
  happening (fun s => if labelTaken t then withOperands .setLabel t decideSetLabel s else s) s

/-- The decision point of SET-TIMING (R187). -/
def decideSetTiming (b : Byte) (s : State) : State :=
  if s.hp.phase ≠ .config then refuse .sealed s
  else
    match timingOf b with
    | none => refuse .range s
    | some t => modPort (fun p => { p with timing := t }) (carryOut s)

/-- SET_TIMING (R187). -/
def execSetTiming (t : Taken Byte) (s : State) : Host.Outcome State Fault Refusal :=
  happening (withOperands .setTiming t decideSetTiming) s

/-- Whether rights are none (R188). -/
def Rights.none (r : Rights) : Bool := !r.read && !r.write && !r.swap

/-- Whether SEAL accepts a window (R188): base page plus length at most 512, and some right if the length is not zero. -/
def sealableWindow (w : Window) : Bool := decide (w.base + w.length ≤ 512) && (decide (w.length = 0) || !w.rights.none)

/-- Whether SEAL accepts the configuration (R188). -/
def sealable (s : State) : Bool :=
  decide (s.own ≠ 31) && (List.finRange 8).all fun w => sealableWindow (s.su.windows.get w)

/-- The decision point of SEAL (R188). -/
def decideSeal (s : State) : State :=
  if s.hp.phase ≠ .config then refuse .state s
  else if sealable s = false then refuse .range s
  else
    modLine (fun sl => { sl with holder := some (presenceFrame s.own s.hp.label true false) })
      (modPort (fun p => { p with phase := .joining }) (carryOut s))

/-- SEAL (R188). -/
def execSeal (s : State) : Host.Outcome State Fault Refusal := happening (atCommand decideSeal) s

/-- The decision point of GATE (R90, R172). -/
def decideGate (o : GateOps) (s : State) : State :=
  if s.hp.phase = .config then refuse .state s
  else
    match windowOf o.window, gateOf o.gate with
    | some w, some g => setGate w g (carryOut s)
    | _, _ => refuse .range s

/-- GATE (R90). -/
def execGate (t : Taken GateOps) (s : State) : Host.Outcome State Fault Refusal :=
  happening (withOperands .gate t decideGate) s

/-- The decision point of MASK (R164): the three enables are set together. -/
def decideMask (b : Byte) (s : State) : State :=
  let s1 := carryOut s
  { s1 with ev := { s1.ev with
      eventEnable := b.getLsbD 0
      noticeEnable := b.getLsbD 1
      changeEnable := b.getLsbD 2 } }

/-- MASK (R164). -/
def execMask (t : Taken Byte) (s : State) : Host.Outcome State Fault Refusal :=
  happening (withOperands .mask t decideMask) s

/-- Whether every channel is IDLE or FAULTED (R190). -/
def channelsSettled (s : State) : Bool :=
  (List.finRange 4).all fun ch => decide ((s.channel ch).state = .idle) || decide ((s.channel ch).state = .faulted)

/-- The decision point of LEAVE (R190). -/
def decideLeave (s : State) : State :=
  if s.hp.phase ≠ .running then refuse .state s
  else if channelsSettled s = false then refuse .busy s
  else modPort (fun p => { p with phase := .leaving }) (carryOut s)

/-- LEAVE (R190). -/
def execLeave (s : State) : Host.Outcome State Fault Refusal := happening (atCommand decideLeave) s

end Sys2Proof.Machine
end

