-- ==== Sys2Proof/Machine/HostReads.lean ====
section
/-! DEFINITION. The host commands that read and take: STATUS, STORE_READ, STORE_WRITE, TAKE_EVENT, TAKE_NOTICE, TAKE_CHANGES,
READ_CHANNEL, READ_PEER (R119, R160, R163, R173, R174, R176, R177). -/

namespace Sys2Proof.Machine

/-- STATUS (R177). -/
def execStatus (s : State) : Host.Outcome State Fault Refusal :=
  happening (atCommand fun s => present (statusRecord s) .copy s) s

/-- A STORE-READ stream that begins at an address (R173). -/
def streamFrom (a : Addr) : ReadStream where
  position := a
  word := none
  ahead := none
  fresh := true
  sawBad := false

/-- The end of a STORE-READ's address (R173): refused BUSY or RANGE, or the stream begins and its first word is asked for. -/
def decideStoreRead (a : BitVec 24) (s : State) : State :=
  if s.hp.commit then refuse .busy s
  else if 0x1FFFF < a.toNat then refuse .range s
  else askHp (.read (wordOf a.toNat)) .stream (modPort (fun p => { p with txn := .reading (streamFrom (a.setWidth 17)) }) s)

/-- STORE_READ (R173). -/
def execStoreRead (t : Taken (BitVec 24)) (s : State) : Host.Outcome State Fault Refusal :=
  happening (withOperands .storeRead t decideStoreRead) s

/-- The end of a STORE-WRITE's address (R174, check 2): refused RANGE, or the stream of data bytes begins. -/
def decideStoreWrite (a : BitVec 24) (s : State) : State :=
  if 0x1FFFF < a.toNat then refuse .range s
  else modPort (fun p => { p with txn := .writing (a.setWidth 17) 0, buffer := [] }) s

/-- A STORE-WRITE up to the end of its address (R174, checks 1 and 2): BUSY is checked at the end of the command byte; address
bytes that follow a refusal are answered with 0x00 (R168). -/
def takeStoreWrite (t : Taken (BitVec 24)) (s : State) : State :=
  if s.hp.txn = .command ∧ s.hp.commit then
    match t with
    | .code => refuse .busy (shiftOut [s.hp.status] s)
    | .whole _ => refuse .busy (shiftOut (s.hp.status :: List.replicate (operandCount .storeWrite) 0) s)
  else withOperands .storeWrite t decideStoreWrite s

/-- STORE_WRITE (R174). -/
def execStoreWrite (t : Taken (BitVec 24)) (s : State) : Host.Outcome State Fault Refusal := happening (takeStoreWrite t) s

/-- The decision point of TAKE-EVENT (R160, R176): the head record, or NONE. -/
def decideTakeEvent (s : State) : State :=
  match s.ev.events with
  | [] => present noneRecord (.event false) s
  | e :: _ => present (eventRecord e) (.event true) s

/-- TAKE_EVENT (R176). -/
def execTakeEvent (s : State) : Host.Outcome State Fault Refusal := happening (atCommand decideTakeEvent) s

/-- The decision point of TAKE-NOTICE (R119, R176): the head record leaves the queue and is set apart, or NONE. -/
def decideTakeNotice (s : State) : State :=
  match s.nq.records with
  | [] => present noneRecord (.notice none) s
  | n :: rest => present (noticeRecord n) (.notice (some n)) (modNotices (fun q => { q with records := rest }) s)

/-- TAKE_NOTICE (R119). -/
def execTakeNotice (s : State) : Host.Outcome State Fault Refusal := happening (atCommand decideTakeNotice) s

/-- The decision point of TAKE-CHANGES (R163): both sets are copied and cleared. -/
def decideTakeChanges (s : State) : State :=
  present (changesRecord s.ev.peerFlags s.ev.windowFlags) (.changes s.ev.peerFlags s.ev.windowFlags)
    { s with ev := { s.ev with peerFlags := 0, windowFlags := 0 } }

/-- TAKE_CHANGES (R163). -/
def execTakeChanges (s : State) : Host.Outcome State Fault Refusal := happening (atCommand decideTakeChanges) s

/-- The decision point of READ-CHANNEL (R172, R177). -/
def decideReadChannel (b : Byte) (s : State) : State :=
  match channelOf b with
  | none => refuse .range s
  | some ch => present (channelRecord (s.channel ch)) .copy s

/-- READ_CHANNEL (R177). -/
def execReadChannel (t : Taken Byte) (s : State) : Host.Outcome State Fault Refusal :=
  happening (withOperands .readChannel t decideReadChannel) s

/-- The decision point of READ-PEER (R172, R177). -/
def decideReadPeer (b : Byte) (s : State) : State :=
  match stationOf b with
  | none => refuse .range s
  | some p => present (peerRecord s p) .copy s

/-- READ_PEER (R177). -/
def execReadPeer (t : Taken Byte) (s : State) : Host.Outcome State Fault Refusal :=
  happening (withOperands .readPeer t decideReadPeer) s

end Sys2Proof.Machine
end

