-- ==== Sys2Proof/Machine/Turns.lean ====
section
/-! DEFINITION. Issue turns: eligibility, the choice of a channel, a channel's turn and a resend turn (R45 to R49, R67, R79, R80). -/

namespace Sys2Proof.Machine

/-! ## Choice -/

/-- Whether a channel is eligible (R46). -/
def eligible (s : State) (ch : ChannelNo) : Bool :=
  let c := s.channel ch
  match c.descriptor with
  | none => false
  | some d =>
    match stationOf d.target with
    | none => false
    | some p =>
      decide (c.state = .active) && c.unissued d
        && (lowestFree s).isSome && decide ((entriesFor s p).length < 4) && targetOpen s p

/-- The rotation pointer of a class (R47). -/
def Rotation.get (r : Rotation) : ChainClass → ChannelNo
  | .urgent => r.urgent
  | .normal => r.normal
  | .bulk => r.bulk

/-- The rotation with the pointer of one class moved (R47). -/
def Rotation.move (r : Rotation) (k : ChainClass) (ch : ChannelNo) : Rotation :=
  match k with
  | .urgent => { r with urgent := ch }
  | .normal => { r with normal := ch }
  | .bulk => { r with bulk := ch }

/-- The four channels from a pointer on, modulo 4 (R47). -/
def fromPointer (ch : ChannelNo) : List ChannelNo := [ch, ch + 1, ch + 2, ch + 3]

/-- The channel of a class that the rotation chooses, if one is eligible (R47). -/
def chooseInClass (s : State) (k : ChainClass) : Option ChannelNo :=
  (fromPointer (s.ce.rotation.get k)).find? fun ch => decide ((s.channel ch).cls = k) && eligible s ch

/-- The channel to which a turn goes: of the highest class in which one is eligible (R47). -/
def chooseChannel (s : State) : Option ChannelNo :=
  (chooseInClass s .urgent).or ((chooseInClass s .normal).or (chooseInClass s .bulk))

/-- The entry a resend turn takes: of those that are ready, the one taken earliest (R45, R78). -/
def chooseResend (s : State) : Option (Slot × Entry) := (heldEntries s).find? fun x => readyToResend s x.2

/-! ## A turn given to a channel -/

/-- Moves a channel's line and offset past the segment it has come to (R48, R49): to the next one, or, past the last one, past
the end of the descriptor, at a free position (log 13). -/
def passSegment (ch : ChannelNo) (d : Descriptor) (s : State) : State :=
  let c := s.channel ch
  if (d.segmentAt c.line c.offset).last then
    let q := d.endPosition (Config.freePosition s.draws)
    modChannel ch (fun c => { c with line := q.1, offset := q.2, allIssued := true }) { s with draws := s.draws + 1 }
  else
    let q := d.positionAfter c.line c.offset
    modChannel ch (fun c => { c with line := q.1, offset := q.2 }) s

/-- Takes an entry for a segment (R67): the free entry of lowest number, the target's next sequence number, SYNC if it is
needed, and the frame at the end of the request queue; the channel counts it (R36, R48). -/
def takeEntry (ch : ChannelNo) (d : Descriptor) (k : RequestKind) (p : Station) (seg : Segment) (read : List Byte)
    (s : State) : State :=
  match lowestFree s with
  | none => s
  | some i =>
    let t := (s.peer p).tx
    let e : Entry :=
      { channel := ch, orphan := false, kind := k, target := p, sequence := t.nextSeq,
        localAt := BitVec.ofNat 17 seg.localAt, remoteAt := BitVec.ofNat 17 seg.remoteAt, length := seg.length,
        tag := d.tag, offset := seg.offset, final := decide (k = .write) && d.final && seg.last, sync := t.syncNeeded,
        tries := 1, state := .queued }
    let s1 := setOrder (s.rt.order ++ [i]) (setEntry i (some e) s)
    let s2 := modTx p (fun t => { t with nextSeq := t.nextSeq + 1, held := t.held + 1, syncNeeded := false }) s1
    let s3 := modChannel ch (fun c => { c with outstanding := c.outstanding + 1, issued := c.issued + 1 }) s2
    passSegment ch d (placeRequest i e read s3)

/-- A segment fails in its channel's turn, before any frame: the channel passes it and counts it failed (R49). -/
def failInTurn (ch : ChannelNo) (code : FaultCode) (s : State) : State :=
  let c := s.channel ch
  match c.descriptor with
  | none => s
  | some d => failSegment ch code (d.segmentAt c.line c.offset).offset (passSegment ch d s)

/-- Ends a channel's turn once the payload is read (R48, R49): an entry is taken if the target is PRESENT; otherwise the
segment fails with PEER-ABSENT. -/
def finishChannelTurn (ch : ChannelNo) (p : Station) (read : List Byte) (s : State) : State :=
  let c := s.channel ch
  let s1 := setTurn none s
  match c.descriptor with
  | none => s1
  | some d =>
    match d.op.bind Op.request with
    | none => s1
    | some k =>
      if (s.peer p).status = .present then takeEntry ch d k p (d.segmentAt c.line c.offset) read s1
      else failInTurn ch .peerAbsent s1

/-! ## A resend turn -/

/-- Ends a resend turn once the payload is read (R79): a try is charged, SYNC taken up, the frame placed; or the turn is given
up if the entry has been freed. -/
def finishResend (i : Slot) (read : List Byte) (s : State) : State :=
  let s1 := setTurn none s
  match s.entry i with
  | none => s1
  | some e =>
    let tries := match e.state with
      | .rewind true => e.tries + 1
      | _ => e.tries
    let e' := { e with tries := tries, sync := e.sync || (s.peer e.target).tx.syncNeeded, state := .queued }
    placeRequest i e' read (modTx e.target (fun t => { t with syncNeeded := false }) (setEntry i (some e') s1))

/-- A payload read of a resend has been refused (R80): the entry fails and its target needs SYNC. -/
def failResend (i : Slot) (s : State) : State :=
  let s1 := setTurn none s
  match s.entry i with
  | none => s1
  | some e => needSync e.target (failEntry .storeError i e s1)

/-! ## Payload reads -/

/-- Ends the turn in progress with what has been read. -/
def finishTurn (t : Turn) (read : List Byte) (s : State) : State :=
  match t with
  | .channel ch p => finishChannelTurn ch p read s
  | .resend i => finishResend i read s

/-- Ends the turn in progress on a refused payload read (R49, R80). -/
def failTurn (t : Turn) (s : State) : State :=
  match t with
  | .channel ch _ => failInTurn ch .storeError (setTurn none s)
  | .resend i => failResend i s

/-- Begins a turn: its payload of `n` bytes is read from the local store from `a` on (R29, R79); without one it ends at once. -/
def beginTurn (t : Turn) (a n : Nat) (s : State) : State :=
  if n = 0 then finishTurn t [] s
  else
    let p := readPiece a n []
    askCe p.1 (.payload p.2) (setTurn (some t) s)

/-- Begins a resend turn for an entry (R79). -/
def beginResend (i : Slot) (e : Entry) (s : State) : State :=
  beginTurn (.resend i) e.localAt.toNat (payloadSize e.kind e.length) s

/-- Begins a channel's turn: the rotation pointer of its class moves past it (R47), and it issues the segment at its line and
offset (R48). -/
def beginChannelTurn (ch : ChannelNo) (s : State) : State :=
  let c := s.channel ch
  let s1 : State := { s with ce := { s.ce with rotation := s.ce.rotation.move c.cls (ch + 1) } }
  match c.descriptor with
  | none => s
  | some d =>
    match stationOf d.target, d.op.bind Op.request with
    | some p, some k =>
      let seg := d.segmentAt c.line c.offset
      beginTurn (.channel ch p) seg.localAt (payloadSize k seg.length) s1
    | _, _ => s

/-- One turn of the issue engine (R45): begun when none is in progress, the request queue has a free place, and a resend is
ready or a channel eligible. -/
def takeTurn (s : State) : State :=
  if s.ce.turn.isSome ∨ 4 ≤ s.sl.requestQueue.length then s
  else
    match chooseResend s with
    | some (i, e) => beginResend i e s
    | none =>
      match chooseChannel s with
      | some ch => beginChannelTurn ch s
      | none => s

end Sys2Proof.Machine
end

