-- ==== Sys2Proof/Machine/Issue.lean ====
section
/-! DEFINITION. The request table's commands: ISSUE_TURN, REPLY_TAKE, DEADLINE_PASS, BUSY_BACKOFF_END (R45, R71 to R77, R83, R76). -/

namespace Sys2Proof.Machine

/-! ## Replies -/

/-- The held entry a reply matches: its sender is the target and its sequence the entry's (R71). -/
def matchEntry (s : State) (p : Station) (q : Byte) : Option (Slot × Entry) :=
  (entriesFor s p).find? fun x => x.2.sequence = q

/-- The data of a matching reply, `n` bytes: bytes beyond them are not used, and bytes the payload lacks are free (log 14). -/
def replyData (s : State) (payload : List Byte) (n : Nat) : List Byte :=
  payload.take n ++ (List.range (n - payload.length)).map fun i => Config.freeByte (s.draws + i)

/-- Counts the free bytes that `replyData` has drawn. -/
def drawFree (payload : List Byte) (n : Nat) (s : State) : State := { s with draws := s.draws + (n - payload.length) }

/-- Applies an ACK (R50, R72). -/
def succeedAck (i : Slot) (e : Entry) (s : State) : State :=
  let s1 := freeEntry i e s
  if e.orphan then s1 else segmentDone e.channel s1

/-- Applies a READ-DATA (R51, R72): its bytes are written word by word into the segment's local bytes. -/
def succeedRead (i : Slot) (e : Entry) (payload : List Byte) (s : State) : State :=
  let s1 := freeEntry i e s
  if e.orphan then s1
  else
    let p := writePiece e.localAt.toNat (replyData s payload e.length) false
    askCe p.1 (.getWrite e.channel p.2 e.offset) (drawFree payload e.length s1)

/-- Applies a SWAP-REPLY (R52, R72): the result is recorded and the old value written into the result slot. DESIGN CHOICE (log 32): the
recorded result stands if that write is then refused. -/
def succeedSwap (i : Slot) (e : Entry) (r : SwapResult) (payload : List Byte) (s : State) : State :=
  let s1 := freeEntry i e s
  if e.orphan then s1
  else
    let a := e.localAt.toNat + 8
    askCe (.part (wordOf a) (a % 8) (replyData s payload 4)) (.resultWrite e.channel)
      (modChannel e.channel (fun c => { c with swapResult := some r }) (drawFree payload 4 s1))

/-- A NAK SEQUENCE on an entry in WAITING (R74). -/
def nakSequence (i : Slot) (e : Entry) (s : State) : State :=
  if isOldest s e = false then setEntry i (some { e with state := .rewind false }) s
  else if e.tries < 4 then needSync e.target (setEntry i (some { e with state := .rewind true }) s)
  else declareUnreachable e.target s

/-- A NAK BUSY on an entry in WAITING (R75, R76). -/
def nakBusy (i : Slot) (e : Entry) (s : State) : State :=
  if e.tries < 4 then
    modTx e.target (fun t => { t with backoff := some (s.now + s.timeout) })
      (setEntry i (some { e with state := .rewind true }) s)
  else needSync e.target (failEntry .targetBusy i e s)

/-- A NAK NOT-JOINED (R77): every entry held for the target fails, and a presence frame is asked for. -/
def nakNotJoined (p : Station) (s : State) : State := askPresence (needSync p (stopBackoff p (failAll p .notJoined s)))

/-- A matching NAK (R71, R73 to R77): the refusals that are not final act only on an entry in WAITING. -/
def actOnNak (i : Slot) (e : Entry) (c : NakCode) (s : State) : State :=
  match c, e.state with
  | .denied, _ => failEntry .remoteDenied i e s
  | .store, _ => failEntry .remoteStoreError i e s
  | .malformed, _ => failEntry .remoteMalformed i e s
  | .notJoined, _ => nakNotJoined e.target s
  | .sequence, .waiting _ => nakSequence i e s
  | .busy, .waiting _ => nakBusy i e s
  | .sequence, _ => s
  | .busy, _ => s

/-- What a matching reply does to its entry (R71): nothing, if its kind, length or code does not fit. -/
def actOnReply (i : Slot) (e : Entry) (f : Frame) (s : State) : State :=
  match f.kind, e.kind with
  | .reply .ack, .write => succeedAck i e s
  | .reply .ack, .notice => succeedAck i e s
  | .reply .readData, .read => if f.length.toNat = e.length then succeedRead i e f.payload s else s
  | .reply .swapReply, .swap =>
    match swapOf f.code with
    | some r => succeedSwap i e r f.payload s
    | none => s
  | .reply .nak, _ =>
    match nakOf f.code with
    | some c => actOnNak i e c s
    | none => s
  | _, _ => s

/-- The request table takes a reply (R71, R132, R151). -/
def takeReply (s : State) : State :=
  match s.sl.inReplies with
  | [] => s
  | f :: rest =>
    let s1 := modLine (fun sl => { sl with inReplies := rest }) s
    match stationOf f.sender with
    | none => s1
    | some p =>
      let s2 := hearFrom p s1
      match matchEntry s2 p f.sequence with
      | none => s2
      | some (i, e) => actOnReply i e f s2

/-! ## Deadlines -/

/-- Whether an entry is in WAITING or REWIND (R83). -/
def Entry.unanswered (e : Entry) : Bool := decide (e.state ≠ .queued)

/-- An entry after go-back of a target (R83): REWIND with charge CHARGED, if it is the target's and in WAITING or REWIND. -/
def rewound (p : Station) (e : Entry) : Entry :=
  if e.target = p ∧ e.unanswered then { e with state := .rewind true } else e

/-- Go-back (R83): every WAITING or REWIND entry of a target passes to REWIND with charge CHARGED. -/
def goBack (p : Station) (s : State) : State :=
  { s with rt := { s.rt with entries := s.rt.entries.map (Option.map (rewound p)) } }

/-- The deadline of an entry in WAITING passes (R83); the clock stands at it or later (log 6). -/
def passDeadline (i : Slot) (s : State) : State :=
  match s.entry i with
  | none => s
  | some e =>
    match e.state with
    | .waiting deadline =>
      let s1 := { s with now := max s.now deadline }
      if (entriesFor s e.target).any fun x => x.2.unanswered && decide (4 ≤ x.2.tries) then declareUnreachable e.target s1
      else goBack e.target s1
    | _ => s

/-- A running busy backoff ends (R76); the clock stands at its end or later (log 6). It ends in every phase, DETACHED included: the
model's choice between R76 and R191 (log 28). -/
def endBackoff (p : Station) (s : State) : State :=
  match (s.peer p).tx.backoff with
  | none => s
  | some time => stopBackoff p { s with now := max s.now time }

/-! ## The commands -/

/-- ISSUE_TURN (R45). -/
def execIssueTurn (s : State) : Host.Outcome State Fault Refusal := happening takeTurn s

/-- REPLY_TAKE (R71). -/
def execReplyTake (s : State) : Host.Outcome State Fault Refusal := happening takeReply s

/-- DEADLINE_PASS (R83). -/
def execDeadlinePass (i : Slot) (s : State) : Host.Outcome State Fault Refusal := happening (passDeadline i) s

/-- BUSY_BACKOFF_END (R76). -/
def execBusyBackoffEnd (p : Station) (s : State) : Host.Outcome State Fault Refusal := happening (endBackoff p) s

end Sys2Proof.Machine
end

