-- ==== Sys2Proof/Machine/Line.lean ====
section
/-! DEFINITION. The station line and membership: receiving frames, presence frames, claim windows, transmissions (R127 to R156);
the commands FRAME_END, CLAIM_WINDOW_OPEN, CLAIM_SLOT, CLAIM_WINDOW_END, TRANSMISSION_END. -/

namespace Sys2Proof.Machine

/-! ## Presence frames -/

/-- Stores the label of a presence frame (R144). -/
def storeLabel (p : Station) (label : List Byte) (s : State) : State := setPeer p { s.peer p with label := label } s

/-- Gives a station its status and sets its change flag if that changes it, or if `always` (R154). -/
def noteStatus (p : Station) (v : PeerStatus) (always : Bool) (s : State) : State :=
  let s1 := setStatus p v s
  if always ∨ (s.peer p).status ≠ v then flagPeer p s1 else s1

/-- A HELLO taken after SEAL (R145): both parts reset, PRESENT, flagged, and an unmarked presence frame asked for (R150). -/
def helloFrom (p : Station) (s : State) : State :=
  askPresence (noteStatus p .present true (resetReceive p (resetTransmit p .peerRestarted s)))

/-- An unmarked presence frame taken after SEAL (R146). -/
def unmarkedFrom (p : Station) (s : State) : State :=
  if (s.peer p).status = .absent ∨ (s.peer p).status = .unreachable then noteStatus p .present false (needSync p s) else s

/-- A LEAVING frame taken after SEAL (R147). -/
def leavingFrom (p : Station) (s : State) : State :=
  noteStatus p .absent false (resetReceive p (resetTransmit p .peerLeft s))

/-- The membership unit takes a presence frame (R144 to R148). -/
def takePresence (p : Station) (f : Frame) (s : State) : State :=
  let s1 := storeLabel p f.payload s
  if s.hp.phase = .config then
    noteStatus p (if f.flags.leaving then .absent else .present) f.flags.hello s1
  else if f.flags.hello then helloFrom p s1
  else if f.flags.leaving then leavingFrom p s1
  else unmarkedFrom p s1

/-! ## Receiving -/

/-- The number after a station's, modulo 31 (R128). -/
def rotorAfter (p : Station) : Station := p + 1

/-- Whether a good frame of a known kind passes the filters, in a phase other than DETACHED (R129). -/
def passesFilters (s : State) (f : Frame) : Bool :=
  decide (f.sender ≠ ownByte s.own)
    && (decide (f.target = ownByte s.own) || (decide (f.kind = .presence) && decide (f.target = 31)))
    && (match f.kind, s.hp.phase with
        | .presence, _ => decide (f.payload.length = 8) && !(f.flags.hello && f.flags.leaving)
        | _, .config => false
        | .request _, .joining => false
        | _, _ => true)

/-- Routes a frame that has passed the filters (R130): a full buffer loses it. -/
def routeFrame (p : Station) (f : Frame) (s : State) : State :=
  match f.kind with
  | .presence => takePresence p f s
  | .request _ =>
    if s.sl.inRequests.length < 4 then modLine (fun sl => { sl with inRequests := sl.inRequests ++ [f] }) s else s
  | .reply _ =>
    if s.sl.inReplies.length < 4 then modLine (fun sl => { sl with inReplies := sl.inReplies ++ [f] }) s else s

/-- A frame on the line ends (R127 to R130). A station does not receive while it transmits. The claim window that the frame
followed is over. In DETACHED no frame is taken. -/
def takeFrame (received : List Byte) (s : State) : State :=
  if s.sl.claim ≠ .idle then s
  else
    let s1 := modLine (fun sl => { sl with window := none }) s
    if s.hp.phase = .detached then s1
    else
      match receiveBytes received with
      | .failed => s1
      | .unknownKind p => modLine (fun sl => { sl with rotor := rotorAfter p }) s1
      | .good p f =>
        let s2 := modLine (fun sl => { sl with rotor := rotorAfter p }) s1
        if passesFilters s2 f then routeFrame p f s2 else s2

/-! ## Claiming -/

/-- Whether the phase is one in which a station claims and transmits (R138, R140). -/
def transmits : Phase → Bool
  | .joining | .running | .leaving => true
  | _ => false

/-- This station's place in the slot order: (n - r) modulo 31 for its number n and rotor r (R136). -/
def slotPlace (own : BitVec 5) (rotor : Station) : Nat := (own.toNat + 31 - rotor.val) % 31

/-- The window of a station that opens now (R136, R138): its two slots from its rotor as it stands. -/
def ownWindow (s : State) : ClaimWindow where
  takesPart := transmits s.hp.phase
  replySlot := slotPlace s.own s.sl.rotor
  requestSlot := 31 + slotPlace s.own s.sl.rotor
  claimed := false

/-- A claim window opens (R136). -/
def openWindow (s : State) : State :=
  if s.sl.claim ≠ .idle then s else modLine (fun sl => { sl with window := some (ownWindow s) }) s

/-- What the station commits in a slot of its window, if it claims there (R138). -/
def claimIn (sl : LineUnit) (w : ClaimWindow) (n : Nat) : Option Committed :=
  if w.takesPart = false ∨ w.claimed then none
  else if n = w.replySlot ∧ sl.replyQueue ≠ [] then some .reply
  else if n = w.requestSlot then
    if sl.holder.isSome then some .presence else if sl.requestQueue ≠ [] then some .request else none
  else none

/-- A claim slot begins (R138): in its own slot a station with something to send drives its mark, and the frame is committed. -/
def beginSlot (n : Fin 62) (s : State) : State :=
  match s.sl.claim, s.sl.window with
  | .idle, some w =>
    match claimIn s.sl w n.val with
    | some c => modLine (fun sl => { sl with claim := .marking n c, window := some { w with claimed := true } }) s
    | none => s
  | _, _ => s

/-- What the line shows when the claimants of a slot combine: a digit is 0 if it is 0 in any claimant's number (R138). -/
def readBack (own : BitVec 5) (others : List (BitVec 5)) : BitVec 5 := others.foldl (· &&& ·) own

/-- The commitment ends without a transmission (R135): a frame kept aside is loaded, and a request frame whose withdrawal has
waited leaves the queue. -/
def defer (sl : LineUnit) : LineUnit :=
  loadAside { sl with claim := .idle, requestQueue := sl.requestQueue.filter fun q => !q.withdrawn }

/-- The read-back of a claim mark settles the slot for the station that drove it (R139). -/
def endSlot (n : Fin 62) (others : List (BitVec 5)) (s : State) : State :=
  match s.sl.claim with
  | .marking m c =>
    if m ≠ n then s
    else if readBack s.own others = s.own then
      modLine (fun sl => { sl with claim := .sending c, window := none }) s
    else modLine defer s
  | _ => s

/-- A claim slot (R138, R139). -/
def passSlot (n : Fin 62) (part : SlotPart) (s : State) : State :=
  match part with
  | .begins => beginSlot n s
  | .ends others => endSlot n others s
  | .whole others => endSlot n others (beginSlot n s)

/-- A claim window ends after slot 61 with no winner (R137): the rotor is 0, in every phase but DETACHED. -/
def endWindow (s : State) : State :=
  if s.sl.claim ≠ .idle then s
  else if s.hp.phase = .detached then modLine (fun sl => { sl with window := none }) s
  else modLine (fun sl => { sl with window := none, rotor := 0 }) s

/-! ## Transmitting -/

/-- The sent report of a request frame (R69): an entry held, in QUEUED, with that sequence number becomes WAITING. -/
def reportSent (q : QueuedFrame) (s : State) : State :=
  match s.entry q.slot with
  | none => s
  | some e =>
    if e.state = .queued ∧ e.sequence = q.frame.sequence then
      setEntry q.slot (some { e with state := .waiting (s.now + s.timeout) }) s
    else s

/-- The sent report of a presence frame (R153): a HELLO carries JOINING to RUNNING, a LEAVING frame LEAVING to DETACHED. -/
def reportPresence (f : Frame) (s : State) : State :=
  if f.flags.hello ∧ s.hp.phase = .joining then modPort (fun p => { p with phase := .running }) s
  else if f.flags.leaving ∧ s.hp.phase = .leaving then modPort (fun p => { p with phase := .detached }) s
  else s

/-- The frame a claim sends. -/
def sentFrame (sl : LineUnit) : Committed → Option Frame
  | .reply => sl.replyQueue.head?
  | .presence => sl.holder
  | .request => sl.requestQueue.head?.map QueuedFrame.frame

/-- The line unit once a frame has gone out (R135, R140): the frame leaves its queue or holder, the commitment ends, and the
rotor is the own number plus 1, modulo 31. -/
def afterSending (own : BitVec 5) (c : Committed) (sl : LineUnit) : LineUnit :=
  let sl1 := { sl with
    claim := .idle
    rotor := Fin.ofNat 31 (own.toNat + 1)
    lastSent := ((sentFrame sl c).map frameBytes).getD [] }
  match c with
  | .reply => { sl1 with replyQueue := sl.replyQueue.drop 1 }
  | .presence => loadAside { sl1 with holder := none }
  | .request => { sl1 with requestQueue := sl.requestQueue.drop 1 }

/-- The report of a sent frame (R140): a reply needs none, and that of a request withdrawn while it was committed is disregarded
(R135). -/
def reportFrame (sl : LineUnit) (c : Committed) (s : State) : State :=
  match c with
  | .reply => s
  | .presence =>
    match sl.holder with
    | some f => reportPresence f s
    | none => s
  | .request =>
    match sl.requestQueue.head? with
    | some q => if q.withdrawn then s else reportSent q s
    | none => s

/-- The station's transmission ends (R140). -/
def endTransmission (s : State) : State :=
  match s.sl.claim with
  | .sending c => reportFrame s.sl c (modLine (afterSending s.own c) s)
  | _ => s

/-! ## The commands -/

/-- FRAME_END (R127). -/
def execFrameEnd (received : List Byte) (s : State) : Host.Outcome State Fault Refusal := happening (takeFrame received) s

/-- CLAIM_WINDOW_OPEN (R136). -/
def execClaimWindowOpen (s : State) : Host.Outcome State Fault Refusal := happening openWindow s

/-- CLAIM_SLOT (R138). -/
def execClaimSlot (n : Fin 62) (part : SlotPart) (s : State) : Host.Outcome State Fault Refusal :=
  happening (passSlot n part) s

/-- CLAIM_WINDOW_END (R137). -/
def execClaimWindowEnd (s : State) : Host.Outcome State Fault Refusal := happening endWindow s

/-- TRANSMISSION_END (R140). -/
def execTransmissionEnd (s : State) : Host.Outcome State Fault Refusal := happening endTransmission s

end Sys2Proof.Machine
end

