-- ==== Sys2Proof/Machine/StoreAccess.lean ====
section
/-! DEFINITION. STORE_ACCESS_END (R16): the granted access is made, and its requester acts on the outcome (R23, R29, R31 to R33, R42,
R44, R51, R52, R56, R79, R80, R104, R106, R107, R173, R175). -/

namespace Sys2Proof.Machine

/-- The bytes of a successful read, if it was one (R3). -/
def StoreOutcome.read? : StoreOutcome → Option (List Byte)
  | .data bytes => some bytes
  | _ => none

/-- Whether an access was refused (R16). -/
def StoreOutcome.isError : StoreOutcome → Bool
  | .storeError _ => true
  | _ => false

/-! ## Host port -/

/-- The commit after one of its words (R175): the next word is asked for; after the last, COMMIT is cleared and WRITE-ERROR
shows whether a word was skipped. -/
def commitWord (r : RangeWrite) (o : StoreOutcome) (s : State) : State :=
  let refused := r.refused || o.isError
  if r.rest = [] then modPort (fun p => { p with commit := false, writeError := refused }) s
  else
    let w := writePiece r.next r.rest refused
    askHp w.1 (.commit w.2) s

/-- The host port acts on an outcome (R9). -/
def actHp (w : HpWork) (o : StoreOutcome) (s : State) : State :=
  match w, o with
  | .commit r, o => commitWord r o s
  | .stream, .data bytes => streamWord bytes false s
  | .stream, .storeError bytes => streamWord bytes true s
  | _, _ => s

/-! ## Channel engine -/

/-- A descriptor has been fetched and checked (R24, R41, R43): the copy is kept, progress is cleared, and an AWAIT starts. -/
def keepDescriptor (ch : ChannelNo) (a : Addr) (bytes : List Byte) (s : State) : State :=
  let s1 := modChannel ch (fun c => { c.restarted with current := some ⟨a, bytes⟩ }) s
  let d := descriptorOf bytes
  if d.op = some .await then startAwait ch d s1 else s1

/-- Whether the target of a descriptor is PRESENT (R24, check 8). -/
def targetPresent (d : Descriptor) (s : State) : Bool :=
  (stationOf d.target).any fun p => decide ((s.peer p).status = .present)

/-- Four words have been fetched: the checks of R24 decide. -/
def fetched (ch : ChannelNo) (a : Addr) (bytes : List Byte) (s : State) : State :=
  let d := descriptorOf bytes
  match d.check s.own (targetPresent d s) with
  | some code => failFetch ch a code s
  | none => keepDescriptor ch a bytes s

/-- A fetch after one of its words (R23). -/
def fetchWord (ch : ChannelNo) (a : Addr) (got : List Byte) (o : StoreOutcome) (s : State) : State :=
  match o.read? with
  | none => failFetch ch a .storeError s
  | some bytes =>
    let all := got ++ bytes
    if all.length < 32 then askCe (.read (wordOf (a.toNat + all.length))) (.fetch ch a all) s
    else fetched ch a all s

/-- A payload read after one of its words (R29, R48, R49, R79, R80). That the words after a refused one are not read is the model's
choice (log 23). -/
def payloadWord (r : RangeRead) (o : StoreOutcome) (s : State) : State :=
  match s.ce.turn with
  | none => s
  | some t =>
    match o.read? with
    | none => failTurn t s
    | some bytes =>
      let got := r.inHand bytes
      if r.left = 0 then finishTurn t got s
      else
        let p := readPiece r.next r.left got
        askCe p.1 (.payload p.2) s

/-- The data write of a GET segment after one of its words (R51): the remaining words are written even after a refusal, and the
segment then fails. -/
def getWord (ch : ChannelNo) (r : RangeWrite) (offset : Nat) (o : StoreOutcome) (s : State) : State :=
  let refused := r.refused || o.isError
  if r.rest ≠ [] then
    let p := writePiece r.next r.rest refused
    askCe p.1 (.getWrite ch p.2 offset) s
  else if refused then failSegment ch .storeError offset s
  else segmentDone ch s

/-- The value write of an AWAIT after one of its words (R44). -/
def valueWord (ch : ChannelNo) (r : RangeWrite) (o : StoreOutcome) (s : State) : State :=
  let refused := r.refused || o.isError
  if r.rest ≠ [] then
    let p := writePiece r.next r.rest refused
    askCe p.1 (.valueWrite ch p.2) s
  else if refused then failSegment ch .storeError 0 s
  else startCompletion ch s

/-- The fault of a refused completion write (R33). -/
def completionFault (c : Channel) : FaultRecord := ⟨.storeError, c.address, 0⟩

/-- An advance write has ended (R31, R33): a refused one is followed by the faulted status byte, otherwise completion goes on. -/
def advanceEnded (ch : ChannelNo) (o : StoreOutcome) (next : Descriptor → State → State) (s : State) : State :=
  match (s.channel ch).descriptor with
  | none => s
  | some d => if o.isError then askFaultStatus ch (completionFault (s.channel ch)) s else next d s

/-- The channel engine acts on an outcome (R9). -/
def actCe (w : CeWork) (o : StoreOutcome) (s : State) : State :=
  match w with
  | .fetch ch a got => fetchWord ch a got o s
  | .payload r => payloadWord r o s
  | .getWrite ch r offset => getWord ch r offset o s
  | .resultWrite ch => if o.isError then failSegment ch .storeError 0 s else segmentDone ch s
  | .valueWrite ch r => valueWord ch r o s
  | .advanceLocal ch => advanceEnded ch o (advanceRemote ch) s
  | .advanceRemote ch => advanceEnded ch o (askDoneStatus ch) s
  | .doneStatus ch => if o.isError then reportFault ch (completionFault (s.channel ch)) s else finishDescriptor ch s
  | .faultStatus ch r => reportFault ch r s
  | .dropped => s

/-! ## Service unit -/

/-- A remote WRITE after one of its words (R104). -/
def remoteWrite (x : Execution) (r : RangeWrite) (o : StoreOutcome) (s : State) : State :=
  let refused := r.refused || o.isError
  if r.rest ≠ [] then
    let p := writePiece r.next r.rest refused
    askSu p.1 (.write p.2) s
  else if refused then endExecution x .store (.nak .store) s
  else endExecution x .ack .ack s

/-- A remote READ after one of its words (R100, R106). -/
def remoteRead (x : Execution) (r : RangeRead) (o : StoreOutcome) (s : State) : State :=
  match o.read? with
  | none => endExecution x .store (.nak .store) s
  | some bytes =>
    let got := r.inHand bytes
    if r.left = 0 then endExecution x .readData (.readData got) s
    else
      let p := readPiece r.next r.left got
      askSu p.1 (.read p.2) s

/-- A remote SWAP's access has ended (R107). -/
def remoteSwap (x : Execution) (o : StoreOutcome) (s : State) : State :=
  match o with
  | .swapped old => endExecution x (.swapped old) (.swapReply .swapped old) s
  | .unchanged old => endExecution x (.unchanged old) (.swapReply .unchanged old) s
  | _ => endExecution x .store (.nak .store) s

/-- The service unit acts on an outcome (R9). -/
def actSu (w : SuWork) (o : StoreOutcome) (s : State) : State :=
  match s.su.execution with
  | none => s
  | some x =>
    match w with
    | .write r => remoteWrite x r o s
    | .read r => remoteRead x r o s
    | .swap => remoteSwap x o s

/-! ## The end of an access -/

/-- The effect of an access on the store, and the arbiter free again (R8, R10). -/
def madeAccess (a : Access) (arb : Arbiter) (s : State) : State :=
  { s with st := (performAccess s.st a).1, arb := { arb with granted := none } }

/-- The granted access ends (R16): it is made, and its requester acts on the outcome. -/
def endAccess (s : State) : State :=
  match s.arb.granted, s.arb.hp, s.arb.ce, s.arb.su with
  | some .hp, (a, w) :: rest, _, _ =>
    actHp w (performAccess s.st a).2 (madeAccess a { s.arb with hp := rest } s)
  | some .ce, _, (a, w) :: rest, _ =>
    actCe w (performAccess s.st a).2 (madeAccess a { s.arb with ce := rest } s)
  | some .su, _, _, (a, w) :: rest =>
    actSu w (performAccess s.st a).2 (madeAccess a { s.arb with su := rest } s)
  | _, _, _, _ => s

/-- STORE_ACCESS_END (R16). -/
def execStoreAccessEnd (s : State) : Host.Outcome State Fault Refusal := happening endAccess s

end Sys2Proof.Machine
end

