-- ==== Sys2Proof/Machine/Supply.lean ====
section
/-! DEFINITION. Reset, power and disturbance: HARDWARE_RESET, POWER_UP, RESET_END, STORE_DISTURBANCE (R2, R13 to R15, R37, R88, R112,
R123, R141, R143, R157, R167, R178, R186). -/

namespace Sys2Proof.Machine

/-- Every block at its reset values (R186) with the station number the straps give (R143) and a given store. The pins belong to
the outside; the clock, the count of free bytes and the waiting commands are the model's own. -/
def resetWith (straps : BitVec 5) (st : PageStore) (s : State) : State :=
  { State.reset with
    st := st
    peers := resetPeers straps
    own := straps
    pins := s.pins
    now := s.now
    draws := s.draws
    pending := s.pending }

/-- The access that holds the grant, if any (R8). -/
def grantedAccess (a : Arbiter) : Option Access :=
  match a.granted with
  | none => none
  | some .hp => a.hp.head?.map Prod.fst
  | some .ce => a.ce.head?.map Prod.fst
  | some .su => a.su.head?.map Prod.fst

/-- The store after a reset (R13, R14): the access holding the grant is made whole or not at all; nothing else changes. -/
def storeAtReset (made : Bool) (s : State) : PageStore :=
  match made, grantedAccess s.arb with
  | true, some a => (performAccess s.st a).1
  | _, _ => s.st

/-- RESET is asserted (R13, R178, R186). -/
def assertReset (straps : BitVec 5) (made : Bool) (s : State) : State :=
  let s1 := resetWith straps (storeAtReset made s) s
  { s1 with pins := { s1.pins with resetLow := true } }

/-- RESET is released (R186): the straps are sampled, and the part begins in CONFIG with every block at its reset values. -/
def releaseReset (straps : BitVec 5) (s : State) : State :=
  if s.pins.resetLow then
    let s1 := resetWith straps s.st s
    { s1 with pins := { s1.pins with resetLow := false } }
  else s

/-- HARDWARE_RESET (R186). -/
def execHardwareReset (straps : BitVec 5) (made : Bool) (s : State) : Host.Outcome State Fault Refusal :=
  .next (assertReset straps made s)

/-- POWER_UP (R15): a hardware reset that leaves every word of the store with arbitrary content and check bits. -/
def execPowerUp (straps : BitVec 5) (content : List Host.Cell) (marks : List (WordNo × Condition)) (s : State) :
    Host.Outcome State Fault Refusal :=
  .next (resetWith straps (contentStore content marks) s)

/-- RESET_END (R186). -/
def execResetEnd (straps : BitVec 5) (s : State) : Host.Outcome State Fault Refusal := .next (releaseReset straps s)

/-- STORE_DISTURBANCE (R2). -/
def execStoreDisturbance (w : WordNo) (bits : Nat) (found : Condition) (raw : List Byte) (s : State) :
    Host.Outcome State Fault Refusal :=
  .next { s with st := disturb s.st w bits found raw }

end Sys2Proof.Machine
end

