-- ==== Sys2Proof/Machine/Dispatch.lean ====
section
/-! DEFINITION. The dispatch: one arm for each command, one direct call of its meaning. -/

namespace Sys2Proof.Machine

def exec (i : Instr) (s : State) : Host.Outcome State Fault Refusal :=
  match i with
  | .hardwareReset straps made => Sys2Proof.Machine.execHardwareReset straps made s
  | .powerUp straps content marks => Sys2Proof.Machine.execPowerUp straps content marks s
  | .storeDisturbance word bits found raw => Sys2Proof.Machine.execStoreDisturbance word bits found raw s
  | .storeAccessEnd => Sys2Proof.Machine.execStoreAccessEnd s
  | .issueTurn => Sys2Proof.Machine.execIssueTurn s
  | .replyTake => Sys2Proof.Machine.execReplyTake s
  | .deadlinePass slot => Sys2Proof.Machine.execDeadlinePass slot s
  | .busyBackoffEnd target => Sys2Proof.Machine.execBusyBackoffEnd target s
  | .requestTake => Sys2Proof.Machine.execRequestTake s
  | .frameEnd received => Sys2Proof.Machine.execFrameEnd received s
  | .claimWindowOpen => Sys2Proof.Machine.execClaimWindowOpen s
  | .claimSlot slot part => Sys2Proof.Machine.execClaimSlot slot part s
  | .claimWindowEnd => Sys2Proof.Machine.execClaimWindowEnd s
  | .transmissionEnd => Sys2Proof.Machine.execTransmissionEnd s
  | .selectAssert clockHigh => Sys2Proof.Machine.execSelectAssert clockHigh s
  | .selectRelease bits => Sys2Proof.Machine.execSelectRelease bits s
  | .transactionComplete => Sys2Proof.Machine.execTransactionComplete s
  | .unknownCommand code => Sys2Proof.Machine.execUnknownCommand code s
  | .status => Sys2Proof.Machine.execStatus s
  | .storeRead t => Sys2Proof.Machine.execStoreRead t s
  | .storeWrite t => Sys2Proof.Machine.execStoreWrite t s
  | .takeEvent => Sys2Proof.Machine.execTakeEvent s
  | .takeNotice => Sys2Proof.Machine.execTakeNotice s
  | .takeChanges => Sys2Proof.Machine.execTakeChanges s
  | .submit t => Sys2Proof.Machine.execSubmit t s
  | .resume t => Sys2Proof.Machine.execResume t s
  | .abort t => Sys2Proof.Machine.execAbort t s
  | .readChannel t => Sys2Proof.Machine.execReadChannel t s
  | .readPeer t => Sys2Proof.Machine.execReadPeer t s
  | .setWindow t => Sys2Proof.Machine.execSetWindow t s
  | .setLabel t => Sys2Proof.Machine.execSetLabel t s
  | .setTiming t => Sys2Proof.Machine.execSetTiming t s
  | .sealStation => Sys2Proof.Machine.execSeal s
  | .gate t => Sys2Proof.Machine.execGate t s
  | .mask t => Sys2Proof.Machine.execMask t s
  | .leave => Sys2Proof.Machine.execLeave s
  | .resetEnd straps => Sys2Proof.Machine.execResetEnd straps s
  | .streamByte data => Sys2Proof.Machine.execStreamByte data s

end Sys2Proof.Machine
end

