-- ==== Sys2Proof/Safety.lean ====
section
/-! DEFINITION. The terms that claims about the part are stated in: when happenings take place, what a host command's bytes and its
end leave in the port, and the forms that every step keeps. -/

namespace Sys2Proof.Machine

/-! ## When happenings take place -/

/-- RESET is not held low (R186): happenings take place. -/
abbrev Live (s : State) : Prop := s.pins.resetLow = false

/-- Nothing that closes a happening is due: a free store is wanted by no requester (R10), and no LEAVING frame is to be loaded
(R190). -/
abbrev Settled (s : State) : Prop :=
  (s.arb.granted.isSome ∨ (s.arb.hp = [] ∧ s.arb.ce = [] ∧ s.arb.su = [])) ∧ loadLeaving s = s

/-! ## The host port -/

/-- Whether a transaction stands where a command with operands may be taken whole (R169): before its command byte, or at its operands,
however many of them are still to come. -/
def Transaction.awaits (c : HostCode) : Transaction → Bool
  | .command => true
  | .operands c' _ => decide (c' = c)
  | _ => false

/-- The transaction stands where a command with operands may be taken whole (R169). -/
abbrev ReadyFor (c : HostCode) (s : State) : Prop := s.hp.txn.awaits c = true

/-- The bytes the port shifts out until the decision point of a command with operands (R168): the status byte, if the command
byte is still to come, and 0x00 for each operand byte still to come. -/
def answered (c : HostCode) (s : State) : List Byte :=
  match s.hp.txn with
  | .operands _ left => List.replicate left 0
  | _ => s.hp.status :: List.replicate (operandCount c) 0

/-- The port after a command without output was carried out (R169, R170), with the bytes shifted out meanwhile. -/
def HostPort.done (p : HostPort) (bytes : List Byte) : HostPort :=
  { p with out := p.out ++ bytes, sdo := .driven, refused := false, txn := .spent }

/-- The port after a command was refused (R171), with the bytes shifted out meanwhile. -/
def HostPort.denied (p : HostPort) (bytes : List Byte) (r : RefusalReason) : HostPort :=
  { p with out := p.out ++ bytes, sdo := .driven, refused := true, reason := some r, txn := .spent }

/-- The port after the decision point of a command that returns a record (R169, R177), with the bytes shifted out meanwhile. -/
def HostPort.showing (p : HostPort) (bytes record : List Byte) (took : Took) : HostPort :=
  { p with out := p.out ++ bytes, sdo := .driven, txn := .output record took }

/-! ## Records and writes -/

/-- The number that bytes hold, the most significant first (R180). -/
def bigEndian (b : List Byte) : Nat := b.foldl (fun a x => 256 * a + x.toNat) 0

/-- The number in `n` bytes of a record, from byte `i` on. -/
def recordField (r : List Byte) (i n : Nat) : Nat := bigEndian ((r.drop i).take n)

/-- The check register over a run of bytes (R126): it starts with all bits set, the bits of each byte go in most significant first, and
where the bit that leaves it differs from the bit that goes in, the generator is added. -/
def checkRegister (b : List Byte) : BitVec 32 :=
  (b.flatMap fun x => (List.range 8).map fun k => x.getLsbD (7 - k)).foldl
    (fun r bit => if r.msb = bit then r <<< 1 else (r <<< 1) ^^^ 0x04C11DB7) 0xFFFFFFFF

/-- The one-byte write of the status byte of the descriptor at an address (R22). -/
def statusWrite (a : Addr) (b : Byte) : Access := .part (BitVec.ofNat 14 ((a.toNat + 31) / 8)) ((a.toNat + 31) % 8) [b]

/-- The write of a fault report: 0x80 plus the code (R22, R42, R56). -/
def faultWrite (ch : ChannelNo) (r : FaultRecord) : Access × CeWork :=
  (statusWrite r.address (0x80 + faultByte r.code), .faultStatus ch r)

/-- The last write of a completion: DONE-UNCHANGED for a SWAP that reported UNCHANGED, DONE otherwise (R32). -/
def doneWrite (ch : ChannelNo) (c : Channel) (cur : Current) : Access × CeWork :=
  (statusWrite cur.address (if (descriptorOf cur.bytes).op = some .swap ∧ c.swapResult = some .unchanged then 0x02 else 0x01),
    .doneStatus ch)

/-- The write of a completion after the local address, if it was due, is written back (R31). -/
def remoteAdvanceWrite (ch : ChannelNo) (c : Channel) (cur : Current) : Access × CeWork :=
  let d := descriptorOf cur.bytes
  if (d.op = some .put ∨ d.op = some .get) ∧ d.advRemote = true then
    (.part (BitVec.ofNat 14 ((cur.address.toNat + 16) / 8)) 0 (addrBytes d.advancedRemote), .advanceRemote ch)
  else doneWrite ch c cur

/-- The first write of a completion (R31, R32). -/
def completionWrite (ch : ChannelNo) (c : Channel) (cur : Current) : Access × CeWork :=
  let d := descriptorOf cur.bytes
  if (d.op = some .put ∨ d.op = some .get) ∧ d.advLocal = true then
    (.part (BitVec.ofNat 14 ((cur.address.toNat + 12) / 8)) 4 (addrBytes d.advancedLocal), .advanceLocal ch)
  else remoteAdvanceWrite ch c cur

/-- The write of a channel in AWAIT that is given a notice: with KEEP-VALUE the first word of its value, otherwise the status byte
DONE (R44). -/
def noticeWrite (ch : ChannelNo) (cur : Current) (n : Notice) : Access × CeWork :=
  let d := descriptorOf cur.bytes
  let p := writePiece d.localAt.toNat n.value false
  if d.keepValue then (p.1, .valueWrite ch p.2) else (statusWrite cur.address 0x01, .doneStatus ch)

/-- The state in which the granted access of the channel engine has been made, and its outcome is still to be acted on. -/
def accessMade (x : Access) (rest : List (Access × CeWork)) (s : State) : State :=
  { s with st := (performAccess s.st x).1, arb := { s.arb with granted := none, ce := rest } }

/-- A station that was UNREACHABLE is PRESENT again, with sync-needed and its change flag (R151). -/
def broughtBack (p : Station) (s : State) : State :=
  { s with
    peers := s.peers.set p.val { s.peer p with status := .present, tx := { (s.peer p).tx with syncNeeded := true } } p.isLt
    ev := { s.ev with peerFlags := s.ev.peerFlags ||| (1#31 <<< p.val) } }

/-! ## Forms that every step keeps -/

/-- No queue or buffer holds more than its rule allows: 32 events (R158), 16 notices with the one set apart (R113, R176), 4
inbound requests and 4 inbound replies (R131, R132), 8 replies with the one of the request in execution (R133), 4 request
frames with the one of the turn in progress (R134). -/
abbrev QueuesBounded (s : State) : Prop :=
  s.ev.events.length ≤ 32
    ∧ s.nq.records.length + setApart s ≤ 16
    ∧ s.sl.inRequests.length ≤ 4 ∧ s.sl.inReplies.length ≤ 4
    ∧ s.sl.replyQueue.length + (if s.su.execution.isSome then 1 else 0) ≤ 8
    ∧ s.sl.requestQueue.length + (if s.ce.turn.isSome then 1 else 0) ≤ 4

/-- Every reply cache holds at most 4 records, with the consecutive sequence numbers just below E, the newest at E - 1 (R92). -/
abbrev CacheInOrder (s : State) : Prop :=
  ∀ p : Station, (s.peer p).rx.cache.length ≤ 4
    ∧ (s.peer p).rx.cache.map CacheRecord.sequence
        = (List.range (s.peer p).rx.cache.length).map fun i =>
            (s.peer p).rx.expected - BitVec.ofNat 8 ((s.peer p).rx.cache.length - i)

/-- The order of taking lists each held entry once and nothing else (R63). -/
abbrev OrderListsHeld (s : State) : Prop := s.rt.order.Nodup ∧ ∀ i : Slot, i ∈ s.rt.order ↔ (s.entry i).isSome = true

/-- How many entries held satisfy a test. -/
def entryCount (s : State) (test : Entry → Bool) : Nat := (List.finRange 16).countP fun i => (s.entry i).any test

/-- The counts agree with the request table: a channel's outstanding count is the number of its entries that are no orphans
(R36), a target's held count the number of entries held for it (R64). -/
abbrev CountsExact (s : State) : Prop :=
  (∀ ch : ChannelNo, (s.channel ch).outstanding = entryCount s fun e => decide (e.channel = ch) && !e.orphan)
    ∧ ∀ p : Station, (s.peer p).tx.held = entryCount s fun e => decide (e.target = p)

/-- The entries held for a target have different ages from 1 to 4 (R65); while a channel's turn builds a frame for a target, no
entry held for it has age 4 (R46, R66); and of two entries of one target, the one earlier in the order of taking is the older
(R67, log 16). -/
def AgesInWindow (s : State) : Prop :=
  (∀ (i : Slot) (e : Entry), s.entry i = some e → 1 ≤ age s e ∧ age s e ≤ 4)
    ∧ (∀ (i j : Slot) (e f : Entry), s.entry i = some e → s.entry j = some f → e.target = f.target → age s e = age s f → i = j)
    ∧ (∀ (ch : ChannelNo) (p : Station), s.ce.turn = some (.channel ch p) →
        ∀ (i : Slot) (e : Entry), s.entry i = some e → e.target = p → age s e ≠ 4)
    ∧ s.rt.order.Pairwise fun i j =>
        ∀ e f : Entry, s.entry i = some e → s.entry j = some f → e.target = f.target → age s f < age s e

/-- The work of a channel that is asked for and not abandoned, in the order asked for (R8). -/
def worksOf (s : State) (ch : ChannelNo) : List CeWork := (s.arb.ce.map Prod.snd).filter fun w => decide (w.owner = some ch)

/-- Whether a piece of work writes what a segment brought: the data of a GET or the result of a SWAP (R51, R52). -/
def CeWork.isData : CeWork → Bool
  | .getWrite _ _ _ | .resultWrite _ => true
  | _ => false

/-- Whether a piece of work is the status write of a fault report (R42, R56). -/
def CeWork.isFaultStatus : CeWork → Bool
  | .faultStatus _ _ => true
  | _ => false

/-- Whether a channel has a descriptor with segments still to issue (R27, R48). -/
def Channel.issuable (c : Channel) : Bool := c.descriptor.any c.unissued

/-- A channel's work agrees with its state. Only an ACTIVE or DRAINING channel has accesses asked for or entries outstanding (R36).
An access other than a data or result write is the channel's only one, with nothing outstanding; in ACTIVE no segment is then left
to issue, and in DRAINING it is the status write of the fault report (R23, R31, R32, R42, R44, R54, R56). A channel's turn is that of
an ACTIVE channel with a segment to issue (R46, R49). A waiter's channel is AWAITING (R114), with no segment to issue. In ACTIVE and
AWAITING each issued segment is completed, outstanding, or being written to the store (R50 to R52, R54). -/
abbrev WorkInOrderOf (s : State) (ch : ChannelNo) : Prop :=
  ((s.channel ch).state ≠ .active → (s.channel ch).state ≠ .draining → worksOf s ch = [] ∧ (s.channel ch).outstanding = 0)
    ∧ (∀ w ∈ worksOf s ch, w.isData = false → worksOf s ch = [w] ∧ (s.channel ch).outstanding = 0
        ∧ ((s.channel ch).state = .active → (s.channel ch).issuable = false)
        ∧ ((s.channel ch).state = .draining → w.isFaultStatus = true))
    ∧ (s.ce.turn.any (Turn.isOf ch) = true → (s.channel ch).state = .active ∧ (s.channel ch).issuable = true)
    ∧ (∀ v ∈ s.nq.waiters, v.channel = ch → (s.channel ch).state = .awaiting)
    ∧ ((s.channel ch).state = .awaiting → (s.channel ch).issuable = false)
    ∧ ((s.channel ch).state = .active ∨ (s.channel ch).state = .awaiting →
        (s.channel ch).issued = (s.channel ch).completed + (s.channel ch).outstanding + (worksOf s ch).countP CeWork.isData)

/-- The work of every channel agrees with its state. -/
abbrev WorkInOrder (s : State) : Prop := ∀ ch : ChannelNo, WorkInOrderOf s ch

/-- The held list (R58, R59, R159): while it is not empty the event queue holds 32 records; it lists no channel twice; a channel is
listed exactly if it is HELD, and it then has a pending event of its own, which is no CHAIN-ABORTED (R60), and for a
DESCRIPTOR-NOTIFY the descriptor that it goes on from (R32). -/
abbrev HeldListInOrder (s : State) : Prop :=
  (s.ce.held ≠ [] → s.ev.events.length = 32) ∧ s.ce.held.Nodup
    ∧ ∀ ch : ChannelNo, (ch ∈ s.ce.held ↔ (s.channel ch).state = .held)
        ∧ (ch ∈ s.ce.held → ∃ e ∈ (s.channel ch).pendingEvent, e.channel = ch ∧ e.kind ≠ .chainAborted
            ∧ (e.kind = .descriptorNotify → (s.channel ch).current ≠ none))

/-- In CONFIG the channel engine is at rest, the request table empty, and no channel waits (R37, R88, R123). -/
abbrev ConfigQuiet (s : State) : Prop :=
  s.hp.phase = .config →
    (∀ i : Slot, s.entry i = none) ∧ (∀ ch : ChannelNo, (s.channel ch).current = none)
      ∧ s.ce.held = [] ∧ s.ce.turn = none ∧ s.arb.ce = [] ∧ s.nq.waiters = []

/-- Every held entry is for a PRESENT station (R67), and the record of the own number alone has status SELF (R142, R143). -/
def TargetsPresent (s : State) : Prop :=
  (∀ (i : Slot) (e : Entry), s.entry i = some e → (s.peer e.target).status = .present)
    ∧ ∀ p : Station, (s.peer p).status = .self ↔ p.val = s.own.toNat

/-- A HELLO frame is in the presence holder in JOINING only (R188, R189), and none is kept aside (R135). -/
def HelloInJoining (s : State) : Prop :=
  (∀ f : Frame, s.sl.holder = some f → f.flags.hello = true → s.hp.phase = .joining)
    ∧ ∀ f : Frame, s.sl.aside = some f → f.flags.hello = false

/-- The attributes of a window that SEAL fixes (R89). -/
def Window.fixed (w : Window) : Nat × Nat × Rights × BitVec 31 × Bool := (w.base, w.length, w.rights, w.senders, w.singleUse)

/-- The commands that are a hardware reset or end one (R186). -/
def Resets : Instr → Bool
  | .hardwareReset _ _ | .powerUp _ _ _ | .resetEnd _ => true
  | _ => false

end Sys2Proof.Machine
end

