-- ==== Sys2Proof/WellFormed.lean ====
section
/-! DEFINITION. When a command is well formed: its operands are ones the part can be given. -/

namespace Sys2Proof

/-- The checks on a command's operands. Every other operand is well formed by its type.
- POWER_UP: every byte of the content is a byte of the store (R1).
- STORE_DISTURBANCE: at least one bit is disturbed (R2), and a word has 8 bytes (R1).
- FRAME_END: something was received (R127).
- UNKNOWN_COMMAND: the byte is no command code (R171).
- SET_LABEL: the label has 8 bytes (R187). -/
def Instr.wellFormed : Instr → Bool
  | .powerUp _ content _ => content.all fun c => decide (c.1 < 131072)
  | .storeDisturbance _ bits _ raw => decide (0 < bits) && decide (raw.length = 8)
  | .frameEnd received => !received.isEmpty
  | .unknownCommand code => (hostCodeOf code).isNone
  | .setLabel (.whole label) => decide (label.length = 8)
  | _ => true

end Sys2Proof
end

