-- ==== Sys2Proof/Certificates/Slice0/Obligations.lean ====
section
/-! DEFINITION. The statements for the provers, each formalising rules of the spec: the machine, the encodings, the store, reset,
the accesses, issuing, replies, requests, the line, the host port, and the forms that every step keeps. -/

open Sys2Proof Sys2Proof.Machine

/-! ## The machine -/

/-- A step runs the command at the front of the queue on the state with the queue's rest (log 20). -/
def Obligations.StepRunsFrontCommand : Prop :=
  ∀ (c : Instr) (rest : List Instr) (s : State), s.pending = c :: rest → step s = exec c { s with pending := rest }

/-- A step on an empty queue is the passing of one CLK period, the model's choice of log 6, and of nothing else. -/
def Obligations.EmptyQueueStepPassesOnePeriod : Prop :=
  ∀ s : State, s.pending = [] → step s = .next { s with now := s.now + 1 }

/-- Every command, from every state, answers a next state and leaves the waiting commands as they were; and from a settled state,
in which no free store is wanted (R10) and no LEAVING frame is due (R190), it leaves a settled state.
That a command the part cannot take as it stands is answered at all is the model's choice of log 7. -/
def Obligations.EveryCommandRunsAndSettles : Prop :=
  ∀ (c : Instr) (s : State), ∃ t, exec c s = .next t ∧ t.pending = s.pending ∧ (Settled s → Settled t)

/-! ## Encodings -/

/-- The bytes of a host command and the command agree both ways (R168, R180); the command byte and the operand bytes of each, and how
many operand bytes come before the decision point. -/
def Obligations.HostCommandBytesRoundTrip : Prop :=
  (∀ (i : Instr) (b : List Byte), i.wellFormed = true → hostBytes i = some b → hostCommandOf b = some i)
    ∧ (∀ (b : List Byte) (i : Instr), hostCommandOf b = some i → hostBytes i = some b)
    ∧ (∀ (x : Byte) (a : BitVec 24) (l : List Byte) (o : SubmitOps) (r : ResumeOps) (g : GateOps) (w : WindowOps),
      hostBytes .status = some [0x00]
      ∧ hostBytes (.storeRead (.whole a)) = some [0x10, a.extractLsb' 16 8, a.extractLsb' 8 8, a.extractLsb' 0 8]
      ∧ hostBytes (.storeWrite (.whole a)) = some [0x11, a.extractLsb' 16 8, a.extractLsb' 8 8, a.extractLsb' 0 8]
      ∧ hostBytes .takeEvent = some [0x20] ∧ hostBytes .takeNotice = some [0x21] ∧ hostBytes .takeChanges = some [0x22]
      ∧ hostBytes (.submit (.whole o)) =
          some [0x30, o.channel, o.cls, o.head.extractLsb' 16 8, o.head.extractLsb' 8 8, o.head.extractLsb' 0 8]
      ∧ hostBytes (.resume (.whole r)) = some [0x31, r.channel, r.cls] ∧ hostBytes (.abort (.whole x)) = some [0x32, x]
      ∧ hostBytes (.readChannel (.whole x)) = some [0x38, x] ∧ hostBytes (.readPeer (.whole x)) = some [0x39, x]
      ∧ hostBytes (.setWindow (.whole w)) = some [0x40, w.window, w.base.extractLsb' 8 8, w.base.extractLsb' 0 8,
          w.length.extractLsb' 8 8, w.length.extractLsb' 0 8, w.rights, w.senders.extractLsb' 24 8, w.senders.extractLsb' 16 8,
          w.senders.extractLsb' 8 8, w.senders.extractLsb' 0 8, w.singleUse, w.gate]
      ∧ hostBytes (.setLabel (.whole l)) = some (0x41 :: l) ∧ hostBytes (.setTiming (.whole x)) = some [0x42, x]
      ∧ hostBytes .sealStation = some [0x4F] ∧ hostBytes (.gate (.whole g)) = some [0x50, g.window, g.gate]
      ∧ hostBytes (.mask (.whole x)) = some [0x51, x] ∧ hostBytes .leave = some [0x5F]
      ∧ hostBytes (.unknownCommand x) = some [x])
    ∧ ∀ c : HostCode, operandCount c = (match c with
        | .status | .takeEvent | .takeNotice | .takeChanges | .sealStation | .leave => 0
        | .abort | .readChannel | .readPeer | .setTiming | .mask => 1
        | .resume | .gate => 2 | .storeRead | .storeWrite => 3 | .submit => 5 | .setLabel => 8 | .setWindow => 12)

/-- A frame's bytes, as sent, are received as that frame (R124, R126, R127, R183). They are the header, byte for byte, the payload, and
the check: the ones' complement of the check register over header and payload, most significant byte first. -/
def Obligations.FrameBytesRoundTrip : Prop :=
  (∀ (p : Station) (f : Frame), stationOf f.sender = some p → f.payload.length ≤ 256 →
    (frameBytes f).length = 14 + f.payload.length ∧ receiveBytes (frameBytes f) = .good p f)
    ∧ (∀ f : Frame,
      let b := frameBytes f
      (byteAt b 0).extractLsb' 4 4 = (match f.kind with
          | .presence => 0x1#4 | .request .write => 0x2#4 | .request .read => 0x3#4 | .request .swap => 0x4#4
          | .request .notice => 0x5#4 | .reply .ack => 0x8#4 | .reply .readData => 0x9#4 | .reply .swapReply => 0xA#4
          | .reply .nak => 0xB#4)
      ∧ (byteAt b 0).getLsbD 3 = f.flags.sync ∧ (byteAt b 0).getLsbD 2 = f.flags.final
      ∧ (byteAt b 0).getLsbD 1 = f.flags.hello ∧ (byteAt b 0).getLsbD 0 = f.flags.leaving
      ∧ byteAt b 1 = f.sender ∧ byteAt b 2 = f.target ∧ byteAt b 3 = f.sequence
      ∧ recordField b 4 3 = f.address.toNat ∧ recordField b 7 2 = f.length.toNat ∧ byteAt b 9 = f.code
      ∧ (b.drop 10).take f.payload.length = f.payload
      ∧ recordField b (10 + f.payload.length) 4 = (~~~ checkRegister (b.take (10 + f.payload.length))).toNat)
    ∧ (∀ body : List Byte, (frameCheck body).length = 4 ∧ recordField (frameCheck body) 0 4 = (~~~ checkRegister body).toNat)
    ∧ ∀ (b : Byte) (p : Station), stationOf b = some p ↔ b.toNat = p.val

/-! ## The page store -/

/-- A word read by the condition it finds (R3), and the bytes it returns (R1). -/
def Obligations.WordReadByCondition : Prop :=
  ∀ (st : PageStore) (w : WordNo), st.wf = true →
    wordBytes st w = [storedByte st (8 * w.toNat), storedByte st (8 * w.toNat + 1), storedByte st (8 * w.toNat + 2),
        storedByte st (8 * w.toNat + 3), storedByte st (8 * w.toNat + 4), storedByte st (8 * w.toNat + 5),
        storedByte st (8 * w.toNat + 6), storedByte st (8 * w.toNat + 7)]
    ∧ (condition st w = .good → performAccess st (.read w) = (st, .data (wordBytes st w)))
    ∧ (condition st w = .correctable → ∃ u, performAccess st (.read w) = (u, .data (wordBytes st w))
        ∧ u.cells = st.cells ∧ condition u w = .good ∧ ∀ v, v ≠ w → condition u v = condition st v)
    ∧ (condition st w = .uncorrectable → performAccess st (.read w) = (st, .storeError (wordBytes st w)))

/-- A full-word write in every condition (R4). -/
def Obligations.FullWordWriteHeals : Prop :=
  ∀ (st : PageStore) (w : WordNo) (bytes : List Byte), st.wf = true → bytes.length = 8 →
    ∃ u, performAccess st (.full w bytes) = (u, .written)
      ∧ wordBytes u w = bytes ∧ condition u w = .good
      ∧ (∀ a, a / 8 ≠ w.toNat → storedByte u a = storedByte st a) ∧ ∀ v, v ≠ w → condition u v = condition st v

/-- A partial-word write by the condition it finds (R5). -/
def Obligations.PartialWordWriteByCondition : Prop :=
  ∀ (st : PageStore) (w : WordNo) (first : Nat) (run : List Byte), st.wf = true → 1 ≤ run.length → run.length ≤ 7 →
    first + run.length ≤ 8 →
    (condition st w ≠ .uncorrectable → ∃ u, performAccess st (.part w first run) = (u, .written)
        ∧ (∀ k, k < 8 → storedByte u (8 * w.toNat + k)
            = if first ≤ k ∧ k < first + run.length then byteAt run (k - first) else storedByte st (8 * w.toNat + k))
        ∧ condition u w = .good
        ∧ (∀ a, a / 8 ≠ w.toNat → storedByte u a = storedByte st a) ∧ ∀ v, v ≠ w → condition u v = condition st v)
    ∧ (condition st w = .uncorrectable → performAccess st (.part w first run) = (st, .storeError []))

/-- A swap access by what it finds (R6): the 4 bytes from byte 4 of the word, if `upper`, else from byte 0. -/
def Obligations.SwapAccessByCondition : Prop :=
  ∀ (st : PageStore) (w : WordNo) (upper : Bool) (compare new : List Byte), st.wf = true → compare.length = 4 → new.length = 4 →
    let first := if upper then 4 else 0
    let old := (List.range 4).map fun k => storedByte st (8 * w.toNat + first + k)
    (condition st w ≠ .uncorrectable → old = compare → ∃ u, performAccess st (.swap w upper compare new) = (u, .swapped old)
        ∧ (∀ k, k < 8 → storedByte u (8 * w.toNat + k)
            = if first ≤ k ∧ k < first + 4 then byteAt new (k - first) else storedByte st (8 * w.toNat + k))
        ∧ condition u w = .good
        ∧ (∀ a, a / 8 ≠ w.toNat → storedByte u a = storedByte st a) ∧ ∀ v, v ≠ w → condition u v = condition st v)
    ∧ (condition st w ≠ .uncorrectable → old ≠ compare → ∃ u, performAccess st (.swap w upper compare new) = (u, .unchanged old)
        ∧ u.cells = st.cells ∧ condition u w = .good ∧ ∀ v, v ≠ w → condition u v = condition st v)
    ∧ (condition st w = .uncorrectable → performAccess st (.swap w upper compare new) = (st, .storeError []))

/-- The store keeps its canonical form in every step: keys rising and in range, no entry that an unlisted key would read as
(log 2). -/
def Obligations.StoreFormKept : Prop :=
  ∀ s t : State, s.st.wf = true → step s = .next t → t.st.wf = true


/-- The store changes only where a granted access ends, or by reset, power or a disturbance (R8, R14). The end of an access leaves
what the granted access makes of the store, and nothing changes where none is granted or RESET is held; a reset leaves the store as it
was, or as the granted access makes it (R13); a disturbance changes bytes and condition of its word alone (R2). The granted access is
the first one waiting of the requester that holds the grant. -/
def Obligations.StoreChangesOnlyByAccess : Prop :=
  (∀ (c : Instr) (s t : State), exec c s = .next t → t.st ≠ s.st →
    c = .storeAccessEnd ∨ (∃ n, c = .hardwareReset n true) ∨ (∃ n b m, c = .powerUp n b m)
      ∨ ∃ w n f r, c = .storeDisturbance w n f r)
    ∧ (∀ s : State, ∃ t, exec .storeAccessEnd s = .next t
        ∧ (∀ a, s.pins.resetLow = false → grantedAccess s.arb = some a → t.st = (performAccess s.st a).1)
        ∧ (s.pins.resetLow = true ∨ grantedAccess s.arb = none → t.st = s.st))
    ∧ (∀ (straps : BitVec 5) (made : Bool) (s : State), ∃ t, exec (.hardwareReset straps made) s = .next t
        ∧ (∀ a, made = true → grantedAccess s.arb = some a → t.st = (performAccess s.st a).1)
        ∧ (made = false ∨ grantedAccess s.arb = none → t.st = s.st))
    ∧ (∀ (w : WordNo) (bits : Nat) (found : Condition) (raw : List Byte) (s : State), s.st.wf = true →
        ∃ t, exec (.storeDisturbance w bits found raw) s = .next t ∧ t = { s with st := t.st }
          ∧ (∀ a, a / 8 ≠ w.toNat → storedByte t.st a = storedByte s.st a)
          ∧ ∀ v, v ≠ w → condition t.st v = condition s.st v)
    ∧ ∀ (arb : Arbiter) (a : Access), grantedAccess arb = some a ↔
        (arb.granted = some .hp ∧ ∃ work rest, arb.hp = (a, work) :: rest)
        ∨ (arb.granted = some .ce ∧ ∃ work rest, arb.ce = (a, work) :: rest)
        ∨ (arb.granted = some .su ∧ ∃ work rest, arb.su = (a, work) :: rest)

/-- The free store goes to the first waiting requester after the last grantee, and a granted one to no other (R10). -/
def Obligations.GrantFollowsCycle : Prop :=
  ∀ s : State,
    (s.arb.granted.isSome = true → grantNext s = s)
    ∧ (s.arb.granted = none → (∀ r, waits s.arb r = false) → grantNext s = s)
    ∧ (s.arb.granted = none → ∀ r x y, preference s.arb.last = [r, x, y] →
        (waits s.arb r = true → grantNext s = { s with arb := { s.arb with granted := some r, last := r } })
        ∧ (waits s.arb r = false → waits s.arb x = true →
            grantNext s = { s with arb := { s.arb with granted := some x, last := x } })
        ∧ (waits s.arb r = false → waits s.arb x = false → waits s.arb y = true →
            grantNext s = { s with arb := { s.arb with granted := some y, last := y } }))
    ∧ (waits s.arb .hp = true ↔ s.arb.hp ≠ []) ∧ (waits s.arb .ce = true ↔ s.arb.ce ≠ []) ∧ (waits s.arb .su = true ↔ s.arb.su ≠ [])
    ∧ preference .hp = [.ce, .su, .hp] ∧ preference .ce = [.su, .hp, .ce] ∧ preference .su = [.hp, .ce, .su]
    ∧ State.reset.arb.last = .su

/-! ## Reset, power and disturbance -/

/-- What HARDWARE_RESET leaves, from every state (R13, R37, R88, R89, R92, R123, R141, R143, R167, R170, R171, R186): every block at
its reset values, RESET held, the store as it was or with the access that held the grant made whole. The straps sampled at the
assertion too are the model's choice of log 8. -/
def Obligations.HardwareResetResets : Prop :=
  ∀ (straps : BitVec 5) (made : Bool) (s : State), ∃ t, exec (.hardwareReset straps made) s = .next t
    ∧ t.own = straps ∧ t.pins = { s.pins with resetLow := true } ∧ t.arb = { last := .su, granted := none, hp := [], ce := [], su := [] }
    ∧ (t.st = s.st ∨ made = true ∧ ∃ a, grantedAccess s.arb = some a ∧ t.st = (performAccess s.st a).1)
    ∧ (∀ ch, t.channel ch = {
        state := .idle, cls := .normal, resume := none, current := none, line := 0, offset := 0, issued := 0
        completed := 0, outstanding := 0, swapResult := none, fault := none, pendingEvent := none })
    ∧ t.ce.rotation = ⟨0, 0, 0⟩ ∧ t.ce.held = [] ∧ t.ce.turn = none
    ∧ (∀ i, t.entry i = none) ∧ t.rt.order = []
    ∧ (∀ p, t.peer p = {
        status := if p.val = straps.toNat then .self else .absent, label := List.replicate 8 0
        tx := { nextSeq := 0, held := 0, syncNeeded := false, backoff := none }, rx := { expected := 0, cache := [] } })
    ∧ (∀ w, t.su.windows.get w = {
        base := 0, length := 0, rights := { read := false, write := false, swap := false }, senders := 0
        singleUse := false, isOpen := false })
    ∧ t.su.execution = none ∧ t.nq = { records := [], waiters := [] }
    ∧ t.sl.rotor = 0 ∧ t.sl.inRequests = [] ∧ t.sl.inReplies = [] ∧ t.sl.replyQueue = [] ∧ t.sl.requestQueue = []
    ∧ t.sl.holder = none ∧ t.sl.aside = none ∧ t.sl.window = none ∧ t.sl.claim = .idle
    ∧ t.ev = { events := [], peerFlags := 0, windowFlags := 0, eventEnable := false, noticeEnable := false, changeEnable := false }
    ∧ t.hp.phase = .config ∧ t.hp.txn = .idle ∧ t.hp.buffer = [] ∧ t.hp.commit = false ∧ t.hp.refused = false
    ∧ t.hp.writeError = false ∧ t.hp.readError = false ∧ t.hp.reason = none ∧ t.hp.label = List.replicate 8 0
    ∧ t.timeout = 12800

/-- RESET_END ends a reset that is held (R186): the straps give the own number, the phase is CONFIG, and the store keeps its
content (R14); without one it changes nothing, which is the model's choice of log 7. The state it leaves has the reset values that
HARDWARE_RESET gives. While RESET is held low (R178) no other command changes anything, except that select is followed at its pin and a
disturbance still reaches the store: the model's choice of log 8. -/
def Obligations.ResetEndSamplesStraps : Prop :=
  ∀ (straps : BitVec 5) (s : State),
    (s.pins.resetLow = true → ∃ t, exec (.resetEnd straps) s = .next t
      ∧ t = { State.reset with
            own := straps, peers := resetPeers straps, st := s.st, pins := { s.pins with resetLow := false }
            now := s.now, draws := s.draws, pending := s.pending })
    ∧ (s.pins.resetLow = false → exec (.resetEnd straps) s = .next s)
    ∧ exec (.hardwareReset straps false) s = .next { State.reset with
        own := straps, peers := resetPeers straps, st := s.st, pins := { s.pins with resetLow := true }
        now := s.now, draws := s.draws, pending := s.pending }
    ∧ (s.pins.resetLow = true →
        (∀ c, Resets c = false → (∀ w n found raw, c ≠ .storeDisturbance w n found raw) → (∀ high, c ≠ .selectAssert high) →
          (∀ n, c ≠ .selectRelease n) → exec c s = .next s)
        ∧ (∀ high, exec (.selectAssert high) s = .next { s with pins := { s.pins with selected := true } })
        ∧ (∀ n, exec (.selectRelease n) s = .next { s with pins := { s.pins with selected := false } })
        ∧ ∀ w n found raw, exec (.storeDisturbance w n found raw) s = .next { s with st := disturb s.st w n found raw })

/-- POWER_UP leaves every word of the store with the arbitrary content and condition given (R15; log 3), in canonical form, and
every block at its reset values. -/
def Obligations.PowerUpGivesContent : Prop :=
  ∀ (straps : BitVec 5) (content : List Host.Cell) (marks : List (WordNo × Condition)) (s : State),
    (content.map Prod.fst).Nodup → (marks.map Prod.fst).Nodup →
    ∃ t, exec (.powerUp straps content marks) s = .next t ∧ t.st.wf = true
      ∧ (∀ a b, (a, b) ∈ content → a < 131072 → storedByte t.st a = b)
      ∧ (∀ w c, (w, c) ∈ marks → condition t.st w = c)
      ∧ t = { State.reset with
            own := straps, peers := resetPeers straps, st := t.st, pins := s.pins, now := s.now
            draws := s.draws, pending := s.pending }

/-- The disturbances whose result R2 states, and what no disturbance changes. One of no bit changes nothing. Where the word
becomes UNCORRECTABLE R2 states no bytes, and for every other disturbance neither bytes nor condition: they are those the command gives,
any at all (the model's choice of log 4). -/
def Obligations.DisturbanceMovesCondition : Prop :=
  ∀ (w : WordNo) (found : Condition) (raw : List Byte) (s : State), s.st.wf = true →
    exec (.storeDisturbance w 0 found raw) s = .next s ∧ ∀ bits, 1 ≤ bits → ∃ t, exec (.storeDisturbance w bits found raw) s = .next t
      ∧ t = { s with st := t.st }
      ∧ (∀ a, a / 8 ≠ w.toNat → storedByte t.st a = storedByte s.st a) ∧ (∀ v, v ≠ w → condition t.st v = condition s.st v)
      ∧ (bits = 1 → condition s.st w = .good → condition t.st w = .correctable ∧ t.st.cells = s.st.cells)
      ∧ (bits = 1 → condition s.st w = .correctable → condition t.st w = .uncorrectable)
      ∧ (bits = 2 → condition s.st w = .good → condition t.st w = .uncorrectable)
      ∧ (¬ (bits = 1 ∧ condition s.st w = .good) →
          (∀ k, k < 8 → storedByte t.st (8 * w.toNat + k) = byteAt raw k)
          ∧ (¬ (bits = 1 ∧ condition s.st w = .correctable) → ¬ (bits = 2 ∧ condition s.st w = .good) → condition t.st w = found))

/-! ## The host port -/

/-- Select asserted: the transaction begins, and the status byte is composed with its flags (R168, R170, R181) and the attention
condition (R165).
The field `out` is the model's own (log 18). -/
def Obligations.SelectAssertComposesStatus : Prop :=
  ∀ (high : Bool) (s : State), Live s → Settled s → s.pins.selected = false →
    ∃ b : Byte, exec (.selectAssert high) s = .next { s with
        pins := { s.pins with selected := true }
        hp := { s.hp with txn := .command, status := b, out := [], sdo := if high then .awaitsEdge else .driven } }
      ∧ b.extractLsb' 0 3 = (match s.hp.phase with | .config => 0 | .joining => 1 | .running => 2 | .leaving => 3 | .detached => 4)
      ∧ b.getLsbD 3 = s.hp.commit ∧ b.getLsbD 4 = s.hp.refused ∧ b.getLsbD 5 = s.hp.writeError ∧ b.getLsbD 6 = s.hp.readError
      ∧ (b.getLsbD 7 = true ↔ (s.ev.events ≠ [] ∧ s.ev.eventEnable = true) ∨ (s.nq.records ≠ [] ∧ s.ev.noticeEnable = true)
          ∨ ((s.ev.peerFlags ≠ 0 ∨ s.ev.windowFlags ≠ 0) ∧ s.ev.changeEnable = true))

/-- The command byte of a command with operands takes the transaction from COMMAND to OPERANDS, with the status byte shifted out
(R168, R169); that of STORE-WRITE is refused BUSY during a commit (R174, check 1), and its address bytes, taken with it, are answered
with 0x00.
That the command byte comes as a command of its own is the model's choice of log 9. -/
def Obligations.CommandBytePassesToOperands : Prop :=
  ∀ s : State, Live s → Settled s → s.hp.txn = .command →
    let now (c : HostCode) : Host.Outcome State Fault Refusal :=
      .next { s with hp := { s.hp with out := s.hp.out ++ [s.hp.status], sdo := .driven, txn := .operands c (operandCount c) } }
    exec (.storeRead .code) s = now .storeRead ∧ exec (.submit .code) s = now .submit ∧ exec (.resume .code) s = now .resume
      ∧ exec (.abort .code) s = now .abort ∧ exec (.readChannel .code) s = now .readChannel
      ∧ exec (.readPeer .code) s = now .readPeer ∧ exec (.setWindow .code) s = now .setWindow
      ∧ exec (.setLabel .code) s = now .setLabel ∧ exec (.setTiming .code) s = now .setTiming
      ∧ exec (.gate .code) s = now .gate ∧ exec (.mask .code) s = now .mask
      ∧ (s.hp.commit = false → exec (.storeWrite .code) s = now .storeWrite)
      ∧ (s.hp.commit = true → exec (.storeWrite .code) s = .next { s with hp := s.hp.denied [s.hp.status] .busy }
          ∧ ∀ a, exec (.storeWrite (.whole a)) s = .next { s with hp := s.hp.denied [s.hp.status, 0, 0, 0] .busy })

/-- The commands refused for the phase change nothing but REFUSED, the reason and the transaction (R171, R172, R60, R187, R188,
R190): STATE, or SEALED for a configuration command.
A command byte that is no code is refused UNKNOWN at the end of the command byte (R171). -/
def Obligations.RefusedForPhaseOrCode : Prop :=
  (∀ s : State, Live s → Settled s →
    let no (c : HostCode) (r : RefusalReason) : Host.Outcome State Fault Refusal :=
      .next { s with hp := s.hp.denied (answered c s) r }
    (ReadyFor .submit s → s.hp.phase ≠ .running → ∀ o, exec (.submit (.whole o)) s = no .submit .state)
    ∧ (ReadyFor .resume s → s.hp.phase ≠ .running → ∀ o, exec (.resume (.whole o)) s = no .resume .state)
    ∧ (ReadyFor .abort s → s.hp.phase = .config ∨ s.hp.phase = .detached → ∀ b, exec (.abort (.whole b)) s = no .abort .state)
    ∧ (ReadyFor .gate s → s.hp.phase = .config → ∀ o, exec (.gate (.whole o)) s = no .gate .state)
    ∧ (ReadyFor .setWindow s → s.hp.phase ≠ .config → ∀ o, exec (.setWindow (.whole o)) s = no .setWindow .sealed)
    ∧ (ReadyFor .setLabel s → s.hp.phase ≠ .config → ∀ l, l.length = 8 → exec (.setLabel (.whole l)) s = no .setLabel .sealed)
    ∧ (ReadyFor .setTiming s → s.hp.phase ≠ .config → ∀ b, exec (.setTiming (.whole b)) s = no .setTiming .sealed)
    ∧ (s.hp.txn = .command → s.hp.phase ≠ .config → exec .sealStation s = .next { s with hp := s.hp.denied [s.hp.status] .state })
    ∧ (s.hp.txn = .command → s.hp.phase ≠ .running → exec .leave s = .next { s with hp := s.hp.denied [s.hp.status] .state }))
    ∧ (∀ (b : Byte) (s : State), Live s → Settled s → s.hp.txn = .command →
    b ∉ [0x00, 0x10, 0x11, 0x20, 0x21, 0x22, 0x30, 0x31, 0x32, 0x38, 0x39, 0x40, 0x41, 0x42, 0x4F, 0x50, 0x51, 0x5F] →
    exec (.unknownCommand b) s = .next { s with hp := s.hp.denied [s.hp.status] .unknown })

/-- The commands refused for an operand, or for what they meet, in the order of their rules (R38, R39, R60, R90, R171, R172, R173,
R174, R187, R188, R190). -/
def Obligations.RefusedForOperandOrUse : Prop :=
  ∀ s : State, Live s → Settled s →
    let no (c : HostCode) (r : RefusalReason) : Host.Outcome State Fault Refusal :=
      .next { s with hp := s.hp.denied (answered c s) r }
    (ReadyFor .submit s → s.hp.phase = .running → ∀ o : SubmitOps,
      (3 < o.channel.toNat ∨ 2 < o.cls.toNat → exec (.submit (.whole o)) s = no .submit .range)
      ∧ (o.cls.toNat ≤ 2 → ∀ ch : ChannelNo, o.channel.toNat = ch.val →
          ((s.channel ch).state ≠ .idle → exec (.submit (.whole o)) s = no .submit .state)
          ∧ ((s.channel ch).state = .idle → (o.head.toNat % 32 ≠ 0 ∨ 0x1FFFF < o.head.toNat) →
              exec (.submit (.whole o)) s = no .submit .range)))
    ∧ (ReadyFor .resume s → s.hp.phase = .running → ∀ o : ResumeOps,
      (3 < o.channel.toNat ∨ 2 < o.cls.toNat → exec (.resume (.whole o)) s = no .resume .range)
      ∧ (o.cls.toNat ≤ 2 → ∀ ch : ChannelNo, o.channel.toNat = ch.val →
          ((s.channel ch).state = .idle ∧ (s.channel ch).resume = none ∨ (s.channel ch).state = .active
            ∨ (s.channel ch).state = .awaiting ∨ (s.channel ch).state = .held ∨ (s.channel ch).state = .draining →
              exec (.resume (.whole o)) s = no .resume .state)))
    ∧ (ReadyFor .abort s → s.hp.phase = .joining ∨ s.hp.phase = .running ∨ s.hp.phase = .leaving → ∀ b : Byte,
      (3 < b.toNat → exec (.abort (.whole b)) s = no .abort .range)
      ∧ (∀ ch : ChannelNo, b.toNat = ch.val → (s.channel ch).state = .idle → exec (.abort (.whole b)) s = no .abort .state))
    ∧ (ReadyFor .readChannel s → ∀ b : Byte, 3 < b.toNat → exec (.readChannel (.whole b)) s = no .readChannel .range)
    ∧ (ReadyFor .readPeer s → ∀ b : Byte, 30 < b.toNat → exec (.readPeer (.whole b)) s = no .readPeer .range)
    ∧ (ReadyFor .gate s → s.hp.phase ≠ .config → ∀ o : GateOps, 7 < o.window.toNat ∨ 1 < o.gate.toNat →
        exec (.gate (.whole o)) s = no .gate .range)
    ∧ (ReadyFor .setWindow s → s.hp.phase = .config → ∀ o : WindowOps,
        7 < o.window.toNat ∨ 511 < o.base.toNat ∨ 512 < o.length.toNat ∨ 1 < o.gate.toNat →
        exec (.setWindow (.whole o)) s = no .setWindow .range)
    ∧ (ReadyFor .setTiming s → s.hp.phase = .config → ∀ b : Byte, 3 < b.toNat →
        exec (.setTiming (.whole b)) s = no .setTiming .range)
    ∧ (ReadyFor .storeRead s → ∀ a : BitVec 24,
        (s.hp.commit = true → exec (.storeRead (.whole a)) s = no .storeRead .busy)
        ∧ (s.hp.commit = false → 0x1FFFF < a.toNat → exec (.storeRead (.whole a)) s = no .storeRead .range))
    ∧ (ReadyFor .storeWrite s → s.hp.commit = false → ∀ a : BitVec 24, 0x1FFFF < a.toNat →
        exec (.storeWrite (.whole a)) s = no .storeWrite .range)
    ∧ (s.hp.txn = .command → s.hp.commit = true → ∀ a : BitVec 24, exec (.storeWrite (.whole a)) s = no .storeWrite .busy)
    ∧ (s.hp.txn = .command →
        (s.hp.phase = .config → (s.own = 31 ∨ ∃ w : WindowNo, 512 < (s.su.windows.get w).base + (s.su.windows.get w).length
            ∨ (s.su.windows.get w).length ≠ 0 ∧ (s.su.windows.get w).rights = ⟨false, false, false⟩) →
          exec .sealStation s = .next { s with hp := s.hp.denied [s.hp.status] .range })
        ∧ (s.hp.phase = .running → (∃ ch, (s.channel ch).state ≠ .idle ∧ (s.channel ch).state ≠ .faulted) →
          exec .leave s = .next { s with hp := s.hp.denied [s.hp.status] .busy }))

/-- STATUS, READ-CHANNEL and READ-PEER take their copies at the decision point and change nothing else (R169, R177); the copy of
STATUS by its bytes (R181), of which bits 7-3 of byte 6 are 0 by the model's choice of log 31. At the decision points of the TAKE
commands (R119, R160, R163, R176) the event head is presented and stays, the notice head leaves the queue, and both change sets are
copied and cleared. -/
def Obligations.RecordCommandsDecide : Prop :=
  (∀ s : State, Live s → Settled s →
    (s.hp.txn = .command →
      let copy : List Byte :=
        [(phaseBits s.hp.phase).setWidth 8, reasonByte s.hp.reason, BitVec.ofNat 8 s.ev.events.length,
         BitVec.ofNat 8 s.nq.records.length, BitVec.ofNat 8 (entryCount s fun _ => true), s.own.setWidth 8,
         enablesByte s.ev, BitVec.ofNat 8 s.hp.timing.val]
      exec .status s = .next { s with hp := s.hp.showing [s.hp.status] copy .copy })
    ∧ (ReadyFor .readChannel s → ∀ (b : Byte) (ch : ChannelNo), b.toNat = ch.val → exec (.readChannel (.whole b)) s =
        .next { s with hp := s.hp.showing (answered .readChannel s) (channelRecord (s.channel ch)) .copy })
    ∧ (ReadyFor .readPeer s → ∀ (b : Byte) (p : Station), b.toNat = p.val → exec (.readPeer (.whole b)) s =
        .next { s with hp := s.hp.showing (answered .readPeer s) (peerRecord s p) .copy }))
    ∧ (∀ s : State, Live s → Settled s → s.hp.txn = .command →
    (s.ev.events = [] → exec .takeEvent s = .next { s with hp := s.hp.showing [s.hp.status] (List.replicate 8 0) (.event false) })
    ∧ (∀ e es, s.ev.events = e :: es →
        exec .takeEvent s = .next { s with hp := s.hp.showing [s.hp.status] (eventRecord e) (.event true) })
    ∧ (s.nq.records = [] → exec .takeNotice s = .next { s with hp := s.hp.showing [s.hp.status] (List.replicate 8 0) (.notice none) })
    ∧ (∀ n ns, s.nq.records = n :: ns → exec .takeNotice s = .next { s with
        hp := s.hp.showing [s.hp.status] (noticeRecord n) (.notice (some n)), nq := { s.nq with records := ns } })
    ∧ exec .takeChanges s = .next { s with
        hp := s.hp.showing [s.hp.status] (changesRecord s.ev.peerFlags s.ev.windowFlags) (.changes s.ev.peerFlags s.ev.windowFlags)
        ev := { s.ev with peerFlags := 0, windowFlags := 0 } })

/-- The fields of the records (R163, R180, R182, R184, R185), byte for byte: of an event, of a notice, of a channel (an absent part as
zeros, its presence mark clear), of a peer (the label is the own label in the own record, R143), of TAKE-CHANGES, and of a descriptor; and
the numbers of phases, refusal reasons, enables, classes and fault codes in them (R164, R180, R181, R182). That the bits which no layout
names are 0 (bits 3-2 of byte 0 of an event record, bits 7-4 of byte 2 of a channel record, bits 7-3 of byte 1 of a peer record, and bits
7-3 of the enables) is the model's choice of log 31. -/
def Obligations.RecordLayouts : Prop :=
  (∀ e : Event, e.detail < 4294967296 → (eventRecord e).length = 8
      ∧ byteAt (eventRecord e) 0 = (match e.kind with
          | .descriptorNotify => 0x10#8 | .chainDone => 0x20#8 | .chainFault => 0x30#8 | .chainAborted => 0x40#8)
        + BitVec.ofNat 8 e.channel.val
      ∧ byteAt (eventRecord e) 1 = (match e.code with | some c => faultByte c | none => 0)
      ∧ recordField (eventRecord e) 2 2 = e.address.toNat / 32 ∧ recordField (eventRecord e) 4 4 = e.detail)
    ∧ (∀ n : Notice, n.value.length = 4 → (noticeRecord n).length = 8 ∧ byteAt (noticeRecord n) 0 = 0x01
        ∧ byteAt (noticeRecord n) 1 = BitVec.ofNat 8 n.sender.val ∧ recordField (noticeRecord n) 2 2 = n.tag.toNat
        ∧ (noticeRecord n).drop 4 = n.value)
    ∧ (∀ c : Channel, (∀ d, c.current = some d → d.bytes.length = 32) →
        c.outstanding < 256 → c.line < 65536 → c.offset < 65536 → c.issued < 4294967296 → c.completed < 4294967296 →
        (∀ f, c.fault = some f → f.offset < 4294967296) →
        let r := channelRecord c
        r.length = 64
        ∧ byteAt r 0 = (match c.state with
            | .idle => 0x00#8 | .active => 0x01#8 | .awaiting => 0x02#8 | .held => 0x03#8 | .draining => 0x04#8 | .faulted => 0x05#8)
        ∧ byteAt r 1 = (match c.cls with | .urgent => 0x00#8 | .normal => 0x01#8 | .bulk => 0x02#8)
        ∧ (byteAt r 2).getLsbD 0 = c.resume.isSome ∧ (byteAt r 2).getLsbD 1 = c.current.isSome
        ∧ (byteAt r 2).getLsbD 2 = c.fault.isSome ∧ (byteAt r 2).getLsbD 3 = c.pendingEvent.isSome ∧ (byteAt r 2).toNat < 16
        ∧ (byteAt r 3).toNat = c.outstanding
        ∧ recordField r 4 3 = (match c.resume with | some a => a.toNat | none => 0)
        ∧ recordField r 7 3 = (match c.current with | some d => d.address.toNat | none => 0)
        ∧ recordField r 10 2 = c.line ∧ recordField r 12 2 = c.offset ∧ recordField r 14 4 = c.issued ∧ recordField r 18 4 = c.completed
        ∧ byteAt r 22 = (match c.fault with | some f => faultByte f.code | none => 0)
        ∧ byteAt r 23 = (match c.pendingEvent with
            | none => 0x00#8
            | some e => match e.kind with
              | .descriptorNotify => 0x01#8 | .chainDone => 0x02#8 | .chainFault => 0x03#8 | .chainAborted => 0x04#8)
        ∧ recordField r 24 3 = (match c.fault with | some f => f.address.toNat | none => 0)
        ∧ byteAt r 27 = (match c.swapResult with | none => 0x00#8 | some .swapped => 0x10#8 | some .unchanged => 0x11#8)
        ∧ recordField r 28 4 = (match c.fault with | some f => f.offset | none => 0)
        ∧ r.drop 32 = (match c.current with | some d => d.bytes | none => List.replicate 32 0))
    ∧ (∀ (s : State) (p : Station), (shownLabel s p).length = 8 → (s.peer p).tx.held < 256 →
        let r := peerRecord s p
        r.length = 16
        ∧ byteAt r 0 = (match (s.peer p).status with
            | .absent => 0x00#8 | .present => 0x01#8 | .unreachable => 0x02#8 | .self => 0x03#8)
        ∧ (byteAt r 1).getLsbD 0 = (s.peer p).tx.syncNeeded ∧ (byteAt r 1).getLsbD 1 = (s.peer p).tx.backoff.isSome
        ∧ (byteAt r 1).getLsbD 2 = s.ev.peerFlags.getLsbD p.val ∧ (byteAt r 1).toNat < 8
        ∧ byteAt r 2 = (s.peer p).tx.nextSeq ∧ (byteAt r 3).toNat = (s.peer p).tx.held ∧ byteAt r 4 = (s.peer p).rx.expected
        ∧ recordField r 5 3 = 0 ∧ r.drop 8 = (if p.val = s.own.toNat then s.hp.label else (s.peer p).label))
    ∧ (∀ (f : BitVec 31) (w : BitVec 8), (changesRecord f w).length = 6
        ∧ stationSetOf (byteAt (changesRecord f w) 0 ++ byteAt (changesRecord f w) 1 ++ byteAt (changesRecord f w) 2
            ++ byteAt (changesRecord f w) 3) = f
        ∧ (byteAt (changesRecord f w) 4).toNat = ((List.finRange 31).filter fun i => f.getLsbD i.val).length
        ∧ byteAt (changesRecord f w) 5 = w)
    ∧ (∀ b : List Byte, b.length = 32 →
        let d := descriptorOf b
        let flag := (byteAt b 4).getLsbD
        d.next.toNat = recordField b 0 3 % 131072
        ∧ d.op = (match (byteAt b 3).toNat with
            | 1 => some .put | 2 => some .get | 3 => some .swap | 4 => some .notice | 5 => some .await | _ => none)
        ∧ d.stop = flag 0 ∧ d.notify = flag 1 ∧ d.final = flag 2 ∧ d.advLocal = flag 3 ∧ d.advRemote = flag 4
        ∧ d.plane = flag 5 ∧ d.keepValue = flag 6
        ∧ d.target = byteAt b 5 ∧ d.tag.toNat = recordField b 6 2 ∧ d.count = recordField b 8 2 ∧ d.lines = recordField b 10 2
        ∧ d.localAt.toNat = recordField b 12 3 % 131072 ∧ d.remoteAt.toNat = recordField b 16 3 % 131072
        ∧ d.localPitch = recordField b 20 2 ∧ d.remotePitch = recordField b 22 2)
    ∧ (∀ p : Phase, (phaseBits p).toNat =
        (match p with | .config => 0 | .joining => 1 | .running => 2 | .leaving => 3 | .detached => 4))
    ∧ (∀ r : Option RefusalReason, (reasonByte r).toNat = (match r with
        | none => 0 | some .state => 1 | some .busy => 2 | some .range => 3 | some .length => 4 | some .sealed => 5
        | some .unknown => 6))
    ∧ (∀ e : EventUnit, (enablesByte e).getLsbD 0 = e.eventEnable ∧ (enablesByte e).getLsbD 1 = e.noticeEnable
        ∧ (enablesByte e).getLsbD 2 = e.changeEnable ∧ (enablesByte e).toNat < 8)
    ∧ (∀ k : ChainClass, (classByte k).toNat = (match k with | .urgent => 0 | .normal => 1 | .bulk => 2))
    ∧ ∀ c : FaultCode, (faultByte c).toNat = (match c with
        | .badDescriptor => 0x01 | .storeError => 0x02 | .peerAbsent => 0x03 | .peerUnreachable => 0x04 | .peerRestarted => 0x05
        | .peerLeft => 0x06 | .notJoined => 0x07 | .remoteDenied => 0x08 | .remoteStoreError => 0x09 | .remoteMalformed => 0x0A
        | .targetBusy => 0x0B)

/-- The completion of a transaction (R169, R170, R160): what was left of the record is out and REFUSED clear; the event head is removed, and the head
of the held list posts in its place and goes on to its state (R58, R59): IDLE after CHAIN-DONE, FAULTED after CHAIN-FAULT, and after
DESCRIPTOR-NOTIFY ACTIVE, with the resume address at the descriptor's next, the descriptor gone, and the first word of the next fetch
asked for (R32, R41). That the progress (line, offset, segments issued and completed) is 0 from the beginning of that fetch on, where R41
sets it when fetch and checks succeed, is the model's reading of log 29. -/
def Obligations.CompletionCarriesOut : Prop :=
  ∀ (s : State) (record : List Byte) (took : Took), Live s → Settled s → s.hp.txn = .output record took →
    (took ≠ .event true → exec .transactionComplete s = .next { s with hp := s.hp.done record })
    ∧ (took = .event true → s.ce.held = [] → exec .transactionComplete s = .next { s with
        hp := s.hp.done record, ev := { s.ev with events := s.ev.events.drop 1 } })
    ∧ (took = .event true → ∀ ch rest e, s.ce.held = ch :: rest → (s.channel ch).pendingEvent = some e →
        (e.kind = .chainDone ∨ e.kind = .chainFault) → exec .transactionComplete s = .next { s with
          hp := s.hp.done record
          ev := { s.ev with events := s.ev.events.drop 1 ++ [e] }
          ce := { s.ce with
            held := rest
            channels := s.ce.channels.set ch.val { s.channel ch with
              pendingEvent := none, state := if e.kind = .chainDone then .idle else .faulted } ch.isLt } })
    ∧ (took = .event true → ∀ ch rest e cur, s.ce.held = ch :: rest → (s.channel ch).pendingEvent = some e →
        e.kind = .descriptorNotify → (s.channel ch).current = some cur →
        let next := (descriptorOf cur.bytes).next
        exec .transactionComplete s = .next { s with
          hp := s.hp.done record
          ev := { s.ev with events := s.ev.events.drop 1 ++ [e] }
          ce := { s.ce with
            held := rest
            channels := s.ce.channels.set ch.val { s.channel ch with
              pendingEvent := none, state := .active, resume := some next, current := none, line := 0, offset := 0, issued := 0
              completed := 0, allIssued := false, swapResult := none } ch.isLt }
          arb := (grantNext { s with arb := { s.arb with
            ce := s.arb.ce ++ [(.read (BitVec.ofNat 14 (next.toNat / 8)), .fetch ch next [])] } }).arb })

/-- The release of select before a completion point (R163, R169, R176): nothing of a copy or an event is taken, a notice set apart
goes to the earliest waiter it matches, whose channel receives it (R44), and otherwise back to the head, and copied change flags are
set again. -/
def Obligations.EarlyReleaseUndoes : Prop :=
  ∀ (bits : Fin 8) (s : State), Live s → Settled s → s.pins.selected = true →
    let after (u : State) : Host.Outcome State Fault Refusal :=
      .next { u with pins := { s.pins with selected := false }, hp := { s.hp with txn := .idle, sdo := .undriven } }
    (s.hp.txn = .idle ∨ s.hp.txn = .command ∨ (∃ c n, s.hp.txn = .operands c n) ∨ s.hp.txn = .spent
        ∨ (∃ r, s.hp.txn = .output r .copy) ∨ (∃ r b, s.hp.txn = .output r (.event b)) ∨ (∃ r, s.hp.txn = .output r (.notice none)) →
      exec (.selectRelease bits) s = after s)
    ∧ (∀ r n, s.hp.txn = .output r (.notice (some n)) → matchingWaiter s.nq n = none →
        exec (.selectRelease bits) s = after { s with nq := { s.nq with records := n :: s.nq.records } })
    ∧ (∀ r n w cur, s.hp.txn = .output r (.notice (some n)) → matchingWaiter s.nq n = some w →
        (s.channel w.channel).current = some cur → (descriptorOf cur.bytes).op = some .await →
        exec (.selectRelease bits) s = after { s with
          nq := { s.nq with waiters := s.nq.waiters.filter fun v => v.channel ≠ w.channel }
          ce := { s.ce with channels := s.ce.channels.set w.channel.val { s.channel w.channel with state := .active } w.channel.isLt }
          arb := (grantNext { s with arb := { s.arb with ce := s.arb.ce ++ [noticeWrite w.channel cur n] } }).arb })
    ∧ (∀ r p w, s.hp.txn = .output r (.changes p w) → exec (.selectRelease bits) s = after { s with
        ev := { s.ev with peerFlags := s.ev.peerFlags ||| p, windowFlags := s.ev.windowFlags ||| w } })

/-- STORE-READ begins its stream and asks for the word of its first byte (R173). A word read comes to hand, with its mark if the access
ended with STORE-ERROR: it is the word in hand, or, where there is one, the word ahead. The release of the stream gives READ-ERROR its new
value and clears REFUSED; the reads asked for stay to be made, and their outcomes are disregarded (R8, R173). That a first byte of a word
which had begun at the release has asked for the next word is the model's choice of log 10. -/
def Obligations.StoreReadBeginsAndEnds : Prop :=
  (∀ (a : BitVec 24) (s : State), Live s → loadLeaving s = s → ReadyFor .storeRead s → s.hp.commit = false → a.toNat ≤ 0x1FFFF →
    exec (.storeRead (.whole a)) s = .next { s with
      hp := { s.hp with
        out := s.hp.out ++ answered .storeRead s, sdo := .driven
        txn := .reading { position := a.setWidth 17, word := none, ahead := none, fresh := true, sawBad := false } }
      arb := (grantNext { s with arb := { s.arb with
        hp := s.arb.hp ++ [(.read (BitVec.ofNat 14 (a.toNat / 8)), .stream)] } }).arb })
    ∧ (∀ (s : State) (w : WordNo) (r : ReadStream) (rest : List (Access × HpWork)), Live s → loadLeaving s = s →
    s.arb.granted = some .hp → s.arb.hp = (.read w, .stream) :: rest → s.hp.txn = .reading r →
    let o := performAccess s.st (.read w)
    let came (b : List Byte) (bad : Bool) : Host.Outcome State Fault Refusal := .next { s with
      st := o.1
      hp := { s.hp with txn := .reading (if r.word = none then { r with word := some ⟨b, bad⟩ } else { r with ahead := some ⟨b, bad⟩ }) }
      arb := (grantNext { s with arb := { s.arb with hp := rest, granted := none } }).arb }
    (∀ b, o.2 = .data b → exec .storeAccessEnd s = came b false)
    ∧ (∀ b, o.2 = .storeError b → exec .storeAccessEnd s = came b true))
    ∧ (∀ (s : State) (r : ReadStream) (bits : Fin 8), Live s → loadLeaving s = s → s.pins.selected = true → s.hp.txn = .reading r →
    let begun : Prop := bits ≠ 0 ∧ r.fresh = true ∧ r.word ≠ none
    let released (more : List (Access × HpWork)) : Host.Outcome State Fault Refusal := .next { s with
      pins := { s.pins with selected := false }
      hp := { s.hp with readError := r.sawBad, refused := false, txn := .idle, sdo := .undriven }
      arb := (grantNext { s with arb := { s.arb with
        hp := (s.arb.hp.map fun j => if j.2 = .stream then (j.1, .dropped) else j) ++ more } }).arb }
    (¬ begun → exec (.selectRelease bits) s = released [])
    ∧ (begun → exec (.selectRelease bits) s = released [(.read (BitVec.ofNat 14 ((r.position.toNat + 8) / 8)), .dropped)]))
    ∧ ∀ (s : State) (x : Access) (rest : List (Access × HpWork)), Live s → loadLeaving s = s →
    s.arb.granted = some .hp → s.arb.hp = (x, .dropped) :: rest → exec .storeAccessEnd s = .next { s with
      st := (performAccess s.st x).1
      arb := (grantNext { s with arb := { s.arb with hp := rest, granted := none } }).arb }

/-- A byte of a stream (R168, R173, R174): a STORE-READ shifts out the byte at its position, and the first byte out of a word asks for
the next word; a STORE-WRITE takes a data byte, of which the first 256 go to the commit buffer; a SPENT transaction answers 0x00.
A byte of a record is shifted out, and the last one is the completion of the command (R168, R169); an operand byte before the last is
answered with 0x00 (R168).
So whole bytes of a record or of operands clocked before an early release (EarlyReleaseUndoes) have been shifted out. That STREAM_BYTE
stands for a byte of a record and of operands, and that the data of such an operand byte are not looked at, is the model's choice of
log 9. -/
def Obligations.StreamByteMovesOn : Prop :=
  ∀ (data : Byte) (s : State), Live s → loadLeaving s = s →
    (∀ r w, s.hp.txn = .reading r → r.word = some w → ∃ t, exec (.streamByte data) s = .next t
        ∧ t.hp.out = s.hp.out ++ [byteAt w.bytes (r.position.toNat % 8)]
        ∧ (∃ q, t.hp.txn = .reading q ∧ q.position = r.position + 1 ∧ q.sawBad = (r.sawBad || w.bad)
            ∧ q.word = (if r.position.toNat % 8 = 7 then r.ahead else some w)
            ∧ q.ahead = (if r.position.toNat % 8 = 7 then none else r.ahead) ∧ q.fresh = decide (r.position.toNat % 8 = 7))
        ∧ t.arb.hp = s.arb.hp ++ (if r.fresh then [(.read (BitVec.ofNat 14 ((r.position.toNat + 8) / 8)), .stream)] else [])
        ∧ t.arb = (grantNext { s with arb := { s.arb with hp := s.arb.hp ++
            (if r.fresh then [(.read (BitVec.ofNat 14 ((r.position.toNat + 8) / 8)), .stream)] else []) } }).arb
        ∧ t = { s with hp := t.hp, arb := t.arb } ∧ t.hp = { s.hp with txn := t.hp.txn, out := t.hp.out, sdo := .driven })
    ∧ (Settled s → ∀ start n, s.hp.txn = .writing start n → exec (.streamByte data) s = .next { s with hp := { s.hp with
        out := s.hp.out ++ [0], sdo := .driven, txn := .writing start (n + 1)
        buffer := if n < 256 then s.hp.buffer ++ [data] else s.hp.buffer } })
    ∧ (Settled s → s.hp.txn = .spent → exec (.streamByte data) s = .next { s with hp := { s.hp with
        out := s.hp.out ++ [0], sdo := .driven } })
    ∧ (Settled s → ∀ b rest took, s.hp.txn = .output (b :: rest) took → rest ≠ [] →
        exec (.streamByte data) s = .next { s with hp := { s.hp with
          out := s.hp.out ++ [b], sdo := .driven, txn := .output rest took } })
    ∧ (∀ b took, s.hp.txn = .output [b] took → exec (.streamByte data) s = exec .transactionComplete s)
    ∧ (Settled s → ∀ c left, s.hp.txn = .operands c left → 1 < left → exec (.streamByte data) s = .next { s with hp := { s.hp with
        out := s.hp.out ++ [0], sdo := .driven, txn := .operands c (left - 1) } })

/-- STORE-WRITE after its address (R174, check 2) and at its release (R174, check 4; R175): discarded, refused LENGTH, or accepted, with
COMMIT set and the first word's write asked for. -/
def Obligations.StoreWriteCommits : Prop :=
  ∀ s : State, Live s → Settled s →
    (ReadyFor .storeWrite s → s.hp.commit = false → ∀ a : BitVec 24, a.toNat ≤ 0x1FFFF →
      exec (.storeWrite (.whole a)) s = .next { s with hp := { s.hp with
        out := s.hp.out ++ answered .storeWrite s, sdo := .driven, buffer := [], txn := .writing (a.setWidth 17) 0 } })
    ∧ (∀ start n, s.pins.selected = true → s.hp.txn = .writing start n →
        let released : State := { s with
          pins := { s.pins with selected := false }, hp := { s.hp with txn := .idle, sdo := .undriven } }
        (∀ bits : Fin 8, bits ≠ 0 ∨ n = 0 → exec (.selectRelease bits) s = .next released)
        ∧ (n ≠ 0 → (256 < n ∨ 0x1FFFF < start.toNat + n - 1) → exec (.selectRelease 0) s = .next { released with
            hp := { released.hp with refused := true, reason := some .length } })
        ∧ (1 ≤ n → n ≤ 256 → start.toNat + n - 1 ≤ 0x1FFFF → ∃ t, exec (.selectRelease 0) s = .next t
            ∧ t = { released with hp := { released.hp with commit := true, refused := false }, arb := t.arb }
            ∧ t.arb = (grantNext { s with arb := { s.arb with hp := t.arb.hp } }).arb
            ∧ t.arb.hp = s.arb.hp ++ [((writePiece start.toNat (s.hp.buffer.take n) false).1,
                .commit (writePiece start.toNat (s.hp.buffer.take n) false).2)]))

/-- A word of a commit (R175): after the last, COMMIT is cleared and WRITE-ERROR shows whether a word was skipped; after any other
the next word is asked for, whatever the outcome.
The cut of a range into word accesses (R12, R4, R5): the access at an address is of the word that holds it, a full-word write where the
range covers all its 8 bytes and otherwise a partial write of the bytes of the range that lie in it; what remains goes on at the next word
boundary. A read follows the same cut. -/
def Obligations.CommitWordEnds : Prop :=
  (∀ (s : State) (a : Access) (r : RangeWrite) (rest : List (Access × HpWork)), Live s → loadLeaving s = s →
    s.arb.granted = some .hp → s.arb.hp = (a, .commit r) :: rest →
    let o := performAccess s.st a
    let skipped := r.refused || o.2.isError
    (r.rest = [] → exec .storeAccessEnd s = .next { s with
        st := o.1, hp := { s.hp with commit := false, writeError := skipped }
        arb := (grantNext { s with arb := { s.arb with hp := rest, granted := none } }).arb })
    ∧ (r.rest ≠ [] → exec .storeAccessEnd s = .next { s with
        st := o.1
        arb := (grantNext { s with arb := { s.arb with granted := none
                                                       hp := rest ++ [((writePiece r.next r.rest skipped).1,
                                                         .commit (writePiece r.next r.rest skipped).2)] } }).arb }))
    ∧ (∀ o : StoreOutcome, o.isError = true ↔ ∃ b, o = .storeError b)
    ∧ (∀ (a : Nat) (bytes : List Byte) (refused : Bool),
      let n := min (8 - a % 8) bytes.length
      (a % 8 = 0 ∧ 8 ≤ bytes.length → (writePiece a bytes refused).1 = .full (BitVec.ofNat 14 (a / 8)) (bytes.take 8))
      ∧ (¬ (a % 8 = 0 ∧ 8 ≤ bytes.length) →
          (writePiece a bytes refused).1 = .part (BitVec.ofNat 14 (a / 8)) (a % 8) (bytes.take n) ∧ a % 8 + n ≤ 8 ∧ n ≤ 7)
      ∧ (writePiece a bytes refused).2 = { next := a + n, rest := bytes.drop n, refused := refused }
      ∧ ((writePiece a bytes refused).2.rest ≠ [] → (writePiece a bytes refused).2.next = 8 * (a / 8 + 1)))
    ∧ ∀ (a left : Nat) (got : List Byte),
      let n := min (8 - a % 8) left
      readPiece a left got =
          (.read (BitVec.ofNat 14 (a / 8)), { skip := a % 8, take := n, next := a + n, left := left - n, got := got })
        ∧ (left - n ≠ 0 → a + n = 8 * (a / 8 + 1))

/-- The configuration commands in CONFIG replace what they set and nothing else (R187). The sender set of SET-WINDOW holds station
8i + n if bit n of its byte i is set, its first byte being the most significant of the operand (R180). -/
def Obligations.ConfigurationCommandsSet : Prop :=
  (∀ (v : BitVec 32) (p : Station), (stationSetOf v).getLsbD p.val = v.getLsbD (8 * (3 - p.val / 8) + p.val % 8))
  ∧ ∀ s : State, Live s → Settled s → s.hp.phase = .config →
    (ReadyFor .setWindow s → ∀ (o : WindowOps) (w : WindowNo), o.window.toNat = w.val → o.base.toNat ≤ 511 → o.length.toNat ≤ 512 →
      o.gate.toNat ≤ 1 → exec (.setWindow (.whole o)) s = .next { s with
        hp := s.hp.done (answered .setWindow s)
        su := { s.su with windows := s.su.windows.set w.val {
          base := o.base.toNat, length := o.length.toNat
          rights := { read := o.rights.getLsbD 0, write := o.rights.getLsbD 1, swap := o.rights.getLsbD 2 }
          senders := stationSetOf o.senders, singleUse := o.singleUse.getLsbD 0, isOpen := o.gate = 1 } w.isLt } })
    ∧ (ReadyFor .setLabel s → ∀ l : List Byte, l.length = 8 → exec (.setLabel (.whole l)) s = .next { s with
        hp := { s.hp.done (answered .setLabel s) with label := l } })
    ∧ (ReadyFor .setTiming s → ∀ (b : Byte) (n : Fin 4), b.toNat = n.val → exec (.setTiming (.whole b)) s = .next { s with
        hp := { s.hp.done (answered .setTiming s) with timing := n } })

/-- SEAL accepted (R188): a HELLO frame in the presence holder, and JOINING. -/
def Obligations.SealLoadsHello : Prop :=
  ∀ s : State, Live s → Settled s → s.hp.txn = .command → s.hp.phase = .config → s.own ≠ 31 →
    (∀ w : WindowNo, (s.su.windows.get w).base + (s.su.windows.get w).length ≤ 512
      ∧ ((s.su.windows.get w).length ≠ 0 → (s.su.windows.get w).rights ≠ ⟨false, false, false⟩)) →
    exec .sealStation s = .next { s with
      hp := { s.hp.done [s.hp.status] with phase := .joining }
      sl := { s.sl with holder := some {
        kind := .presence, flags := { sync := false, final := false, hello := true, leaving := false }
        sender := s.own.setWidth 8, target := 31, sequence := 0, address := 0, length := 8, code := 0, payload := s.hp.label } } }

/-- GATE accepted sets the gate of its window and nothing else; the window change set is not touched (R90, R162). MASK sets the three
enables together, in every phase (R164). -/
def Obligations.GateAndMaskSet : Prop :=
  (∀ (o : GateOps) (w : WindowNo) (s : State), Live s → Settled s → ReadyFor .gate s → s.hp.phase ≠ .config →
    o.window.toNat = w.val → o.gate.toNat ≤ 1 → exec (.gate (.whole o)) s = .next { s with
      hp := s.hp.done (answered .gate s)
      su := { s.su with windows := s.su.windows.set w.val { s.su.windows.get w with isOpen := o.gate = 1 } w.isLt } })
    ∧ (∀ (b : Byte) (s : State), Live s → Settled s → ReadyFor .mask s → exec (.mask (.whole b)) s = .next { s with
    hp := s.hp.done (answered .mask s)
    ev := { s.ev with eventEnable := b.getLsbD 0, noticeEnable := b.getLsbD 1, changeEnable := b.getLsbD 2 } })

/-- LEAVE accepted (R190): LEAVING, and the LEAVING frame loaded at once if the request table holds no entry and the holder is
empty; not while an entry is held. A frame in the holder that is no HELLO and not committed is replaced by it; behind a committed frame it
is kept aside (R135). In every happening in LEAVING without a held entry it is loaded in this way, unless it has been; what closes a
happening is that, and then the grant of the free store (R10). The fields of a presence frame (R125, R144). -/
def Obligations.LeaveBeginsDeparture : Prop :=
  (∀ (own : BitVec 5) (label : List Byte) (hello leaving : Bool), presenceFrame own label hello leaving = {
      kind := .presence, flags := { sync := false, final := false, hello := hello, leaving := leaving }, sender := own.setWidth 8
      target := 31, sequence := 0, address := 0, length := 8, code := 0, payload := label })
  ∧ (∀ s : State, settle s = grantNext (loadLeaving s))
  ∧ (∀ s : State, (s.hp.phase ≠ .leaving ∨ (∃ i e, s.entry i = some e) ∨ s.sl.aside.isSome = true
        ∨ (∃ f, s.sl.holder = some f ∧ f.flags.leaving = true) → loadLeaving s = s)
      ∧ (s.hp.phase = .leaving → (∀ i, s.entry i = none) → s.sl.holder = none → s.sl.aside = none →
          loadLeaving s = { s with sl := { s.sl with holder := some (presenceFrame s.own s.hp.label false true) } })
      ∧ (s.hp.phase = .leaving → (∀ i, s.entry i = none) → s.sl.aside = none → ∀ f, s.sl.holder = some f → f.flags.leaving = false →
          ((∀ n, s.sl.claim ≠ .marking n .presence) → s.sl.claim ≠ .sending .presence → f.flags.hello = false →
            loadLeaving s = { s with sl := { s.sl with holder := some (presenceFrame s.own s.hp.label false true) } })
          ∧ ((∃ n, s.sl.claim = .marking n .presence) ∨ s.sl.claim = .sending .presence →
            loadLeaving s = { s with sl := { s.sl with aside := some (presenceFrame s.own s.hp.label false true) } })))
  ∧ ∀ s : State, Live s → Settled s → s.hp.txn = .command → s.hp.phase = .running →
    (∀ ch, (s.channel ch).state = .idle ∨ (s.channel ch).state = .faulted) →
    ((∀ i, s.entry i = none) → s.sl.holder = none → s.sl.aside = none → exec .leave s = .next { s with
        hp := { s.hp.done [s.hp.status] with phase := .leaving }
        sl := { s.sl with holder := some (presenceFrame s.own s.hp.label false true) } })
    ∧ ((∀ i, s.entry i = none) → s.sl.aside = none → ∀ f, s.sl.holder = some f → f.flags.leaving = false →
        let leaving : Option Frame := some (presenceFrame s.own s.hp.label false true)
        let left (sl : LineUnit) : Host.Outcome State Fault Refusal :=
          .next { s with hp := { s.hp.done [s.hp.status] with phase := .leaving }, sl := sl }
        ((∀ n, s.sl.claim ≠ .marking n .presence) → s.sl.claim ≠ .sending .presence → f.flags.hello = false →
          exec .leave s = left { s.sl with holder := leaving })
        ∧ ((∃ n, s.sl.claim = .marking n .presence) ∨ s.sl.claim = .sending .presence →
          exec .leave s = left { s.sl with aside := leaving }))
    ∧ ((∃ i e, s.entry i = some e) → exec .leave s = .next { s with hp := { s.hp.done [s.hp.status] with phase := .leaving } })

/-! ## Chains -/

/-- SUBMIT accepted (R38, R41): class, resume address, no descriptor and no progress, ACTIVE, and the first word of the fetch asked
for. RESUME accepted (R39, R40), from IDLE with a resume address or from FAULTED. The class bytes (R180). -/
def Obligations.SubmitAndResumeStartChains : Prop :=
  (∀ b : Byte, classOf b = (match b.toNat with | 0 => some .urgent | 1 => some .normal | 2 => some .bulk | _ => none))
  ∧ (∀ (o : SubmitOps) (ch : ChannelNo) (k : ChainClass) (s : State), Live s → loadLeaving s = s → ReadyFor .submit s →
    s.hp.phase = .running → o.channel.toNat = ch.val → classOf o.cls = some k → (s.channel ch).state = .idle →
    o.head.toNat % 32 = 0 → o.head.toNat ≤ 0x1FFFF → exec (.submit (.whole o)) s = .next { s with
      hp := s.hp.done (answered .submit s)
      ce := { s.ce with channels := s.ce.channels.set ch.val {
        s.channel ch with
        cls := k, resume := some (o.head.setWidth 17), state := .active, current := none, line := 0, offset := 0, issued := 0
        completed := 0, allIssued := false, swapResult := none } ch.isLt }
      arb := (grantNext { s with arb := { s.arb with
        ce := s.arb.ce ++ [(.read (BitVec.ofNat 14 (o.head.toNat / 8)), .fetch ch (o.head.setWidth 17) [])] } }).arb })
    ∧ (∀ (o : ResumeOps) (ch : ChannelNo) (k : ChainClass) (a : Addr) (s : State), Live s → loadLeaving s = s → ReadyFor .resume s →
    s.hp.phase = .running → o.channel.toNat = ch.val → classOf o.cls = some k → (s.channel ch).resume = some a →
    (s.channel ch).state = .idle ∨ (s.channel ch).state = .faulted → exec (.resume (.whole o)) s = .next { s with
      hp := s.hp.done (answered .resume s)
      ce := { s.ce with channels := s.ce.channels.set ch.val {
        s.channel ch with
        cls := k, state := .active, current := none, line := 0, offset := 0, issued := 0, completed := 0
        allIssued := false, swapResult := none, fault := none } ch.isLt }
      arb := (grantNext { s with arb := { s.arb with
        ce := s.arb.ce ++ [(.read (BitVec.ofNat 14 (a.toNat / 8)), .fetch ch a [])] } }).arb })

/-- ABORT of a channel that runs (R60, R86): its entries become orphans and keep all else, its waiter, held place and pending event
go, it is IDLE with class and resume address as they stood, and CHAIN-ABORTED is posted if the event queue has room. ABORT of a
FAULTED channel (R61): IDLE, no fault record, no event. The accesses asked for stay to be made, their outcomes disregarded, and a turn of
the channel is given up (R8, R62); that those which still wait behind another stay too is the model's choice of log 24, and that a
turn given up reads no further word, of log 25; that a status write asked for when a notice was handed over is made too, of log 30. Which
work is a channel's own, and which a turn's. The end of an access whose outcome is disregarded changes the store and the arbiter alone. -/
def Obligations.AbortGivesUpChain : Prop :=
  (∀ (ch : ChannelNo) (w : CeWork),
    (w.owner = some ch ↔ (∃ a g, w = .fetch ch a g) ∨ (∃ r o, w = .getWrite ch r o) ∨ w = .resultWrite ch ∨ (∃ r, w = .valueWrite ch r)
      ∨ w = .advanceLocal ch ∨ w = .advanceRemote ch ∨ w = .doneStatus ch ∨ ∃ r, w = .faultStatus ch r)
    ∧ (w.isPayload = true ↔ ∃ r, w = .payload r))
  ∧ (∀ (ch : ChannelNo) (t : Turn), t.isOf ch = true ↔ ∃ p, t = .channel ch p)
  ∧ (∀ (b : Byte) (ch : ChannelNo) (s : State), Live s → ReadyFor .abort s →
    s.hp.phase = .joining ∨ s.hp.phase = .running ∨ (s.hp.phase = .leaving ∧ loadLeaving s = s) →
    b.toNat = ch.val → (s.channel ch).state = .active ∨ (s.channel ch).state = .awaiting ∨ (s.channel ch).state = .held
      ∨ (s.channel ch).state = .draining →
    ∃ t, exec (.abort (.whole b)) s = .next t
      ∧ t.channel ch = { s.channel ch with
          state := .idle, current := none, line := 0, offset := 0, issued := 0, completed := 0, outstanding := 0
          allIssued := false, swapResult := none, fault := none, pendingEvent := none }
      ∧ (∀ k, k ≠ ch → t.channel k = s.channel k)
      ∧ (∀ i, t.entry i = (s.entry i).map fun e => if e.channel = ch then { e with orphan := true } else e)
      ∧ t.rt.order = s.rt.order
      ∧ t.nq.waiters = s.nq.waiters.filter (fun w => w.channel ≠ ch) ∧ t.nq.records = s.nq.records
      ∧ t.ce.held = s.ce.held.erase ch
      ∧ t.ev.events = s.ev.events ++ (if s.ev.events.length < 32 then
          [{ kind := .chainAborted, channel := ch, code := none, address := ((s.channel ch).resume).getD 0, detail := 0 }] else [])
      ∧ t.hp = s.hp.done (answered .abort s)
      ∧ (let given : Bool := s.ce.turn.any (Turn.isOf ch)
         t.ce.turn = (if given then none else s.ce.turn) ∧ t.arb.hp = s.arb.hp ∧ t.arb.su = s.arb.su
          ∧ t.arb.ce = (s.arb.ce.map fun j =>
              if j.2.owner = some ch ∨ (given = true ∧ j.2.isPayload = true) then (j.1, .dropped) else j)
          ∧ t.arb = (grantNext { s with arb := { s.arb with ce := t.arb.ce } }).arb)
      ∧ t = { s with
          hp := t.hp, arb := t.arb, rt := { s.rt with entries := t.rt.entries }, nq := { s.nq with waiters := t.nq.waiters }
          ce := { s.ce with channels := t.ce.channels, held := t.ce.held, turn := t.ce.turn }
          ev := { s.ev with events := t.ev.events } }
      ∧ t.st = s.st ∧ t.peers = s.peers ∧ t.su = s.su ∧ t.sl = s.sl ∧ t.own = s.own ∧ t.pins = s.pins ∧ t.now = s.now)
    ∧ (∀ (b : Byte) (ch : ChannelNo) (s : State), Live s → Settled s → ReadyFor .abort s →
    s.hp.phase = .joining ∨ s.hp.phase = .running ∨ s.hp.phase = .leaving → b.toNat = ch.val → (s.channel ch).state = .faulted →
    exec (.abort (.whole b)) s = .next { s with
      hp := s.hp.done (answered .abort s)
      ce := { s.ce with channels := s.ce.channels.set ch.val {
        s.channel ch with
        state := .idle, current := none, line := 0, offset := 0, issued := 0, completed := 0, allIssued := false, swapResult := none
        fault := none, pendingEvent := none } ch.isLt } })
    ∧ ∀ (s : State) (x : Access) (rest : List (Access × CeWork)), Live s → loadLeaving s = s →
    s.arb.granted = some .ce → s.arb.ce = (x, .dropped) :: rest → exec .storeAccessEnd s = .next { s with
      st := (performAccess s.st x).1
      arb := (grantNext { s with arb := { s.arb with ce := rest, granted := none } }).arb }

/-! ## Descriptors and segments -/

/-- A word of a fetch (R23, R24, R26, R41): a refused word or a failed check forms the fault record at byte offset 0, keeps no
descriptor and no progress (R35; the model's reading of log 29), and asks for the faulted status byte (R22, R42); after fewer than four
words the next is asked for; a descriptor that passes is kept with progress cleared. An AWAIT then takes the oldest queued notice that
matches it, and its channel receives it (R43, R44, R117), or joins the end of the list of waiters and is AWAITING. The fault record formed
already here is the model's choice of log 17. -/
def Obligations.FetchWordEnds : Prop :=
  ∀ (s : State) (ch : ChannelNo) (a : Addr) (got : List Byte) (w : WordNo) (rest : List (Access × CeWork)),
    Live s → loadLeaving s = s → s.arb.granted = some .ce → s.arb.ce = (.read w, .fetch ch a got) :: rest →
    let st : PageStore := (performAccess s.st (.read w)).1
    let arb (more : List (Access × CeWork)) : Arbiter :=
      (grantNext { s with arb := { s.arb with granted := none, ce := rest ++ more } }).arb
    let channels (c : Channel) : ChannelEngine := { s.ce with channels := s.ce.channels.set ch.val c ch.isLt }
    let fails (c : FaultCode) : Host.Outcome State Fault Refusal := .next { s with
      st := st, ce := channels { s.channel ch with
        fault := some ⟨c, a, 0⟩, current := none, line := 0, offset := 0, issued := 0, completed := 0, allIssued := false
        swapResult := none }
      arb := arb [(.part (BitVec.ofNat 14 ((a.toNat + 31) / 8)) ((a.toNat + 31) % 8) [0x80 + faultByte c], .faultStatus ch ⟨c, a, 0⟩)] }
    (condition s.st w = .uncorrectable → exec .storeAccessEnd s = fails .storeError)
    ∧ (condition s.st w ≠ .uncorrectable → got.length < 24 → exec .storeAccessEnd s = .next { s with
        st := st
        arb := arb [(.read (BitVec.ofNat 14 ((a.toNat + (got.length + 8)) / 8)), .fetch ch a (got ++ wordBytes s.st w))] })
    ∧ (condition s.st w ≠ .uncorrectable → 24 ≤ got.length →
        let d := descriptorOf (got ++ wordBytes s.st w)
        let kept : Channel := { s.channel ch with
          current := some ⟨a, got ++ wordBytes s.st w⟩, line := 0, offset := 0, issued := 0, completed := 0, allIssued := false
          swapResult := none }
        let present : Bool := (stationOf d.target).any fun p => decide ((s.peer p).status = .present)
        (∀ c, d.check s.own present = some c → exec .storeAccessEnd s = fails c)
        ∧ (d.check s.own present = none → d.op ≠ some .await → exec .storeAccessEnd s = .next { s with
            st := st, arb := arb []
            ce := channels kept })
        ∧ (d.check s.own present = none → d.op = some .await →
          (∀ before n later, s.nq.records = before ++ n :: later → noticeMatches n d.tag d.target = true →
            (∀ m ∈ before, noticeMatches m d.tag d.target = false) → exec .storeAccessEnd s = .next { s with
              st := st, ce := channels { kept with state := .active }, nq := { s.nq with records := before ++ later }
              arb := arb [noticeWrite ch ⟨a, got ++ wordBytes s.st w⟩ n] })
          ∧ ((∀ m ∈ s.nq.records, noticeMatches m d.tag d.target = false) → exec .storeAccessEnd s = .next { s with
              st := st, ce := channels { kept with state := .awaiting }, arb := arb []
              nq := { s.nq with waiters := s.nq.waiters ++ [⟨ch, d.tag, d.target⟩] } })))

/-- The checks of a fetched descriptor (R17, R18, R19, R24, R25), by exact arithmetic: for each op, which descriptors pass; BAD-DESCRIPTOR
for every other; PEER-ABSENT for a remote op whose target is not PRESENT. -/
def Obligations.FetchChecksDecide : Prop :=
  ∀ (d : Descriptor) (own : BitVec 5) (present : Bool),
    let common : Prop := d.next.toNat % 32 = 0 ∧ d.target.toNat ≠ own.toNat
    let lines : Nat := if d.plane then d.lines else 1
    let pitch (n : Nat) : Nat := (lines - 1) * n
    let remote (ok : Prop) : Prop :=
      (¬ ok → d.check own present = some .badDescriptor)
        ∧ (ok → d.check own present = if present then none else some .peerAbsent)
    (d.op = none → d.check own present = some .badDescriptor)
    ∧ (d.op = some .put ∨ d.op = some .get → remote (common ∧ d.target.toNat ≤ 30 ∧ 1 ≤ d.count
        ∧ (d.plane = true → 1 ≤ d.lines ∧ d.lines ≤ 4096)
        ∧ d.localAt.toNat + pitch d.localPitch + d.count ≤ 0x20000
        ∧ d.remoteAt.toNat + pitch d.remotePitch + d.count ≤ 0x20000))
    ∧ (d.op = some .swap → remote (common ∧ d.target.toNat ≤ 30 ∧ d.localAt.toNat % 4 = 0 ∧ d.remoteAt.toNat % 4 = 0
        ∧ d.localAt.toNat + 12 ≤ 0x20000 ∧ d.remoteAt.toNat + 4 ≤ 0x20000))
    ∧ (d.op = some .notice → remote (common ∧ d.target.toNat ≤ 30 ∧ d.count = 4 ∧ d.localAt.toNat + 4 ≤ 0x20000))
    ∧ (d.op = some .await → d.check own present =
        if d.next.toNat % 32 = 0 ∧ d.target.toNat ≠ own.toNat ∧ d.target.toNat ≤ 31
            ∧ (d.count = 4 ∨ d.count = 0 ∧ d.keepValue = false) ∧ (d.keepValue = true → d.localAt.toNat + 4 ≤ 0x20000)
        then none else some .badDescriptor)

/-- The segments of a PUT or GET (R19, R27, R28, R48): from a position within a line a segment takes at least one byte, stays within the
line and within one page of the remote store, and ends at the end of one of them; its byte offset counts the bytes before it; the last
segment is the one that ends the last line, and the position after any other is the next byte of the line or the start of the next line,
where the next segment's byte offset continues. Past the last segment line and offset stand past the end of the descriptor,
where the ranges of R35 have such a position; which one is a free value, the model's choice of log 13. The advanced addresses (R31) are taken modulo 2^17.
The single step of a SWAP or NOTICE (R27, R63). -/
def Obligations.SegmentsCut : Prop :=
  (∀ (d : Descriptor) (line offset : Nat),
    (d.op = some .swap → d.segmentAt line offset =
      { localAt := d.localAt.toNat, remoteAt := d.remoteAt.toNat, length := 8, offset := 0, last := true })
    ∧ (d.op = some .notice → d.segmentAt line offset =
      { localAt := d.localAt.toNat, remoteAt := 0, length := 6, offset := 0, last := true }))
  ∧ (∀ d : Descriptor, d.op = some .put ∨ d.op = some .get →
    d.lineCount = (if d.plane then d.lines else 1) ∧ d.localStep = (if d.plane then d.localPitch else 0)
      ∧ d.remoteStep = (if d.plane then d.remotePitch else 0))
  ∧ (∀ d : Descriptor, d.op = some .swap ∨ d.op = some .notice → d.lineCount = 1)
  ∧ (∀ (d : Descriptor) (free : Nat),
    let size := if d.op = some .put ∨ d.op = some .get then d.count else 1
    let q := d.endPosition free
    q.1 ≤ 4095 ∧ q.2 ≤ 65534
      ∧ (1 ≤ d.lineCount → size ≤ 65535 → d.lineCount < 4096 ∨ (d.lineCount = 4096 ∧ size < 65535) →
          d.lineCount ≤ q.1 ∨ (q.1 + 1 = d.lineCount ∧ size ≤ q.2)))
  ∧ ∀ (d : Descriptor) (line offset : Nat), d.op = some .put ∨ d.op = some .get → line < d.lineCount → offset < d.count →
    let g := d.segmentAt line offset
    let remote := d.remoteAt.toNat + line * d.remoteStep + offset
    g.localAt = d.localAt.toNat + line * d.localStep + offset ∧ g.remoteAt = remote ∧ g.offset = line * d.count + offset
      ∧ 1 ≤ g.length ∧ offset + g.length ≤ d.count ∧ remote / 256 = (remote + g.length - 1) / 256
      ∧ (offset + g.length = d.count ∨ (remote + g.length) % 256 = 0)
      ∧ (g.last = true ↔ line + 1 = d.lineCount ∧ offset + g.length = d.count)
      ∧ (g.last = false →
          d.positionAfter line offset = (if offset + g.length = d.count then (line + 1, 0) else (line, offset + g.length))
          ∧ (let q := d.positionAfter line offset
             q.1 < d.lineCount ∧ q.2 < d.count ∧ (d.segmentAt q.1 q.2).offset = g.offset + g.length))
      ∧ d.advancedLocal.toNat = (d.localAt.toNat + if d.plane = true then d.lines * d.localPitch else d.count) % 131072
      ∧ d.advancedRemote.toNat = (d.remoteAt.toNat + if d.plane = true then d.lines * d.remotePitch else d.count) % 131072

/-- The status write of a completed descriptor (R32, R58): the event is posted or the channel held with it; the resume address moves
on; the chain stops or the next descriptor is fetched. That the progress (line, offset, segments issued and completed) is 0 from the
beginning of that fetch on, where R41 sets it when fetch and checks succeed, is the model's reading of log 29. That the occupancy of the
event queue alone decides an offer, where R159 also asks that no channel is held, is settled by QueuesStayBounded: with room in the queue
the held list is empty.
The status write of a fault report, whatever its outcome (R33, R42, R56, R58): the fault record is in the channel, and CHAIN-FAULT is
posted and the channel FAULTED, or the channel is held with the event. A refused status write of a completed descriptor faults it with
STORE-ERROR at offset 0 (R33), and so does a refused advance write, after the faulted status byte.
The other writes of a channel (R31, R44, R51, R52): after an advance write comes the next write of the completion; a GET segment and an
AWAIT value are written to their last word, and then, as after a result slot, the segment counts as done, the AWAIT completes, or the
segment fails with STORE-ERROR. That the swap result stands after a refused write of its slot is the model's choice of log 32. -/
def Obligations.StatusWriteEnds : Prop :=
  (∀ (s : State) (ch : ChannelNo) (x : Access) (cur : Current) (rest : List (Access × CeWork)),
    Live s → loadLeaving s = s → s.arb.granted = some .ce → s.arb.ce = (x, .doneStatus ch) :: rest →
    (performAccess s.st x).2 = .written → (s.channel ch).current = some cur →
    let d := descriptorOf cur.bytes
    let c := s.channel ch
    let e (k : EventKind) : Event := { kind := k, channel := ch, code := none, address := cur.address, detail := 0 }
    let past : Channel := { c with resume := some d.next, current := none, swapResult := none }
    let next : Channel := { past with
      state := .active, line := 0, offset := 0, issued := 0, completed := 0, allIssued := false }
    let arb (more : List (Access × CeWork)) : Arbiter :=
      (grantNext { s with arb := { s.arb with granted := none, ce := rest ++ more } }).arb
    let fetch : Access × CeWork := (.read (BitVec.ofNat 14 (d.next.toNat / 8)), .fetch ch d.next [])
    let after (u : Channel) (held : List ChannelNo) (events : List Event) (more : List (Access × CeWork)) :
        Host.Outcome State Fault Refusal := .next { s with
      st := (performAccess s.st x).1, arb := arb more, ev := { s.ev with events := s.ev.events ++ events }
      ce := { s.ce with channels := s.ce.channels.set ch.val u ch.isLt, held := s.ce.held ++ held } }
    (d.stop = true → s.ev.events.length < 32 →
      exec .storeAccessEnd s = after { past with state := .idle } [] [e .chainDone] [])
    ∧ (d.stop = true → 32 ≤ s.ev.events.length →
      exec .storeAccessEnd s = after { past with state := .held, pendingEvent := some (e .chainDone) } [ch] [] [])
    ∧ (d.stop = false → d.notify = false → exec .storeAccessEnd s = after next [] [] [fetch])
    ∧ (d.stop = false → d.notify = true → s.ev.events.length < 32 →
      exec .storeAccessEnd s = after next [] [e .descriptorNotify] [fetch])
    ∧ (d.stop = false → d.notify = true → 32 ≤ s.ev.events.length →
      exec .storeAccessEnd s = after { c with state := .held, pendingEvent := some (e .descriptorNotify) } [ch] [] []))
    ∧ (∀ (s : State) (ch : ChannelNo) (x : Access) (r : FaultRecord) (rest : List (Access × CeWork)),
    Live s → loadLeaving s = s → s.arb.granted = some .ce → s.arb.ce = (x, .faultStatus ch r) :: rest →
    let e : Event := { kind := .chainFault, channel := ch, code := some r.code, address := r.address, detail := r.offset }
    let after (u : Channel) (held : List ChannelNo) (events : List Event) : Host.Outcome State Fault Refusal := .next { s with
      st := (performAccess s.st x).1, arb := (grantNext { s with arb := { s.arb with granted := none, ce := rest } }).arb
      ev := { s.ev with events := s.ev.events ++ events }
      ce := { s.ce with channels := s.ce.channels.set ch.val u ch.isLt, held := s.ce.held ++ held } }
    (s.ev.events.length < 32 →
      exec .storeAccessEnd s = after { s.channel ch with fault := some r, state := .faulted } [] [e])
    ∧ (32 ≤ s.ev.events.length →
      exec .storeAccessEnd s = after { s.channel ch with fault := some r, state := .held, pendingEvent := some e } [ch] []))
    ∧ (∀ (s : State) (ch : ChannelNo) (x : Access) (cur : Current) (b : List Byte) (rest : List (Access × CeWork)),
    Live s → loadLeaving s = s → s.arb.granted = some .ce → s.arb.ce = (x, .doneStatus ch) :: rest →
    (performAccess s.st x).2 = .storeError b → (s.channel ch).current = some cur →
    let r : FaultRecord := ⟨.storeError, cur.address, 0⟩
    let e : Event := { kind := .chainFault, channel := ch, code := some .storeError, address := cur.address, detail := 0 }
    let after (u : Channel) (held : List ChannelNo) (events : List Event) : Host.Outcome State Fault Refusal := .next { s with
      st := (performAccess s.st x).1, arb := (grantNext { s with arb := { s.arb with granted := none, ce := rest } }).arb
      ev := { s.ev with events := s.ev.events ++ events }
      ce := { s.ce with channels := s.ce.channels.set ch.val u ch.isLt, held := s.ce.held ++ held } }
    (s.ev.events.length < 32 →
      exec .storeAccessEnd s = after { s.channel ch with fault := some r, state := .faulted } [] [e])
    ∧ (32 ≤ s.ev.events.length →
      exec .storeAccessEnd s = after { s.channel ch with fault := some r, state := .held, pendingEvent := some e } [ch] []))
    ∧ ∀ (s : State) (ch : ChannelNo) (x : Access) (work : CeWork) (cur : Current) (rest : List (Access × CeWork)),
    Live s → s.arb.granted = some .ce → s.arb.ce = (x, work) :: rest → (s.channel ch).current = some cur →
    let made := accessMade x rest s
    let asks (j : Access × CeWork) : Host.Outcome State Fault Refusal :=
      .next (settle { made with arb := { made.arb with ce := rest ++ [j] } })
    let failed : Bool := (performAccess s.st x).2.isError
    let fault : Access × CeWork := faultWrite ch ⟨.storeError, cur.address, 0⟩
    (work = .advanceLocal ch →
      exec .storeAccessEnd s = asks (if failed then fault else remoteAdvanceWrite ch (s.channel ch) cur))
    ∧ (work = .advanceRemote ch → exec .storeAccessEnd s = asks (if failed then fault else doneWrite ch (s.channel ch) cur))
    ∧ (∀ r offset, work = .getWrite ch r offset →
      (r.rest ≠ [] → exec .storeAccessEnd s = asks ((writePiece r.next r.rest (r.refused || failed)).1,
        .getWrite ch (writePiece r.next r.rest (r.refused || failed)).2 offset))
      ∧ (r.rest = [] → (r.refused || failed) = false → exec .storeAccessEnd s = .next (settle (segmentDone ch made)))
      ∧ (r.rest = [] → (r.refused || failed) = true →
          exec .storeAccessEnd s = .next (settle (failSegment ch .storeError offset made))))
    ∧ (work = .resultWrite ch →
      (failed = false → exec .storeAccessEnd s = .next (settle (segmentDone ch made)))
      ∧ (failed = true → exec .storeAccessEnd s = .next (settle (failSegment ch .storeError 0 made))))
    ∧ ∀ r, work = .valueWrite ch r → (descriptorOf cur.bytes).op = some .await →
      (r.rest ≠ [] → exec .storeAccessEnd s = asks ((writePiece r.next r.rest (r.refused || failed)).1,
        .valueWrite ch (writePiece r.next r.rest (r.refused || failed)).2))
      ∧ (r.rest = [] → (r.refused || failed) = false → exec .storeAccessEnd s = asks (statusWrite cur.address 0x01, .doneStatus ch))
      ∧ (r.rest = [] → (r.refused || failed) = true →
          exec .storeAccessEnd s = .next (settle (failSegment ch .storeError 0 made)))

/-! ## Issue turns -/

/-- An eligible channel (R46, R66), read from the request table; and the entry of a resend turn (R45, R78): of those in REWIND whose target
has no backoff running and no older entry that is not QUEUED, the one taken earliest. -/
def Obligations.EligibleByTable : Prop :=
  ∀ s : State, OrderListsHeld s → (∀ ch : ChannelNo,
    (eligible s ch = true ↔ ∃ cur op p, (s.channel ch).current = some cur ∧ (descriptorOf cur.bytes).op = some op ∧ op ≠ .await
      ∧ stationOf (descriptorOf cur.bytes).target = some p ∧ (s.channel ch).state = .active
      ∧ (s.channel ch).allIssued = false
      ∧ (∃ i, s.entry i = none) ∧ entryCount s (fun e => decide (e.target = p)) < 4
      ∧ (s.peer p).tx.backoff = none
      ∧ ∀ i e, s.entry i = some e → e.target = p → age s e ≠ 4 ∧ ∀ charged, e.state ≠ .rewind charged))
    ∧ (let ready (e : Entry) : Prop := (∃ charged, e.state = .rewind charged) ∧ (s.peer e.target).tx.backoff = none
        ∧ ∀ j f, s.entry j = some f → f.target = e.target → age s e < age s f → f.state = .queued
       ∀ i e, chooseResend s = some (i, e) ↔ ∃ before later, s.rt.order = before ++ i :: later ∧ s.entry i = some e ∧ ready e
        ∧ ∀ j ∈ before, ∀ f, s.entry j = some f → ¬ ready f)

/-- The channel a turn goes to (R47): an eligible one of the highest class, the first from its class's rotation pointer on, modulo 4;
none only if none is eligible. -/
def Obligations.TurnChoice : Prop :=
  ∀ s : State,
    (chooseChannel s = none ↔ ∀ ch, eligible s ch = false)
    ∧ ∀ ch, chooseChannel s = some ch → eligible s ch = true
        ∧ ∀ k, eligible s k = true →
            (classByte (s.channel ch).cls).toNat ≤ (classByte (s.channel k).cls).toNat
            ∧ ((s.channel k).cls = (s.channel ch).cls →
                (ch - s.ce.rotation.get (s.channel ch).cls).val ≤ (k - s.ce.rotation.get (s.channel ch).cls).val)

/-- An issue turn of a channel (R45, R47, R48, R49, R67, R68): the rotation pointer moves past it; a payload is read first, the turn
staying in progress; a GET takes the lowest free entry at once, with the target's next sequence number and SYNC if needed, and its frame
goes to the end of the request queue, or, if the target is not PRESENT, its segment fails with PEER-ABSENT.
A resend turn comes before any channel's (R45, R79): a payload is read first; without one a try is charged if the REWIND was CHARGED,
SYNC is taken up, and the entry is QUEUED with its frame at the end of the request queue.
At the end of a payload read (R29, R48, R49, R79, R80) the next word is read; after the last the entry is taken or resent with what was
read, and a refused word, after which no further one is read (the model's choice of log 23), fails the segment or the entry with
STORE-ERROR; a resend turn whose entry was freed meanwhile is given up, and no frame is queued (log 15).
Past the last segment line and offset stand past the end of the descriptor, where the range of R35 has such a position; which one is
free (the model's choice of log 13). The free entry of lowest number, the payload's size and the fields of a frame (R63, R68). -/
def Obligations.TurnIssuesOrResends : Prop :=
  let placed (s : State) (ch : ChannelNo) (cur : Current) (k : RequestKind) (p : Station) (i : Slot) (read : List Byte)
      (line offset : Nat) : State :=
    let d := descriptorOf cur.bytes
    let c := s.channel ch
    let g := d.segmentAt c.line c.offset
    let t := (s.peer p).tx
    let final := decide (k = .write) && d.final && g.last
    let e : Entry := {
      channel := ch, orphan := false, kind := k, target := p, sequence := t.nextSeq, localAt := BitVec.ofNat 17 g.localAt
      remoteAt := BitVec.ofNat 17 g.remoteAt, length := g.length, tag := d.tag, offset := g.offset, final := final
      sync := t.syncNeeded, tries := 1, state := .queued }
    let f : Frame := {
      kind := .request k, flags := { sync := t.syncNeeded, final := final, hello := false, leaving := false }
      sender := s.own.setWidth 8, target := BitVec.ofNat 8 p.val, sequence := t.nextSeq, address := BitVec.ofNat 17 g.remoteAt
      length := BitVec.ofNat 16 g.length, code := 0
      payload := if k = .notice then [d.tag.extractLsb' 8 8, d.tag.extractLsb' 0 8] ++ read else read }
    { s with
      ce := { s.ce with turn := none, channels := s.ce.channels.set ch.val { c with
        line := line, offset := offset, allIssued := g.last, issued := c.issued + 1, outstanding := c.outstanding + 1 } ch.isLt }
      rt := { entries := s.rt.entries.set i.val (some e) i.isLt, order := s.rt.order ++ [i] }
      peers := s.peers.set p.val { s.peer p with
        tx := { t with nextSeq := t.nextSeq + 1, held := t.held + 1, syncNeeded := false } } p.isLt
      sl := { s.sl with requestQueue := s.sl.requestQueue ++ [⟨i, f, false⟩] }
      draws := s.draws + (if g.last then 1 else 0) }
  let passed (s : State) (ch : ChannelNo) (g : Segment) (line offset : Nat) : State := { s with
    ce := { s.ce with turn := none, channels := s.ce.channels.set ch.val { s.channel ch with
      line := line, offset := offset, allIssued := g.last } ch.isLt }
    draws := s.draws + (if g.last then 1 else 0) }
  let resent (s : State) (i : Slot) (e : Entry) (read : List Byte) : State :=
    let q : Entry := { e with
      tries := if e.state = .rewind true then e.tries + 1 else e.tries, sync := e.sync || (s.peer e.target).tx.syncNeeded
      state := .queued }
    { s with
      ce := { s.ce with turn := none }
      rt := { s.rt with entries := s.rt.entries.set i.val (some q) i.isLt }
      peers := s.peers.set e.target.val { s.peer e.target with
        tx := { (s.peer e.target).tx with syncNeeded := false } } e.target.isLt
      sl := { s.sl with requestQueue := s.sl.requestQueue ++ [⟨i, requestFrame s.own q read, false⟩] } }
  let stands (d : Descriptor) (c : Channel) (line offset : Nat) : Prop :=
    let size := if d.op = some .put ∨ d.op = some .get then d.count else 1
    if (d.segmentAt c.line c.offset).last = true then
      line ≤ 4095 ∧ offset ≤ 65534
        ∧ (d.lineCount < 4096 ∨ (d.lineCount = 4096 ∧ size < 65535) → d.lineCount ≤ line ∨ (line + 1 = d.lineCount ∧ size ≤ offset))
    else (line, offset) = d.positionAfter c.line c.offset
  (∀ (s : State) (i : Slot), lowestFree s = some i ↔ s.entry i = none ∧ ∀ j, j < i → s.entry j ≠ none)
  ∧ (∀ s : State, lowestFree s = none ↔ ∀ i, s.entry i ≠ none)
  ∧ (∀ n : Nat, payloadSize .write n = n ∧ payloadSize .read n = 0 ∧ payloadSize .swap n = 8 ∧ payloadSize .notice n = 4)
  ∧ (Op.request .put = some .write ∧ Op.request .get = some .read ∧ Op.request .swap = some .swap
    ∧ Op.request .notice = some .notice ∧ Op.request .await = none)
  ∧ (∀ (r : Rotation) (k m : ChainClass) (ch : ChannelNo), (r.move k ch).get m = if m = k then ch else r.get m)
  ∧ (∀ (own : BitVec 5) (e : Entry) (read : List Byte), requestFrame own e read = {
      kind := .request e.kind
      flags := { sync := e.sync, final := decide (e.kind = .write) && e.final, hello := false, leaving := false }
      sender := own.setWidth 8, target := BitVec.ofNat 8 e.target.val, sequence := e.sequence, address := e.remoteAt
      length := BitVec.ofNat 16 e.length, code := 0
      payload := if e.kind = .notice then [e.tag.extractLsb' 8 8, e.tag.extractLsb' 0 8] ++ read else read })
  ∧ (∀ (s : State) (ch : ChannelNo) (cur : Current) (k : RequestKind) (p : Station), Live s → Settled s → s.ce.turn = none →
    s.sl.requestQueue.length < 4 → chooseResend s = none → chooseChannel s = some ch → (s.channel ch).current = some cur →
    (descriptorOf cur.bytes).op.bind Op.request = some k → stationOf (descriptorOf cur.bytes).target = some p →
    let d := descriptorOf cur.bytes
    let c := s.channel ch
    let g := d.segmentAt c.line c.offset
    let moved : State := { s with ce := { s.ce with rotation := s.ce.rotation.move c.cls (ch + 1) } }
    (k ≠ .read → payloadSize k g.length ≠ 0 → exec .issueTurn s = .next { s with
      ce := { moved.ce with turn := some (.channel ch p) }
      arb := (grantNext { s with arb := { s.arb with
        ce := s.arb.ce ++ [((readPiece g.localAt (payloadSize k g.length) []).1,
          .payload (readPiece g.localAt (payloadSize k g.length) []).2)] } }).arb })
    ∧ (k = .read → (s.peer p).status = .present → ∀ i : Slot, lowestFree s = some i →
        ∃ line offset, stands d c line offset ∧ exec .issueTurn s = .next (placed moved ch cur .read p i [] line offset))
    ∧ (k = .read → (s.peer p).status ≠ .present → ∃ line offset, stands d c line offset
        ∧ exec .issueTurn s = .next (settle (failSegment ch .peerAbsent g.offset (passed moved ch g line offset)))))
    ∧ (∀ (s : State) (i : Slot) (e : Entry), Live s → Settled s → s.ce.turn = none → s.sl.requestQueue.length < 4 →
    chooseResend s = some (i, e) →
    let n := payloadSize e.kind e.length
    (n ≠ 0 → exec .issueTurn s = .next { s with
      ce := { s.ce with turn := some (.resend i) }
      arb := (grantNext { s with arb := { s.arb with
        ce := s.arb.ce ++ [((readPiece e.localAt.toNat n []).1, .payload (readPiece e.localAt.toNat n []).2)] } }).arb })
    ∧ (n = 0 → exec .issueTurn s = .next (resent s i e [])))
    ∧ ∀ (s : State) (x : Access) (r : RangeRead) (rest : List (Access × CeWork)), Live s → s.arb.granted = some .ce →
    s.arb.ce = (x, .payload r) :: rest →
    let made := accessMade x rest s
    let o := (performAccess s.st x).2
    (∀ b, o = .data b → r.left ≠ 0 → s.ce.turn ≠ none →
      let p := readPiece r.next r.left (r.got ++ (b.drop r.skip).take r.take)
      exec .storeAccessEnd s = .next (settle { made with arb := { made.arb with ce := rest ++ [(p.1, .payload p.2)] } }))
    ∧ (∀ ch p cur k, s.ce.turn = some (.channel ch p) → (s.channel ch).current = some cur → (s.channel ch).allIssued = false →
        (descriptorOf cur.bytes).op.bind Op.request = some k →
        let d := descriptorOf cur.bytes
        let c := s.channel ch
        let g := d.segmentAt c.line c.offset
        (∀ b, o = .data b → r.left = 0 → (s.peer p).status = .present → ∀ i : Slot, lowestFree s = some i →
          ∃ line offset, stands d c line offset ∧ exec .storeAccessEnd s
            = .next (settle (placed made ch cur k p i (r.got ++ (b.drop r.skip).take r.take) line offset)))
        ∧ (∀ b, o = .data b → r.left = 0 → (s.peer p).status ≠ .present → ∃ line offset, stands d c line offset
          ∧ exec .storeAccessEnd s = .next (settle (failSegment ch .peerAbsent g.offset (passed made ch g line offset))))
        ∧ (∀ b, o = .storeError b → ∃ line offset, stands d c line offset
          ∧ exec .storeAccessEnd s = .next (settle (failSegment ch .storeError g.offset (passed made ch g line offset)))))
    ∧ (∀ i, s.ce.turn = some (.resend i) → s.entry i = none → ∀ b, (o = .data b ∧ r.left = 0) ∨ o = .storeError b →
        exec .storeAccessEnd s = .next (settle { made with ce := { made.ce with turn := none } }))
    ∧ ∀ i e, s.ce.turn = some (.resend i) → s.entry i = some e →
        (∀ b, o = .data b → r.left = 0 →
          exec .storeAccessEnd s = .next (settle (resent made i e (r.got ++ (b.drop r.skip).take r.take))))
        ∧ (∀ b, o = .storeError b →
          let freed := freeEntry i e { made with ce := { made.ce with turn := none } }
          let u := if e.orphan then freed else failSegment e.channel .storeError e.offset freed
          exec .storeAccessEnd s = .next (settle { u with peers := u.peers.set e.target.val { u.peer e.target with
            tx := { (u.peer e.target).tx with syncNeeded := true } } e.target.isLt }))

/-! ## Replies and deadlines -/

/-- A reply that matches no entry, or does not fit the one it matches, is discarded (R71); one from an UNREACHABLE station first brings
it back (R151).
A final reply frees its entry (R36, R64, R70, R72): an ACK counts the segment (R50), a READ-DATA and a SWAP-REPLY begin their writes (R51,
R52), a NAK DENIED, STORE or MALFORMED fails the segment (R73), a NAK NOT-JOINED every entry of the target (R77); for an orphan it frees
alone (R86). What freeing an entry, a segment done and a segment failed do to table, channel and turn (R36, R50, R54, R55, R56, R64, R70):
the last segment of a descriptor begins its completion, the end of draining its fault report. Bytes that a payload lacks are free (log 14);
that a turn given up reads no further word is the model's choice of log 25, and that a station is brought back in DETACHED too, of
log 27. That a NAK NOT-JOINED frees the entries in the order of taking, where R77 says oldest first, is the deduction of log 16
(CountsStayExact); that a recorded swap result stands if its write is refused, of log 32. The entry a reply matches (R71). -/
def Obligations.AckCompletesSegment : Prop :=
  (∀ (s : State) (p : Station) (q : Byte),
    let matching (e : Entry) : Prop := e.target = p ∧ e.sequence = q
    (∀ i e, matchEntry s p q = some (i, e) ↔ ∃ before later, s.rt.order = before ++ i :: later ∧ s.entry i = some e ∧ matching e
      ∧ ∀ j ∈ before, ∀ f, s.entry j = some f → ¬ matching f)
    ∧ (matchEntry s p q = none ↔ ∀ i ∈ s.rt.order, ∀ e, s.entry i = some e → ¬ matching e))
  ∧ (∀ (s : State) (ch : ChannelNo), writeUnderWay s ch = true ↔
      ∃ x ∈ s.arb.ce, (∃ r o, x.2 = .getWrite ch r o) ∨ x.2 = .resultWrite ch)
  ∧
  let noted (s : State) (ch : ChannelNo) (result : SwapResult) : State := { s with
    ce := { s.ce with channels := s.ce.channels.set ch.val { s.channel ch with swapResult := some result } ch.isLt } }
  (∀ (s : State) (f : Frame) (rest : List Frame) (p : Station), Live s → Settled s →
    s.sl.inReplies = f :: rest → stationOf f.sender = some p →
    ((s.peer p).status = .unreachable → exec .replyTake s = exec .replyTake (broughtBack p s))
    ∧ ((s.peer p).status ≠ .unreachable →
    let taken : State := { s with sl := { s.sl with inReplies := rest } }
    (matchEntry s p f.sequence = none → exec .replyTake s = .next taken)
    ∧ ∀ i e, matchEntry s p f.sequence = some (i, e) →
      let freed := freeEntry i e taken
      let asks (u : State) (j : Access × CeWork) : Host.Outcome State Fault Refusal :=
        .next (settle { u with arb := { u.arb with ce := u.arb.ce ++ [j] } })
      let fails (c : FaultCode) : Host.Outcome State Fault Refusal :=
        .next (settle (if e.orphan then freed else failSegment e.channel c e.offset freed))
      (f.kind = .reply .ack → e.kind = .read ∨ e.kind = .swap → exec .replyTake s = .next taken)
      ∧ (f.kind = .reply .readData → e.kind ≠ .read ∨ f.length.toNat ≠ e.length → exec .replyTake s = .next taken)
      ∧ (f.kind = .reply .swapReply → e.kind ≠ .swap ∨ (f.code ≠ 0x10 ∧ f.code ≠ 0x11) → exec .replyTake s = .next taken)
      ∧ (f.kind = .reply .nak → f.code = 0x00 ∨ 0x06 < f.code.toNat → exec .replyTake s = .next taken)
      ∧ (f.kind = .reply .ack → e.kind = .write ∨ e.kind = .notice →
          exec .replyTake s = .next (settle (if e.orphan then freed else segmentDone e.channel freed)))
      ∧ (f.kind = .reply .readData → e.kind = .read → f.length.toNat = e.length → e.length ≤ f.payload.length →
          let w := writePiece e.localAt.toNat (f.payload.take e.length) false
          exec .replyTake s =
            if e.orphan then .next (settle freed) else asks freed (w.1, .getWrite e.channel w.2 e.offset))
      ∧ (f.kind = .reply .swapReply → e.kind = .swap → 4 ≤ f.payload.length → ∀ result,
          f.code = 0x10 ∧ result = .swapped ∨ f.code = 0x11 ∧ result = .unchanged →
          let slot := e.localAt.toNat + 8
          exec .replyTake s =
            if e.orphan then .next (settle freed)
            else asks (noted freed e.channel result)
              (.part (BitVec.ofNat 14 (slot / 8)) (slot % 8) (f.payload.take 4), .resultWrite e.channel))
      ∧ (f.kind = .reply .nak →
          (f.code = 0x01 → exec .replyTake s = fails .remoteDenied)
          ∧ (f.code = 0x02 → exec .replyTake s = fails .remoteStoreError)
          ∧ (f.code = 0x06 → exec .replyTake s = fails .remoteMalformed)
          ∧ (f.code = 0x05 → OrderListsHeld s → ∃ t, exec .replyTake s = .next t
              ∧ (∀ j, t.entry j = (s.entry j).filter fun g => decide (g.target ≠ p))
              ∧ (∀ ch, t.channel ch = (failAll p .notJoined s).channel ch)
              ∧ (t.peer p).tx.syncNeeded = true ∧ (t.peer p).tx.backoff = none ∧ (t.peer p).status = (s.peer p).status
              ∧ (s.hp.phase = .running →
                  t.sl.holder = some (s.sl.holder.getD (presenceFrame s.own s.hp.label false false))))
          ∧ (f.code = 0x05 →
              let g := failAll p .notJoined s
              let t := settle { g with
                peers := g.peers.set p.val { g.peer p with tx := { (g.peer p).tx with syncNeeded := true, backoff := none } } p.isLt
                sl := { g.sl with
                  inReplies := rest
                  holder := if s.hp.phase = .running ∨ s.hp.phase = .leaving then
                      some (s.sl.holder.getD (presenceFrame s.own s.hp.label false false)) else s.sl.holder } }
              exec .replyTake s = .next t ∧ t.arb = (grantNext g).arb ∧ t.ce = g.ce ∧ t.sl.requestQueue = g.sl.requestQueue))))
    ∧ (∀ (i : Slot) (e : Entry) (s : State), ∃ t, freeEntry i e s = t
        ∧ t = { s with rt := t.rt, peers := t.peers, ce := { s.ce with channels := t.ce.channels }
                       sl := { s.sl with requestQueue := t.sl.requestQueue } }
        ∧ (∀ j, t.entry j = if j = i then none else s.entry j) ∧ t.rt.order = s.rt.order.erase i
        ∧ (∀ p, t.peer p = if p = e.target then
            { s.peer p with tx := { (s.peer p).tx with held := (s.peer p).tx.held - 1 } } else s.peer p)
        ∧ (∀ ch, t.channel ch = if ch = e.channel ∧ e.orphan = false then
            { s.channel ch with outstanding := (s.channel ch).outstanding - 1 } else s.channel ch)
        ∧ (e.state ≠ .queued → t.sl.requestQueue = s.sl.requestQueue)
        ∧ (e.state = .queued →
            (s.sl.requestQueue = [] → t.sl.requestQueue = [])
            ∧ ((∀ n, s.sl.claim ≠ .marking n .request) → s.sl.claim ≠ .sending .request →
              t.sl.requestQueue = s.sl.requestQueue.filter fun q => decide (q.slot ≠ i))
            ∧ ((∃ n, s.sl.claim = .marking n .request) ∨ s.sl.claim = .sending .request → ∀ q qs, s.sl.requestQueue = q :: qs →
              t.sl.requestQueue = (if q.slot = i then { q with withdrawn := true } else q)
                :: qs.filter fun q => decide (q.slot ≠ i))))
    ∧ (∀ (s : State) (ch : ChannelNo) (cur : Current), (s.channel ch).current = some cur →
        let c := s.channel ch
        let counted (more : List (Access × CeWork)) : State := { s with
          ce := { s.ce with channels := s.ce.channels.set ch.val { c with completed := c.completed + 1 } ch.isLt }
          arb := { s.arb with ce := s.arb.ce ++ more } }
        (c.state = .active → (descriptorOf cur.bytes).op ≠ none → (descriptorOf cur.bytes).op ≠ some .await →
          segmentDone ch s = counted (if c.allIssued = true ∧ c.completed + 1 = c.issued ∧ writeUnderWay s ch = false then
            [completionWrite ch c cur] else []))
        ∧ (c.state = .draining → ∀ r, c.fault = some r →
          segmentDone ch s = counted (if c.outstanding = 0 ∧ writeUnderWay s ch = false then [faultWrite ch r] else [])))
    ∧ ∀ (s : State) (ch : ChannelNo) (code : FaultCode) (offset : Nat),
        let c := s.channel ch
        let ends : Prop := c.outstanding = 0 ∧ ∀ x ∈ s.arb.ce, (∀ r o, x.2 ≠ .getWrite ch r o) ∧ x.2 ≠ .resultWrite ch
        (∀ cur, c.state = .active → c.current = some cur → ∃ t, failSegment ch code offset s = t
          ∧ t.channel ch = { c with state := .draining, fault := some ⟨code, cur.address, offset⟩ }
          ∧ (∀ k, k ≠ ch → t.channel k = s.channel k)
          ∧ (∃ kept more, t.arb.ce = kept ++ more ∧ t = { s with
              ce := { s.ce with channels := t.ce.channels, turn := t.ce.turn }, arb := { s.arb with ce := t.arb.ce } }
            ∧ (ends → more = [faultWrite ch ⟨code, cur.address, offset⟩]) ∧ (¬ ends → more = [])
            ∧ ((∀ p, s.ce.turn ≠ some (.channel ch p)) → t.ce.turn = s.ce.turn ∧ kept = s.arb.ce)
            ∧ ∀ p, s.ce.turn = some (.channel ch p) → t.ce.turn = none ∧ kept = s.arb.ce.map fun j =>
                match j.2 with | .payload _ => (j.1, .dropped) | _ => j))
        ∧ (c.state = .draining → ∀ r, c.fault = some r →
            (ends → failSegment ch code offset s = { s with arb := { s.arb with ce := s.arb.ce ++ [faultWrite ch r] } })
            ∧ (¬ ends → failSegment ch code offset s = s))
        ∧ (c.state ≠ .active → c.state ≠ .draining → failSegment ch code offset s = s)

/-- A NAK SEQUENCE or BUSY (R71, R74, R75, R76) on an entry that is not in WAITING is discarded; on one in WAITING it puts the entry in
REWIND: a SEQUENCE without charge unless the entry is its target's oldest, which is charged and needs SYNC; a BUSY with charge and
with the busy backoff running for one reply timeout. With no try left, a SEQUENCE on the oldest makes the target UNREACHABLE, and a BUSY
fails the entry with TARGET-BUSY, the target then needing SYNC. That the entries of an UNREACHABLE target are freed in the order of taking, where R85 says oldest first, is
the deduction of log 16 (CountsStayExact). The age of an entry, and the oldest entry of a target (R65). -/
def Obligations.NakRewindsEntry : Prop :=
  (∀ (s : State) (e : Entry),
    age s e = ((s.peer e.target).tx.nextSeq.toNat + 256 - e.sequence.toNat) % 256
    ∧ (OrderListsHeld s →
        (isOldest s e = true ↔ ∀ j f, s.entry j = some f → f.target = e.target → age s f ≤ age s e)))
  ∧ ∀ (s : State) (f : Frame) (rest : List Frame) (p : Station) (i : Slot) (e : Entry), Live s → Settled s →
    s.sl.inReplies = f :: rest → stationOf f.sender = some p → (s.peer p).status = .present →
    matchEntry s p f.sequence = some (i, e) → f.kind = .reply .nak →
    let after (v : EntryState) (t : TransmitPart) : Host.Outcome State Fault Refusal := .next { s with
      sl := { s.sl with inReplies := rest }
      rt := { s.rt with entries := s.rt.entries.set i.val (some { e with state := v }) i.isLt }
      peers := s.peers.set p.val { s.peer p with tx := t } p.isLt }
    (f.code = 0x03 ∨ f.code = 0x04 → (∀ deadline, e.state ≠ .waiting deadline) →
      exec .replyTake s = .next { s with sl := { s.sl with inReplies := rest } })
    ∧ ∀ deadline, e.state = .waiting deadline →
      (f.code = 0x03 → isOldest s e = false → exec .replyTake s = after (.rewind false) (s.peer p).tx)
      ∧ (f.code = 0x03 → isOldest s e = true → e.tries < 4 →
          exec .replyTake s = after (.rewind true) { (s.peer p).tx with syncNeeded := true })
      ∧ (f.code = 0x03 → isOldest s e = true → 4 ≤ e.tries → OrderListsHeld s → ∃ t, exec .replyTake s = .next t
          ∧ (∀ j, t.entry j = (s.entry j).filter fun g => decide (g.target ≠ p))
          ∧ (∀ ch, t.channel ch = (failAll p .peerUnreachable s).channel ch)
          ∧ (t.peer p).status = .unreachable ∧ (t.peer p).tx.syncNeeded = true ∧ (t.peer p).tx.backoff = none
          ∧ (∀ q, q ≠ p → t.peer q = s.peer q)
          ∧ t.ev = { s.ev with peerFlags := s.ev.peerFlags ||| (1#31 <<< p.val) })
      ∧ (f.code = 0x03 → isOldest s e = true → 4 ≤ e.tries →
          let g := failAll p .peerUnreachable s
          let t := settle { g with
            peers := g.peers.set p.val { g.peer p with
              status := .unreachable, tx := { (g.peer p).tx with syncNeeded := true, backoff := none } } p.isLt
            ev := { g.ev with peerFlags := g.ev.peerFlags ||| (1#31 <<< p.val) }
            sl := { g.sl with inReplies := rest } }
          exec .replyTake s = .next t ∧ t.arb = (grantNext g).arb ∧ t.ce = g.ce ∧ t.sl.requestQueue = g.sl.requestQueue)
      ∧ (f.code = 0x04 → 4 ≤ e.tries →
          let freed := freeEntry i e { s with sl := { s.sl with inReplies := rest } }
          let u := if e.orphan then freed else failSegment e.channel .targetBusy e.offset freed
          exec .replyTake s = .next (settle { u with peers := u.peers.set p.val { u.peer p with
            tx := { (u.peer p).tx with syncNeeded := true } } p.isLt }))
      ∧ (f.code = 0x04 → e.tries < 4 → exec .replyTake s = after (.rewind true) { (s.peer p).tx with
          backoff := some (s.now + (match s.hp.timing.val with | 0 => 3200 | 1 => 12800 | 2 => 51200 | _ => 204800)) })

/-- The passing of a deadline (R83, R85, R149) and the end of a backoff (R76); that the clock then stands no earlier is the model's choice
of log 6, and that a backoff ends in DETACHED too, of log 28. With a try left to every unanswered entry of the target, all of them go
back, charged; otherwise the target is UNREACHABLE, no entry is held for it, it needs SYNC and its change flag is set; that its entries are
freed in the order of taking, where R85 says oldest first, is the deduction of log 16 (CountsStayExact). -/
def Obligations.DeadlineAndBackoffEnd : Prop :=
  ∀ s : State, Live s → Settled s → OrderListsHeld s →
    (∀ (i : Slot) (e : Entry) (deadline : Nat), s.entry i = some e → e.state = .waiting deadline →
      ((∀ j f, s.entry j = some f → f.target = e.target → f.state ≠ .queued → f.tries < 4) →
        ∃ t, exec (.deadlinePass i) s = .next t
          ∧ (∀ j, t.entry j = (s.entry j).map fun f =>
              if f.target = e.target ∧ f.state ≠ .queued then { f with state := .rewind true } else f)
          ∧ t = { s with rt := { s.rt with entries := t.rt.entries }, now := max s.now deadline })
      ∧ ((∃ j f, s.entry j = some f ∧ f.target = e.target ∧ f.state ≠ .queued ∧ 4 ≤ f.tries) →
        ∃ t, exec (.deadlinePass i) s = .next t
          ∧ (∀ j, t.entry j = (s.entry j).filter fun f => decide (f.target ≠ e.target))
          ∧ (∀ ch, t.channel ch = (failAll e.target .peerUnreachable s).channel ch)
          ∧ (t.peer e.target).status = .unreachable ∧ (t.peer e.target).tx.syncNeeded = true
          ∧ (t.peer e.target).tx.backoff = none ∧ (t.peer e.target).tx.nextSeq = (s.peer e.target).tx.nextSeq
          ∧ (t.peer e.target).rx = (s.peer e.target).rx ∧ (∀ p, p ≠ e.target → t.peer p = s.peer p)
          ∧ t.ev = { s.ev with peerFlags := s.ev.peerFlags ||| (1#31 <<< e.target.val) }
          ∧ t.st = s.st ∧ t.su = s.su ∧ t.nq = s.nq ∧ t.hp = s.hp ∧ t.own = s.own ∧ t.now = max s.now deadline
          ∧ (let g := failAll e.target .peerUnreachable s
             t = settle { g with
                peers := g.peers.set e.target.val { g.peer e.target with
                  status := .unreachable, tx := { (g.peer e.target).tx with syncNeeded := true, backoff := none } } e.target.isLt
                ev := { g.ev with peerFlags := g.ev.peerFlags ||| (1#31 <<< e.target.val) }
                now := max s.now deadline }
              ∧ t.arb = (grantNext g).arb ∧ t.ce = g.ce ∧ t.sl.requestQueue = g.sl.requestQueue)))
    ∧ ∀ (p : Station) (time : Nat), (s.peer p).tx.backoff = some time → exec (.busyBackoffEnd p) s = .next { s with
        now := max s.now time, peers := s.peers.set p.val { s.peer p with tx := { (s.peer p).tx with backoff := none } } p.isLt }

/-! ## Requests -/

/-- The window check (R91). -/
def Obligations.WindowCheck : Prop :=
  ∀ (s : State) (p : Station) (k : RequestKind) (first last : Nat), k = .read ∨ k = .write ∨ k = .swap →
    let passes (n : WindowNo) : Prop :=
      let w := s.su.windows.get n
      w.isOpen = true ∧ w.length ≠ 0 ∧ 256 * w.base ≤ first ∧ last ≤ 256 * (w.base + w.length) - 1
        ∧ ((k = .read ∧ w.rights.read = true) ∨ (k = .write ∧ w.rights.write = true) ∨ (k = .swap ∧ w.rights.swap = true))
        ∧ w.senders.getLsbD p.val = true
    (∀ n, windowUsed s p k first last = some n ↔ passes n ∧ ∀ m, m < n → ¬ passes m)
      ∧ (windowUsed s p k first last = none ↔ ∀ n, ¬ passes n)

/-- A request taken and turned away or refused (R96, R97, R98, R101, R102, R103, R110): without room for its reply it is discarded; from an
ABSENT sender it is answered NOT-JOINED and a presence frame is asked for (R150); one from an UNREACHABLE sender is taken as from a PRESENT
one, once the sender is brought back (R151); out of sequence it is answered SEQUENCE; a NOTICE that
meets a full queue is answered BUSY; accepted (R99), it is answered MALFORMED or DENIED. The bytes the window check is made for (R103),
and the notice set apart for a TAKE-NOTICE (R113, R176). -/
def Obligations.RequestRefused : Prop :=
  (∀ f : Frame, requestRange .swap f = (f.address.toNat, f.address.toNat + 3)
    ∧ requestRange .read f = (f.address.toNat, f.address.toNat + f.length.toNat - 1)
    ∧ requestRange .write f = (f.address.toNat, f.address.toNat + f.length.toNat - 1))
  ∧ (∀ s : State, ((∃ r n, s.hp.txn = .output r (.notice (some n))) → setApart s = 1)
    ∧ ((∀ r n, s.hp.txn ≠ .output r (.notice (some n))) → setApart s = 0))
  ∧ ∀ (s : State) (f : Frame) (rest : List Frame) (p : Station) (k : RequestKind), Live s → Settled s →
    s.hp.phase = .running ∨ s.hp.phase = .leaving → s.su.execution = none → s.sl.inRequests = f :: rest →
    stationOf f.sender = some p → f.kind = .request k →
    let r := (s.peer p).rx
    let nak (code : Byte) : Frame := {
      kind := .reply .nak, flags := { sync := false, final := false, hello := false, leaving := false }, sender := s.own.setWidth 8
      target := f.sender, sequence := f.sequence, address := f.address, length := 0, code := code, payload := [] }
    let answeredBy (code : Byte) : LineUnit :=
      { s.sl with inRequests := rest, replyQueue := s.sl.replyQueue ++ [nak code] }
    let accepted (o : CacheOutcome) : Vector Peer 31 :=
      s.peers.set p.val { s.peer p with rx := {
        expected := f.sequence + 1
        cache := ((if f.flags.sync then [] else if r.cache.length < 4 then r.cache else r.cache.drop 1)
            ++ [(⟨f.sequence, k, none⟩ : CacheRecord)]).map fun (c : CacheRecord) =>
          if c.outcome = none then { c with outcome := some o } else c } } p.isLt
    let inTurn : Prop := duplicateRecord s p k f.sequence = none ∧ (f.sequence = r.expected ∨ f.flags.sync = true)
    (8 ≤ s.sl.replyQueue.length → exec .requestTake s = .next { s with sl := { s.sl with inRequests := rest } })
    ∧ (s.sl.replyQueue.length < 8 →
      ((s.peer p).status = .absent → exec .requestTake s = .next { s with
        sl := { answeredBy 0x05 with holder := some (s.sl.holder.getD (presenceFrame s.own s.hp.label false false)) } })
      ∧ ((s.peer p).status = .unreachable → exec .requestTake s = exec .requestTake (broughtBack p s))
      ∧ ((s.peer p).status = .present →
        (duplicateRecord s p k f.sequence = none → f.sequence ≠ r.expected → f.flags.sync = false →
          exec .requestTake s = .next { s with sl := answeredBy 0x03 })
        ∧ (inTurn → k = .notice → 16 ≤ s.nq.records.length + setApart s →
          exec .requestTake s = .next { s with sl := answeredBy 0x04 })
        ∧ (inTurn → (k = .notice → s.nq.records.length + setApart s < 16) → wellFormedRequest k f = false →
          exec .requestTake s = .next { s with sl := answeredBy 0x06, peers := accepted .malformed })
        ∧ (inTurn → k ≠ .notice → wellFormedRequest k f = true →
          windowUsed s p k (requestRange k f).1 (requestRange k f).2 = none →
          exec .requestTake s = .next { s with sl := answeredBy 0x01, peers := accepted .denied })))

/-- A request's form (R102). -/
def Obligations.RequestForm : Prop :=
  ∀ f : Frame,
    (wellFormedRequest .write f = true ↔ 1 ≤ f.length.toNat ∧ f.address.toNat % 256 + f.length.toNat ≤ 256
      ∧ f.payload.length = f.length.toNat)
    ∧ (wellFormedRequest .read f = true ↔ 1 ≤ f.length.toNat ∧ f.address.toNat % 256 + f.length.toNat ≤ 256 ∧ f.payload = [])
    ∧ (wellFormedRequest .swap f = true ↔ f.length = 8 ∧ f.payload.length = 8 ∧ f.address.toNat % 4 = 0)
    ∧ (wellFormedRequest .notice f = true ↔ f.length = 6 ∧ f.payload.length = 6)

/-- A request accepted (R92, R99): E moves on and its record is cached. A NOTICE (R108, R113, R116) is answered ACK, and joins the queue
where no waiter matches; otherwise the channel of the earliest matching waiter receives it (R44). A WRITE, READ or SWAP that passes its
window (R95, R103, R104, R106, R107) is in execution with its first access asked for, and a FINAL WRITE through a single-use window shuts
it and flags it (R105, R162). A duplicate (R98, R100) is answered from its record and changes nothing else, or, with READ-DATA, read
afresh; that its bounds include the empty payload is the model's choice of log 26. A duplicate is a request with the sequence number and
kind of a record in its sender's cache. -/
def Obligations.NoticeAcceptedAndDuplicate : Prop :=
  (∀ (s : State) (p : Station) (k : RequestKind) (q : Byte),
    let cache := (s.peer p).rx.cache
    (∀ c, duplicateRecord s p k q = some c ↔ ∃ before later, cache = before ++ c :: later ∧ c.sequence = q ∧ c.kind = k
      ∧ ∀ b ∈ before, ¬ (b.sequence = q ∧ b.kind = k))
    ∧ (duplicateRecord s p k q = none ↔ ∀ c ∈ cache, ¬ (c.sequence = q ∧ c.kind = k)))
  ∧ ∀ (s : State) (f : Frame) (rest : List Frame) (p : Station) (k : RequestKind), Live s → Settled s →
    s.hp.phase = .running ∨ s.hp.phase = .leaving → s.su.execution = none → s.sl.inRequests = f :: rest →
    s.sl.replyQueue.length < 8 → stationOf f.sender = some p → (s.peer p).status = .present → f.kind = .request k →
    let r := (s.peer p).rx
    let reply (kind : ReplyKind) (length : BitVec 16) (code : Byte) (payload : List Byte) : LineUnit := { s.sl with
      inRequests := rest
      replyQueue := s.sl.replyQueue ++ [{
        kind := .reply kind, flags := { sync := false, final := false, hello := false, leaving := false }
        sender := s.own.setWidth 8, target := f.sender, sequence := f.sequence, address := f.address, length := length
        code := code, payload := payload }] }
    let cached (o : Option CacheOutcome) : Vector Peer 31 :=
      s.peers.set p.val { s.peer p with rx := {
        expected := f.sequence + 1
        cache := ((if f.flags.sync then [] else if r.cache.length < 4 then r.cache else r.cache.drop 1)
            ++ [(⟨f.sequence, k, none⟩ : CacheRecord)]).map fun (c : CacheRecord) =>
          if c.outcome = none then { c with outcome := o } else c } } p.isLt
    let asks (j : Access × SuWork) : Arbiter := (grantNext { s with arb := { s.arb with su := s.arb.su ++ [j] } }).arb
    let readFirst : Access × SuWork :=
      ((readPiece f.address.toNat f.length.toNat []).1, .read (readPiece f.address.toNat f.length.toNat []).2)
    let n : Notice := { sender := p, tag := byteAt f.payload 0 ++ byteAt f.payload 1, value := f.payload.drop 2 }
    (duplicateRecord s p k f.sequence = none → f.sequence = r.expected ∨ f.flags.sync = true →
      (k = .notice → s.nq.records.length + setApart s < 16 → f.length = 6 → f.payload.length = 6 →
        (matchingWaiter s.nq n = none → exec .requestTake s = .next { s with
          sl := reply .ack 0 0 []
          nq := { s.nq with records := s.nq.records ++ [n] }
          peers := cached (some .ack) })
        ∧ (∀ w cur, matchingWaiter s.nq n = some w → (s.channel w.channel).current = some cur →
          (descriptorOf cur.bytes).op = some .await → exec .requestTake s = .next { s with
            sl := reply .ack 0 0 []
            nq := { s.nq with waiters := s.nq.waiters.filter fun v => v.channel ≠ w.channel }
            ce := { s.ce with
              channels := s.ce.channels.set w.channel.val { s.channel w.channel with state := .active } w.channel.isLt }
            arb := (grantNext { s with arb := { s.arb with ce := s.arb.ce ++ [noticeWrite w.channel cur n] } }).arb
            peers := cached (some .ack) }))
      ∧ (wellFormedRequest k f = true → ∀ w, windowUsed s p k (requestRange k f).1 (requestRange k f).2 = some w →
          let shuts : Prop := k = .write ∧ f.flags.final = true ∧ (s.su.windows.get w).singleUse = true
          let begun (isOpen : Bool) (flags : BitVec 8) (j : Access × SuWork) : Host.Outcome State Fault Refusal := .next { s with
            sl := { s.sl with inRequests := rest }
            su := {
              execution := some ⟨f, p, false⟩
              windows := s.su.windows.set w.val { s.su.windows.get w with isOpen := isOpen } w.isLt }
            ev := { s.ev with windowFlags := flags }
            arb := asks j
            peers := cached none }
          let isOpen : Bool := (s.su.windows.get w).isOpen
          (k = .write →
            let first := writePiece f.address.toNat f.payload false
            (shuts → exec .requestTake s = begun false (s.ev.windowFlags ||| (1#8 <<< w.val)) (first.1, .write first.2))
            ∧ (¬ shuts → exec .requestTake s = begun isOpen s.ev.windowFlags (first.1, .write first.2)))
          ∧ (k = .read → exec .requestTake s = begun isOpen s.ev.windowFlags readFirst)
          ∧ (k = .swap → exec .requestTake s = begun isOpen s.ev.windowFlags
              (.swap (BitVec.ofNat 14 (f.address.toNat / 8)) (decide (f.address.toNat % 8 = 4)) (f.payload.take 4) (f.payload.drop 4),
                .swap))))
    ∧ ∀ c, duplicateRecord s p k f.sequence = some c →
      (c.outcome = some .ack → exec .requestTake s = .next { s with sl := reply .ack 0 0 [] })
      ∧ (∀ old, c.outcome = some (.swapped old) → exec .requestTake s = .next { s with sl := reply .swapReply 4 0x10 old })
      ∧ (∀ old, c.outcome = some (.unchanged old) → exec .requestTake s = .next { s with sl := reply .swapReply 4 0x11 old })
      ∧ (c.outcome = some .denied → exec .requestTake s = .next { s with sl := reply .nak 0 0x01 [] })
      ∧ (c.outcome = some .store → exec .requestTake s = .next { s with sl := reply .nak 0 0x02 [] })
      ∧ (c.outcome = some .malformed → exec .requestTake s = .next { s with sl := reply .nak 0 0x06 [] })
      ∧ (c.outcome = some .readData →
        let bounds : Prop := 1 ≤ f.length.toNat ∧ f.address.toNat % 256 + f.length.toNat ≤ 256 ∧ f.payload = []
        (bounds → exec .requestTake s = .next { s with
          sl := { s.sl with inRequests := rest }
          su := { s.su with execution := some ⟨f, p, true⟩ }
          arb := asks readFirst })
        ∧ (¬ bounds → exec .requestTake s = .next { s with sl := reply .nak 0 0x06 [] }))

/-- The accesses of a request in execution (R95, R104, R106, R107, R110): a further word is asked for, for a WRITE even after a refusal;
after the last the outcome is recorded in the sender's cache, except for a duplicate's fresh read (R100), and the reply placed. -/
def Obligations.RequestAccessEnds : Prop :=
  ∀ (s : State) (x : Access) (work : SuWork) (f : Frame) (p : Station) (again : Bool) (rest : List (Access × SuWork)),
    Live s → loadLeaving s = s → s.arb.granted = some .su → s.arb.su = (x, work) :: rest →
    s.su.execution = some ⟨f, p, again⟩ →
    let o := (performAccess s.st x).2
    let arb (more : List (Access × SuWork)) : Arbiter :=
      (grantNext { s with arb := { s.arb with granted := none, su := rest ++ more } }).arb
    let goesOn (a : Access) (w : SuWork) : Host.Outcome State Fault Refusal :=
      .next { s with st := (performAccess s.st x).1, arb := arb [(a, w)] }
    let ends (o : CacheOutcome) (kind : ReplyKind) (length : BitVec 16) (code : Byte) (payload : List Byte) :
        Host.Outcome State Fault Refusal := .next { s with
      st := (performAccess s.st x).1, arb := arb [], su := { s.su with execution := none }
      peers := if again then s.peers else s.peers.set p.val { s.peer p with rx := { (s.peer p).rx with
        cache := (s.peer p).rx.cache.map fun c => if c.outcome = none then { c with outcome := some o } else c } } p.isLt
      sl := { s.sl with replyQueue := s.sl.replyQueue ++ [{
        kind := .reply kind, flags := { sync := false, final := false, hello := false, leaving := false }
        sender := s.own.setWidth 8, target := f.sender, sequence := f.sequence, address := f.address, length := length
        code := code, payload := payload }] } }
    (∀ r, work = .write r →
      let refused := r.refused || o.isError
      (r.rest ≠ [] → exec .storeAccessEnd s = goesOn (writePiece r.next r.rest refused).1 (.write (writePiece r.next r.rest refused).2))
      ∧ (r.rest = [] → refused = false → exec .storeAccessEnd s = ends .ack .ack 0 0 [])
      ∧ (r.rest = [] → refused = true → exec .storeAccessEnd s = ends .store .nak 0 0x02 []))
    ∧ (∀ r, work = .read r →
      (∀ bytes, o = .data bytes → r.left ≠ 0 → exec .storeAccessEnd s =
        goesOn (readPiece r.next r.left (r.got ++ (bytes.drop r.skip).take r.take)).1
          (.read (readPiece r.next r.left (r.got ++ (bytes.drop r.skip).take r.take)).2))
      ∧ (∀ bytes, o = .data bytes → r.left = 0 → exec .storeAccessEnd s =
        ends .readData .readData f.length 0 (r.got ++ (bytes.drop r.skip).take r.take))
      ∧ (∀ bytes, o = .storeError bytes → exec .storeAccessEnd s = ends .store .nak 0 0x02 []))
    ∧ (work = .swap →
      (∀ old, o = .swapped old → exec .storeAccessEnd s = ends (.swapped old) .swapReply 4 0x10 old)
      ∧ (∀ old, o = .unchanged old → exec .storeAccessEnd s = ends (.unchanged old) .swapReply 4 0x11 old)
      ∧ (∀ bytes, o = .storeError bytes → exec .storeAccessEnd s = ends .store .nak 0 0x02 []))

/-- A notice record matches a tag and a sender filter, and the earliest waiter it matches is found (R115, R116). -/
def Obligations.NoticeMatch : Prop :=
  (∀ (n : Notice) (tag : BitVec 16) (filter : Byte), filter.toNat ≤ 31 →
    (noticeMatches n tag filter = true ↔ n.tag = tag ∧ (filter = 31 ∨ filter.toNat = n.sender.val)))
  ∧ ∀ (q : NoticeQueue) (n : Notice) (w : Waiter), matchingWaiter q n = some w ↔
      ∃ before after, q.waiters = before ++ w :: after ∧ noticeMatches n w.tag w.filter = true
        ∧ ∀ v ∈ before, noticeMatches n v.tag v.filter = false

/-! ## The line -/

/-- A frame on the line ends (R126 to R130): a failed frame, and one whose sender byte is above 30 is one (R183), leaves the rotor; every
good one, of an unknown kind too, sets it to its
sender's number plus 1, modulo 31; one that a filter discards changes nothing else; one of the phase's kinds to this station goes to its
buffer, or is lost where that is full. A station that transmits does not receive.
That the open claim window is over then is the model's inference of log 12. -/
def Obligations.FrameEndRoutes : Prop :=
  ∀ (b : List Byte) (s : State), Live s → Settled s →
    ((∃ c, s.sl.claim = .sending c) → exec (.frameEnd b) s = .next s)
    ∧ (b.length < 14 ∨ 270 < b.length ∨ frameCheck (b.take (b.length - 4)) ≠ b.drop (b.length - 4) ∨ 30 < (byteAt b 1).toNat →
        receiveBytes b = .failed)
    ∧ (14 ≤ b.length → b.length ≤ 270 → frameCheck (b.take (b.length - 4)) = b.drop (b.length - 4) → ∀ p, stationOf (byteAt b 1) = some p →
        (byteAt b 0).extractLsb' 4 4 ∉ [0x1, 0x2, 0x3, 0x4, 0x5, 0x8, 0x9, 0xA, 0xB] → receiveBytes b = .unknownKind p)
    ∧ (s.sl.claim = .idle →
    let line (p : Station) : LineUnit := { s.sl with window := none, rotor := ⟨(p.val + 1) % 31, Nat.mod_lt _ (by decide)⟩ }
    (receiveBytes b = .failed ∨ s.hp.phase = .detached → exec (.frameEnd b) s = .next { s with sl := { s.sl with window := none } })
    ∧ (s.hp.phase ≠ .detached →
      (∀ p, receiveBytes b = .unknownKind p → exec (.frameEnd b) s = .next { s with sl := line p })
      ∧ ∀ p f, receiveBytes b = .good p f →
        (∃ t, exec (.frameEnd b) s = .next t ∧ t.sl.rotor = (line p).rotor ∧ t.sl.window = none)
        ∧ (f.sender = s.own.setWidth 8 ∨ (f.target ≠ s.own.setWidth 8 ∧ (f.kind ≠ .presence ∨ f.target ≠ 31))
            ∨ (f.kind = .presence ∧ (f.payload.length ≠ 8 ∨ (f.flags.hello = true ∧ f.flags.leaving = true))) →
          exec (.frameEnd b) s = .next { s with sl := line p })
        ∧ (f.sender ≠ s.own.setWidth 8 → f.target = s.own.setWidth 8 →
          (∀ k, f.kind = .request k →
            (s.hp.phase = .config ∨ s.hp.phase = .joining → exec (.frameEnd b) s = .next { s with sl := line p })
            ∧ (s.hp.phase = .running ∨ s.hp.phase = .leaving →
              exec (.frameEnd b) s = .next { s with sl := { line p with
                inRequests := if s.sl.inRequests.length < 4 then s.sl.inRequests ++ [f] else s.sl.inRequests } }))
          ∧ (∀ k, f.kind = .reply k →
            (s.hp.phase = .config → exec (.frameEnd b) s = .next { s with sl := line p })
            ∧ (s.hp.phase ≠ .config →
              exec (.frameEnd b) s = .next { s with sl := { line p with
                inReplies := if s.sl.inReplies.length < 4 then s.sl.inReplies ++ [f] else s.sl.inReplies } })))))

/-- A presence frame that passes the filters (R128, R144 to R148, R150, R154, R87, R94): it sets the rotor, its label is kept, and the
sender's status and change flag follow its kind. After SEAL a HELLO and a LEAVING frame reset both parts of its record and free its entries,
failed with PEER-RESTARTED or PEER-LEFT, a HELLO in RUNNING or LEAVING puts a presence frame in an empty holder, and an unmarked one makes
a lost sender need SYNC; in CONFIG the parts and the table stay. The entries held for a station are freed one after another, each that is no
orphan handing its failure to its channel (R70, R77, R85, R87). That they are freed in the order of taking, where those rules say in order of
age, oldest first, is the model's deduction of log 16; CountsStayExact states that the two orders agree. What freeing an entry and failing
a segment do is stated with the replies, and the earliest failure gives its channel the fault record (R55, R56, R86). That the open claim window is
over then is the model's inference of log 12. -/
def Obligations.HelloRestartsPeer : Prop :=
  (∀ (b : List Byte) (p : Station) (f : Frame) (s : State), Live s → OrderListsHeld s → s.sl.claim = .idle →
    receiveBytes b = .good p f → f.sender ≠ s.own.setWidth 8 → f.target = 31 ∨ f.target = s.own.setWidth 8 → f.kind = .presence →
    f.payload.length = 8 → f.flags.hello = false ∨ f.flags.leaving = false → s.hp.phase ≠ .detached →
    ∃ t, exec (.frameEnd b) s = .next t
      ∧ t.sl.rotor = ⟨(p.val + 1) % 31, Nat.mod_lt _ (by decide)⟩ ∧ t.sl.window = none
      ∧ (t.peer p).label = f.payload ∧ (∀ q, q ≠ p → t.peer q = s.peer q)
      ∧ t.st = s.st ∧ t.hp = s.hp ∧ t.su = s.su ∧ t.nq = s.nq ∧ t.own = s.own ∧ t.pins = s.pins
      ∧ (let flagged (yes : Prop) : Prop :=
          (yes → t.ev = { s.ev with peerFlags := s.ev.peerFlags ||| (1#31 <<< p.val) }) ∧ (¬ yes → t.ev = s.ev)
        let bothReset (code : FaultCode) : Prop :=
          (t.peer p).tx = { nextSeq := 0, held := 0, syncNeeded := false, backoff := none }
          ∧ (t.peer p).rx = { expected := 0, cache := [] }
          ∧ (∀ i, t.entry i = (s.entry i).filter fun e => decide (e.target ≠ p))
          ∧ ∀ ch, t.channel ch = (failAll p code s).channel ch
        let line (sl : LineUnit) (holder : Option Frame) : LineUnit :=
          { sl with window := none, rotor := ⟨(p.val + 1) % 31, Nat.mod_lt _ (by decide)⟩, holder := holder }
        let flags (yes : Bool) : BitVec 31 := s.ev.peerFlags ||| (if yes then 1#31 <<< p.val else 0)
        let heard (r : Peer) (yes : Bool) : Prop := t = settle { s with
          peers := s.peers.set p.val r p.isLt, ev := { s.ev with peerFlags := flags yes }, sl := line s.sl s.sl.holder }
        let lost (code : FaultCode) (status : PeerStatus) (yes : Bool) (holder : Option Frame) : Prop :=
          let g := failAll p code s
          t = settle { g with
              peers := g.peers.set p.val {
                status := status, label := f.payload, tx := { nextSeq := 0, held := 0, syncNeeded := false, backoff := none }
                rx := { expected := 0, cache := [] } } p.isLt
              ev := { g.ev with peerFlags := flags yes }
              sl := line g.sl holder }
            ∧ t.arb = (grantNext g).arb ∧ t.ce = g.ce ∧ t.sl.requestQueue = g.sl.requestQueue
        (s.hp.phase = .config → t.rt = s.rt ∧ t.ce = s.ce ∧ t.sl.holder = s.sl.holder
            ∧ (t.peer p).tx = (s.peer p).tx ∧ (t.peer p).rx = (s.peer p).rx
            ∧ (t.peer p).status = (if f.flags.leaving then .absent else .present)
            ∧ flagged (f.flags.hello = true ∨ (t.peer p).status ≠ (s.peer p).status)
            ∧ heard { s.peer p with label := f.payload, status := if f.flags.leaving then .absent else .present }
                (f.flags.hello || decide ((t.peer p).status ≠ (s.peer p).status)))
        ∧ (s.hp.phase ≠ .config →
          (f.flags.hello = true → (t.peer p).status = .present ∧ bothReset .peerRestarted ∧ flagged True
            ∧ (s.hp.phase = .running → t.sl.holder = some (s.sl.holder.getD (presenceFrame s.own s.hp.label false false)))
            ∧ (s.hp.phase = .joining → t.sl.holder = s.sl.holder)
            ∧ lost .peerRestarted .present true (if s.hp.phase = .running ∨ s.hp.phase = .leaving then
                some (s.sl.holder.getD (presenceFrame s.own s.hp.label false false)) else s.sl.holder))
          ∧ (f.flags.leaving = true → (t.peer p).status = .absent ∧ bothReset .peerLeft ∧ flagged ((s.peer p).status ≠ .absent)
            ∧ (s.hp.phase ≠ .leaving → t.sl.holder = s.sl.holder)
            ∧ lost .peerLeft .absent (decide ((s.peer p).status ≠ .absent)) s.sl.holder)
          ∧ (f.flags.hello = false → f.flags.leaving = false → (s.peer p).status ≠ .self →
            (t.peer p).status = .present ∧ (t.peer p).rx = (s.peer p).rx ∧ t.rt = s.rt ∧ t.ce = s.ce
            ∧ (t.peer p).tx = { (s.peer p).tx with
                syncNeeded := (s.peer p).tx.syncNeeded || decide ((s.peer p).status ≠ .present) }
            ∧ flagged ((s.peer p).status ≠ .present)
            ∧ (s.hp.phase ≠ .leaving → t.sl.holder = s.sl.holder)
            ∧ heard { s.peer p with
                label := f.payload, status := .present
                tx := { (s.peer p).tx with syncNeeded := (s.peer p).tx.syncNeeded || decide ((s.peer p).status ≠ .present) } }
                (decide ((s.peer p).status ≠ .present))))))
    ∧ (∀ (s : State) (p : Station) (code : FaultCode), failAll p code s = s.rt.order.foldl (fun u i =>
        match s.entry i with
        | some e =>
          if e.target = p then
            (if e.orphan then freeEntry i e u else failSegment e.channel code e.offset (freeEntry i e u))
          else u
        | none => u) s)
    ∧ ∀ (s : State) (p : Station) (code : FaultCode) (ch : ChannelNo),
      let named (e : Entry) : Prop := e.target = p ∧ e.channel = ch ∧ e.orphan = false
      ((∀ i ∈ s.rt.order, ∀ e, s.entry i = some e → ¬ named e) → (failAll p code s).channel ch = s.channel ch)
      ∧ ∀ before i later e cur, s.rt.order = before ++ i :: later → s.entry i = some e → named e →
        (∀ j ∈ before, ∀ g, s.entry j = some g → ¬ named g) →
        (s.channel ch).state = .active → (s.channel ch).current = some cur →
        ((failAll p code s).channel ch).state = .draining
          ∧ ((failAll p code s).channel ch).fault = some ⟨code, cur.address, e.offset⟩

/-- A claim window (R136, R137, R138, R139): it opens with this station's two slots from its rotor; in its reply slot a station with a
reply, in its request slot one with a presence frame or else a request frame, drives its mark, once in a window; the read-back of its own
number gives it the line, another ends the commitment, and a LEAVING frame kept aside replaces the held one, unless that is a HELLO
(R135); a window that ends unclaimed sets the rotor to 0. That a window's end without a window held acts the same is the model's choice of
log 22. A slot given as a whole is its beginning and then its end (log 11). -/
def Obligations.ClaimWindowRuns : Prop :=
  ∀ s : State, Live s → Settled s →
    (s.sl.claim = .idle →
      let place := (s.own.toNat + 31 - s.sl.rotor.val) % 31
      exec .claimWindowOpen s = .next { s with sl := { s.sl with window := some {
        takesPart := decide (s.hp.phase = .joining ∨ s.hp.phase = .running ∨ s.hp.phase = .leaving)
        replySlot := place, requestSlot := 31 + place, claimed := false } } }
      ∧ exec .claimWindowEnd s = .next { s with sl := { s.sl with
          window := none, rotor := if s.hp.phase = .detached then s.sl.rotor else 0 } })
    ∧ (∀ (n : Fin 62) (w : ClaimWindow), s.sl.claim = .idle → s.sl.window = some w → w.claimed = false → w.replySlot < w.requestSlot →
        let marks (what : Committed) : Host.Outcome State Fault Refusal := .next { s with
          sl := { s.sl with claim := .marking n what, window := some { w with claimed := true } } }
        (w.takesPart = true → n.val = w.replySlot → s.sl.replyQueue ≠ [] → exec (.claimSlot n .begins) s = marks .reply)
        ∧ (HelloInJoining s → w.takesPart = true → n.val = w.requestSlot → s.sl.holder ≠ none → exec (.claimSlot n .begins) s = marks .presence)
        ∧ (w.takesPart = true → n.val = w.requestSlot → s.sl.holder = none → s.sl.requestQueue ≠ [] →
            exec (.claimSlot n .begins) s = marks .request)
        ∧ (w.takesPart = false ∨ (n.val = w.replySlot ∧ s.sl.replyQueue = [])
            ∨ (n.val = w.requestSlot ∧ s.sl.holder = none ∧ s.sl.requestQueue = []) ∨ (n.val ≠ w.replySlot ∧ n.val ≠ w.requestSlot) →
            exec (.claimSlot n .begins) s = .next s))
    ∧ (∀ (n : Fin 62) (w : ClaimWindow), s.sl.claim = .idle → s.sl.window = some w → w.claimed = true →
        exec (.claimSlot n .begins) s = .next s)
    ∧ (∀ (n : Fin 62) (others : List (BitVec 5)), HelloInJoining s → ∃ t, exec (.claimSlot n .begins) s = .next t
        ∧ exec (.claimSlot n (.whole others)) s = exec (.claimSlot n (.ends others)) t)
    ∧ ∀ (n : Fin 62) (what : Committed) (others : List (BitVec 5)), s.sl.claim = .marking n what →
        let shows := others.foldl (fun line number => line &&& number) s.own
        (shows = s.own → exec (.claimSlot n (.ends others)) s = .next { s with
          sl := { s.sl with claim := .sending what, window := none } })
        ∧ (shows ≠ s.own → s.sl.aside = none → exec (.claimSlot n (.ends others)) s = .next { s with
          sl := { s.sl with claim := .idle, requestQueue := s.sl.requestQueue.filter fun q => !q.withdrawn } })
        ∧ (shows ≠ s.own → ∀ l, s.sl.aside = some l → l.flags.leaving = true →
          let defers (held : Frame) : Host.Outcome State Fault Refusal := .next { s with
            sl := { s.sl with
              claim := .idle, requestQueue := s.sl.requestQueue.filter fun q => !q.withdrawn, holder := some held, aside := none } }
          (∀ f, s.sl.holder = some f → exec (.claimSlot n (.ends others)) s = defers (if f.flags.hello then f else l))
          ∧ (s.sl.holder = none → exec (.claimSlot n (.ends others)) s = defers l))

/-- A transmission ends (R69, R135, R140, R153, R189, R191): the frame leaves its queue or holder and the rotor is the own number plus 1;
a request's entry waits for one reply timeout, unless its frame was withdrawn or the entry is not that QUEUED one; a LEAVING frame kept
aside is loaded; a HELLO carries JOINING to RUNNING, a LEAVING frame LEAVING to DETACHED, and an unmarked frame changes no phase. The reply
timeout in CLK periods (R82).
The field `lastSent` is the model's own (log 18). -/
def Obligations.TransmissionReports : Prop :=
  ∀ s : State, Live s → Settled s →
    (∀ t : Fin 4, timeoutOf t = (match t.val with | 0 => 3200 | 1 => 12800 | 2 => 51200 | _ => 204800)) ∧
    let sent (f : Frame) : LineUnit := { s.sl with
      claim := .idle, rotor := ⟨(s.own.toNat + 1) % 31, Nat.mod_lt _ (by decide)⟩, lastSent := frameBytes f }
    (∀ f fs, s.sl.claim = .sending .reply → s.sl.replyQueue = f :: fs →
      exec .transmissionEnd s = .next { s with sl := { sent f with replyQueue := fs } })
    ∧ (∀ q qs e, s.sl.claim = .sending .request → s.sl.requestQueue = q :: qs → q.withdrawn = false → s.entry q.slot = some e →
        e.state = .queued → e.sequence = q.frame.sequence → exec .transmissionEnd s = .next { s with
          sl := { sent q.frame with requestQueue := qs }
          rt := { s.rt with entries := s.rt.entries.set q.slot.val (some { e with
            state := .waiting (s.now + timeoutOf s.hp.timing) }) q.slot.isLt } })
    ∧ (∀ q qs, s.sl.claim = .sending .request → s.sl.requestQueue = q :: qs →
        (q.withdrawn = true ∨ ∀ e, s.entry q.slot = some e → e.state = .queued → e.sequence ≠ q.frame.sequence) →
        exec .transmissionEnd s = .next { s with sl := { sent q.frame with requestQueue := qs } })
    ∧ (∀ f l, s.sl.claim = .sending .presence → s.sl.holder = some f → s.sl.aside = some l → s.hp.phase = .leaving →
        f.flags.leaving = false → l.flags.leaving = true →
        exec .transmissionEnd s = .next { s with sl := { sent f with holder := some l, aside := none } })
    ∧ (∀ f, s.sl.claim = .sending .presence → s.sl.holder = some f → s.sl.aside = none →
        (f.flags.hello = true → s.hp.phase = .joining → exec .transmissionEnd s = .next { s with
          sl := { sent f with holder := none }, hp := { s.hp with phase := .running } })
        ∧ (f.flags.hello = false → f.flags.leaving = true → s.hp.phase = .leaving → exec .transmissionEnd s = .next { s with
          sl := { sent f with holder := none }, hp := { s.hp with phase := .detached } })
        ∧ (f.flags.hello = false → f.flags.leaving = false → s.hp.phase = .running ∨ s.hp.phase = .leaving → exec .transmissionEnd s = .next { s with
          sl := { sent f with holder := none } }))

/-! ## What every step keeps -/

/-- No queue or buffer of the part ever holds more than its rule allows. The held list stays in order (R58, R59, R159): while it is not
empty the event queue holds 32 records, it lists no channel twice, and a channel is listed exactly if it is HELD, with its pending
event; so where the queue has room the held list is empty, and its occupancy alone decides an offer. A channel's work stays in order with
its state, and its outstanding count is 0 in IDLE, AWAITING, HELD and FAULTED (R36). -/
def Obligations.QueuesStayBounded : Prop :=
  (∀ s t : State, QueuesBounded s → step s = .next t → QueuesBounded t)
    ∧ (∀ s t : State, QueuesBounded s → OrderListsHeld s → CountsExact s → WorkInOrder s → HeldListInOrder s → step s = .next t →
        WorkInOrder t ∧ HeldListInOrder t)
    ∧ ∀ s : State, HeldListInOrder s → s.ev.events.length < 32 → s.ce.held = []

/-- Every reply cache keeps the consecutive sequence numbers just below E (R92, R99). -/
def Obligations.CachesStayInOrder : Prop :=
  ∀ s t : State, CacheInOrder s → step s = .next t → CacheInOrder t

/-- The order of taking and the counts keep agreeing with the request table (R36, R63, R64), and the entries held for a target keep
different ages from 1 to 4 (R46, R65, R66), so that there are at most 4 of them. The order of taking is the order of age: the entries
held for a target stand in it oldest first, which is how failAll frees them (R77, R85, R87; the deduction of log 16). -/
def Obligations.CountsStayExact : Prop :=
  (∀ s t : State, OrderListsHeld s → step s = .next t →
    OrderListsHeld t ∧ (CountsExact s → CountsExact t) ∧ (AgesInWindow s → AgesInWindow t))
    ∧ (∀ s : State, AgesInWindow s → ∀ p : Station, entryCount s (fun e => decide (e.target = p)) ≤ 4)
    ∧ ∀ s : State, AgesInWindow s → ∀ p : Station, (entriesFor s p).Pairwise fun x y => age s y.2 < age s x.2

/-- Entries are held for PRESENT stations only, the own record alone is SELF, and nothing runs before SEAL (R37, R67, R142, R187). -/
def Obligations.TargetsStayPresent : Prop :=
  ∀ s t : State, OrderListsHeld s → ConfigQuiet s → TargetsPresent s → step s = .next t →
    OrderListsHeld t ∧ ConfigQuiet t ∧ TargetsPresent t

/-- The forms that every step keeps hold after reset. -/
def Obligations.FormsHoldAtReset : Prop :=
  State.reset.st.wf = true ∧ QueuesBounded State.reset ∧ CacheInOrder State.reset ∧ OrderListsHeld State.reset
    ∧ CountsExact State.reset ∧ HelloInJoining State.reset ∧ ConfigQuiet State.reset ∧ TargetsPresent State.reset ∧ AgesInWindow State.reset
    ∧ WorkInOrder State.reset ∧ HeldListInOrder State.reset ∧ Settled State.reset

/-- After SEAL the own number, label, timing choice and window attributes other than the gate stay as they are until a reset (R89, R187,
R188); the phase moves only as R186 to R191 say; and a HELLO frame is in the presence holder in JOINING only. -/
def Obligations.PhaseAndConfiguration : Prop :=
  ∀ (c : Instr) (s t : State), exec c s = .next t →
    (HelloInJoining s → HelloInJoining t)
    ∧ (Resets c = false → s.hp.phase ≠ .config → t.own = s.own ∧ t.hp.label = s.hp.label ∧ t.hp.timing = s.hp.timing
        ∧ ∀ w : WindowNo, (t.su.windows.get w).fixed = (s.su.windows.get w).fixed)
    ∧ (Resets c = false → t.hp.phase ≠ s.hp.phase →
        (c = .sealStation ∧ s.hp.phase = .config ∧ t.hp.phase = .joining)
        ∨ (c = .transmissionEnd ∧ s.hp.phase = .joining ∧ t.hp.phase = .running)
        ∨ (c = .leave ∧ s.hp.phase = .running ∧ t.hp.phase = .leaving)
        ∨ (c = .transmissionEnd ∧ s.hp.phase = .leaving ∧ t.hp.phase = .detached))
end

