-- ==== Sys2Proof/Laws/State.lean ====
section
/-! SUPPORT. The fields of the state after each of its updates: one lemma for each field and each update, true by unfolding. -/

namespace Sys2Proof.Machine

variable (s : State)

@[simp] theorem setChannel_st (ch : ChannelNo) (c : Channel) : (setChannel ch c s).st = s.st := rfl
@[simp] theorem setChannel_arb (ch : ChannelNo) (c : Channel) : (setChannel ch c s).arb = s.arb := rfl
@[simp] theorem setChannel_ce (ch : ChannelNo) (c : Channel) : (setChannel ch c s).ce = { s.ce with channels := s.ce.channels.set ch.val c ch.isLt } := rfl
@[simp] theorem setChannel_rt (ch : ChannelNo) (c : Channel) : (setChannel ch c s).rt = s.rt := rfl
@[simp] theorem setChannel_peers (ch : ChannelNo) (c : Channel) : (setChannel ch c s).peers = s.peers := rfl
@[simp] theorem setChannel_su (ch : ChannelNo) (c : Channel) : (setChannel ch c s).su = s.su := rfl
@[simp] theorem setChannel_nq (ch : ChannelNo) (c : Channel) : (setChannel ch c s).nq = s.nq := rfl
@[simp] theorem setChannel_sl (ch : ChannelNo) (c : Channel) : (setChannel ch c s).sl = s.sl := rfl
@[simp] theorem setChannel_ev (ch : ChannelNo) (c : Channel) : (setChannel ch c s).ev = s.ev := rfl
@[simp] theorem setChannel_hp (ch : ChannelNo) (c : Channel) : (setChannel ch c s).hp = s.hp := rfl
@[simp] theorem setChannel_own (ch : ChannelNo) (c : Channel) : (setChannel ch c s).own = s.own := rfl
@[simp] theorem setChannel_pins (ch : ChannelNo) (c : Channel) : (setChannel ch c s).pins = s.pins := rfl
@[simp] theorem setChannel_now (ch : ChannelNo) (c : Channel) : (setChannel ch c s).now = s.now := rfl
@[simp] theorem setChannel_draws (ch : ChannelNo) (c : Channel) : (setChannel ch c s).draws = s.draws := rfl
@[simp] theorem setChannel_pending (ch : ChannelNo) (c : Channel) : (setChannel ch c s).pending = s.pending := rfl

@[simp] theorem modChannel_st (ch : ChannelNo) (f : Channel → Channel) : (modChannel ch f s).st = s.st := rfl
@[simp] theorem modChannel_arb (ch : ChannelNo) (f : Channel → Channel) : (modChannel ch f s).arb = s.arb := rfl
@[simp] theorem modChannel_ce (ch : ChannelNo) (f : Channel → Channel) : (modChannel ch f s).ce = { s.ce with channels := s.ce.channels.set ch.val (f (s.channel ch)) ch.isLt } := rfl
@[simp] theorem modChannel_rt (ch : ChannelNo) (f : Channel → Channel) : (modChannel ch f s).rt = s.rt := rfl
@[simp] theorem modChannel_peers (ch : ChannelNo) (f : Channel → Channel) : (modChannel ch f s).peers = s.peers := rfl
@[simp] theorem modChannel_su (ch : ChannelNo) (f : Channel → Channel) : (modChannel ch f s).su = s.su := rfl
@[simp] theorem modChannel_nq (ch : ChannelNo) (f : Channel → Channel) : (modChannel ch f s).nq = s.nq := rfl
@[simp] theorem modChannel_sl (ch : ChannelNo) (f : Channel → Channel) : (modChannel ch f s).sl = s.sl := rfl
@[simp] theorem modChannel_ev (ch : ChannelNo) (f : Channel → Channel) : (modChannel ch f s).ev = s.ev := rfl
@[simp] theorem modChannel_hp (ch : ChannelNo) (f : Channel → Channel) : (modChannel ch f s).hp = s.hp := rfl
@[simp] theorem modChannel_own (ch : ChannelNo) (f : Channel → Channel) : (modChannel ch f s).own = s.own := rfl
@[simp] theorem modChannel_pins (ch : ChannelNo) (f : Channel → Channel) : (modChannel ch f s).pins = s.pins := rfl
@[simp] theorem modChannel_now (ch : ChannelNo) (f : Channel → Channel) : (modChannel ch f s).now = s.now := rfl
@[simp] theorem modChannel_draws (ch : ChannelNo) (f : Channel → Channel) : (modChannel ch f s).draws = s.draws := rfl
@[simp] theorem modChannel_pending (ch : ChannelNo) (f : Channel → Channel) : (modChannel ch f s).pending = s.pending := rfl

@[simp] theorem setHeld_st (held : List ChannelNo) : (setHeld held s).st = s.st := rfl
@[simp] theorem setHeld_arb (held : List ChannelNo) : (setHeld held s).arb = s.arb := rfl
@[simp] theorem setHeld_ce (held : List ChannelNo) : (setHeld held s).ce = { s.ce with held := held } := rfl
@[simp] theorem setHeld_rt (held : List ChannelNo) : (setHeld held s).rt = s.rt := rfl
@[simp] theorem setHeld_peers (held : List ChannelNo) : (setHeld held s).peers = s.peers := rfl
@[simp] theorem setHeld_su (held : List ChannelNo) : (setHeld held s).su = s.su := rfl
@[simp] theorem setHeld_nq (held : List ChannelNo) : (setHeld held s).nq = s.nq := rfl
@[simp] theorem setHeld_sl (held : List ChannelNo) : (setHeld held s).sl = s.sl := rfl
@[simp] theorem setHeld_ev (held : List ChannelNo) : (setHeld held s).ev = s.ev := rfl
@[simp] theorem setHeld_hp (held : List ChannelNo) : (setHeld held s).hp = s.hp := rfl
@[simp] theorem setHeld_own (held : List ChannelNo) : (setHeld held s).own = s.own := rfl
@[simp] theorem setHeld_pins (held : List ChannelNo) : (setHeld held s).pins = s.pins := rfl
@[simp] theorem setHeld_now (held : List ChannelNo) : (setHeld held s).now = s.now := rfl
@[simp] theorem setHeld_draws (held : List ChannelNo) : (setHeld held s).draws = s.draws := rfl
@[simp] theorem setHeld_pending (held : List ChannelNo) : (setHeld held s).pending = s.pending := rfl

@[simp] theorem setTurn_st (t : Option Turn) : (setTurn t s).st = s.st := rfl
@[simp] theorem setTurn_arb (t : Option Turn) : (setTurn t s).arb = s.arb := rfl
@[simp] theorem setTurn_ce (t : Option Turn) : (setTurn t s).ce = { s.ce with turn := t } := rfl
@[simp] theorem setTurn_rt (t : Option Turn) : (setTurn t s).rt = s.rt := rfl
@[simp] theorem setTurn_peers (t : Option Turn) : (setTurn t s).peers = s.peers := rfl
@[simp] theorem setTurn_su (t : Option Turn) : (setTurn t s).su = s.su := rfl
@[simp] theorem setTurn_nq (t : Option Turn) : (setTurn t s).nq = s.nq := rfl
@[simp] theorem setTurn_sl (t : Option Turn) : (setTurn t s).sl = s.sl := rfl
@[simp] theorem setTurn_ev (t : Option Turn) : (setTurn t s).ev = s.ev := rfl
@[simp] theorem setTurn_hp (t : Option Turn) : (setTurn t s).hp = s.hp := rfl
@[simp] theorem setTurn_own (t : Option Turn) : (setTurn t s).own = s.own := rfl
@[simp] theorem setTurn_pins (t : Option Turn) : (setTurn t s).pins = s.pins := rfl
@[simp] theorem setTurn_now (t : Option Turn) : (setTurn t s).now = s.now := rfl
@[simp] theorem setTurn_draws (t : Option Turn) : (setTurn t s).draws = s.draws := rfl
@[simp] theorem setTurn_pending (t : Option Turn) : (setTurn t s).pending = s.pending := rfl

@[simp] theorem setPeer_st (p : Station) (r : Peer) : (setPeer p r s).st = s.st := rfl
@[simp] theorem setPeer_arb (p : Station) (r : Peer) : (setPeer p r s).arb = s.arb := rfl
@[simp] theorem setPeer_ce (p : Station) (r : Peer) : (setPeer p r s).ce = s.ce := rfl
@[simp] theorem setPeer_rt (p : Station) (r : Peer) : (setPeer p r s).rt = s.rt := rfl
@[simp] theorem setPeer_peers (p : Station) (r : Peer) : (setPeer p r s).peers = s.peers.set p.val r p.isLt := rfl
@[simp] theorem setPeer_su (p : Station) (r : Peer) : (setPeer p r s).su = s.su := rfl
@[simp] theorem setPeer_nq (p : Station) (r : Peer) : (setPeer p r s).nq = s.nq := rfl
@[simp] theorem setPeer_sl (p : Station) (r : Peer) : (setPeer p r s).sl = s.sl := rfl
@[simp] theorem setPeer_ev (p : Station) (r : Peer) : (setPeer p r s).ev = s.ev := rfl
@[simp] theorem setPeer_hp (p : Station) (r : Peer) : (setPeer p r s).hp = s.hp := rfl
@[simp] theorem setPeer_own (p : Station) (r : Peer) : (setPeer p r s).own = s.own := rfl
@[simp] theorem setPeer_pins (p : Station) (r : Peer) : (setPeer p r s).pins = s.pins := rfl
@[simp] theorem setPeer_now (p : Station) (r : Peer) : (setPeer p r s).now = s.now := rfl
@[simp] theorem setPeer_draws (p : Station) (r : Peer) : (setPeer p r s).draws = s.draws := rfl
@[simp] theorem setPeer_pending (p : Station) (r : Peer) : (setPeer p r s).pending = s.pending := rfl

@[simp] theorem modTx_st (p : Station) (f : TransmitPart → TransmitPart) : (modTx p f s).st = s.st := rfl
@[simp] theorem modTx_arb (p : Station) (f : TransmitPart → TransmitPart) : (modTx p f s).arb = s.arb := rfl
@[simp] theorem modTx_ce (p : Station) (f : TransmitPart → TransmitPart) : (modTx p f s).ce = s.ce := rfl
@[simp] theorem modTx_rt (p : Station) (f : TransmitPart → TransmitPart) : (modTx p f s).rt = s.rt := rfl
@[simp] theorem modTx_peers (p : Station) (f : TransmitPart → TransmitPart) : (modTx p f s).peers = s.peers.set p.val { s.peer p with tx := f (s.peer p).tx } p.isLt := rfl
@[simp] theorem modTx_su (p : Station) (f : TransmitPart → TransmitPart) : (modTx p f s).su = s.su := rfl
@[simp] theorem modTx_nq (p : Station) (f : TransmitPart → TransmitPart) : (modTx p f s).nq = s.nq := rfl
@[simp] theorem modTx_sl (p : Station) (f : TransmitPart → TransmitPart) : (modTx p f s).sl = s.sl := rfl
@[simp] theorem modTx_ev (p : Station) (f : TransmitPart → TransmitPart) : (modTx p f s).ev = s.ev := rfl
@[simp] theorem modTx_hp (p : Station) (f : TransmitPart → TransmitPart) : (modTx p f s).hp = s.hp := rfl
@[simp] theorem modTx_own (p : Station) (f : TransmitPart → TransmitPart) : (modTx p f s).own = s.own := rfl
@[simp] theorem modTx_pins (p : Station) (f : TransmitPart → TransmitPart) : (modTx p f s).pins = s.pins := rfl
@[simp] theorem modTx_now (p : Station) (f : TransmitPart → TransmitPart) : (modTx p f s).now = s.now := rfl
@[simp] theorem modTx_draws (p : Station) (f : TransmitPart → TransmitPart) : (modTx p f s).draws = s.draws := rfl
@[simp] theorem modTx_pending (p : Station) (f : TransmitPart → TransmitPart) : (modTx p f s).pending = s.pending := rfl

@[simp] theorem modRx_st (p : Station) (f : ReceivePart → ReceivePart) : (modRx p f s).st = s.st := rfl
@[simp] theorem modRx_arb (p : Station) (f : ReceivePart → ReceivePart) : (modRx p f s).arb = s.arb := rfl
@[simp] theorem modRx_ce (p : Station) (f : ReceivePart → ReceivePart) : (modRx p f s).ce = s.ce := rfl
@[simp] theorem modRx_rt (p : Station) (f : ReceivePart → ReceivePart) : (modRx p f s).rt = s.rt := rfl
@[simp] theorem modRx_peers (p : Station) (f : ReceivePart → ReceivePart) : (modRx p f s).peers = s.peers.set p.val { s.peer p with rx := f (s.peer p).rx } p.isLt := rfl
@[simp] theorem modRx_su (p : Station) (f : ReceivePart → ReceivePart) : (modRx p f s).su = s.su := rfl
@[simp] theorem modRx_nq (p : Station) (f : ReceivePart → ReceivePart) : (modRx p f s).nq = s.nq := rfl
@[simp] theorem modRx_sl (p : Station) (f : ReceivePart → ReceivePart) : (modRx p f s).sl = s.sl := rfl
@[simp] theorem modRx_ev (p : Station) (f : ReceivePart → ReceivePart) : (modRx p f s).ev = s.ev := rfl
@[simp] theorem modRx_hp (p : Station) (f : ReceivePart → ReceivePart) : (modRx p f s).hp = s.hp := rfl
@[simp] theorem modRx_own (p : Station) (f : ReceivePart → ReceivePart) : (modRx p f s).own = s.own := rfl
@[simp] theorem modRx_pins (p : Station) (f : ReceivePart → ReceivePart) : (modRx p f s).pins = s.pins := rfl
@[simp] theorem modRx_now (p : Station) (f : ReceivePart → ReceivePart) : (modRx p f s).now = s.now := rfl
@[simp] theorem modRx_draws (p : Station) (f : ReceivePart → ReceivePart) : (modRx p f s).draws = s.draws := rfl
@[simp] theorem modRx_pending (p : Station) (f : ReceivePart → ReceivePart) : (modRx p f s).pending = s.pending := rfl

@[simp] theorem setStatus_st (p : Station) (v : PeerStatus) : (setStatus p v s).st = s.st := rfl
@[simp] theorem setStatus_arb (p : Station) (v : PeerStatus) : (setStatus p v s).arb = s.arb := rfl
@[simp] theorem setStatus_ce (p : Station) (v : PeerStatus) : (setStatus p v s).ce = s.ce := rfl
@[simp] theorem setStatus_rt (p : Station) (v : PeerStatus) : (setStatus p v s).rt = s.rt := rfl
@[simp] theorem setStatus_peers (p : Station) (v : PeerStatus) : (setStatus p v s).peers = s.peers.set p.val { s.peer p with status := v } p.isLt := rfl
@[simp] theorem setStatus_su (p : Station) (v : PeerStatus) : (setStatus p v s).su = s.su := rfl
@[simp] theorem setStatus_nq (p : Station) (v : PeerStatus) : (setStatus p v s).nq = s.nq := rfl
@[simp] theorem setStatus_sl (p : Station) (v : PeerStatus) : (setStatus p v s).sl = s.sl := rfl
@[simp] theorem setStatus_ev (p : Station) (v : PeerStatus) : (setStatus p v s).ev = s.ev := rfl
@[simp] theorem setStatus_hp (p : Station) (v : PeerStatus) : (setStatus p v s).hp = s.hp := rfl
@[simp] theorem setStatus_own (p : Station) (v : PeerStatus) : (setStatus p v s).own = s.own := rfl
@[simp] theorem setStatus_pins (p : Station) (v : PeerStatus) : (setStatus p v s).pins = s.pins := rfl
@[simp] theorem setStatus_now (p : Station) (v : PeerStatus) : (setStatus p v s).now = s.now := rfl
@[simp] theorem setStatus_draws (p : Station) (v : PeerStatus) : (setStatus p v s).draws = s.draws := rfl
@[simp] theorem setStatus_pending (p : Station) (v : PeerStatus) : (setStatus p v s).pending = s.pending := rfl

@[simp] theorem setEntry_st (i : Slot) (e : Option Entry) : (setEntry i e s).st = s.st := rfl
@[simp] theorem setEntry_arb (i : Slot) (e : Option Entry) : (setEntry i e s).arb = s.arb := rfl
@[simp] theorem setEntry_ce (i : Slot) (e : Option Entry) : (setEntry i e s).ce = s.ce := rfl
@[simp] theorem setEntry_rt (i : Slot) (e : Option Entry) : (setEntry i e s).rt = { s.rt with entries := s.rt.entries.set i.val e i.isLt } := rfl
@[simp] theorem setEntry_peers (i : Slot) (e : Option Entry) : (setEntry i e s).peers = s.peers := rfl
@[simp] theorem setEntry_su (i : Slot) (e : Option Entry) : (setEntry i e s).su = s.su := rfl
@[simp] theorem setEntry_nq (i : Slot) (e : Option Entry) : (setEntry i e s).nq = s.nq := rfl
@[simp] theorem setEntry_sl (i : Slot) (e : Option Entry) : (setEntry i e s).sl = s.sl := rfl
@[simp] theorem setEntry_ev (i : Slot) (e : Option Entry) : (setEntry i e s).ev = s.ev := rfl
@[simp] theorem setEntry_hp (i : Slot) (e : Option Entry) : (setEntry i e s).hp = s.hp := rfl
@[simp] theorem setEntry_own (i : Slot) (e : Option Entry) : (setEntry i e s).own = s.own := rfl
@[simp] theorem setEntry_pins (i : Slot) (e : Option Entry) : (setEntry i e s).pins = s.pins := rfl
@[simp] theorem setEntry_now (i : Slot) (e : Option Entry) : (setEntry i e s).now = s.now := rfl
@[simp] theorem setEntry_draws (i : Slot) (e : Option Entry) : (setEntry i e s).draws = s.draws := rfl
@[simp] theorem setEntry_pending (i : Slot) (e : Option Entry) : (setEntry i e s).pending = s.pending := rfl

@[simp] theorem setOrder_st (o : List Slot) : (setOrder o s).st = s.st := rfl
@[simp] theorem setOrder_arb (o : List Slot) : (setOrder o s).arb = s.arb := rfl
@[simp] theorem setOrder_ce (o : List Slot) : (setOrder o s).ce = s.ce := rfl
@[simp] theorem setOrder_rt (o : List Slot) : (setOrder o s).rt = { s.rt with order := o } := rfl
@[simp] theorem setOrder_peers (o : List Slot) : (setOrder o s).peers = s.peers := rfl
@[simp] theorem setOrder_su (o : List Slot) : (setOrder o s).su = s.su := rfl
@[simp] theorem setOrder_nq (o : List Slot) : (setOrder o s).nq = s.nq := rfl
@[simp] theorem setOrder_sl (o : List Slot) : (setOrder o s).sl = s.sl := rfl
@[simp] theorem setOrder_ev (o : List Slot) : (setOrder o s).ev = s.ev := rfl
@[simp] theorem setOrder_hp (o : List Slot) : (setOrder o s).hp = s.hp := rfl
@[simp] theorem setOrder_own (o : List Slot) : (setOrder o s).own = s.own := rfl
@[simp] theorem setOrder_pins (o : List Slot) : (setOrder o s).pins = s.pins := rfl
@[simp] theorem setOrder_now (o : List Slot) : (setOrder o s).now = s.now := rfl
@[simp] theorem setOrder_draws (o : List Slot) : (setOrder o s).draws = s.draws := rfl
@[simp] theorem setOrder_pending (o : List Slot) : (setOrder o s).pending = s.pending := rfl

@[simp] theorem modLine_st (f : LineUnit → LineUnit) : (modLine f s).st = s.st := rfl
@[simp] theorem modLine_arb (f : LineUnit → LineUnit) : (modLine f s).arb = s.arb := rfl
@[simp] theorem modLine_ce (f : LineUnit → LineUnit) : (modLine f s).ce = s.ce := rfl
@[simp] theorem modLine_rt (f : LineUnit → LineUnit) : (modLine f s).rt = s.rt := rfl
@[simp] theorem modLine_peers (f : LineUnit → LineUnit) : (modLine f s).peers = s.peers := rfl
@[simp] theorem modLine_su (f : LineUnit → LineUnit) : (modLine f s).su = s.su := rfl
@[simp] theorem modLine_nq (f : LineUnit → LineUnit) : (modLine f s).nq = s.nq := rfl
@[simp] theorem modLine_sl (f : LineUnit → LineUnit) : (modLine f s).sl = f s.sl := rfl
@[simp] theorem modLine_ev (f : LineUnit → LineUnit) : (modLine f s).ev = s.ev := rfl
@[simp] theorem modLine_hp (f : LineUnit → LineUnit) : (modLine f s).hp = s.hp := rfl
@[simp] theorem modLine_own (f : LineUnit → LineUnit) : (modLine f s).own = s.own := rfl
@[simp] theorem modLine_pins (f : LineUnit → LineUnit) : (modLine f s).pins = s.pins := rfl
@[simp] theorem modLine_now (f : LineUnit → LineUnit) : (modLine f s).now = s.now := rfl
@[simp] theorem modLine_draws (f : LineUnit → LineUnit) : (modLine f s).draws = s.draws := rfl
@[simp] theorem modLine_pending (f : LineUnit → LineUnit) : (modLine f s).pending = s.pending := rfl

@[simp] theorem modPort_st (f : HostPort → HostPort) : (modPort f s).st = s.st := rfl
@[simp] theorem modPort_arb (f : HostPort → HostPort) : (modPort f s).arb = s.arb := rfl
@[simp] theorem modPort_ce (f : HostPort → HostPort) : (modPort f s).ce = s.ce := rfl
@[simp] theorem modPort_rt (f : HostPort → HostPort) : (modPort f s).rt = s.rt := rfl
@[simp] theorem modPort_peers (f : HostPort → HostPort) : (modPort f s).peers = s.peers := rfl
@[simp] theorem modPort_su (f : HostPort → HostPort) : (modPort f s).su = s.su := rfl
@[simp] theorem modPort_nq (f : HostPort → HostPort) : (modPort f s).nq = s.nq := rfl
@[simp] theorem modPort_sl (f : HostPort → HostPort) : (modPort f s).sl = s.sl := rfl
@[simp] theorem modPort_ev (f : HostPort → HostPort) : (modPort f s).ev = s.ev := rfl
@[simp] theorem modPort_hp (f : HostPort → HostPort) : (modPort f s).hp = f s.hp := rfl
@[simp] theorem modPort_own (f : HostPort → HostPort) : (modPort f s).own = s.own := rfl
@[simp] theorem modPort_pins (f : HostPort → HostPort) : (modPort f s).pins = s.pins := rfl
@[simp] theorem modPort_now (f : HostPort → HostPort) : (modPort f s).now = s.now := rfl
@[simp] theorem modPort_draws (f : HostPort → HostPort) : (modPort f s).draws = s.draws := rfl
@[simp] theorem modPort_pending (f : HostPort → HostPort) : (modPort f s).pending = s.pending := rfl

@[simp] theorem modNotices_st (f : NoticeQueue → NoticeQueue) : (modNotices f s).st = s.st := rfl
@[simp] theorem modNotices_arb (f : NoticeQueue → NoticeQueue) : (modNotices f s).arb = s.arb := rfl
@[simp] theorem modNotices_ce (f : NoticeQueue → NoticeQueue) : (modNotices f s).ce = s.ce := rfl
@[simp] theorem modNotices_rt (f : NoticeQueue → NoticeQueue) : (modNotices f s).rt = s.rt := rfl
@[simp] theorem modNotices_peers (f : NoticeQueue → NoticeQueue) : (modNotices f s).peers = s.peers := rfl
@[simp] theorem modNotices_su (f : NoticeQueue → NoticeQueue) : (modNotices f s).su = s.su := rfl
@[simp] theorem modNotices_nq (f : NoticeQueue → NoticeQueue) : (modNotices f s).nq = f s.nq := rfl
@[simp] theorem modNotices_sl (f : NoticeQueue → NoticeQueue) : (modNotices f s).sl = s.sl := rfl
@[simp] theorem modNotices_ev (f : NoticeQueue → NoticeQueue) : (modNotices f s).ev = s.ev := rfl
@[simp] theorem modNotices_hp (f : NoticeQueue → NoticeQueue) : (modNotices f s).hp = s.hp := rfl
@[simp] theorem modNotices_own (f : NoticeQueue → NoticeQueue) : (modNotices f s).own = s.own := rfl
@[simp] theorem modNotices_pins (f : NoticeQueue → NoticeQueue) : (modNotices f s).pins = s.pins := rfl
@[simp] theorem modNotices_now (f : NoticeQueue → NoticeQueue) : (modNotices f s).now = s.now := rfl
@[simp] theorem modNotices_draws (f : NoticeQueue → NoticeQueue) : (modNotices f s).draws = s.draws := rfl
@[simp] theorem modNotices_pending (f : NoticeQueue → NoticeQueue) : (modNotices f s).pending = s.pending := rfl

@[simp] theorem modService_st (f : ServiceUnit → ServiceUnit) : (modService f s).st = s.st := rfl
@[simp] theorem modService_arb (f : ServiceUnit → ServiceUnit) : (modService f s).arb = s.arb := rfl
@[simp] theorem modService_ce (f : ServiceUnit → ServiceUnit) : (modService f s).ce = s.ce := rfl
@[simp] theorem modService_rt (f : ServiceUnit → ServiceUnit) : (modService f s).rt = s.rt := rfl
@[simp] theorem modService_peers (f : ServiceUnit → ServiceUnit) : (modService f s).peers = s.peers := rfl
@[simp] theorem modService_su (f : ServiceUnit → ServiceUnit) : (modService f s).su = f s.su := rfl
@[simp] theorem modService_nq (f : ServiceUnit → ServiceUnit) : (modService f s).nq = s.nq := rfl
@[simp] theorem modService_sl (f : ServiceUnit → ServiceUnit) : (modService f s).sl = s.sl := rfl
@[simp] theorem modService_ev (f : ServiceUnit → ServiceUnit) : (modService f s).ev = s.ev := rfl
@[simp] theorem modService_hp (f : ServiceUnit → ServiceUnit) : (modService f s).hp = s.hp := rfl
@[simp] theorem modService_own (f : ServiceUnit → ServiceUnit) : (modService f s).own = s.own := rfl
@[simp] theorem modService_pins (f : ServiceUnit → ServiceUnit) : (modService f s).pins = s.pins := rfl
@[simp] theorem modService_now (f : ServiceUnit → ServiceUnit) : (modService f s).now = s.now := rfl
@[simp] theorem modService_draws (f : ServiceUnit → ServiceUnit) : (modService f s).draws = s.draws := rfl
@[simp] theorem modService_pending (f : ServiceUnit → ServiceUnit) : (modService f s).pending = s.pending := rfl

@[simp] theorem pushEvent_st (e : Event) : (pushEvent e s).st = s.st := rfl
@[simp] theorem pushEvent_arb (e : Event) : (pushEvent e s).arb = s.arb := rfl
@[simp] theorem pushEvent_ce (e : Event) : (pushEvent e s).ce = s.ce := rfl
@[simp] theorem pushEvent_rt (e : Event) : (pushEvent e s).rt = s.rt := rfl
@[simp] theorem pushEvent_peers (e : Event) : (pushEvent e s).peers = s.peers := rfl
@[simp] theorem pushEvent_su (e : Event) : (pushEvent e s).su = s.su := rfl
@[simp] theorem pushEvent_nq (e : Event) : (pushEvent e s).nq = s.nq := rfl
@[simp] theorem pushEvent_sl (e : Event) : (pushEvent e s).sl = s.sl := rfl
@[simp] theorem pushEvent_ev (e : Event) : (pushEvent e s).ev = { s.ev with events := s.ev.events ++ [e] } := rfl
@[simp] theorem pushEvent_hp (e : Event) : (pushEvent e s).hp = s.hp := rfl
@[simp] theorem pushEvent_own (e : Event) : (pushEvent e s).own = s.own := rfl
@[simp] theorem pushEvent_pins (e : Event) : (pushEvent e s).pins = s.pins := rfl
@[simp] theorem pushEvent_now (e : Event) : (pushEvent e s).now = s.now := rfl
@[simp] theorem pushEvent_draws (e : Event) : (pushEvent e s).draws = s.draws := rfl
@[simp] theorem pushEvent_pending (e : Event) : (pushEvent e s).pending = s.pending := rfl

@[simp] theorem askCe_st (a : Access) (w : CeWork) : (askCe a w s).st = s.st := rfl
@[simp] theorem askCe_arb (a : Access) (w : CeWork) : (askCe a w s).arb = { s.arb with ce := s.arb.ce ++ [(a, w)] } := rfl
@[simp] theorem askCe_ce (a : Access) (w : CeWork) : (askCe a w s).ce = s.ce := rfl
@[simp] theorem askCe_rt (a : Access) (w : CeWork) : (askCe a w s).rt = s.rt := rfl
@[simp] theorem askCe_peers (a : Access) (w : CeWork) : (askCe a w s).peers = s.peers := rfl
@[simp] theorem askCe_su (a : Access) (w : CeWork) : (askCe a w s).su = s.su := rfl
@[simp] theorem askCe_nq (a : Access) (w : CeWork) : (askCe a w s).nq = s.nq := rfl
@[simp] theorem askCe_sl (a : Access) (w : CeWork) : (askCe a w s).sl = s.sl := rfl
@[simp] theorem askCe_ev (a : Access) (w : CeWork) : (askCe a w s).ev = s.ev := rfl
@[simp] theorem askCe_hp (a : Access) (w : CeWork) : (askCe a w s).hp = s.hp := rfl
@[simp] theorem askCe_own (a : Access) (w : CeWork) : (askCe a w s).own = s.own := rfl
@[simp] theorem askCe_pins (a : Access) (w : CeWork) : (askCe a w s).pins = s.pins := rfl
@[simp] theorem askCe_now (a : Access) (w : CeWork) : (askCe a w s).now = s.now := rfl
@[simp] theorem askCe_draws (a : Access) (w : CeWork) : (askCe a w s).draws = s.draws := rfl
@[simp] theorem askCe_pending (a : Access) (w : CeWork) : (askCe a w s).pending = s.pending := rfl

@[simp] theorem askHp_st (a : Access) (w : HpWork) : (askHp a w s).st = s.st := rfl
@[simp] theorem askHp_arb (a : Access) (w : HpWork) : (askHp a w s).arb = { s.arb with hp := s.arb.hp ++ [(a, w)] } := rfl
@[simp] theorem askHp_ce (a : Access) (w : HpWork) : (askHp a w s).ce = s.ce := rfl
@[simp] theorem askHp_rt (a : Access) (w : HpWork) : (askHp a w s).rt = s.rt := rfl
@[simp] theorem askHp_peers (a : Access) (w : HpWork) : (askHp a w s).peers = s.peers := rfl
@[simp] theorem askHp_su (a : Access) (w : HpWork) : (askHp a w s).su = s.su := rfl
@[simp] theorem askHp_nq (a : Access) (w : HpWork) : (askHp a w s).nq = s.nq := rfl
@[simp] theorem askHp_sl (a : Access) (w : HpWork) : (askHp a w s).sl = s.sl := rfl
@[simp] theorem askHp_ev (a : Access) (w : HpWork) : (askHp a w s).ev = s.ev := rfl
@[simp] theorem askHp_hp (a : Access) (w : HpWork) : (askHp a w s).hp = s.hp := rfl
@[simp] theorem askHp_own (a : Access) (w : HpWork) : (askHp a w s).own = s.own := rfl
@[simp] theorem askHp_pins (a : Access) (w : HpWork) : (askHp a w s).pins = s.pins := rfl
@[simp] theorem askHp_now (a : Access) (w : HpWork) : (askHp a w s).now = s.now := rfl
@[simp] theorem askHp_draws (a : Access) (w : HpWork) : (askHp a w s).draws = s.draws := rfl
@[simp] theorem askHp_pending (a : Access) (w : HpWork) : (askHp a w s).pending = s.pending := rfl

@[simp] theorem askSu_st (a : Access) (w : SuWork) : (askSu a w s).st = s.st := rfl
@[simp] theorem askSu_arb (a : Access) (w : SuWork) : (askSu a w s).arb = { s.arb with su := s.arb.su ++ [(a, w)] } := rfl
@[simp] theorem askSu_ce (a : Access) (w : SuWork) : (askSu a w s).ce = s.ce := rfl
@[simp] theorem askSu_rt (a : Access) (w : SuWork) : (askSu a w s).rt = s.rt := rfl
@[simp] theorem askSu_peers (a : Access) (w : SuWork) : (askSu a w s).peers = s.peers := rfl
@[simp] theorem askSu_su (a : Access) (w : SuWork) : (askSu a w s).su = s.su := rfl
@[simp] theorem askSu_nq (a : Access) (w : SuWork) : (askSu a w s).nq = s.nq := rfl
@[simp] theorem askSu_sl (a : Access) (w : SuWork) : (askSu a w s).sl = s.sl := rfl
@[simp] theorem askSu_ev (a : Access) (w : SuWork) : (askSu a w s).ev = s.ev := rfl
@[simp] theorem askSu_hp (a : Access) (w : SuWork) : (askSu a w s).hp = s.hp := rfl
@[simp] theorem askSu_own (a : Access) (w : SuWork) : (askSu a w s).own = s.own := rfl
@[simp] theorem askSu_pins (a : Access) (w : SuWork) : (askSu a w s).pins = s.pins := rfl
@[simp] theorem askSu_now (a : Access) (w : SuWork) : (askSu a w s).now = s.now := rfl
@[simp] theorem askSu_draws (a : Access) (w : SuWork) : (askSu a w s).draws = s.draws := rfl
@[simp] theorem askSu_pending (a : Access) (w : SuWork) : (askSu a w s).pending = s.pending := rfl

@[simp] theorem dropCe_st (test : CeWork → Bool) : (dropCe test s).st = s.st := rfl
@[simp] theorem dropCe_arb (test : CeWork → Bool) : (dropCe test s).arb = { s.arb with ce := s.arb.ce.map fun j => if test j.2 then (j.1, .dropped) else j } := rfl
@[simp] theorem dropCe_ce (test : CeWork → Bool) : (dropCe test s).ce = s.ce := rfl
@[simp] theorem dropCe_rt (test : CeWork → Bool) : (dropCe test s).rt = s.rt := rfl
@[simp] theorem dropCe_peers (test : CeWork → Bool) : (dropCe test s).peers = s.peers := rfl
@[simp] theorem dropCe_su (test : CeWork → Bool) : (dropCe test s).su = s.su := rfl
@[simp] theorem dropCe_nq (test : CeWork → Bool) : (dropCe test s).nq = s.nq := rfl
@[simp] theorem dropCe_sl (test : CeWork → Bool) : (dropCe test s).sl = s.sl := rfl
@[simp] theorem dropCe_ev (test : CeWork → Bool) : (dropCe test s).ev = s.ev := rfl
@[simp] theorem dropCe_hp (test : CeWork → Bool) : (dropCe test s).hp = s.hp := rfl
@[simp] theorem dropCe_own (test : CeWork → Bool) : (dropCe test s).own = s.own := rfl
@[simp] theorem dropCe_pins (test : CeWork → Bool) : (dropCe test s).pins = s.pins := rfl
@[simp] theorem dropCe_now (test : CeWork → Bool) : (dropCe test s).now = s.now := rfl
@[simp] theorem dropCe_draws (test : CeWork → Bool) : (dropCe test s).draws = s.draws := rfl
@[simp] theorem dropCe_pending (test : CeWork → Bool) : (dropCe test s).pending = s.pending := rfl

@[simp] theorem dropStream_st : (dropStream s).st = s.st := rfl
@[simp] theorem dropStream_arb : (dropStream s).arb = { s.arb with hp := s.arb.hp.map fun j => if j.2 = .stream then (j.1, .dropped) else j } := rfl
@[simp] theorem dropStream_ce : (dropStream s).ce = s.ce := rfl
@[simp] theorem dropStream_rt : (dropStream s).rt = s.rt := rfl
@[simp] theorem dropStream_peers : (dropStream s).peers = s.peers := rfl
@[simp] theorem dropStream_su : (dropStream s).su = s.su := rfl
@[simp] theorem dropStream_nq : (dropStream s).nq = s.nq := rfl
@[simp] theorem dropStream_sl : (dropStream s).sl = s.sl := rfl
@[simp] theorem dropStream_ev : (dropStream s).ev = s.ev := rfl
@[simp] theorem dropStream_hp : (dropStream s).hp = s.hp := rfl
@[simp] theorem dropStream_own : (dropStream s).own = s.own := rfl
@[simp] theorem dropStream_pins : (dropStream s).pins = s.pins := rfl
@[simp] theorem dropStream_now : (dropStream s).now = s.now := rfl
@[simp] theorem dropStream_draws : (dropStream s).draws = s.draws := rfl
@[simp] theorem dropStream_pending : (dropStream s).pending = s.pending := rfl

@[simp] theorem flagPeer_st (p : Station) : (flagPeer p s).st = s.st := rfl
@[simp] theorem flagPeer_arb (p : Station) : (flagPeer p s).arb = s.arb := rfl
@[simp] theorem flagPeer_ce (p : Station) : (flagPeer p s).ce = s.ce := rfl
@[simp] theorem flagPeer_rt (p : Station) : (flagPeer p s).rt = s.rt := rfl
@[simp] theorem flagPeer_peers (p : Station) : (flagPeer p s).peers = s.peers := rfl
@[simp] theorem flagPeer_su (p : Station) : (flagPeer p s).su = s.su := rfl
@[simp] theorem flagPeer_nq (p : Station) : (flagPeer p s).nq = s.nq := rfl
@[simp] theorem flagPeer_sl (p : Station) : (flagPeer p s).sl = s.sl := rfl
@[simp] theorem flagPeer_ev (p : Station) : (flagPeer p s).ev = { s.ev with peerFlags := s.ev.peerFlags ||| (1#31 <<< p.val) } := rfl
@[simp] theorem flagPeer_hp (p : Station) : (flagPeer p s).hp = s.hp := rfl
@[simp] theorem flagPeer_own (p : Station) : (flagPeer p s).own = s.own := rfl
@[simp] theorem flagPeer_pins (p : Station) : (flagPeer p s).pins = s.pins := rfl
@[simp] theorem flagPeer_now (p : Station) : (flagPeer p s).now = s.now := rfl
@[simp] theorem flagPeer_draws (p : Station) : (flagPeer p s).draws = s.draws := rfl
@[simp] theorem flagPeer_pending (p : Station) : (flagPeer p s).pending = s.pending := rfl

@[simp] theorem flagWindow_st (w : WindowNo) : (flagWindow w s).st = s.st := rfl
@[simp] theorem flagWindow_arb (w : WindowNo) : (flagWindow w s).arb = s.arb := rfl
@[simp] theorem flagWindow_ce (w : WindowNo) : (flagWindow w s).ce = s.ce := rfl
@[simp] theorem flagWindow_rt (w : WindowNo) : (flagWindow w s).rt = s.rt := rfl
@[simp] theorem flagWindow_peers (w : WindowNo) : (flagWindow w s).peers = s.peers := rfl
@[simp] theorem flagWindow_su (w : WindowNo) : (flagWindow w s).su = s.su := rfl
@[simp] theorem flagWindow_nq (w : WindowNo) : (flagWindow w s).nq = s.nq := rfl
@[simp] theorem flagWindow_sl (w : WindowNo) : (flagWindow w s).sl = s.sl := rfl
@[simp] theorem flagWindow_ev (w : WindowNo) : (flagWindow w s).ev = { s.ev with windowFlags := s.ev.windowFlags ||| (1#8 <<< w.val) } := rfl
@[simp] theorem flagWindow_hp (w : WindowNo) : (flagWindow w s).hp = s.hp := rfl
@[simp] theorem flagWindow_own (w : WindowNo) : (flagWindow w s).own = s.own := rfl
@[simp] theorem flagWindow_pins (w : WindowNo) : (flagWindow w s).pins = s.pins := rfl
@[simp] theorem flagWindow_now (w : WindowNo) : (flagWindow w s).now = s.now := rfl
@[simp] theorem flagWindow_draws (w : WindowNo) : (flagWindow w s).draws = s.draws := rfl
@[simp] theorem flagWindow_pending (w : WindowNo) : (flagWindow w s).pending = s.pending := rfl

/-! ## Records read after an update -/

@[simp] theorem channel_setChannel_self (ch : ChannelNo) (c : Channel) : (setChannel ch c s).channel ch = c := by
  simp [State.channel, Vector.get_eq_getElem]

theorem channel_setChannel (ch k : ChannelNo) (c : Channel) :
    (setChannel ch c s).channel k = if k = ch then c else s.channel k := by
  simp only [State.channel, setChannel_ce, Vector.get_eq_getElem, Vector.getElem_set, Fin.ext_iff, eq_comm (a := ch.val)]

theorem channel_modChannel (ch k : ChannelNo) (f : Channel → Channel) :
    (modChannel ch f s).channel k = if k = ch then f (s.channel ch) else s.channel k := channel_setChannel s ch k _

@[simp] theorem channel_modChannel_self (ch : ChannelNo) (f : Channel → Channel) :
    (modChannel ch f s).channel ch = f (s.channel ch) := by simp [channel_modChannel]

theorem peer_setPeer (p q : Station) (r : Peer) : (setPeer p r s).peer q = if q = p then r else s.peer q := by
  simp only [State.peer, setPeer_peers, Vector.get_eq_getElem, Vector.getElem_set, Fin.ext_iff, eq_comm (a := p.val)]

@[simp] theorem peer_setPeer_self (p : Station) (r : Peer) : (setPeer p r s).peer p = r := by simp [peer_setPeer]

theorem peer_modTx (p q : Station) (f : TransmitPart → TransmitPart) :
    (modTx p f s).peer q = if q = p then { s.peer p with tx := f (s.peer p).tx } else s.peer q := peer_setPeer s p q _

theorem peer_modRx (p q : Station) (f : ReceivePart → ReceivePart) :
    (modRx p f s).peer q = if q = p then { s.peer p with rx := f (s.peer p).rx } else s.peer q := peer_setPeer s p q _

theorem peer_setStatus (p q : Station) (v : PeerStatus) :
    (setStatus p v s).peer q = if q = p then { s.peer p with status := v } else s.peer q := peer_setPeer s p q _

theorem entry_setEntry (i j : Slot) (e : Option Entry) : (setEntry i e s).entry j = if j = i then e else s.entry j := by
  simp only [State.entry, setEntry_rt, Vector.get_eq_getElem, Vector.getElem_set, Fin.ext_iff, eq_comm (a := i.val)]

@[simp] theorem entry_setEntry_self (i : Slot) (e : Option Entry) : (setEntry i e s).entry i = e := by simp [entry_setEntry]

@[simp] theorem entry_setOrder (o : List Slot) (j : Slot) : (setOrder o s).entry j = s.entry j := rfl

@[simp] theorem modChannel_modChannel (ch : ChannelNo) (f g : Channel → Channel) :
    modChannel ch f (modChannel ch g s) = modChannel ch (fun c => f (g c)) s := by
  simp [modChannel, setChannel, State.channel, Vector.get_eq_getElem]

@[simp] theorem modTx_modTx (p : Station) (f g : TransmitPart → TransmitPart) :
    modTx p f (modTx p g s) = modTx p (fun t => f (g t)) s := by
  simp [modTx, setPeer, State.peer, Vector.get_eq_getElem]

/-- Two states are the same if all their fields are. -/
theorem State.eq_of_fields {s t : State} (st : s.st = t.st) (arb : s.arb = t.arb) (ce : s.ce = t.ce) (rt : s.rt = t.rt)
    (peers : s.peers = t.peers) (su : s.su = t.su) (nq : s.nq = t.nq) (sl : s.sl = t.sl) (ev : s.ev = t.ev) (hp : s.hp = t.hp)
    (own : s.own = t.own) (pins : s.pins = t.pins) (now : s.now = t.now) (draws : s.draws = t.draws)
    (pending : s.pending = t.pending) : s = t := by
  cases s; cases t; simp_all

theorem channel_of_ce {s t : State} (h : t.ce = s.ce) (k : ChannelNo) : t.channel k = s.channel k := by
  simp [State.channel, h]

theorem peer_of_peers {s t : State} (h : t.peers = s.peers) (q : Station) : t.peer q = s.peer q := by
  simp [State.peer, h]

theorem entry_of_rt {s t : State} (h : t.rt = s.rt) (j : Slot) : t.entry j = s.entry j := by simp [State.entry, h]

end Sys2Proof.Machine
end

