-- ==== Sys2Proof/Laws/Touches.lean ====
section
/-! SUPPORT. What the operations of the channel engine, the notice queue and the request table can change: one lemma for each
operation, which says all of the state that it leaves as it was. -/

namespace Sys2Proof.Machine

/-- Only the channel engine, the arbiter and the event unit differ. -/
def OnlyChain (s t : State) : Prop := ∃ ce arb ev, t = { s with ce := ce, arb := arb, ev := ev }

/-- Only the channel engine, the arbiter, the event unit and the notice queue differ. -/
def OnlyNotice (s t : State) : Prop := ∃ ce arb ev nq, t = { s with ce := ce, arb := arb, ev := ev, nq := nq }

/-- Only the channel engine, the arbiter, the event unit, the request table, the peer table, the line unit and the count of free
values drawn differ. -/
def OnlyTable (s t : State) : Prop :=
  ∃ ce arb ev rt peers sl draws, t = { s with ce := ce, arb := arb, ev := ev, rt := rt, peers := peers, sl := sl, draws := draws }

/-- The store, the host port, the own number, the pins and the waiting commands are the same. -/
def Inner (s t : State) : Prop :=
  t.st = s.st ∧ t.hp = s.hp ∧ t.own = s.own ∧ t.pins = s.pins ∧ t.pending = s.pending

theorem OnlyChain.refl (s : State) : OnlyChain s s := ⟨_, _, _, rfl⟩

theorem OnlyChain.trans {a b c : State} (h : OnlyChain a b) (k : OnlyChain b c) : OnlyChain a c := by
  obtain ⟨_, _, _, rfl⟩ := h; obtain ⟨_, _, _, rfl⟩ := k; exact ⟨_, _, _, rfl⟩

theorem OnlyNotice.refl (s : State) : OnlyNotice s s := ⟨_, _, _, _, rfl⟩

theorem OnlyNotice.trans {a b c : State} (h : OnlyNotice a b) (k : OnlyNotice b c) : OnlyNotice a c := by
  obtain ⟨_, _, _, _, rfl⟩ := h; obtain ⟨_, _, _, _, rfl⟩ := k; exact ⟨_, _, _, _, rfl⟩

theorem OnlyTable.refl (s : State) : OnlyTable s s := ⟨_, _, _, _, _, _, _, rfl⟩

theorem OnlyTable.trans {a b c : State} (h : OnlyTable a b) (k : OnlyTable b c) : OnlyTable a c := by
  obtain ⟨_, _, _, _, _, _, _, rfl⟩ := h; obtain ⟨_, _, _, _, _, _, _, rfl⟩ := k; exact ⟨_, _, _, _, _, _, _, rfl⟩

theorem Inner.refl (s : State) : Inner s s := ⟨rfl, rfl, rfl, rfl, rfl⟩

theorem Inner.trans {a b c : State} (h : Inner a b) (k : Inner b c) : Inner a c := by
  obtain ⟨h1, h2, h3, h4, h5⟩ := h; obtain ⟨k1, k2, k3, k4, k5⟩ := k
  exact ⟨k1.trans h1, k2.trans h2, k3.trans h3, k4.trans h4, k5.trans h5⟩

theorem OnlyChain.notice {a b : State} (h : OnlyChain a b) : OnlyNotice a b := by
  obtain ⟨_, _, _, rfl⟩ := h; exact ⟨_, _, _, _, rfl⟩

theorem OnlyChain.table {a b : State} (h : OnlyChain a b) : OnlyTable a b := by
  obtain ⟨_, _, _, rfl⟩ := h; exact ⟨_, _, _, _, _, _, _, rfl⟩

theorem OnlyNotice.inner {a b : State} (h : OnlyNotice a b) : Inner a b := by
  obtain ⟨_, _, _, _, rfl⟩ := h; exact ⟨rfl, rfl, rfl, rfl, rfl⟩

theorem OnlyTable.inner {a b : State} (h : OnlyTable a b) : Inner a b := by
  obtain ⟨_, _, _, _, _, _, _, rfl⟩ := h; exact ⟨rfl, rfl, rfl, rfl, rfl⟩

theorem OnlyChain.inner {a b : State} (h : OnlyChain a b) : Inner a b := h.notice.inner

variable (s : State)

/-! ## The channel engine -/

theorem startFetch_only (ch : ChannelNo) : OnlyChain s (startFetch ch s) := by
  unfold startFetch; split <;> exact ⟨_, _, _, rfl⟩

theorem moveOn_only (ch : ChannelNo) : OnlyChain s (moveOn ch s) :=
  OnlyChain.trans (b := modChannel ch _ s) ⟨_, _, _, rfl⟩ (startFetch_only _ ch)

theorem afterPost_only (ch : ChannelNo) (k : EventKind) : OnlyChain s (afterPost ch k s) := by
  cases k
  · exact moveOn_only s ch
  all_goals exact ⟨_, _, _, rfl⟩

theorem offerEvent_only (ch : ChannelNo) (e : Event) : OnlyChain s (offerEvent ch e s) := by
  unfold offerEvent; split
  · exact OnlyChain.trans (b := pushEvent e s) ⟨_, _, _, rfl⟩ (afterPost_only _ ch e.kind)
  · exact ⟨_, _, _, rfl⟩

theorem postHeld_only : OnlyChain s (postHeld s) := by
  unfold postHeld; split
  · exact .refl s
  · split
    · exact .refl s
    · exact OnlyChain.trans ⟨_, _, _, rfl⟩ (afterPost_only _ _ _)

theorem reportFault_only (ch : ChannelNo) (r : FaultRecord) : OnlyChain s (reportFault ch r s) :=
  OnlyChain.trans ⟨_, _, _, rfl⟩ (offerEvent_only _ ch _)

theorem failFetch_only (ch : ChannelNo) (a : Addr) (c : FaultCode) : OnlyChain s (failFetch ch a c s) := ⟨_, _, _, rfl⟩

theorem giveUpTurn_only (ch : ChannelNo) : OnlyChain s (giveUpTurn ch s) := by
  unfold giveUpTurn; split <;> exact ⟨_, _, _, rfl⟩

theorem checkDrain_only (ch : ChannelNo) : OnlyChain s (checkDrain ch s) := by
  simp only [checkDrain]; split
  · split <;> exact ⟨_, _, _, rfl⟩
  · exact .refl s

theorem failSegment_only (ch : ChannelNo) (c : FaultCode) (o : Nat) : OnlyChain s (failSegment ch c o s) := by
  unfold failSegment; split
  · exact (giveUpTurn_only s ch).trans (OnlyChain.trans ⟨_, _, _, rfl⟩ (checkDrain_only _ ch))
  · exact checkDrain_only s ch
  · exact .refl s

theorem advanceRemote_only (ch : ChannelNo) (d : Descriptor) : OnlyChain s (advanceRemote ch d s) := by
  unfold advanceRemote; split <;> exact ⟨_, _, _, rfl⟩

theorem advanceLocal_only (ch : ChannelNo) (d : Descriptor) : OnlyChain s (advanceLocal ch d s) := by
  unfold advanceLocal; split
  · exact ⟨_, _, _, rfl⟩
  · exact advanceRemote_only s ch d

theorem startCompletion_only (ch : ChannelNo) : OnlyChain s (startCompletion ch s) := by
  unfold startCompletion; split
  · exact .refl s
  · exact advanceLocal_only s ch _

theorem finishDescriptor_only (ch : ChannelNo) : OnlyChain s (finishDescriptor ch s) := by
  simp only [finishDescriptor]; split
  · exact .refl s
  · split
    · exact OnlyChain.trans ⟨_, _, _, rfl⟩ (offerEvent_only _ ch _)
    · split
      · exact offerEvent_only s ch _
      · exact moveOn_only s ch

theorem completeIfDone_only (ch : ChannelNo) : OnlyChain s (completeIfDone ch s) := by
  simp only [completeIfDone]; split
  · exact .refl s
  · split
    · exact startCompletion_only s ch
    · exact .refl s

theorem segmentDone_only (ch : ChannelNo) : OnlyChain s (segmentDone ch s) :=
  OnlyChain.trans ⟨_, _, _, rfl⟩ ((completeIfDone_only _ ch).trans (checkDrain_only _ ch))

theorem giveNotice_only (ch : ChannelNo) (n : Notice) : OnlyChain s (giveNotice ch n s) := by
  simp only [giveNotice]; split
  · exact ⟨_, _, _, rfl⟩
  · split
    · exact ⟨_, _, _, rfl⟩
    · exact OnlyChain.trans ⟨_, _, _, rfl⟩ (startCompletion_only _ ch)

/-! ## The notice queue -/

theorem settleNotice_only (n : Notice) (add : List Notice → List Notice) : OnlyNotice s (settleNotice n add s) := by
  unfold settleNotice; split
  · exact OnlyNotice.trans ⟨_, _, _, _, rfl⟩ (giveNotice_only _ _ n).notice
  · exact ⟨_, _, _, _, rfl⟩

theorem startAwait_only (ch : ChannelNo) (d : Descriptor) : OnlyNotice s (startAwait ch d s) := by
  unfold startAwait; split
  · exact OnlyNotice.trans ⟨_, _, _, _, rfl⟩ (giveNotice_only _ _ _).notice
  · exact ⟨_, _, _, _, rfl⟩

/-! ## The request table and the peer table -/

theorem askPresence_only : OnlyTable s (askPresence s) := by
  unfold askPresence; split
  · exact ⟨_, _, _, _, _, _, _, rfl⟩
  · exact .refl s

theorem freeEntry_only (i : Slot) (e : Entry) : OnlyTable s (freeEntry i e s) := by
  simp only [freeEntry]; split <;> split <;> exact ⟨_, _, _, _, _, _, _, rfl⟩

theorem failEntry_only (c : FaultCode) (i : Slot) (e : Entry) : OnlyTable s (failEntry c i e s) := by
  simp only [failEntry]; split
  · exact freeEntry_only s i e
  · exact (freeEntry_only s i e).trans (failSegment_only _ _ _ _).table

theorem failAll_only (p : Station) (c : FaultCode) : OnlyTable s (failAll p c s) := by
  suffices h : ∀ (l : List (Slot × Entry)) (s : State), OnlyTable s (l.foldl (fun s x => failEntry c x.1 x.2 s) s) from h _ s
  intro l
  induction l with
  | nil => exact fun s => .refl s
  | cons x l ih => exact fun s => (failEntry_only s c x.1 x.2).trans (ih _)

theorem needSync_only (p : Station) : OnlyTable s (needSync p s) := ⟨_, _, _, _, _, _, _, rfl⟩

theorem stopBackoff_only (p : Station) : OnlyTable s (stopBackoff p s) := ⟨_, _, _, _, _, _, _, rfl⟩

theorem declareUnreachable_only (p : Station) : OnlyTable s (declareUnreachable p s) :=
  (failAll_only s p _).trans ⟨_, _, _, _, _, _, _, rfl⟩

theorem hearFrom_only (p : Station) : OnlyTable s (hearFrom p s) := by
  unfold hearFrom; split <;> exact ⟨_, _, _, _, _, _, _, rfl⟩

theorem resetTransmit_only (p : Station) (c : FaultCode) : OnlyTable s (resetTransmit p c s) :=
  (failAll_only s p c).trans ⟨_, _, _, _, _, _, _, rfl⟩

/-- Where line and offset stand past the last segment: within the ranges of R35 and, of the positions there, from `pastEnd` on. -/
theorem Descriptor.endPosition_past (d : Descriptor) (x : Nat) :
    (d.endPosition x).1 ≤ 4095 ∧ (d.endPosition x).2 ≤ 65534
      ∧ (d.pastEnd < 4096 * 65535 → d.pastEnd ≤ 65535 * (d.endPosition x).1 + (d.endPosition x).2) := by
  simp only [Descriptor.endPosition]
  split
  · rename_i h
    have := Nat.mod_lt x (show 0 < 4096 * 65535 - d.pastEnd by omega)
    omega
  · rename_i h
    have := Nat.mod_lt x (show 0 < 4096 * 65535 by omega)
    omega

theorem passSegment_only (ch : ChannelNo) (d : Descriptor) : OnlyTable s (passSegment ch d s) := by
  simp only [passSegment]; split <;> exact ⟨_, _, _, _, _, _, _, rfl⟩

theorem takeEntry_only (ch : ChannelNo) (d : Descriptor) (k : RequestKind) (p : Station) (seg : Segment) (b : List Byte) :
    OnlyTable s (takeEntry ch d k p seg b s) := by
  unfold takeEntry; split
  · exact .refl s
  · exact OnlyTable.trans ⟨_, _, _, _, _, _, _, rfl⟩ (passSegment_only _ _ _)

theorem failInTurn_only (ch : ChannelNo) (c : FaultCode) : OnlyTable s (failInTurn ch c s) := by
  simp only [failInTurn]; split
  · exact .refl s
  · exact (passSegment_only _ _ _).trans (failSegment_only _ _ _ _).table

theorem finishChannelTurn_only (ch : ChannelNo) (p : Station) (b : List Byte) : OnlyTable s (finishChannelTurn ch p b s) := by
  simp only [finishChannelTurn]; split
  · exact ⟨_, _, _, _, _, _, _, rfl⟩
  · split
    · exact ⟨_, _, _, _, _, _, _, rfl⟩
    · split
      · exact OnlyTable.trans ⟨_, _, _, _, _, _, _, rfl⟩ (takeEntry_only _ _ _ _ _ _ _)
      · exact OnlyTable.trans ⟨_, _, _, _, _, _, _, rfl⟩ (failInTurn_only _ _ _)

theorem finishResend_only (i : Slot) (b : List Byte) : OnlyTable s (finishResend i b s) := by
  simp only [finishResend]; split <;> exact ⟨_, _, _, _, _, _, _, rfl⟩

theorem failResend_only (i : Slot) : OnlyTable s (failResend i s) := by
  simp only [failResend]; split
  · exact ⟨_, _, _, _, _, _, _, rfl⟩
  · exact OnlyTable.trans ⟨_, _, _, _, _, _, _, rfl⟩ ((failEntry_only _ _ _ _).trans (needSync_only _ _))

theorem finishTurn_only (t : Turn) (b : List Byte) : OnlyTable s (finishTurn t b s) := by
  cases t
  · exact finishChannelTurn_only s _ _ b
  · exact finishResend_only s _ b

theorem failTurn_only (t : Turn) : OnlyTable s (failTurn t s) := by
  cases t
  · exact OnlyTable.trans ⟨_, _, _, _, _, _, _, rfl⟩ (failInTurn_only _ _ _)
  · exact failResend_only s _

theorem beginTurn_only (t : Turn) (a n : Nat) : OnlyTable s (beginTurn t a n s) := by
  unfold beginTurn; split
  · exact finishTurn_only s t []
  · exact ⟨_, _, _, _, _, _, _, rfl⟩

theorem takeTurn_only : OnlyTable s (takeTurn s) := by
  unfold takeTurn; split
  · exact .refl s
  · split
    · exact beginTurn_only s _ _ _
    · split
      · simp only [beginChannelTurn]; split
        · exact .refl s
        · split
          · exact OnlyTable.trans ⟨_, _, _, _, _, _, _, rfl⟩ (beginTurn_only _ _ _ _)
          · exact .refl s
      · exact .refl s

/-! ## What closes every happening -/

theorem loadLeaving_only : ∃ sl, loadLeaving s = { s with sl := sl } := by
  unfold loadLeaving; split <;> exact ⟨_, rfl⟩

theorem grantNext_only : ∃ arb, grantNext s = { s with arb := arb } := by
  unfold grantNext; split
  · exact ⟨_, rfl⟩
  · split <;> exact ⟨_, rfl⟩

theorem settle_only : ∃ sl arb, settle s = { s with sl := sl, arb := arb } := by
  obtain ⟨sl, h⟩ := loadLeaving_only s
  obtain ⟨arb, k⟩ := grantNext_only (loadLeaving s)
  exact ⟨sl, arb, by rw [settle, k, h]⟩

theorem settle_inner : Inner s (settle s) := by
  obtain ⟨_, _, h⟩ := settle_only s
  rw [h]; exact ⟨rfl, rfl, rfl, rfl, rfl⟩

end Sys2Proof.Machine
end

