-- ==== Sys2Proof/Laws/Happenings.lean ====
section
/-! SUPPORT. What closes a happening: when it changes nothing, and what a settled state is kept by. -/

namespace Sys2Proof.Machine

theorem happening_live {s : State} (h : Live s) (f : State → State) : happening f s = .next (settle (f s)) := by
  simp only [Live] at h; simp [happening, h]

theorem happening_next (s : State) (f : State → State) : ∃ t, happening f s = .next t := ⟨_, rfl⟩

theorem tableEmpty_same {s t : State} (h : t.rt = s.rt) : tableEmpty t = tableEmpty s := by
  simp [tableEmpty, State.entry, h]

/-- No LEAVING frame is due where none was due before and phase, label, request table, line unit and own number are the same. -/
theorem loadLeaving_same {s t : State} (h : loadLeaving s = s) (phase : t.hp.phase = s.hp.phase) (label : t.hp.label = s.hp.label)
    (rt : t.rt = s.rt) (sl : t.sl = s.sl) (own : t.own = s.own) : loadLeaving t = t := by
  unfold loadLeaving at h ⊢
  rw [phase, tableEmpty_same rt, sl]
  split
  · rename_i c
    rw [if_pos c] at h
    have e : loadLeavingFrame s.own s.hp.label s.sl = s.sl := congrArg State.sl h
    have e2 : loadLeavingFrame t.own t.hp.label t.sl = t.sl := by rw [own, label, sl]; exact e
    show { t with sl := loadLeavingFrame t.own t.hp.label t.sl } = t
    rw [e2]
  · rfl

/-- No LEAVING frame is due where none was due before and phase, label, request table, presence holder, commitment of the presence
frame and own number are the same. -/
theorem loadLeaving_holder {s t : State} (h : loadLeaving s = s) (phase : t.hp.phase = s.hp.phase)
    (label : t.hp.label = s.hp.label) (rt : t.rt = s.rt) (own : t.own = s.own) (holder : t.sl.holder = s.sl.holder)
    (aside : t.sl.aside = s.sl.aside) (committed : presenceCommitted t.sl = presenceCommitted s.sl) : loadLeaving t = t := by
  have loaded : leavingLoaded t.sl = leavingLoaded s.sl := by simp [leavingLoaded, holder, aside]
  unfold loadLeaving at h ⊢
  rw [phase, tableEmpty_same rt, loaded]
  split
  · rename_i c
    rw [if_pos c] at h
    have e : loadLeavingFrame s.own s.hp.label s.sl = s.sl := congrArg State.sl h
    have e2 : loadLeavingFrame t.own t.hp.label t.sl = t.sl := by
      rw [own, label]
      simp only [loadLeavingFrame, holder, committed] at e ⊢
      split at e
      · rename_i k; have := congrArg LineUnit.holder e; simp [k] at this
      · rename_i f k
        split at e
        · have a := congrArg LineUnit.aside e
          have : leavingLoaded s.sl = true := by simp at a; simp [leavingLoaded, ← a]
          rw [this] at c; exact absurd c.2.2 (by decide)
        · rename_i pc
          rw [if_neg pc]
          split at e
          · rename_i hello
            rw [if_pos hello]
          · have a := congrArg LineUnit.holder e
            have : leavingLoaded s.sl = true := by
              simp [k] at a; simp [leavingLoaded, k, ← a, presenceFrame]
            rw [this] at c; exact absurd c.2.2 (by decide)
    show { t with sl := loadLeavingFrame t.own t.hp.label t.sl } = t
    rw [e2]
  · rfl

/-- No LEAVING frame is due outside LEAVING. -/
theorem loadLeaving_phase {s : State} (h : s.hp.phase ≠ .leaving) : loadLeaving s = s := by
  unfold loadLeaving; rw [if_neg]; exact fun c => h c.1

/-- No LEAVING frame is due while an entry is held. -/
theorem loadLeaving_table {s : State} (h : tableEmpty s = false) : loadLeaving s = s := by
  unfold loadLeaving; rw [if_neg]; rintro ⟨_, c, _⟩; rw [h] at c; cases c

/-- The store is not granted where it is granted already or wanted by no requester. -/
theorem grantNext_same {s : State} (h : s.arb.granted.isSome ∨ (s.arb.hp = [] ∧ s.arb.ce = [] ∧ s.arb.su = [])) :
    grantNext s = s := by
  unfold grantNext
  rcases h with h | ⟨h1, h2, h3⟩
  · obtain ⟨r, e⟩ := Option.isSome_iff_exists.1 h
    simp [e]
  · have w : ∀ r, waits s.arb r = false := by intro r; cases r <;> simp [waits, h1, h2, h3]
    split
    · rfl
    · have : (preference s.arb.last).find? (waits s.arb) = none := List.find?_eq_none.2 fun r _ => by simp [w]
      simp [this]

/-- What closes a happening changes nothing that a settled state shares with the state before. -/
theorem settle_same {s t : State} (h : Settled s) (phase : t.hp.phase = s.hp.phase) (label : t.hp.label = s.hp.label)
    (rt : t.rt = s.rt) (sl : t.sl = s.sl) (own : t.own = s.own) (arb : t.arb = s.arb) : settle t = t := by
  unfold settle
  rw [loadLeaving_same h.2 phase label rt sl own]
  exact grantNext_same (by rw [arb]; exact h.1)

/-- A happening from a settled state that leaves what `settle` reads as it was. -/
theorem happening_same {s t : State} {f : State → State} (live : Live s) (h : Settled s) (e : f s = t)
    (phase : t.hp.phase = s.hp.phase) (label : t.hp.label = s.hp.label) (rt : t.rt = s.rt) (sl : t.sl = s.sl)
    (own : t.own = s.own) (arb : t.arb = s.arb) : happening f s = .next t := by
  rw [happening_live live, e, settle_same h phase label rt sl own arb]

/-- A happening from a settled state after which no LEAVING frame is due, and which leaves the arbiter as it was. -/
theorem happening_quiet {s t : State} {f : State → State} (live : Live s) (h : Settled s) (e : f s = t)
    (quiet : loadLeaving t = t) (arb : t.arb = s.arb) : happening f s = .next t := by
  rw [happening_live live, e, settle, quiet]
  exact congrArg _ (grantNext_same (by rw [arb]; exact h.1))

/-- What closes a happening only grants the store, where no LEAVING frame is due. -/
theorem settle_grant {s t : State} (h : loadLeaving s = s) (phase : t.hp.phase = s.hp.phase) (label : t.hp.label = s.hp.label)
    (rt : t.rt = s.rt) (sl : t.sl = s.sl) (own : t.own = s.own) : settle t = grantNext t := by
  unfold settle; rw [loadLeaving_same h phase label rt sl own]

/-- The grant reads and writes the arbiter alone. -/
theorem grantNext_eq (t : State) (a : Arbiter) : grantNext { t with arb := a } = { t with arb := (grantNext { t with arb := a }).arb } := by
  obtain ⟨_, h⟩ := grantNext_only { t with arb := a }
  rw [h]

/-- A happening after which no LEAVING frame is due: the store is granted. -/
theorem happening_grant {s t : State} {f : State → State} (live : Live s) (e : f s = t) (quiet : loadLeaving t = t) :
    happening f s = .next { t with arb := (grantNext t).arb } := by
  rw [happening_live live, e, settle, quiet]
  obtain ⟨_, h⟩ := grantNext_only t
  rw [h]

/-- The grant depends on the arbiter alone. -/
theorem grantNext_arb {s t : State} (h : t.arb = s.arb) : (grantNext t).arb = (grantNext s).arb := by
  unfold grantNext; rw [h]
  split
  · exact h
  · split
    · exact h
    · rfl

end Sys2Proof.Machine
end

