-- ==== Sys2Proof/Laws/Work.lean ====
section
/-! SUPPORT. What each operation of a channel does to the channels' work, their states and the held list: it keeps them in
order (WorkInOrder, HeldListInOrder). -/

namespace Sys2Proof.Machine

variable {s t u : State} {ch k : ChannelNo}

/-! ## What one channel's work is made of -/

/-- Whether the turn in progress is a channel's. -/
abbrev turnOf (s : State) (ch : ChannelNo) : Bool := s.ce.turn.any (Turn.isOf ch)

/-- The held list agrees with a channel. -/
abbrev HeldRight (s : State) (ch : ChannelNo) : Prop :=
  (ch ∈ s.ce.held ↔ (s.channel ch).state = .held)
    ∧ (ch ∈ s.ce.held → ∃ e ∈ (s.channel ch).pendingEvent, e.channel = ch ∧ e.kind ≠ .chainAborted
        ∧ (e.kind = .descriptorNotify → (s.channel ch).current ≠ none))

/-- Work, states and held list are all in order. -/
def ChannelsInOrder (s : State) : Prop := WorkInOrder s ∧ HeldListInOrder s ∧ s.ev.events.length ≤ 32

/-- The same but for one channel, which is not on the held list. -/
structure OthersInOrder (ch : ChannelNo) (s : State) : Prop where
  work  : ∀ k, k ≠ ch → WorkInOrderOf s k
  right : ∀ k, k ≠ ch → HeldRight s k
  full  : s.ce.held ≠ [] → s.ev.events.length = 32
  nodup : s.ce.held.Nodup
  off   : ch ∉ s.ce.held
  room  : s.ev.events.length ≤ 32

/-- Nothing of a channel is under way. -/
structure AtRest (ch : ChannelNo) (s : State) : Prop where
  works : worksOf s ch = []
  out   : (s.channel ch).outstanding = 0
  turn  : turnOf s ch = false
  wait  : ∀ v ∈ s.nq.waiters, v.channel ≠ ch

/-- Two states differ, of what the orders speak of, in one channel alone. -/
structure OnlyOf (ch : ChannelNo) (s t : State) : Prop where
  chan  : ∀ k, k ≠ ch → t.channel k = s.channel k
  works : ∀ k, k ≠ ch → worksOf t k = worksOf s k
  turn  : ∀ k, k ≠ ch → turnOf t k = turnOf s k
  wait  : ∀ v, v.channel ≠ ch → (v ∈ t.nq.waiters ↔ v ∈ s.nq.waiters)
  held  : t.ce.held = s.ce.held
  ev    : t.ev = s.ev


theorem OnlyOf.refl (s : State) : OnlyOf ch s s := ⟨fun _ _ => rfl, fun _ _ => rfl, fun _ _ => rfl, fun _ _ => Iff.rfl, rfl, rfl⟩

theorem OnlyOf.trans (a : OnlyOf ch s t) (b : OnlyOf ch t u) : OnlyOf ch s u :=
  ⟨fun k h => (b.chan k h).trans (a.chan k h), fun k h => (b.works k h).trans (a.works k h),
    fun k h => (b.turn k h).trans (a.turn k h), fun v h => (b.wait v h).trans (a.wait v h),
    b.held.trans a.held, b.ev.trans a.ev⟩

theorem OthersInOrder.next (h : OthersInOrder ch s) (o : OnlyOf ch s t) : OthersInOrder ch t where
  work k ne := by
    have w := h.work k ne
    unfold WorkInOrderOf at w ⊢
    rw [o.chan k ne, o.works k ne, show t.ce.turn.any (Turn.isOf k) = s.ce.turn.any (Turn.isOf k) from o.turn k ne]
    refine ⟨w.1, w.2.1, w.2.2.1, fun v m e => ?_, w.2.2.2.2⟩
    exact w.2.2.2.1 v ((o.wait v (e ▸ ne)).1 m) e
  right k ne := by
    have w := h.right k ne
    unfold HeldRight at w ⊢
    rw [o.chan k ne, o.held]; exact w
  full := by rw [o.held, o.ev]; exact h.full
  nodup := by rw [o.held]; exact h.nodup
  off := by rw [o.held]; exact h.off
  room := by rw [o.ev]; exact h.room

theorem ChannelsInOrder.others (h : ChannelsInOrder s) (free : (s.channel ch).state ≠ .held) : OthersInOrder ch s :=
  ⟨fun k _ => h.1 k, fun k _ => h.2.1.2.2 k, h.2.1.1, h.2.1.2.1, fun m => free ((h.2.1.2.2 ch).1.1 m), h.2.2⟩

theorem OthersInOrder.all (h : OthersInOrder ch s) (w : WorkInOrderOf s ch) (free : (s.channel ch).state ≠ .held) : ChannelsInOrder s := by
  refine ⟨fun k => ?_, ⟨h.full, h.nodup, fun k => ?_⟩, h.room⟩
  · by_cases e : k = ch
    · rw [e]; exact w
    · exact h.work k e
  · by_cases e : k = ch
    · subst e; exact ⟨⟨fun m => absurd m h.off, fun m => absurd m free⟩, fun m => absurd m h.off⟩
    · exact h.right k e

/-! ## Small facts -/

@[simp] theorem worksOf_modChannel (f : Channel → Channel) : worksOf (modChannel k f s) ch = worksOf s ch := rfl

@[simp] theorem worksOf_askCe (a : Access) (w : CeWork) :
    worksOf (askCe a w s) ch = worksOf s ch ++ (if w.owner = some ch then [w] else []) := by
  unfold worksOf askCe; simp only [List.map_append, List.filter_append, List.map_cons, List.map_nil, List.filter_cons, List.filter_nil]
  by_cases h : w.owner = some ch <;> simp [h]

@[simp] theorem channel_setHeld (l : List ChannelNo) : (setHeld l s).channel k = s.channel k := rfl

@[simp] theorem worksOf_setHeld (l : List ChannelNo) : worksOf (setHeld l s) k = worksOf s k := rfl

@[simp] theorem channel_askCe (a : Access) (w : CeWork) : (askCe a w s).channel k = s.channel k := rfl

theorem OnlyOf.ask (a : Access) (w : CeWork) (h : ∀ k, k ≠ ch → w.owner ≠ some k) : OnlyOf ch s (askCe a w s) :=
  ⟨fun _ _ => rfl, fun k ne => by simp [h k ne], fun _ _ => rfl, fun _ _ => Iff.rfl, rfl, rfl⟩

theorem OnlyOf.mod (f : Channel → Channel) : OnlyOf ch s (modChannel ch f s) :=
  ⟨fun k ne => by rw [channel_modChannel, if_neg ne], fun _ _ => rfl, fun _ _ => rfl, fun _ _ => Iff.rfl, rfl, rfl⟩

theorem writeUnderWay_eq : writeUnderWay s ch = (worksOf s ch).any CeWork.isData := by
  unfold writeUnderWay worksOf
  induction s.arb.ce with
  | nil => rfl
  | cons j l ih =>
    rw [List.any_cons, List.map_cons, List.filter_cons, ih]
    obtain ⟨a, w⟩ := j
    cases w <;> simp only [CeWork.owner, Option.some.injEq, decide_eq_true_eq, Bool.false_or, reduceCtorEq] <;>
      first | rfl | (split <;> rename_i h <;> simp [CeWork.isData, h])

/-! ## One channel's operations -/

/-- After an access other than a data or result write is asked for, with nothing else of the channel under way. -/
theorem channels_ask (a : Access) (w : CeWork) (o : OthersInOrder ch s) (r : AtRest ch s) (own : w.owner = some ch) (d : w.isData = false)
    (st : (s.channel ch).state = .active ∧ (s.channel ch).issuable = false ∧ (s.channel ch).issued = (s.channel ch).completed
      ∨ (s.channel ch).state = .draining ∧ w.isFaultStatus = true) : ChannelsInOrder (askCe a w s) := by
  have o' := o.next (OnlyOf.ask (ch := ch) (s := s) a w (fun k ne => by rw [own]; simp; exact fun h => ne h.symm))
  refine o'.all ?_ ?_
  · unfold WorkInOrderOf
    rw [worksOf_askCe, channel_askCe, r.works, if_pos own]
    refine ⟨fun x y => ?_, fun v m e => ?_, fun t => ?_, fun v m e => ?_, fun x => ?_, fun x => ?_⟩
    · rcases st with h | h
      · exact absurd h.1 x
      · exact absurd h.1 y
    · simp at m; subst m
      refine ⟨rfl, r.out, fun x => ?_, fun x => ?_⟩ <;> rcases st with h | h
      · exact h.2.1
      · rw [h.1] at x; cases x
      · rw [h.1] at x; cases x
      · exact h.2
    · have : turnOf s ch = true := t
      rw [r.turn] at this; cases this
    · exact absurd e (r.wait v m)
    · rcases st with h | h <;> rw [h.1] at x <;> cases x
    · rcases st with h | h
      · simp [h.2.2, r.out, d]
      · rw [h.1] at x; rcases x with x | x <;> cases x
  · rw [channel_askCe]; rcases st with h | h <;> rw [h.1] <;> decide

/-- With nothing of the channel under way, in a state that asks for nothing. -/
theorem channels_rest (o : OthersInOrder ch s) (r : AtRest ch s) (st : (s.channel ch).state ≠ .held)
    (aw : (s.channel ch).state = .awaiting → (s.channel ch).issuable = false)
    (n : (s.channel ch).state = .active ∨ (s.channel ch).state = .awaiting → (s.channel ch).issued = (s.channel ch).completed) :
    ChannelsInOrder s := by
  refine o.all ⟨fun _ _ => ⟨r.works, r.out⟩, fun v m => ?_, fun t => ?_, fun v m e => ?_, aw, fun x => ?_⟩ st
  · rw [r.works] at m; cases m
  · have : turnOf s ch = true := t
    rw [r.turn] at this; cases this
  · exact absurd e (r.wait v m)
  · rw [r.works, r.out, n x]; rfl

theorem AtRest.mod (r : AtRest ch s) (f : Channel → Channel) (h : (f (s.channel ch)).outstanding = (s.channel ch).outstanding) :
    AtRest ch (modChannel ch f s) :=
  ⟨r.works, by rw [channel_modChannel_self, h, r.out], r.turn, r.wait⟩

theorem startFetch_channels (o : OthersInOrder ch s) (r : AtRest ch s) (st : (s.channel ch).state = .active)
    (cur : (s.channel ch).current = none) (n : (s.channel ch).resume = none → (s.channel ch).issued = (s.channel ch).completed) :
    ChannelsInOrder (startFetch ch s) := by
  unfold startFetch; split
  · rename_i h
    exact channels_rest o r (by rw [st]; decide) (by rw [st]; nofun) (fun _ => n h)
  · refine channels_ask _ _ (o.next (.mod _)) (r.mod _ rfl) rfl rfl (.inl ?_)
    rw [channel_modChannel_self]
    exact ⟨st, by simp [Channel.restarted, Channel.issuable, Channel.descriptor, cur], rfl⟩

/-- The next fetch begins, with nothing of the channel under way (R32). -/
theorem moveOn_channels (o : OthersInOrder ch s) (r : AtRest ch s) (cur : (s.channel ch).current ≠ none) : ChannelsInOrder
    (moveOn ch s) := by
  unfold moveOn
  refine startFetch_channels (o.next (.mod _)) (r.mod _ rfl) (by rw [channel_modChannel_self]) (by rw [channel_modChannel_self]; rfl) ?_
  rw [channel_modChannel_self]
  intro h
  obtain ⟨c, hc⟩ := Option.ne_none_iff_exists'.1 cur
  simp [stepPast, Channel.descriptor, hc] at h

theorem afterPost_channels (k : EventKind) (o : OthersInOrder ch s) (r : AtRest ch s) (ab : k ≠ .chainAborted)
    (cur : k = .descriptorNotify → (s.channel ch).current ≠ none) : ChannelsInOrder (afterPost ch k s) := by
  unfold afterPost
  cases k
  · exact moveOn_channels o r (cur rfl)
  · refine channels_rest (o.next (.mod _)) (r.mod _ rfl) ?_ ?_ ?_ <;> rw [channel_modChannel_self] <;> simp
  · refine channels_rest (o.next (.mod _)) (r.mod _ rfl) ?_ ?_ ?_ <;> rw [channel_modChannel_self] <;> simp
  · exact absurd rfl ab

/-- A channel with nothing under way offers its event: it is posted, or the channel joins the held list (R58, R159). -/
theorem offerEvent_channels (e : Event) (o : OthersInOrder ch s) (r : AtRest ch s) (ev : e.channel = ch) (ab : e.kind ≠ .chainAborted)
    (cur : e.kind = .descriptorNotify → (s.channel ch).current ≠ none) : ChannelsInOrder (offerEvent ch e s) := by
  unfold offerEvent; split
  · rename_i room
    refine afterPost_channels (s := pushEvent e s) e.kind ?_ ⟨r.works, r.out, r.turn, r.wait⟩ ab cur
    have none : s.ce.held = [] := by
      by_cases h : s.ce.held = []
      · exact h
      · have := o.full h; omega
    refine ⟨o.work, o.right, fun h => absurd none h, o.nodup, o.off, ?_⟩
    show (s.ev.events ++ [e]).length ≤ 32
    simp; omega
  · rename_i room
    have full : s.ev.events.length = 32 := by have := o.room; omega
    have self : (modChannel ch (fun c => { c with state := .held, pendingEvent := some e }) s).channel ch
        = { s.channel ch with state := .held, pendingEvent := some e } := channel_modChannel_self _ _ _
    have other : ∀ k, k ≠ ch → (modChannel ch (fun c => { c with state := .held, pendingEvent := some e }) s).channel k = s.channel k :=
      (OnlyOf.mod _).chan
    have o' := o.next (OnlyOf.mod (ch := ch) fun c => { c with state := .held, pendingEvent := some e })
    refine ⟨fun k => ?_, ⟨fun _ => full, ?_, fun k => ?_⟩, by show s.ev.events.length ≤ 32; omega⟩
    · by_cases h : k = ch
      · subst h
        unfold WorkInOrderOf
        rw [channel_setHeld, self, worksOf_setHeld, worksOf_modChannel, r.works]
        refine ⟨fun _ _ => ⟨rfl, r.out⟩, nofun, fun t => ?_, fun v m x => absurd x (r.wait v m), nofun, by simp⟩
        have : turnOf s k = true := t
        rw [r.turn] at this; cases this
      · exact o'.work k h
    · show (s.ce.held ++ [ch]).Nodup
      rw [List.nodup_append]
      exact ⟨o.nodup, by simp, fun a ha b hb => by simp at hb; subst hb; exact fun h => o.off (h ▸ ha)⟩
    · show (k ∈ s.ce.held ++ [ch] ↔ _) ∧ (k ∈ s.ce.held ++ [ch] → _)
      by_cases h : k = ch
      · subst h
        rw [channel_setHeld, self]
        exact ⟨by simp, fun _ => ⟨e, rfl, ev, ab, cur⟩⟩
      · rw [channel_setHeld, other k h]
        have := o.right k h
        unfold HeldRight at this
        simpa [h] using this

theorem reportFault_channels (f : FaultRecord) (o : OthersInOrder ch s) (r : AtRest ch s) : ChannelsInOrder (reportFault ch f s) :=
  offerEvent_channels _ (o.next (.mod _)) (r.mod _ rfl) rfl (by simp) (by simp)

theorem giveUpTurn_only_of : OnlyOf ch s (giveUpTurn ch s) := by
  unfold giveUpTurn; split
  · rename_i h
    refine ⟨fun _ _ => rfl, fun k ne => ?_, fun k ne => ?_, fun _ _ => Iff.rfl, rfl, rfl⟩
    · unfold worksOf setTurn dropCe
      simp only []
      induction s.arb.ce with
      | nil => rfl
      | cons j l ih =>
        obtain ⟨a, w⟩ := j
        simp only [List.map_cons, List.filter_cons, ih]
        cases w <;> simp [CeWork.isPayload, CeWork.owner]
    · show Option.any _ none = s.ce.turn.any _
      cases ht : s.ce.turn with
      | none => rfl
      | some t =>
        rw [ht] at h
        cases t with
        | resend i => cases h
        | channel c p =>
          have : c = ch := by simpa [Turn.isOf] using h
          subst this
          simp [Turn.isOf, Ne.symm ne]
  · exact .refl s

theorem giveUpTurn_works : worksOf (giveUpTurn ch s) k = worksOf s k := by
  unfold giveUpTurn; split
  · unfold worksOf setTurn dropCe
    simp only []
    induction s.arb.ce with
    | nil => rfl
    | cons j l ih =>
      obtain ⟨a, w⟩ := j
      simp only [List.map_cons, List.filter_cons, ih]
      cases w <;> simp [CeWork.isPayload, CeWork.owner]
  · rfl

theorem giveUpTurn_turn : turnOf (giveUpTurn ch s) ch = false := by
  unfold giveUpTurn; split
  · rfl
  · rename_i h; simpa using h

theorem giveUpTurn_channel : (giveUpTurn ch s).channel k = s.channel k := by
  unfold giveUpTurn; split <;> rfl

theorem giveUpTurn_waiters : (giveUpTurn ch s).nq = s.nq := by
  unfold giveUpTurn; split <;> rfl

/-- Every access of a channel asked for is a data or result write. -/
def DataOnly (ch : ChannelNo) (s : State) : Prop := ∀ w ∈ worksOf s ch, w.isData = true

/-- A channel in DRAINING whose accesses are data writes, with or without the end of draining. -/
theorem checkDrain_channels (o : OthersInOrder ch s) (st : (s.channel ch).state = .draining) (d : DataOnly ch s) (t : turnOf s ch = false)
    (w : ∀ v ∈ s.nq.waiters, v.channel ≠ ch) : ChannelsInOrder (checkDrain ch s) := by
  have stay : ChannelsInOrder s := by
    refine o.all ?_ (by rw [st]; decide)
    unfold WorkInOrderOf; rw [st]
    refine ⟨nofun, fun v m e => ?_, fun x => ?_, fun v m e => absurd e (w v m), nofun, by simp⟩
    · rw [d v m] at e; cases e
    · have : turnOf s ch = true := x
      rw [t] at this; cases this
  simp only [checkDrain]; split
  · rename_i c
    split
    · have none : worksOf s ch = [] := by
        have := c.2.2
        rw [writeUnderWay_eq] at this
        cases h : worksOf s ch with
        | nil => rfl
        | cons x l => rw [h] at this; have := d x (by rw [h]; simp); simp_all
      exact channels_ask _ _ o ⟨none, c.2.1, t, w⟩ rfl rfl (.inr ⟨st, rfl⟩)
    · exact stay
  · exact stay

/-- A failure handed to a channel that is ACTIVE or DRAINING and whose accesses are data writes. -/
theorem failSegment_channels (code : FaultCode) (off : Nat) (o : OthersInOrder ch s)
    (st : (s.channel ch).state = .active ∨ (s.channel ch).state = .draining ∧ turnOf s ch = false) (d : DataOnly ch s)
    (w : ∀ v ∈ s.nq.waiters, v.channel ≠ ch) : ChannelsInOrder (failSegment ch code off s) := by
  rcases st with st | ⟨st, t⟩
  · unfold failSegment; rw [st]
    refine checkDrain_channels ((o.next giveUpTurn_only_of).next (.mod _)) (by rw [channel_modChannel_self]) ?_ ?_ ?_
    · intro v m; rw [worksOf_modChannel, giveUpTurn_works] at m; exact d v m
    · exact giveUpTurn_turn
    · show ∀ v ∈ (giveUpTurn ch s).nq.waiters, _
      rw [giveUpTurn_waiters]; exact w
  · unfold failSegment; rw [st]; exact checkDrain_channels o st d t w

/-- The descriptor's completion begins: one access is asked for. -/
theorem startCompletion_channels (o : OthersInOrder ch s) (r : AtRest ch s) (st : (s.channel ch).state = .active)
    (i : (s.channel ch).issuable = false) (n : (s.channel ch).issued = (s.channel ch).completed) : ChannelsInOrder
        (startCompletion ch s) := by
  unfold startCompletion; split
  · exact channels_rest o r (by rw [st]; decide) (by rw [st]; nofun) (fun _ => n)
  · unfold advanceLocal; split
    · exact channels_ask _ _ o r rfl rfl (.inl ⟨st, i, n⟩)
    · unfold advanceRemote; split
      · exact channels_ask _ _ o r rfl rfl (.inl ⟨st, i, n⟩)
      · exact channels_ask _ _ o r rfl rfl (.inl ⟨st, i, n⟩)

theorem finishDescriptor_channels (o : OthersInOrder ch s) (r : AtRest ch s) (st : (s.channel ch).state = .active)
    (n : (s.channel ch).issued = (s.channel ch).completed) : ChannelsInOrder (finishDescriptor ch s) := by
  simp only [finishDescriptor]; split
  · exact channels_rest o r (by rw [st]; decide) (by rw [st]; nofun) (fun _ => n)
  · rename_i d hd
    have cur : (s.channel ch).current ≠ none := by
      intro h; simp [Channel.descriptor, h] at hd
    split
    · exact offerEvent_channels _ (o.next (.mod _)) (r.mod _ rfl) rfl (by simp) (by simp)
    · split
      · exact offerEvent_channels _ o r rfl (by simp) (fun _ => cur)
      · exact moveOn_channels o r cur

/-- What is known of a channel from which a data write or a reply has just been taken. -/
structure Running (ch : ChannelNo) (n : Nat) (s : State) : Prop where
  data : DataOnly ch s
  wait : ∀ v ∈ s.nq.waiters, v.channel ≠ ch
  st   : (s.channel ch).state = .active ∨ (s.channel ch).state = .draining
  turn : turnOf s ch = true → (s.channel ch).state = .active ∧ (s.channel ch).issuable = true
  sum  : (s.channel ch).state = .active →
    (s.channel ch).issued = (s.channel ch).completed + (s.channel ch).outstanding + (worksOf s ch).countP CeWork.isData + n

theorem Running.fail {n : Nat} (r : Running ch n s) (o : OthersInOrder ch s) (c : FaultCode) (off : Nat) : ChannelsInOrder
    (failSegment ch c off s) := by
  refine failSegment_channels c off o ?_ r.data r.wait
  rcases r.st with h | h
  · exact .inl h
  · refine .inr ⟨h, ?_⟩
    cases t : turnOf s ch
    · rfl
    · have := (r.turn t).1; rw [h] at this; cases this

theorem Running.all (r : Running ch 0 s) (o : OthersInOrder ch s) : ChannelsInOrder s := by
  refine o.all ⟨fun x y => ?_, fun v m e => ?_, r.turn, fun v m e => absurd e (r.wait v m), fun x => ?_, fun x => ?_⟩ ?_
  · rcases r.st with h | h <;> contradiction
  · rw [r.data v m] at e; cases e
  · rcases r.st with h | h <;> rw [h] at x <;> cases x
  · rcases r.st with h | h
    · have := r.sum h; omega
    · rw [h] at x; rcases x with x | x <;> cases x
  · rcases r.st with h | h <;> rw [h] <;> decide

theorem Running.rest {n : Nat} (r : Running ch n s) (none : worksOf s ch = []) (out : (s.channel ch).outstanding = 0)
    (i : (s.channel ch).issuable = false) : AtRest ch s := by
  refine ⟨none, out, ?_, r.wait⟩
  cases t : turnOf s ch
  · rfl
  · have := (r.turn t).2; rw [i] at this; cases this

theorem completeIfDone_active (r : Running ch 0 s) (o : OthersInOrder ch s) (st : (s.channel ch).state = .active) :
    ChannelsInOrder (completeIfDone ch s) ∧ ((completeIfDone ch s).channel ch).state = .active := by
  simp only [completeIfDone]; split
  · exact ⟨r.all o, st⟩
  · rename_i d hd
    split
    · rename_i c
      have none : worksOf s ch = [] := by
        have := c.2.2.2.2
        rw [writeUnderWay_eq] at this
        cases h : worksOf s ch with
        | nil => rfl
        | cons x l => rw [h] at this; have := r.data x (by rw [h]; simp); simp_all
      have out : (s.channel ch).outstanding = 0 := by
        have := r.sum st
        rw [none, c.2.2.2.1] at this; simp at this; omega
      have i : (s.channel ch).issuable = false := by simp [Channel.issuable, hd, c.2.2.1]
      refine ⟨startCompletion_channels o (r.rest none out i) st i c.2.2.2.1.symm, ?_⟩
      simp only [startCompletion, hd, advanceLocal, advanceRemote, askDoneStatus]
      split
      · exact st
      · split <;> exact st
    · exact ⟨r.all o, st⟩

/-- A segment is counted: the descriptor completes, or draining ends, or neither (R50 to R52, R54, R56). -/
theorem segmentDone_channels (r : Running ch 1 s) (o : OthersInOrder ch s) : ChannelsInOrder (segmentDone ch s) := by
  unfold segmentDone
  generalize hf : (fun c : Channel => { c with completed := c.completed + 1 }) = f
  have self : (modChannel ch f s).channel ch = { s.channel ch with completed := (s.channel ch).completed + 1 } := by
    rw [channel_modChannel_self, ← hf]
  have o' := o.next (OnlyOf.mod (ch := ch) f)
  have r' : Running ch 0 (modChannel ch f s) := by
    refine ⟨r.data, r.wait, by rw [self]; exact r.st, by rw [self]; exact r.turn, ?_⟩
    rw [self, worksOf_modChannel]
    intro h
    have := r.sum h
    simp only []; omega
  rcases r.st with st | st
  · obtain ⟨a, b⟩ := completeIfDone_active r' o' (by rw [self]; exact st)
    rw [show checkDrain ch (completeIfDone ch (modChannel ch f s)) = completeIfDone ch (modChannel ch f s) by
      simp only [checkDrain]; rw [b]; simp]
    exact a
  · have st' : ((modChannel ch f s).channel ch).state = .draining := by rw [self]; exact st
    rw [show completeIfDone ch (modChannel ch f s) = modChannel ch f s by
      simp only [completeIfDone]; rw [st']; split <;> simp]
    refine checkDrain_channels o' st' r'.data ?_ r'.wait
    cases t : turnOf (modChannel ch f s) ch
    · rfl
    · have := (r'.turn t).1; rw [st'] at this; cases this

theorem giveNotice_channels (n : Notice) (o : OthersInOrder ch s) (r : AtRest ch s) (i : (s.channel ch).issuable = false)
    (e : (s.channel ch).issued = (s.channel ch).completed) : ChannelsInOrder (giveNotice ch n s) := by
  have o' := o.next (OnlyOf.mod (ch := ch) fun c => { c with state := .active })
  have r' := r.mod (fun c => { c with state := .active }) rfl
  have self : (modChannel ch (fun c => { c with state := .active }) s).channel ch = { s.channel ch with state := .active } :=
    channel_modChannel_self _ _ _
  simp only [giveNotice]; split
  · exact channels_rest o' r' (by rw [self]; simp) (by rw [self]; simp) (by rw [self]; exact fun _ => e)
  · split
    · exact channels_ask _ _ o' r' rfl rfl (.inl (by rw [self]; exact ⟨rfl, i, e⟩))
    · exact startCompletion_channels o' r' (by rw [self]) (by rw [self]; exact i) (by rw [self]; exact e)

/-- Withdrawing a waiter leaves its channel at rest, ready to take a notice. -/
theorem withdrawWaiter_only : OnlyOf ch s (withdrawWaiter ch s) :=
  ⟨fun _ _ => rfl, fun _ _ => rfl, fun _ _ => rfl, fun v h => by simp [withdrawWaiter, modNotices, h], rfl, rfl⟩

theorem ChannelsInOrder.rest (h : ChannelsInOrder s) (a : (s.channel ch).state ≠ .active) (b : (s.channel ch).state ≠ .draining) :
    worksOf s ch = [] ∧ (s.channel ch).outstanding = 0 ∧ turnOf s ch = false := by
  obtain ⟨x, y⟩ := (h.1 ch).1 a b
  refine ⟨x, y, ?_⟩
  cases t : turnOf s ch
  · rfl
  · exact absurd ((h.1 ch).2.2.1 t).1 a

/-- Changes that concern nothing that the orders speak of. -/
theorem ChannelsInOrder.same (h : ChannelsInOrder s) (ce : t.ce.channels = s.ce.channels) (held : t.ce.held = s.ce.held)
    (turn : t.ce.turn = s.ce.turn)
    (arb : t.arb.ce = s.arb.ce) (ev : t.ev.events = s.ev.events) (w : t.nq.waiters = s.nq.waiters) : ChannelsInOrder t := by
  unfold ChannelsInOrder WorkInOrder WorkInOrderOf HeldListInOrder worksOf State.channel at *
  rw [ce, held, turn, arb, ev, w]; exact h

theorem settleNotice_channels (n : Notice) (add : List Notice → List Notice) (h : ChannelsInOrder s) : ChannelsInOrder
    (settleNotice n add s) := by
  unfold settleNotice; split
  · rename_i w hw
    have m := List.mem_of_find?_eq_some hw
    have st := (h.1 w.channel).2.2.2.1 w m rfl
    have r := h.rest (ch := w.channel) (by rw [st]; simp) (by rw [st]; simp)
    refine giveNotice_channels n ((h.others (by rw [st]; simp)).next withdrawWaiter_only) ⟨r.1, r.2.1, r.2.2, ?_⟩ ?_ ?_
    · intro v m; simp [withdrawWaiter, modNotices] at m; exact m.2
    · exact (h.1 w.channel).2.2.2.2.1 st
    · have := (h.1 w.channel).2.2.2.2.2 (.inr st)
      rw [r.1, r.2.1] at this; exact (by simpa using this : (s.channel w.channel).issued = (s.channel w.channel).completed)
  · exact h.same rfl rfl rfl rfl rfl rfl

theorem startAwait_channels (d : Descriptor) (o : OthersInOrder ch s) (r : AtRest ch s) (i : (s.channel ch).issuable = false)
    (e : (s.channel ch).issued = (s.channel ch).completed) : ChannelsInOrder (startAwait ch d s) := by
  unfold startAwait; split
  · refine giveNotice_channels _ (o.next ⟨fun _ _ => rfl, fun _ _ => rfl, fun _ _ => rfl, fun _ _ => Iff.rfl, rfl, rfl⟩)
      ⟨r.works, r.out, r.turn, r.wait⟩ i e
  · generalize hf : (fun c : Channel => { c with state := .awaiting }) = f
    have self : (modChannel ch f s).channel ch = { s.channel ch with state := .awaiting } := by
      rw [channel_modChannel_self, ← hf]
    have o' := (o.next (OnlyOf.mod (ch := ch) f)).next (t := modNotices (fun q => { q with waiters := q.waiters ++ [⟨ch, d.tag, d.target⟩] }) (modChannel ch f s))
      ⟨fun _ _ => rfl, fun _ _ => rfl, fun _ _ => rfl, fun v h => by
        simp [modNotices]; rintro rfl; simp at h, rfl, rfl⟩
    have chan : (modNotices (fun q => { q with waiters := q.waiters ++ [⟨ch, d.tag, d.target⟩] }) (modChannel ch f s)).channel ch
        = { s.channel ch with state := .awaiting } := self
    refine o'.all ?_ (by rw [chan]; simp)
    unfold WorkInOrderOf
    rw [chan]
    have wk : worksOf (modNotices (fun q => { q with waiters := q.waiters ++ [⟨ch, d.tag, d.target⟩] }) (modChannel ch f s)) ch = [] :=
        r.works
    rw [wk]
    refine ⟨fun _ _ => ⟨rfl, r.out⟩, nofun, fun t => ?_, fun _ _ _ => rfl, fun _ => i, fun _ => by simp [e, r.out]⟩
    have : turnOf s ch = true := t
    rw [r.turn] at this; cases this

theorem failFetch_channels (a : Addr) (c : FaultCode) (o : OthersInOrder ch s) (r : AtRest ch s) (st : (s.channel ch).state = .active) :
    ChannelsInOrder (failFetch ch a c s) := by
  unfold failFetch askFaultStatus
  refine channels_ask _ _ (o.next (.mod _)) (r.mod _ rfl) rfl rfl (.inl ?_)
  rw [channel_modChannel_self]
  exact ⟨st, rfl, rfl⟩

theorem fetched_channels (a : Addr) (b : List Byte) (o : OthersInOrder ch s) (r : AtRest ch s) (st : (s.channel ch).state = .active) :
    ChannelsInOrder (fetched ch a b s) := by
  simp only [fetched]; split
  · exact failFetch_channels a _ o r st
  · simp only [keepDescriptor]
    have self : (modChannel ch (fun c => { c.restarted with current := some ⟨a, b⟩ }) s).channel ch
      = { (s.channel ch).restarted with current := some ⟨a, b⟩ } := channel_modChannel_self _ _ _
    split
    · rename_i h
      refine startAwait_channels _ (o.next (.mod _)) (r.mod _ rfl) ?_ ?_ <;> rw [self]
      · simp [Channel.issuable, Channel.descriptor, Channel.unissued, h, Op.isRemote]
      · rfl
    · refine channels_rest (o.next (.mod _)) (r.mod _ rfl) ?_ ?_ ?_ <;> rw [self]
      · show (s.channel ch).state ≠ _; rw [st]; simp
      · intro x; change (s.channel ch).state = _ at x; rw [st] at x; cases x
      · exact fun _ => rfl

theorem fetchWord_channels (a : Addr) (got : List Byte) (x : StoreOutcome) (o : OthersInOrder ch s) (r : AtRest ch s)
    (st : (s.channel ch).state = .active) (i : (s.channel ch).issuable = false) (e : (s.channel ch).issued = (s.channel ch).completed) :
    ChannelsInOrder (fetchWord ch a got x s) := by
  unfold fetchWord; split
  · exact failFetch_channels a _ o r st
  · simp only []; split
    · exact channels_ask _ _ o r rfl rfl (.inl ⟨st, i, e⟩)
    · exact fetched_channels a _ o r st

theorem Running.ask {w : CeWork} (a : Access) (r : Running ch 1 s) (o : OthersInOrder ch s) (own : w.owner = some ch)
    (d : w.isData = true) :
    ChannelsInOrder (askCe a w s) := by
  refine Running.all (ch := ch) ⟨fun v m => ?_, r.wait, r.st, r.turn, fun h => ?_⟩
    (o.next (.ask a w (fun k ne => by rw [own]; simp; exact fun h => ne h.symm)))
  · rw [worksOf_askCe, if_pos own] at m; simp at m; rcases m with m | rfl
    · exact r.data v m
    · exact d
  · rw [worksOf_askCe, channel_askCe, if_pos own]; simp [d]; have := r.sum h; omega

theorem getWord_channels (g : RangeWrite) (off : Nat) (x : StoreOutcome) (r : Running ch 1 s) (o : OthersInOrder ch s) :
    ChannelsInOrder (getWord ch g off x s) := by
  simp only [getWord]; split
  · exact r.ask _ o rfl rfl
  · split
    · exact r.fail o _ _
    · exact segmentDone_channels r o

theorem valueWord_channels (g : RangeWrite) (x : StoreOutcome) (o : OthersInOrder ch s) (r : AtRest ch s)
    (st : (s.channel ch).state = .active) (i : (s.channel ch).issuable = false) (e : (s.channel ch).issued = (s.channel ch).completed) :
    ChannelsInOrder (valueWord ch g x s) := by
  simp only [valueWord]; split
  · exact channels_ask _ _ o r rfl rfl (.inl ⟨st, i, e⟩)
  · split
    · exact failSegment_channels _ _ o (.inl st) (fun v m => by rw [r.works] at m; cases m) r.wait
    · exact startCompletion_channels o r st i e

theorem advanceEnded_channels (x : StoreOutcome) (next : Descriptor → State → State) (o : OthersInOrder ch s) (r : AtRest ch s)
    (st : (s.channel ch).state = .active) (i : (s.channel ch).issuable = false) (e : (s.channel ch).issued = (s.channel ch).completed)
    (h : ∀ d, ChannelsInOrder (next d s)) : ChannelsInOrder (advanceEnded ch x next s) := by
  unfold advanceEnded; split
  · exact channels_rest o r (by rw [st]; simp) (by rw [st]; simp) (fun _ => e)
  · split
    · exact channels_ask _ _ o r rfl rfl (.inl ⟨st, i, e⟩)
    · exact h _

/-! ## The work that was granted -/

/-- The state in which the granted access has been made is the one before without its work. -/
structure Popped (w : CeWork) (s t : State) : Prop where
  channels : t.ce = s.ce
  ev       : t.ev = s.ev
  nq       : t.nq = s.nq
  works    : ∀ k, worksOf s k = (if w.owner = some k then [w] else []) ++ worksOf t k

theorem madeAccess_popped {a : Access} {w : CeWork} {rest} (h : s.arb.ce = (a, w) :: rest) :
    Popped w s (madeAccess a { s.arb with ce := rest } s) := by
  refine ⟨rfl, rfl, rfl, fun k => ?_⟩
  unfold worksOf; rw [h]
  by_cases e : w.owner = some k <;> simp [e, madeAccess]

theorem Popped.channel {w : CeWork} (p : Popped w s t) (k) : t.channel k = s.channel k := by unfold State.channel; rw [p.channels]

theorem Popped.others {w : CeWork} (p : Popped w s t) (own : w.owner = some ch) (h : ChannelsInOrder s) : OthersInOrder ch t := by
  have m : w ∈ worksOf s ch := by rw [p.works ch, if_pos own]; simp
  have st : (s.channel ch).state ≠ .held := by
    intro e; have := (h.1 ch).1 (by rw [e]; simp) (by rw [e]; simp); rw [this.1] at m; cases m
  refine (h.others st).next ⟨fun k _ => p.channel k, fun k ne => ?_, fun k _ => ?_, fun v _ => by rw [p.nq], by rw [p.channels], p.ev⟩
  · have := p.works k
    rw [own, if_neg (by simp; exact fun h => ne h.symm)] at this
    exact this.symm
  · unfold turnOf; rw [p.channels]

theorem Popped.waits {w : CeWork} (p : Popped w s t) (own : w.owner = some ch) (h : ChannelsInOrder s) : ∀ v ∈ t.nq.waiters,
    v.channel ≠ ch := by
  have m : w ∈ worksOf s ch := by rw [p.works ch, if_pos own]; simp
  rw [p.nq]
  intro v n e
  have st := (h.1 ch).2.2.2.1 v n e
  have := (h.1 ch).1 (by rw [st]; simp) (by rw [st]; simp)
  rw [this.1] at m; cases m

theorem Popped.state {w : CeWork} (p : Popped w s t) (own : w.owner = some ch) (h : ChannelsInOrder s) :
    (t.channel ch).state = .active ∨ (t.channel ch).state = .draining := by
  rw [p.channel]
  have m : w ∈ worksOf s ch := by rw [p.works ch, if_pos own]; simp
  by_contra c
  rw [not_or] at c
  have := (h.1 ch).1 c.1 c.2
  rw [this.1] at m; cases m

theorem Popped.single {w : CeWork} (p : Popped w s t) (own : w.owner = some ch) (d : w.isData = false) (h : ChannelsInOrder s) :
    AtRest ch t ∧ ((t.channel ch).state = .active → (t.channel ch).issuable = false ∧ (t.channel ch).issued = (t.channel ch).completed)
      ∧ (w.isFaultStatus = false → (t.channel ch).state = .active) := by
  have m : w ∈ worksOf s ch := by rw [p.works ch, if_pos own]; simp
  obtain ⟨a, b, c, e⟩ := (h.1 ch).2.1 w m d
  have wk : worksOf t ch = [] := by
    have := p.works ch; rw [a, if_pos own] at this; simpa using this
  have st := p.state own h
  refine ⟨⟨wk, by rw [p.channel]; exact b, ?_, p.waits own h⟩, fun x => ?_, fun x => ?_⟩
  · cases t' : turnOf t ch
    · rfl
    · have t2 : turnOf s ch = true := by unfold turnOf at *; rw [p.channels] at t'; exact t'
      obtain ⟨x, y⟩ := (h.1 ch).2.2.1 t2
      rw [c x] at y; cases y
  · rw [p.channel] at x ⊢
    have := (h.1 ch).2.2.2.2.2 (.inl x)
    rw [a, b] at this
    exact ⟨c x, by simpa [d] using this⟩
  · rcases st with y | y
    · exact y
    · rw [p.channel] at y; rw [e y] at x; cases x

theorem Popped.running {w : CeWork} (p : Popped w s t) (own : w.owner = some ch) (d : w.isData = true) (h : ChannelsInOrder s) :
    Running ch 1 t := by
  have m : w ∈ worksOf s ch := by rw [p.works ch, if_pos own]; simp
  refine ⟨fun v n => ?_, p.waits own h, p.state own h, fun x => ?_, fun x => ?_⟩
  · cases e : v.isData
    · have n' : v ∈ worksOf s ch := by rw [p.works ch]; simp [n]
      have := ((h.1 ch).2.1 v n' e).1
      rw [this] at m; simp at m; subst m; rw [d] at e; cases e
    · rfl
  · rw [p.channel]; exact (h.1 ch).2.2.1 (by rw [← p.channels]; exact x)
  · rw [p.channel] at x ⊢
    have := (h.1 ch).2.2.2.2.2 (.inl x)
    rw [p.works ch, if_pos own] at this
    simp [d] at this; omega

end Sys2Proof.Machine
end

