-- ==== Sys2Proof/Laws/Table.lean ====
section
/-! SUPPORT. What each operation does to the request table: the outstanding counts, the order of taking and the counts of
entries, and what freeing an entry leaves to its channel. -/

namespace Sys2Proof.Machine

variable {s t u : State} {ch k : ChannelNo}

/-! ## Outstanding counts -/

/-- Every channel's outstanding count is the same. -/
def SameOut (s t : State) : Prop := ∀ k, (t.channel k).outstanding = (s.channel k).outstanding

theorem SameOut.refl (s : State) : SameOut s s := fun _ => rfl
theorem SameOut.trans (a : SameOut s t) (b : SameOut t u) : SameOut s u := fun k => (b k).trans (a k)

theorem SameOut.mod (f : Channel → Channel) (h : (f (s.channel ch)).outstanding = (s.channel ch).outstanding) :
    SameOut s (modChannel ch f s) := by
  intro k; rw [channel_modChannel]; split
  · rename_i e; rw [e]; exact h
  · rfl

theorem SameOut.ce (h : t.ce.channels = s.ce.channels) : SameOut s t := fun k => by unfold State.channel; rw [h]

theorem startFetch_sameOut : SameOut s (startFetch ch s) := by
  unfold startFetch; split
  · exact .refl s
  · exact (SameOut.mod (ch := ch) Channel.restarted rfl).trans (.ce rfl)

theorem moveOn_sameOut : SameOut s (moveOn ch s) := (SameOut.mod _ rfl).trans startFetch_sameOut

theorem afterPost_sameOut (e : EventKind) : SameOut s (afterPost ch e s) := by
  cases e
  · exact moveOn_sameOut
  · exact .mod _ rfl
  · exact .mod _ rfl
  · exact .refl s

theorem offerEvent_sameOut (e : Event) : SameOut s (offerEvent ch e s) := by
  unfold offerEvent; split
  · exact SameOut.trans (t := pushEvent e s) (.ce rfl) (afterPost_sameOut _)
  · exact (SameOut.mod (ch := ch) (fun c => { c with state := .held, pendingEvent := some e }) rfl).trans (.ce rfl)

theorem postHeld_sameOut : SameOut s (postHeld s) := by
  unfold postHeld; split
  · exact .refl s
  · split
    · exact .refl s
    · rename_i c _ _ _ _ _
      refine SameOut.trans ?_ (afterPost_sameOut _)
      exact (SameOut.mod (ch := c) (fun c => { c with pendingEvent := none }) rfl).trans (.ce rfl)

theorem reportFault_sameOut (r : FaultRecord) : SameOut s (reportFault ch r s) := (SameOut.mod _ rfl).trans (offerEvent_sameOut _)
theorem failFetch_sameOut (a : Addr) (c : FaultCode) : SameOut s (failFetch ch a c s) :=
  (SameOut.mod (ch := ch) (fun c' => { c'.cleared with fault := some ⟨c, a, 0⟩ }) rfl).trans (.ce rfl)
theorem giveUpTurn_sameOut : SameOut s (giveUpTurn ch s) := by unfold giveUpTurn; split <;> exact .ce rfl
theorem checkDrain_sameOut : SameOut s (checkDrain ch s) := by
  simp only [checkDrain]; split
  · split <;> exact .ce rfl
  · exact .refl s
theorem failSegment_sameOut (c : FaultCode) (off : Nat) : SameOut s (failSegment ch c off s) := by
  unfold failSegment; split
  · exact (giveUpTurn_sameOut.trans (.mod _ rfl)).trans checkDrain_sameOut
  · exact checkDrain_sameOut
  · exact .refl s
theorem advanceRemote_sameOut (d : Descriptor) : SameOut s (advanceRemote ch d s) := by unfold advanceRemote; split <;> exact .ce rfl
theorem advanceLocal_sameOut (d : Descriptor) : SameOut s (advanceLocal ch d s) := by
  unfold advanceLocal; split
  · exact .ce rfl
  · exact advanceRemote_sameOut d
theorem startCompletion_sameOut : SameOut s (startCompletion ch s) := by
  unfold startCompletion; split
  · exact .refl s
  · exact advanceLocal_sameOut _
theorem finishDescriptor_sameOut : SameOut s (finishDescriptor ch s) := by
  simp only [finishDescriptor]; split
  · exact .refl s
  · split
    · exact (SameOut.mod _ rfl).trans (offerEvent_sameOut _)
    · split
      · exact offerEvent_sameOut _
      · exact moveOn_sameOut
theorem completeIfDone_sameOut : SameOut s (completeIfDone ch s) := by
  simp only [completeIfDone]; split
  · exact .refl s
  · split
    · exact startCompletion_sameOut
    · exact .refl s
theorem segmentDone_sameOut : SameOut s (segmentDone ch s) := ((SameOut.mod _ rfl).trans completeIfDone_sameOut).trans checkDrain_sameOut
theorem giveNotice_sameOut (n : Notice) : SameOut s (giveNotice ch n s) := by
  simp only [giveNotice]; split
  · exact .mod _ rfl
  · split
    · exact (SameOut.mod (ch := ch) (fun c => { c with state := .active }) rfl).trans (.ce rfl)
    · exact (SameOut.mod _ rfl).trans startCompletion_sameOut
theorem settleNotice_sameOut (n : Notice) (add : List Notice → List Notice) : SameOut s (settleNotice n add s) := by
  unfold settleNotice; split
  · exact SameOut.trans (.ce rfl) (giveNotice_sameOut n)
  · exact .ce rfl
theorem startAwait_sameOut (d : Descriptor) : SameOut s (startAwait ch d s) := by
  unfold startAwait; split
  · exact SameOut.trans (.ce rfl) (giveNotice_sameOut _)
  · exact (SameOut.mod (ch := ch) (fun c => { c with state := .awaiting }) rfl).trans (.ce rfl)
theorem passSegment_sameOut (d : Descriptor) : SameOut s (passSegment ch d s) := by
  simp only [passSegment]; split
  · exact SameOut.trans (.ce rfl) (.mod _ rfl)
  · exact .mod _ rfl

/-! ## The request table -/

/-- The order of taking and the counts agree with the request table. -/
def TableExact (s : State) : Prop := OrderListsHeld s ∧ CountsExact s

theorem TableExact.same (h : TableExact s) (rt : t.rt = s.rt) (out : SameOut s t) (p : ∀ p, (t.peer p).tx.held = (s.peer p).tx.held) :
    TableExact t := by
  unfold TableExact OrderListsHeld CountsExact entryCount State.entry at *
  rw [rt]
  refine ⟨h.1, fun ch => ?_, fun q => ?_⟩
  · rw [out ch]; exact h.2.1 ch
  · rw [p q]; exact h.2.2 q

/-- A count over a function changed in one place. -/
theorem count_update {l : List Slot} (nd : l.Nodup) (f g : Slot → Bool) (i : Slot) (m : i ∈ l) (same : ∀ j, j ≠ i → g j = f j) :
    l.countP g + (if f i then 1 else 0) = l.countP f + (if g i then 1 else 0) := by
  induction l with
  | nil => cases m
  | cons a l ih =>
    rw [List.nodup_cons] at nd
    rw [List.countP_cons, List.countP_cons]
    by_cases e : a = i
    · subst e
      have : l.countP g = l.countP f := List.countP_congr fun j hj => by rw [same j (fun h => nd.1 (h ▸ hj))]
      rw [this]; omega
    · have := ih nd.2 (by simpa [Ne.symm e] using m)
      rw [same a e]; omega

theorem count_setEntry (i : Slot) (x : Option Entry) (test : Entry → Bool) :
    entryCount (setEntry i x s) test + (if (s.entry i).any test then 1 else 0)
      = entryCount s test + (if x.any test then 1 else 0) := by
  have := count_update (List.nodup_finRange 16) (fun j => (s.entry j).any test) (fun j => ((setEntry i x s).entry j).any test) i
    (List.mem_finRange i) (fun j ne => by simp [entry_setEntry, ne])
  simpa [entryCount] using this

/-- What freeing an entry leaves of the other fields. -/
theorem freeEntry_parts (i : Slot) (e : Entry) :
    (freeEntry i e s).rt = (setOrder (s.rt.order.erase i) (setEntry i none s)).rt
    ∧ (∀ q, ((freeEntry i e s).peer q).tx = if q = e.target then { (s.peer q).tx with held := (s.peer q).tx.held - 1 } else (s.peer q).tx)
    ∧ (∀ k, (freeEntry i e s).channel k = if e.orphan = false ∧ k = e.channel then
        { s.channel k with outstanding := (s.channel k).outstanding - 1 } else s.channel k)
    ∧ (freeEntry i e s).arb = s.arb ∧ (freeEntry i e s).ev = s.ev ∧ (freeEntry i e s).nq = s.nq
    ∧ (freeEntry i e s).ce.turn = s.ce.turn ∧ (freeEntry i e s).ce.held = s.ce.held := by
  have chan : ∀ k, (if e.orphan = true then modTx e.target (fun t => { t with held := t.held - 1 }) (setOrder (s.rt.order.erase i) (setEntry i none s))
        else modChannel e.channel (fun c => { c with outstanding := c.outstanding - 1 })
          (modTx e.target (fun t => { t with held := t.held - 1 }) (setOrder (s.rt.order.erase i) (setEntry i none s)))).channel k
      = if e.orphan = false ∧ k = e.channel then { s.channel k with outstanding := (s.channel k).outstanding - 1 } else s.channel k := by
    intro k
    by_cases o : e.orphan = true
    · rw [if_pos o, if_neg (by simp [o])]; rfl
    · rw [if_neg o, channel_modChannel]
      by_cases x : k = e.channel
      · subst x; rw [if_pos rfl, if_pos ⟨by simpa using o, rfl⟩]; rfl
      · rw [if_neg x, if_neg (fun h => x h.2)]; rfl
  have peer : ∀ q, ((modTx e.target (fun t => { t with held := t.held - 1 }) (setOrder (s.rt.order.erase i) (setEntry i none s))).peer q).tx
      = if q = e.target then { (s.peer q).tx with held := (s.peer q).tx.held - 1 } else (s.peer q).tx := by
    intro q
    rw [peer_modTx]; split
    · rename_i h; rw [h]; rfl
    · rfl
  simp only [freeEntry]
  split
  · refine ⟨?_, ?_, chan, ?_, ?_, ?_, ?_, ?_⟩
    · split <;> rfl
    · split <;> exact peer
    all_goals (split <;> rfl)
  · refine ⟨?_, ?_, chan, ?_, ?_, ?_, ?_, ?_⟩
    · split <;> rfl
    · split <;> exact peer
    all_goals (split <;> rfl)

theorem freeEntry_entry (i j : Slot) (e : Entry) : (freeEntry i e s).entry j = if j = i then none else s.entry j := by
  unfold State.entry; rw [(freeEntry_parts i e).1]
  exact entry_setEntry s i j none

/-- A freed entry leaves the counts exact (R36, R64). -/
theorem freeEntry_table {i : Slot} {e : Entry} (h : TableExact s) (he : s.entry i = some e) : TableExact (freeEntry i e s) := by
  obtain ⟨⟨nd, iff⟩, out, held⟩ := h
  obtain ⟨rt, peer, chan, -⟩ := freeEntry_parts (s := s) i e
  have cnt : ∀ test, entryCount (freeEntry i e s) test + (if test e then 1 else 0) = entryCount s test := by
    intro test
    have := count_setEntry (s := s) i none test
    rw [he] at this
    have e2 : entryCount (freeEntry i e s) test = entryCount (setEntry i none s) test := by
      unfold entryCount State.entry; rw [rt]; rfl
    rw [e2]; simpa using this
  refine ⟨⟨?_, fun j => ?_⟩, fun c => ?_, fun p => ?_⟩
  · rw [rt]; exact nd.erase i
  · rw [rt, freeEntry_entry]
    show j ∈ s.rt.order.erase i ↔ _
    rw [nd.mem_erase_iff, iff]
    by_cases x : j = i <;> simp [x]
  · rw [chan]
    have := cnt fun e => decide (e.channel = c) && !e.orphan
    have o := out c
    by_cases x : e.orphan = false ∧ c = e.channel
    · rw [if_pos x]; simp only []; simp [x.1, x.2] at this
      rw [x.2] at o ⊢; omega
    · rw [if_neg x]
      rw [o, ← this]
      have : (decide (e.channel = c) && !e.orphan) = false := by
        by_cases y : e.channel = c
        · subst y; simpa using x
        · simp [y]
      rw [this]; simp
  · have := cnt fun e => decide (e.target = p)
    have o := held p
    rw [peer]
    by_cases x : p = e.target
    · rw [if_pos x]; subst x; simp at this ⊢; omega
    · rw [if_neg x, o, ← this]; simp [Ne.symm x]

/-- While a channel has an entry that is no orphan, it is ACTIVE or DRAINING and has data writes alone. -/
theorem busy_of_entry {i : Slot} {e : Entry} (h : ChannelsInOrder s) (tb : TableExact s) (he : s.entry i = some e) (no : e.orphan = false) :
    1 ≤ (s.channel e.channel).outstanding ∧ Running e.channel 0 s := by
  have pos : 1 ≤ (s.channel e.channel).outstanding := by
    rw [tb.2.1 e.channel]
    unfold entryCount
    rw [Nat.one_le_iff_ne_zero, ← Nat.pos_iff_ne_zero, List.countP_pos_iff]
    exact ⟨i, List.mem_finRange i, by simp [he, no]⟩
  have w := h.1 e.channel
  have st : (s.channel e.channel).state = .active ∨ (s.channel e.channel).state = .draining := by
    by_contra c; rw [not_or] at c; have := (w.1 c.1 c.2).2; omega
  refine ⟨pos, fun v m => ?_, fun v m x => ?_, st, w.2.2.1, fun x => by have := w.2.2.2.2.2 (.inl x); omega⟩
  · cases d : v.isData
    · have := (w.2.1 v m d).2.1; omega
    · rfl
  · have := w.2.2.2.1 v m x; rw [this] at st; rcases st with y | y <;> cases y

theorem freeEntry_of (i : Slot) (e : Entry) : OnlyOf e.channel s (freeEntry i e s) := by
  obtain ⟨rt, peer, chan, arb, ev, nq, turn, held⟩ := freeEntry_parts (s := s) i e
  refine ⟨fun k ne => by rw [chan, if_neg (fun h => ne h.2)], fun k _ => by unfold worksOf; rw [arb],
    fun k _ => by unfold turnOf; rw [turn], fun v _ => by rw [nq], held, ev⟩

/-- An orphan's entry is freed: nothing that the orders speak of changes. -/
theorem freeEntry_orphan {i : Slot} {e : Entry} (h : ChannelsInOrder s) (o : e.orphan = true) : ChannelsInOrder (freeEntry i e s) := by
  obtain ⟨rt, peer, chan, arb, ev, nq, turn, held⟩ := freeEntry_parts (s := s) i e
  have : (freeEntry i e s).ce.channels = s.ce.channels := by
    unfold freeEntry; simp only [o, if_true]; split <;> rfl
  exact h.same this held turn (by rw [arb]) (by rw [ev]) (by rw [nq])

/-- The entry of a channel is freed: its channel waits for the one who freed it to count the segment. -/
theorem freeEntry_running {i : Slot} {e : Entry} (h : ChannelsInOrder s) (tb : TableExact s) (he : s.entry i = some e)
    (no : e.orphan = false) :
    OthersInOrder e.channel (freeEntry i e s) ∧ Running e.channel 1 (freeEntry i e s) := by
  obtain ⟨pos, r⟩ := busy_of_entry h tb he no
  obtain ⟨rt, peer, chan, arb, ev, nq, turn, held⟩ := freeEntry_parts (s := s) i e
  have self := chan e.channel
  rw [if_pos ⟨no, rfl⟩] at self
  have wk : worksOf (freeEntry i e s) e.channel = worksOf s e.channel := by unfold worksOf; rw [arb]
  refine ⟨(h.others ?_).next (freeEntry_of i e), fun v m => r.data v (wk ▸ m), fun v m => r.wait v (nq ▸ m), by rw [self]; exact r.st,
      ?_, fun x => ?_⟩
  · rcases r.st with y | y <;> rw [y] <;> simp
  · unfold turnOf; rw [turn, self]; exact r.turn
  · rw [self] at x ⊢; rw [wk]; have := r.sum x; simp only []; omega

theorem failEntry_channels {i : Slot} {e : Entry} (c : FaultCode) (h : ChannelsInOrder s) (tb : TableExact s) (he : s.entry i = some e) :
    ChannelsInOrder (failEntry c i e s) := by
  simp only [failEntry]; split
  · rename_i o; exact freeEntry_orphan h o
  · rename_i o
    obtain ⟨a, b⟩ := freeEntry_running h tb he (by simpa using o)
    exact b.fail a _ _

theorem failSegment_table (c : FaultCode) (off : Nat) (tb : TableExact s) : TableExact (failSegment ch c off s) := by
  obtain ⟨_, _, _, h⟩ := failSegment_only s ch c off
  have o := failSegment_sameOut (s := s) (ch := ch) c off
  exact tb.same (by rw [h]) o (fun p => by rw [h]; rfl)

theorem failEntry_table {i : Slot} {e : Entry} (c : FaultCode) (tb : TableExact s) (he : s.entry i = some e) : TableExact
    (failEntry c i e s) := by
  simp only [failEntry]; split
  · exact freeEntry_table tb he
  · exact failSegment_table _ _ (freeEntry_table tb he)

theorem failSegment_rt (c : FaultCode) (off : Nat) : (failSegment ch c off s).rt = s.rt ∧ (failSegment ch c off s).peers = s.peers := by
  obtain ⟨_, _, _, h⟩ := failSegment_only s ch c off
  rw [h]; exact ⟨rfl, rfl⟩

theorem failEntry_rt (c : FaultCode) (i : Slot) (e : Entry) : (failEntry c i e s).rt = (freeEntry i e s).rt
    ∧ (failEntry c i e s).peers = (freeEntry i e s).peers := by
  simp only [failEntry]; split
  · exact ⟨rfl, rfl⟩
  · exact failSegment_rt _ _

/-- Entries freed one after another, each as it stands. -/
theorem fold_channels (c : FaultCode) (l : List (Slot × Entry)) (nd : (l.map Prod.fst).Nodup) (P : State → Prop)
    (each : ∀ u (x : Slot × Entry), P u → u.entry x.1 = some x.2 → P (failEntry c x.1 x.2 u)) :
    ∀ s : State, P s → (∀ x ∈ l, s.entry x.1 = some x.2) → P (l.foldl (fun s x => failEntry c x.1 x.2 s) s) := by
  induction l with
  | nil => exact fun s h _ => h
  | cons x l ih =>
    intro s h he
    rw [List.map_cons, List.nodup_cons] at nd
    refine ih nd.2 _ (each s x h (he x (by simp))) fun y m => ?_
    unfold State.entry; rw [(failEntry_rt c x.1 x.2).1]
    have := freeEntry_entry (s := s) x.1 y.1 x.2
    unfold State.entry at this; rw [this, if_neg]
    · exact he y (by simp [m])
    · intro e; exact nd.1 (by rw [← e]; exact List.mem_map_of_mem m)

theorem heldEntries_fst (o : OrderListsHeld s) : (heldEntries s).map Prod.fst = s.rt.order := by
  unfold heldEntries
  have : ∀ l : List Slot, (∀ i ∈ l, (s.entry i).isSome = true) →
      (l.filterMap fun i => (s.entry i).map fun e => (i, e)).map Prod.fst = l := by
    intro l h
    induction l with
    | nil => rfl
    | cons i l ih =>
      obtain ⟨e, he⟩ := Option.isSome_iff_exists.1 (h i (by simp))
      simp only [List.filterMap_cons, he, Option.map_some, List.map_cons, ih (fun j m => h j (by simp [m]))]
  exact this _ fun i m => (o.2 i).1 m

theorem entriesFor_nodup (o : OrderListsHeld s) (p : Station) : ((entriesFor s p).map Prod.fst).Nodup := by
  unfold entriesFor
  have : (((heldEntries s).filter fun x => decide (x.2.target = p)).map Prod.fst).Sublist s.rt.order := by
    rw [← heldEntries_fst o]; exact List.filter_sublist.map _
  exact this.nodup o.1

theorem mem_entriesFor {p : Station} {x : Slot × Entry} (m : x ∈ entriesFor s p) : s.entry x.1 = some x.2 ∧ x.2.target = p := by
  unfold entriesFor heldEntries at m
  rw [List.mem_filter, List.mem_filterMap] at m
  obtain ⟨⟨i, _, hi⟩, t⟩ := m
  obtain ⟨e, he, rfl⟩ := Option.map_eq_some_iff.1 hi
  exact ⟨he, by simpa using t⟩

/-- What each failing entry keeps, failAll keeps. -/
theorem failAll_ind (P : State → Prop) (p : Station) (c : FaultCode) (o : OrderListsHeld s) (h : P s)
    (each : ∀ u (x : Slot × Entry), P u → u.entry x.1 = some x.2 → P (failEntry c x.1 x.2 u)) : P (failAll p c s) :=
  fold_channels c _ (entriesFor_nodup o p) P each s h fun _ m => (mem_entriesFor m).1

/-- Entries that fail one after another leave all in order. -/
theorem failAll_channels (p : Station) (c : FaultCode) (h : ChannelsInOrder s) (tb : TableExact s) :
    ChannelsInOrder (failAll p c s) ∧ TableExact (failAll p c s) :=
  failAll_ind (fun s => ChannelsInOrder s ∧ TableExact s) p c tb.1 ⟨h, tb⟩ fun _ _ hu he =>
    ⟨failEntry_channels c hu.1 hu.2 he, failEntry_table c hu.2 he⟩

end Sys2Proof.Machine
end

