-- ==== Sys2Proof/Laws/InOrder.lean ====
section
/-! SUPPORT. The operations behind the commands keep channels, held list and request table in order. -/

namespace Sys2Proof.Machine

variable {s t u : State} {ch k : ChannelNo}

/-- InOrder: orders and table. -/
abbrev InOrder (s : State) : Prop := ChannelsInOrder s ∧ TableExact s

/-- What of an entry the counts depend on. -/
def Entry.key (e : Entry) : ChannelNo × Bool × Station := (e.channel, e.orphan, e.target)

theorem TableExact.keys (h : TableExact s) (order : t.rt.order = s.rt.order)
    (key : ∀ i, (t.entry i).map Entry.key = (s.entry i).map Entry.key)
    (out : SameOut s t) (p : ∀ p, (t.peer p).tx.held = (s.peer p).tx.held) : TableExact t := by
  have cnt : ∀ g : ChannelNo × Bool × Station → Bool, entryCount t (fun e => g e.key) = entryCount s (fun e => g e.key) := by
    intro g; unfold entryCount
    refine List.countP_congr fun i _ => ?_
    have := congrArg (Option.any g) (key i)
    rw [Option.any_map, Option.any_map] at this
    exact Bool.eq_iff_iff.1 this
  refine ⟨⟨order ▸ h.1.1, fun i => ?_⟩, fun c => ?_, fun q => ?_⟩
  · have := congrArg Option.isSome (key i)
    rw [Option.isSome_map, Option.isSome_map] at this
    rw [order, this]; exact h.1.2 i
  · rw [out c, h.2.1 c]; exact (cnt fun x => decide (x.1 = c) && !x.2.1).symm
  · rw [p q, h.2.2 q]; exact (cnt fun x => decide (x.2.2 = q)).symm

theorem TableExact.set {i : Slot} {e f : Entry} (h : TableExact s) (he : s.entry i = some e) (k : f.key = e.key) : TableExact
    (setEntry i (some f) s) := by
  refine h.keys rfl (fun j => ?_) (fun _ => rfl) (fun _ => rfl)
  rw [entry_setEntry]; split
  · rename_i x; rw [x, he]; simp [k]
  · rfl

theorem TableExact.tx (h : TableExact s) (p : Station) (f : TransmitPart → TransmitPart) (x : (f (s.peer p).tx).held = (s.peer p).tx.held) :
    TableExact (modTx p f s) := by
  refine h.same rfl (fun _ => rfl) (fun q => ?_)
  rw [peer_modTx]; split
  · rename_i e; rw [e]; exact x
  · rfl

theorem ChannelsInOrder.noTurn (h : ChannelsInOrder s) : ChannelsInOrder (setTurn none s) :=
  ⟨fun k => ⟨(h.1 k).1, (h.1 k).2.1, nofun, (h.1 k).2.2.2⟩, h.2⟩

theorem ChannelsInOrder.running (h : ChannelsInOrder s) (st : (s.channel ch).state = .active) (i : (s.channel ch).issuable = true) :
    Running ch 0 s := by
  have w := h.1 ch
  refine ⟨fun v m => ?_, fun v m e => ?_, .inl st, w.2.2.1, fun x => by have := w.2.2.2.2.2 (.inl x); omega⟩
  · cases d : v.isData
    · have := (w.2.1 v m d).2.2.1 st; rw [i] at this; cases this
    · rfl
  · have := w.2.2.2.1 v m e; rw [st] at this; cases this

theorem passSegment_pos (d : Descriptor) : ∃ l o a n, passSegment ch d s = modChannel ch
    (fun c => { c with line := l, offset := o, allIssued := a })
    { s with draws := n } := by
  simp only [passSegment]; split
  · exact ⟨_, _, _, _, rfl⟩
  · exact ⟨_, _, (s.channel ch).allIssued, s.draws, rfl⟩

theorem Running.pass {n : Nat} (d : Descriptor) (r : Running ch n s) (t : turnOf s ch = false) : Running ch n (passSegment ch d s) := by
  obtain ⟨l, o, a, m, h⟩ := passSegment_pos (s := s) (ch := ch) d
  rw [h]
  generalize hf : (fun c : Channel => { c with line := l, offset := o, allIssued := a }) = f
  have self : (modChannel ch f { s with draws := m }).channel ch = { s.channel ch with line := l, offset := o, allIssued := a } := by
    rw [channel_modChannel_self, ← hf]; rfl
  refine ⟨r.data, r.wait, by rw [self]; exact r.st, fun x => ?_, fun x => ?_⟩
  · have : turnOf s ch = true := x
    rw [t] at this; cases this
  · rw [self] at x ⊢; exact r.sum x

theorem passSegment_of (d : Descriptor) : OnlyOf ch s (passSegment ch d s) := by
  obtain ⟨l, o, a, m, h⟩ := passSegment_pos (s := s) (ch := ch) d
  rw [h]
  exact OnlyOf.trans (t := { s with draws := m }) ⟨fun _ _ => rfl, fun _ _ => rfl, fun _ _ => rfl, fun _ _ => Iff.rfl, rfl, rfl⟩ (.mod _)

theorem lowestFree_none {i : Slot} (h : lowestFree s = some i) : s.entry i = none := by
  have := List.find?_some h; simpa using this

theorem takeEntry_channels (d : Descriptor) (k : RequestKind) (p : Station) (seg : Segment) (b : List Byte) (o : OthersInOrder ch s)
    (r : Running ch 0 s) (t : turnOf s ch = false) : ChannelsInOrder (takeEntry ch d k p seg b s) := by
  unfold takeEntry; split
  · exact r.all o
  · rename_i i hi
    simp only []
    generalize he : Entry.mk ch false k p _ _ _ _ _ _ _ _ _ _ = e
    generalize hs2 : modTx p _ (setOrder _ (setEntry i (some e) s)) = s2
    have c2 : ∀ k, s2.channel k = s.channel k := fun k => by rw [← hs2]; rfl
    have w2 : ∀ k, worksOf s2 k = worksOf s k := fun k => by rw [← hs2]; rfl
    have t2 : ∀ k, turnOf s2 k = turnOf s k := fun k => by rw [← hs2]; rfl
    have n2 : s2.nq = s.nq := by rw [← hs2]; rfl
    have o2 : OnlyOf ch s s2 := ⟨fun k _ => c2 k, fun k _ => w2 k, fun k _ => t2 k, fun v _ => by rw [n2], by rw [← hs2]; rfl,
        by rw [← hs2]; rfl⟩
    generalize hf : (fun c : Channel => { c with outstanding := c.outstanding + 1, issued := c.issued + 1 }) = f
    have self : (modChannel ch f s2).channel ch = { s.channel ch with outstanding := (s.channel ch).outstanding + 1, issued := (s.channel ch).issued + 1 } := by
      rw [channel_modChannel_self, ← hf, c2]
    have o3 : OthersInOrder ch (placeRequest i e b (modChannel ch f s2)) :=
      (o.next (o2.trans (.mod f))).next ⟨fun _ _ => rfl, fun _ _ => rfl, fun _ _ => rfl, fun _ _ => Iff.rfl, rfl, rfl⟩
    have r3 : Running ch 0 (placeRequest i e b (modChannel ch f s2)) := by
      have chan : (placeRequest i e b (modChannel ch f s2)).channel ch = _ := self
      have wk : worksOf (placeRequest i e b (modChannel ch f s2)) ch = worksOf s ch := w2 ch
      refine ⟨fun v m => r.data v (wk ▸ m), fun v m => r.wait v (n2 ▸ m), by rw [chan]; exact r.st, fun x => ?_, fun x => ?_⟩
      · have : turnOf s ch = true := (t2 ch).symm.trans x
        rw [t] at this; cases this
      · rw [chan] at x ⊢; rw [wk]; have := r.sum x; simp only []; omega
    exact (r3.pass d ((t2 ch).trans t)).all (o3.next (passSegment_of d))

theorem takeEntry_table (d : Descriptor) (k : RequestKind) (p : Station) (seg : Segment) (b : List Byte) (tb : TableExact s) :
    TableExact (takeEntry ch d k p seg b s) := by
  unfold takeEntry; split
  · exact tb
  · rename_i i hi
    have free := lowestFree_none hi
    simp only []
    generalize he : Entry.mk ch false k p _ _ _ _ _ _ _ _ _ _ = e
    have ec : e.channel = ch := by rw [← he]
    have eo : e.orphan = false := by rw [← he]
    have et : e.target = p := by rw [← he]
    have cnt : ∀ test, entryCount (setEntry i (some e) s) test = entryCount s test + (if test e then 1 else 0) := by
      intro test
      have := count_setEntry (s := s) i (some e) test
      rw [free] at this; simpa using this
    generalize hs3 : modChannel ch _ (modTx p _ (setOrder _ (setEntry i (some e) s))) = s3
    have ent : ∀ j, s3.entry j = (setEntry i (some e) s).entry j := fun j => by rw [← hs3]; rfl
    have ord : s3.rt.order = s.rt.order ++ [i] := by rw [← hs3]; rfl
    have cnt3 : ∀ test, entryCount s3 test = entryCount s test + (if test e then 1 else 0) := fun test => by
      rw [← cnt]; unfold entryCount; simp only [ent]
    have chan : ∀ c, (s3.channel c).outstanding = (s.channel c).outstanding + (if c = ch then 1 else 0) := by
      intro c; rw [← hs3, channel_modChannel]; split
      · rename_i x; subst x; rfl
      · rfl
    have held : ∀ q, (s3.peer q).tx.held = (s.peer q).tx.held + (if q = p then 1 else 0) := by
      intro q; rw [← hs3]
      show ((modTx p (fun t => { t with nextSeq := t.nextSeq + 1, held := t.held + 1, syncNeeded := false }) s).peer q).tx.held = _
      rw [peer_modTx]; split
      · rename_i x; subst x; rfl
      · rfl
    have ok : TableExact s3 := by
      refine ⟨⟨?_, fun j => ?_⟩, fun c => ?_, fun q => ?_⟩
      · rw [ord, List.nodup_append]
        refine ⟨tb.1.1, by simp, fun a ha b hb x => ?_⟩
        simp at hb; subst hb; subst x
        have := (tb.1.2 a).1 ha; rw [free] at this; cases this
      · rw [ord, ent, List.mem_append, tb.1.2, entry_setEntry]
        by_cases x : j = i <;> simp [x, free]
      · rw [chan, cnt3, tb.2.1 c]
        by_cases x : c = ch
        · subst x; simp [ec, eo]
        · simp [x, ec, Ne.symm x]
      · rw [held, cnt3, tb.2.2 q]
        by_cases x : q = p
        · subst x; simp [et]
        · simp [x, et, Ne.symm x]
    obtain ⟨l, o, a, m, h⟩ := passSegment_pos (s := placeRequest i e b s3) (ch := ch) d
    refine ok.same (by rw [h]; rfl) (SameOut.trans (t := placeRequest i e b s3) (.ce rfl) (passSegment_sameOut d)) (fun q => by rw [h]; rfl)

theorem failInTurn_channels (c : FaultCode) (h : ChannelsInOrder s) (st : (s.channel ch).state = .active)
    (i : (s.channel ch).issuable = true)
    (t : turnOf s ch = false) : ChannelsInOrder (failInTurn ch c s) := by
  simp only [failInTurn]; split
  · exact h
  · exact ((h.running st i).pass _ t).fail ((h.others (by rw [st]; simp)).next (passSegment_of _)) _ _

theorem failInTurn_sameOut (c : FaultCode) : SameOut s (failInTurn ch c s) := by
  simp only [failInTurn]; split
  · exact .refl s
  · exact (passSegment_sameOut _).trans (failSegment_sameOut _ _)

theorem passSegment_rt (d : Descriptor) : (passSegment ch d s).rt = s.rt ∧ (passSegment ch d s).peers = s.peers := by
  obtain ⟨l, o, a, m, h⟩ := passSegment_pos (s := s) (ch := ch) d
  rw [h]; exact ⟨rfl, rfl⟩

theorem failInTurn_table (c : FaultCode) (tb : TableExact s) : TableExact (failInTurn ch c s) := by
  refine tb.same ?_ (failInTurn_sameOut c) (fun p => ?_) <;> simp only [failInTurn] <;> split
  · rfl
  · rw [(failSegment_rt _ _).1, (passSegment_rt _).1]
  · rfl
  · unfold State.peer; rw [(failSegment_rt _ _).2, (passSegment_rt _).2]

theorem finishChannelTurn_inOrder (p : Station) (b : List Byte) (h : InOrder s) (st : (s.channel ch).state = .active)
    (i : (s.channel ch).issuable = true) : InOrder (finishChannelTurn ch p b s) := by
  have h1 := h.1.noTurn
  have tb : TableExact (setTurn none s) := h.2.same rfl (fun _ => rfl) (fun _ => rfl)
  simp only [finishChannelTurn]; split
  · exact ⟨h1, tb⟩
  · split
    · exact ⟨h1, tb⟩
    · split
      · exact ⟨takeEntry_channels _ _ _ _ _ (h1.others (by show (s.channel ch).state ≠ _; rw [st]; simp)) (h1.running st i) rfl,
          takeEntry_table _ _ _ _ _ tb⟩
      · exact ⟨failInTurn_channels _ h1 st i rfl, failInTurn_table _ tb⟩

theorem finishResend_inOrder (i : Slot) (b : List Byte) (h : InOrder s) : InOrder (finishResend i b s) := by
  have h1 := h.1.noTurn
  have tb : TableExact (setTurn none s) := h.2.same rfl (fun _ => rfl) (fun _ => rfl)
  simp only [finishResend]; split
  · exact ⟨h1, tb⟩
  · rename_i e he
    refine ⟨h1.same rfl rfl rfl rfl rfl rfl, ?_⟩
    refine TableExact.same (s := modTx e.target (fun t => { t with syncNeeded := false }) (setEntry i (some _) (setTurn none s)))
      (TableExact.tx (tb.set he ?_) _ _ rfl) rfl (fun _ => rfl) (fun _ => rfl)
    rfl

theorem failEntry_inOrder {i : Slot} {e : Entry} (c : FaultCode) (h : InOrder s) (he : s.entry i = some e) : InOrder (failEntry c i e s) :=
  ⟨failEntry_channels c h.1 h.2 he, failEntry_table c h.2 he⟩

theorem InOrder.tx (h : InOrder s) (p : Station) (f : TransmitPart → TransmitPart) (x : (f (s.peer p).tx).held = (s.peer p).tx.held) :
    InOrder (modTx p f s) := ⟨h.1.same rfl rfl rfl rfl rfl rfl, h.2.tx p f x⟩

theorem InOrder.same (h : InOrder s) (ce : t.ce.channels = s.ce.channels) (held : t.ce.held = s.ce.held) (turn : t.ce.turn = s.ce.turn)
    (arb : t.arb.ce = s.arb.ce) (ev : t.ev.events = s.ev.events) (w : t.nq.waiters = s.nq.waiters) (rt : t.rt = s.rt)
    (p : ∀ p, (t.peer p).tx.held = (s.peer p).tx.held) : InOrder t :=
  ⟨h.1.same ce held turn arb ev w, h.2.same rt (.ce ce) p⟩

theorem failResend_inOrder (i : Slot) (h : InOrder s) : InOrder (failResend i s) := by
  have h1 : InOrder (setTurn none s) := ⟨h.1.noTurn, h.2.same rfl (fun _ => rfl) (fun _ => rfl)⟩
  simp only [failResend]; split
  · exact h1
  · rename_i e he
    exact (failEntry_inOrder _ h1 he).tx _ _ rfl

/-- What a turn needs of its channel. -/
def TurnFits (s : State) : Turn → Prop
  | .channel ch _ => (s.channel ch).state = .active ∧ (s.channel ch).issuable = true
  | .resend _ => True

theorem ChannelsInOrder.fits {x : Turn} (h : ChannelsInOrder s) (e : s.ce.turn = some x) : TurnFits s x := by
  cases x with
  | resend i => trivial
  | channel ch p => exact (h.1 ch).2.2.1 (by rw [e]; simp [Turn.isOf])

theorem finishTurn_inOrder {x : Turn} (b : List Byte) (h : InOrder s) (f : TurnFits s x) : InOrder (finishTurn x b s) := by
  cases x with
  | resend i => exact finishResend_inOrder i b h
  | channel ch p => exact finishChannelTurn_inOrder p b h f.1 f.2

theorem failTurn_inOrder {x : Turn} (h : InOrder s) (f : TurnFits s x) : InOrder (failTurn x s) := by
  cases x with
  | resend i => exact failResend_inOrder i h
  | channel ch p =>
    exact ⟨failInTurn_channels _ h.1.noTurn f.1 f.2 rfl, failInTurn_table _ (h.2.same rfl (fun _ => rfl) (fun _ => rfl))⟩

theorem worksOf_askPayload (a : Access) (r : RangeRead) : worksOf (askCe a (.payload r) s) k = worksOf s k := by
  rw [worksOf_askCe]; simp [CeWork.owner]

theorem InOrder.payload (a : Access) (r : RangeRead) (h : InOrder s) : InOrder (askCe a (.payload r) s) := by
  refine ⟨⟨fun k => ?_, h.1.2⟩, h.2.same rfl (fun _ => rfl) (fun _ => rfl)⟩
  unfold WorkInOrderOf; rw [worksOf_askPayload]; exact h.1.1 k

theorem beginTurn_inOrder {x : Turn} (a n : Nat) (h : InOrder s) (f : TurnFits s x) : InOrder (beginTurn x a n s) := by
  unfold beginTurn; split
  · exact finishTurn_inOrder _ h f
  · refine InOrder.payload _ _ ⟨⟨fun k => ⟨(h.1.1 k).1, (h.1.1 k).2.1, fun y => ?_, (h.1.1 k).2.2.2⟩, h.1.2⟩,
      h.2.same rfl (fun _ => rfl) (fun _ => rfl)⟩
    cases x with
    | resend i => cases y
    | channel c p =>
      have : c = k := by simpa [setTurn, Turn.isOf] using y
      subst this; exact f

theorem eligible_fits (h : eligible s ch = true) : (s.channel ch).state = .active ∧ (s.channel ch).issuable = true := by
  simp only [eligible] at h
  split at h
  · cases h
  · rename_i d hd
    split at h
    · cases h
    · simp only [Bool.and_eq_true, decide_eq_true_eq] at h
      exact ⟨h.1.1.1.1, by simp [Channel.issuable, hd, h.1.1.1.2]⟩

theorem chooseChannel_eligible (h : chooseChannel s = some ch) : eligible s ch = true := by
  have cls : ∀ k, chooseInClass s k = some ch → eligible s ch = true := by
    intro k h; have := List.find?_some h; simp at this; exact this.2
  unfold chooseChannel at h
  rw [Option.or_eq_some_iff] at h
  rcases h with h | ⟨-, h⟩
  · exact cls _ h
  · rw [Option.or_eq_some_iff] at h
    rcases h with h | ⟨-, h⟩ <;> exact cls _ h

/-- One turn of the issue engine (R45). -/
theorem takeTurn_inOrder (h : InOrder s) : InOrder (takeTurn s) := by
  unfold takeTurn; split
  · exact h
  · split
    · exact beginTurn_inOrder _ _ h trivial
    · split
      · rename_i c hc
        have f := eligible_fits (chooseChannel_eligible hc)
        simp only [beginChannelTurn]; split
        · exact h
        · split
          · exact beginTurn_inOrder _ _ (InOrder.same h rfl rfl rfl rfl rfl rfl rfl (fun _ => rfl)) f
          · exact h
      · exact h

theorem payloadWord_inOrder (r : RangeRead) (x : StoreOutcome) (h : InOrder s) : InOrder (payloadWord r x s) := by
  unfold payloadWord; split
  · exact h
  · rename_i t ht
    split
    · exact failTurn_inOrder h (h.1.fits ht)
    · simp only []; split
      · exact finishTurn_inOrder _ h (h.1.fits ht)
      · exact h.payload _ _

theorem TableExact.chain (h : TableExact s) (o : OnlyChain s t) (out : SameOut s t) : TableExact t := by
  obtain ⟨_, _, _, rfl⟩ := o
  exact h.same rfl out (fun _ => rfl)
theorem TableExact.notice (h : TableExact s) (o : OnlyNotice s t) (out : SameOut s t) : TableExact t := by
  obtain ⟨_, _, _, _, rfl⟩ := o
  exact h.same rfl out (fun _ => rfl)

theorem fetchWord_table (a : Addr) (g : List Byte) (x : StoreOutcome) (h : TableExact s) : TableExact (fetchWord ch a g x s) := by
  unfold fetchWord; split
  · exact h.chain (failFetch_only _ _ _ _) (failFetch_sameOut _ _)
  · rename_i bytes _
    simp only []; split
    · exact h.same rfl (fun _ => rfl) (fun _ => rfl)
    · simp only [fetched]; split
      · exact h.chain (failFetch_only _ _ _ _) (failFetch_sameOut _ _)
      · simp only [keepDescriptor]
        have h1 : TableExact (modChannel ch (fun c => { c.restarted with current := some ⟨a, g ++ bytes⟩ }) s) :=
          h.same rfl (.mod _ rfl) (fun _ => rfl)
        split
        · exact h1.notice (startAwait_only _ _ _) (startAwait_sameOut _)
        · exact h1

theorem getWord_table (g : RangeWrite) (off : Nat) (x : StoreOutcome) (h : TableExact s) : TableExact (getWord ch g off x s) := by
  simp only [getWord]; split
  · exact h.same rfl (fun _ => rfl) (fun _ => rfl)
  · split
    · exact h.chain (failSegment_only _ _ _ _) (failSegment_sameOut _ _)
    · exact h.chain (segmentDone_only _ _) segmentDone_sameOut

theorem valueWord_table (g : RangeWrite) (x : StoreOutcome) (h : TableExact s) : TableExact (valueWord ch g x s) := by
  simp only [valueWord]; split
  · exact h.same rfl (fun _ => rfl) (fun _ => rfl)
  · split
    · exact h.chain (failSegment_only _ _ _ _) (failSegment_sameOut _ _)
    · exact h.chain (startCompletion_only _ _) startCompletion_sameOut

/-- The channel engine acts on an outcome. -/
theorem actCe_inOrder (w : CeWork) (x : StoreOutcome) (h : ChannelsInOrder s) (tb : TableExact t) (p : Popped w s t) : InOrder
    (actCe w x t) := by
  have nodata : ∀ (ch : ChannelNo), w.owner = some ch → w.isData = false → OthersInOrder ch t ∧ AtRest ch t
      ∧ ((t.channel ch).state = .active → (t.channel ch).issuable = false ∧ (t.channel ch).issued = (t.channel ch).completed)
      ∧ (w.isFaultStatus = false → (t.channel ch).state = .active) := fun ch own d =>
    ⟨p.others own h, p.single own d h⟩
  have nobody : w.owner = none → ChannelsInOrder t := by
    intro n
    have wk : ∀ k, worksOf t k = worksOf s k := fun k => by have := p.works k; rw [n] at this; simpa using this.symm
    refine ⟨fun k => ?_, ?_⟩
    · have := h.1 k
      unfold WorkInOrderOf at this ⊢
      rw [wk, p.channel, p.channels, p.nq]; exact this
    · have := h.2
      unfold HeldListInOrder State.channel at this ⊢
      rw [p.channels, p.ev]; exact this
  unfold actCe
  split
  · rename_i ch a g
    obtain ⟨o, r, e, st⟩ := nodata ch rfl rfl
    exact ⟨fetchWord_channels a g x o r (st rfl) (e (st rfl)).1 (e (st rfl)).2, fetchWord_table _ _ _ tb⟩
  · exact payloadWord_inOrder _ _ ⟨nobody rfl, tb⟩
  · rename_i ch g off
    exact ⟨getWord_channels g off x (p.running rfl rfl h) (p.others rfl h), getWord_table _ _ _ tb⟩
  · rename_i ch
    split
    · exact ⟨(p.running (ch := ch) rfl rfl h).fail (p.others rfl h) _ _, tb.chain (failSegment_only _ _ _ _) (failSegment_sameOut _ _)⟩
    · exact ⟨segmentDone_channels (p.running rfl rfl h) (p.others rfl h), tb.chain (segmentDone_only _ _) segmentDone_sameOut⟩
  · rename_i ch g
    obtain ⟨o, r, e, st⟩ := nodata ch rfl rfl
    exact ⟨valueWord_channels g x o r (st rfl) (e (st rfl)).1 (e (st rfl)).2, valueWord_table _ _ tb⟩
  · rename_i ch
    obtain ⟨o, r, e, st⟩ := nodata ch rfl rfl
    have e := e (st rfl)
    refine ⟨advanceEnded_channels x _ o r (st rfl) e.1 e.2 fun d => ?_, ?_⟩
    · unfold advanceRemote; split
      · exact channels_ask _ _ o r rfl rfl (.inl ⟨st rfl, e⟩)
      · exact channels_ask _ _ o r rfl rfl (.inl ⟨st rfl, e⟩)
    · unfold advanceEnded; split
      · exact tb
      · split
        · exact tb.same rfl (fun _ => rfl) (fun _ => rfl)
        · exact tb.chain (advanceRemote_only _ _ _) (advanceRemote_sameOut _)
  · rename_i ch
    obtain ⟨o, r, e, st⟩ := nodata ch rfl rfl
    have e := e (st rfl)
    refine ⟨advanceEnded_channels x _ o r (st rfl) e.1 e.2 fun d => channels_ask _ _ o r rfl rfl (.inl ⟨st rfl, e⟩), ?_⟩
    unfold advanceEnded; split
    · exact tb
    · split <;> exact tb.same rfl (fun _ => rfl) (fun _ => rfl)
  · rename_i ch
    obtain ⟨o, r, e, st⟩ := nodata ch rfl rfl
    have e := e (st rfl)
    split
    · exact ⟨reportFault_channels _ o r, tb.chain (reportFault_only _ _ _) (reportFault_sameOut _)⟩
    · exact ⟨finishDescriptor_channels o r (st rfl) e.2, tb.chain (finishDescriptor_only _ _) finishDescriptor_sameOut⟩
  · rename_i ch f
    obtain ⟨o, r, e, st⟩ := nodata ch rfl rfl
    exact ⟨reportFault_channels _ o r, tb.chain (reportFault_only _ _ _) (reportFault_sameOut _)⟩
  · exact ⟨nobody rfl, tb⟩

/-- What touches neither the channel engine, its accesses, the events, the waiters, nor the table and held counts. -/
structure Aside (s t : State) : Prop where
  ce : t.ce = s.ce
  arb : t.arb.ce = s.arb.ce
  ev : t.ev.events = s.ev.events
  w : t.nq.waiters = s.nq.waiters
  rt : t.rt = s.rt
  p : ∀ p, (t.peer p).tx.held = (s.peer p).tx.held

theorem Aside.refl (s : State) : Aside s s := ⟨rfl, rfl, rfl, rfl, rfl, fun _ => rfl⟩
theorem Aside.trans (a : Aside s t) (b : Aside t u) : Aside s u :=
  ⟨b.ce.trans a.ce, b.arb.trans a.arb, b.ev.trans a.ev, b.w.trans a.w, b.rt.trans a.rt, fun q => (b.p q).trans (a.p q)⟩
theorem Aside.inOrder (a : Aside s t) (h : InOrder s) : InOrder t :=
  h.same (by rw [a.ce]) (by rw [a.ce]) (by rw [a.ce]) a.arb a.ev a.w a.rt a.p

theorem grantNext_aside : Aside s (grantNext s) := by
  unfold grantNext; split
  · exact .refl s
  · split
    · exact .refl s
    · exact ⟨rfl, rfl, rfl, rfl, rfl, fun _ => rfl⟩
theorem settle_aside : Aside s (settle s) := by
  unfold settle
  refine Aside.trans (t := loadLeaving s) ?_ grantNext_aside
  obtain ⟨_, h⟩ := loadLeaving_only s
  rw [h]; exact ⟨rfl, rfl, rfl, rfl, rfl, fun _ => rfl⟩

theorem happening_inOrder {f : State → State} (h : InOrder s) (e : happening f s = .next t) (hf : InOrder (f s)) : InOrder t := by
  unfold happening at e
  split at e <;> cases e
  · exact h
  · exact settle_aside.inOrder hf

theorem endExecution_aside (x : Execution) (o : CacheOutcome) (a : Answer) : Aside s (endExecution x o a s) := by
  simp only [endExecution]; split
  · exact ⟨rfl, rfl, rfl, rfl, rfl, fun _ => rfl⟩
  · refine ⟨rfl, rfl, rfl, rfl, rfl, fun q => ?_⟩
    show ((fillOutcome x.sender o (modService (fun u => { u with execution := none }) s)).peer q).tx.held = _
    unfold fillOutcome; rw [peer_modRx]; split
    · rename_i e; rw [e]; rfl
    · rfl

theorem actSu_aside (w : SuWork) (x : StoreOutcome) : Aside s (actSu w x s) := by
  unfold actSu; split
  · exact .refl s
  · split
    · simp only [remoteWrite]; split
      · exact ⟨rfl, rfl, rfl, rfl, rfl, fun _ => rfl⟩
      · split <;> exact endExecution_aside _ _ _
    · unfold remoteRead; split
      · exact endExecution_aside _ _ _
      · simp only []; split
        · exact endExecution_aside _ _ _
        · exact ⟨rfl, rfl, rfl, rfl, rfl, fun _ => rfl⟩
    · unfold remoteSwap; split <;> exact endExecution_aside _ _ _

theorem actHp_aside (w : HpWork) (x : StoreOutcome) : Aside s (actHp w x s) := by
  unfold actHp; split
  · simp only [commitWord]; split <;> exact ⟨rfl, rfl, rfl, rfl, rfl, fun _ => rfl⟩
  · unfold streamWord; split <;> exact ⟨rfl, rfl, rfl, rfl, rfl, fun _ => rfl⟩
  · unfold streamWord; split <;> exact ⟨rfl, rfl, rfl, rfl, rfl, fun _ => rfl⟩
  · exact .refl s

theorem endAccess_inOrder (h : InOrder s) : InOrder (endAccess s) := by
  unfold endAccess; split
  · exact (Aside.trans ⟨rfl, rfl, rfl, rfl, rfl, fun _ => rfl⟩ (actHp_aside _ _)).inOrder h
  · rename_i a w rest hg hc
    exact actCe_inOrder w _ h.1 (h.2.same rfl (fun _ => rfl) (fun _ => rfl)) (madeAccess_popped (by assumption))
  · exact (Aside.trans ⟨rfl, rfl, rfl, rfl, rfl, fun _ => rfl⟩ (actSu_aside _ _)).inOrder h
  · exact h

/-! ## Replies -/

theorem modTx_aside (p : Station) (f : TransmitPart → TransmitPart) (x : (f (s.peer p).tx).held = (s.peer p).tx.held) : Aside s
    (modTx p f s) := by
  refine ⟨rfl, rfl, rfl, rfl, rfl, fun q => ?_⟩
  rw [peer_modTx]; split
  · rename_i e; rw [e]; exact x
  · rfl
theorem setPeer_aside (p : Station) (r : Peer) (x : r.tx.held = (s.peer p).tx.held) : Aside s (setPeer p r s) := by
  refine ⟨rfl, rfl, rfl, rfl, rfl, fun q => ?_⟩
  rw [peer_setPeer]; split
  · rename_i e; rw [e]; exact x
  · rfl
theorem setStatus_aside (p : Station) (v : PeerStatus) : Aside s (setStatus p v s) := setPeer_aside p _ rfl
theorem flagPeer_aside (p : Station) : Aside s (flagPeer p s) := ⟨rfl, rfl, rfl, rfl, rfl, fun _ => rfl⟩
theorem needSync_aside (p : Station) : Aside s (needSync p s) := modTx_aside _ _ rfl
theorem stopBackoff_aside (p : Station) : Aside s (stopBackoff p s) := modTx_aside _ _ rfl
theorem askPresence_aside : Aside s (askPresence s) := by
  unfold askPresence; split
  · exact ⟨rfl, rfl, rfl, rfl, rfl, fun _ => rfl⟩
  · exact .refl s
theorem hearFrom_aside (p : Station) : Aside s (hearFrom p s) := by
  unfold hearFrom; split
  · exact ((setStatus_aside p _).trans (needSync_aside p)).trans (flagPeer_aside p)
  · exact .refl s

theorem declareUnreachable_inOrder (p : Station) (h : InOrder s) : InOrder (declareUnreachable p s) :=
  (((stopBackoff_aside p).trans (needSync_aside p)).trans ((setStatus_aside p _).trans (flagPeer_aside p))).inOrder
    (failAll_channels p _ h.1 h.2)

theorem set_inOrder {i : Slot} {e f : Entry} (h : InOrder s) (he : s.entry i = some e) (k : f.key = e.key) : InOrder
    (setEntry i (some f) s) :=
  ⟨h.1.same rfl rfl rfl rfl rfl rfl, h.2.set he k⟩

theorem actOnNak_inOrder {i : Slot} {e : Entry} (c : NakCode) (h : InOrder s) (he : s.entry i = some e) : InOrder (actOnNak i e c s) := by
  unfold actOnNak; split
  · exact failEntry_inOrder _ h he
  · exact failEntry_inOrder _ h he
  · exact failEntry_inOrder _ h he
  · exact (((stopBackoff_aside _).trans (needSync_aside _)).trans askPresence_aside).inOrder (failAll_channels _ _ h.1 h.2)
  · unfold nakSequence; split
    · exact set_inOrder h he rfl
    · split
      · exact (needSync_aside _).inOrder (set_inOrder h he rfl)
      · exact declareUnreachable_inOrder _ h
  · unfold nakBusy; split
    · exact (modTx_aside _ _ rfl).inOrder (set_inOrder h he rfl)
    · exact (needSync_aside _).inOrder (failEntry_inOrder _ h he)
  · exact h
  · exact h

theorem InOrder.orphan {i : Slot} {e : Entry} (h : InOrder s) (he : s.entry i = some e) (o : e.orphan = true) : InOrder (freeEntry i e s) :=
  ⟨freeEntry_orphan h.1 o, freeEntry_table h.2 he⟩

theorem drawFree_of (b : List Byte) (n : Nat) : OnlyOf ch s (drawFree b n s) :=
  ⟨fun _ _ => rfl, fun _ _ => rfl, fun _ _ => rfl, fun _ _ => Iff.rfl, rfl, rfl⟩
theorem Running.draw {m : Nat} (b : List Byte) (n : Nat) (r : Running ch m s) : Running ch m (drawFree b n s) :=
    ⟨r.data, r.wait, r.st, r.turn, r.sum⟩

theorem actOnReply_inOrder {i : Slot} {e : Entry} (f : Frame) (h : InOrder s) (he : s.entry i = some e) : InOrder (actOnReply i e f s) := by
  have ack : InOrder (succeedAck i e s) := by
    simp only [succeedAck]; split
    · rename_i o; exact h.orphan he o
    · rename_i o
      obtain ⟨a, b⟩ := freeEntry_running h.1 h.2 he (by simpa using o)
      exact ⟨segmentDone_channels b a, (freeEntry_table h.2 he).chain (segmentDone_only _ _) segmentDone_sameOut⟩
  have read : ∀ b, InOrder (succeedRead i e b s) := by
    intro b; simp only [succeedRead]; split
    · rename_i o; exact h.orphan he o
    · rename_i o
      obtain ⟨x, y⟩ := freeEntry_running h.1 h.2 he (by simpa using o)
      exact ⟨(y.draw b e.length).ask _ (x.next (drawFree_of _ _)) rfl rfl, (freeEntry_table h.2 he).same rfl (fun _ => rfl) (fun _ => rfl)⟩
  have swap : ∀ r b, InOrder (succeedSwap i e r b s) := by
    intro r b; simp only [succeedSwap]; split
    · rename_i o; exact h.orphan he o
    · rename_i o
      obtain ⟨x, y⟩ := freeEntry_running h.1 h.2 he (by simpa using o)
      have y2 := y.draw b 4
      generalize hf : (fun c : Channel => { c with swapResult := some r }) = f
      have self : (modChannel e.channel f (drawFree b 4 (freeEntry i e s))).channel e.channel
          = { (drawFree b 4 (freeEntry i e s)).channel e.channel with swapResult := some r } := by rw [channel_modChannel_self, ← hf]
      refine ⟨Running.ask (ch := e.channel) _ ⟨y2.data, y2.wait, by rw [self]; exact y2.st, by rw [self]; exact y2.turn,
          by rw [self]; exact y2.sum⟩
        ((x.next (drawFree_of b 4)).next (.mod f)) rfl rfl, ?_⟩
      refine (freeEntry_table h.2 he).same rfl ?_ (fun _ => rfl)
      exact SameOut.trans (t := modChannel e.channel f (drawFree b 4 (freeEntry i e s)))
          (SameOut.trans (t := drawFree b 4 (freeEntry i e s)) (.ce rfl) (.mod f (by rw [← hf]))) (.ce rfl)
  unfold actOnReply; split
  · exact ack
  · exact ack
  · split
    · exact read _
    · exact h
  · split
    · exact swap _ _
    · exact h
  · split
    · exact actOnNak_inOrder _ h he
    · exact h
  · exact h

theorem takeReply_inOrder (h : InOrder s) : InOrder (takeReply s) := by
  unfold takeReply; split
  · exact h
  · rename_i f rest hf
    have h1 : InOrder (modLine (fun sl => { sl with inReplies := rest }) s) := Aside.inOrder ⟨rfl, rfl, rfl, rfl, rfl, fun _ => rfl⟩ h
    simp only []; split
    · exact h1
    · rename_i p hp
      have h2 := (hearFrom_aside p).inOrder h1
      split
      · exact h2
      · rename_i i e he
        exact actOnReply_inOrder f h2 (mem_entriesFor (List.mem_of_find?_eq_some he)).1

theorem map_table (f : Entry → Entry) (key : ∀ e, (f e).key = e.key) (h : TableExact s) :
    TableExact { s with rt := { s.rt with entries := s.rt.entries.map (Option.map f) } } := by
  refine h.keys rfl (fun i => ?_) (fun _ => rfl) (fun _ => rfl)
  unfold State.entry
  simp only [Vector.get_map, Option.map_map]
  congr 1; funext e; exact key e

theorem passDeadline_inOrder (i : Slot) (h : InOrder s) : InOrder (passDeadline i s) := by
  unfold passDeadline; split
  · exact h
  · split
    · rename_i d hd
      have h1 : InOrder { s with now := max s.now d } := Aside.inOrder ⟨rfl, rfl, rfl, rfl, rfl, fun _ => rfl⟩ h
      simp only []; split
      · exact declareUnreachable_inOrder _ h1
      · refine ⟨ChannelsInOrder.same h1.1 rfl rfl rfl rfl rfl rfl, map_table _ (fun e => ?_) h1.2⟩
        unfold rewound; split <;> rfl
    · exact h

theorem endBackoff_inOrder (p : Station) (h : InOrder s) : InOrder (endBackoff p s) := by
  unfold endBackoff; split
  · exact h
  · exact (stopBackoff_aside p).inOrder (Aside.inOrder ⟨rfl, rfl, rfl, rfl, rfl, fun _ => rfl⟩ h)

/-! ## Peers lost and frames -/

theorem fold_entry (c : FaultCode) (l : List (Slot × Entry)) : ∀ (s : State) (j : Slot),
    (l.foldl (fun s x => failEntry c x.1 x.2 s) s).entry j = if j ∈ l.map Prod.fst then none else s.entry j := by
  induction l with
  | nil => intro s j; simp
  | cons x l ih =>
    intro s j
    rw [List.foldl_cons, ih]
    have : (failEntry c x.1 x.2 s).entry j = if j = x.1 then none else s.entry j := by
      have := freeEntry_entry (s := s) x.1 j x.2
      unfold State.entry at this ⊢; rw [(failEntry_rt _ _ _).1]; exact this
    rw [this]
    by_cases a : j = x.1
    · subst a; simp
    · by_cases b : j ∈ l.map Prod.fst
      · rw [if_pos b, if_pos (by rw [List.map_cons]; exact List.mem_cons_of_mem _ b)]
      · rw [if_neg b, if_neg a, if_neg (by rw [List.map_cons, List.mem_cons]; exact fun h => h.elim a b)]

theorem failAll_gone (p : Station) (c : FaultCode) (o : OrderListsHeld s) (i : Slot) (e : Entry) (h : (failAll p c s).entry i = some e) :
    e.target ≠ p := by
  unfold failAll at h
  rw [fold_entry] at h
  split at h
  · cases h
  · rename_i n
    intro x
    refine n (List.mem_map.2 ⟨(i, e), ?_, rfl⟩)
    unfold entriesFor heldEntries
    rw [List.mem_filter, List.mem_filterMap]
    exact ⟨⟨i, (o.2 i).2 (by rw [h]; rfl), by rw [h]; rfl⟩, by simpa using x⟩

theorem resetTransmit_inOrder (p : Station) (c : FaultCode) (h : InOrder s) : InOrder (resetTransmit p c s) := by
  have f := failAll_channels p c h.1 h.2
  refine ⟨f.1.same rfl rfl rfl rfl rfl rfl, f.2.1, f.2.2.1, fun q => ?_⟩
  show ((modTx p _ (failAll p c s)).peer q).tx.held = entryCount (failAll p c s) _
  rw [peer_modTx]
  by_cases x : q = p
  · rw [if_pos x, x]
    symm
    unfold entryCount
    rw [List.countP_eq_zero]
    intro i _ y
    obtain ⟨e, he, z⟩ := Option.any_eq_true _ _ |>.1 y
    exact failAll_gone p c h.2.1 i e he (by simpa using z)
  · rw [if_neg x]; exact f.2.2.2 q

theorem modRx_aside (p : Station) (f : ReceivePart → ReceivePart) : Aside s (modRx p f s) := setPeer_aside _ _ rfl
theorem noteStatus_aside (p : Station) (v : PeerStatus) (a : Bool) : Aside s (noteStatus p v a s) := by
  simp only [noteStatus]; split
  · exact (setStatus_aside p v).trans (flagPeer_aside p)
  · exact setStatus_aside p v

theorem takePresence_inOrder (p : Station) (f : Frame) (h : InOrder s) : InOrder (takePresence p f s) := by
  have h1 : InOrder (storeLabel p f.payload s) := Aside.inOrder (setPeer_aside p { s.peer p with label := f.payload } rfl) h
  simp only [takePresence]; split
  · exact (noteStatus_aside _ _ _).inOrder h1
  · split
    · exact (((modRx_aside _ _).trans (noteStatus_aside _ _ _)).trans askPresence_aside).inOrder (resetTransmit_inOrder p _ h1)
    · split
      · exact ((modRx_aside _ _).trans (noteStatus_aside _ _ _)).inOrder (resetTransmit_inOrder p _ h1)
      · unfold unmarkedFrom; split
        · exact ((needSync_aside _).trans (noteStatus_aside _ _ _)).inOrder h1
        · exact h1

theorem line_aside (f : LineUnit → LineUnit) : Aside s (modLine f s) := ⟨rfl, rfl, rfl, rfl, rfl, fun _ => rfl⟩
theorem port_aside (f : HostPort → HostPort) : Aside s (modPort f s) := ⟨rfl, rfl, rfl, rfl, rfl, fun _ => rfl⟩
theorem service_aside (f : ServiceUnit → ServiceUnit) : Aside s (modService f s) := ⟨rfl, rfl, rfl, rfl, rfl, fun _ => rfl⟩

theorem takeFrame_inOrder (b : List Byte) (h : InOrder s) : InOrder (takeFrame b s) := by
  unfold takeFrame; split
  · exact h
  · have h1 := (line_aside (s := s) fun sl => { sl with window := none }).inOrder h
    simp only []; split
    · exact h1
    · split
      · exact h1
      · exact (line_aside _).inOrder h1
      · rename_i p f _
        have h2 := (line_aside (fun sl => { sl with rotor := rotorAfter p })).inOrder h1
        split
        · unfold routeFrame; split
          · exact takePresence_inOrder _ _ h2
          · split
            · exact (line_aside _).inOrder h2
            · exact h2
          · split
            · exact (line_aside _).inOrder h2
            · exact h2
        · exact h2

theorem passSlot_aside (n : Fin 62) (x : SlotPart) : Aside s (passSlot n x s) := by
  have b : ∀ s : State, Aside s (beginSlot n s) := by
    intro s; unfold beginSlot; split
    · split
      · exact line_aside _
      · exact .refl _
    · exact .refl _
  have e : ∀ (s : State) o, Aside s (endSlot n o s) := by
    intro s o; unfold endSlot; split
    · split
      · exact .refl _
      · split <;> exact line_aside _
    · exact .refl _
  unfold passSlot; split
  · exact b s
  · exact e s _
  · exact (b s).trans (e _ _)

theorem endTransmission_inOrder (h : InOrder s) : InOrder (endTransmission s) := by
  unfold endTransmission; split
  · rename_i c _
    have h1 := (line_aside (s := s) (afterSending s.own c)).inOrder h
    unfold reportFrame; split
    · exact h1
    · split
      · unfold reportPresence; split
        · exact (port_aside _).inOrder h1
        · split
          · exact (port_aside _).inOrder h1
          · exact h1
      · exact h1
    · split
      · split
        · exact h1
        · unfold reportSent; split
          · exact h1
          · split
            · rename_i he _; exact set_inOrder h1 he rfl
            · exact h1
      · exact h1
  · exact h

/-! ## Requests -/

theorem settleNotice_inOrder (n : Notice) (add : List Notice → List Notice) (h : InOrder s) : InOrder (settleNotice n add s) :=
  ⟨settleNotice_channels n add h.1, h.2.notice (settleNotice_only _ _ _) (settleNotice_sameOut _ _)⟩

theorem conclude_aside (p : Station) (f : Frame) (o : CacheOutcome) (a : Answer) : Aside s (conclude p f o a s) :=
  Aside.trans (t := fillOutcome p o s) (modRx_aside _ _) ⟨rfl, rfl, rfl, rfl, rfl, fun _ => rfl⟩

theorem serve_inOrder (p : Station) (k : RequestKind) (f : Frame) (h : InOrder s) : InOrder (serve p k f s) := by
  unfold serve; split
  · exact ((line_aside _).trans askPresence_aside).inOrder h
  · have h1 := (hearFrom_aside p).inOrder h
    have rd : ∀ d, Aside (hearFrom p s) (beginRead p f d (hearFrom p s)) := fun d => ⟨rfl, rfl, rfl, rfl, rfl, fun _ => rfl⟩
    unfold classify; split
    · unfold answerDuplicate; split
      · exact h1
      · split
        · exact (line_aside _).inOrder h1
        · split
          · exact (rd true).inOrder h1
          · exact (line_aside _).inOrder h1
    · split
      · split
        · exact (line_aside _).inOrder h1
        · have h2 := (modRx_aside p (acceptInto k f)).inOrder h1
          simp only [acceptRequest]; split
          · exact (conclude_aside _ _ _ _).inOrder h2
          · split
            · unfold beginRequest; split
              · exact Aside.inOrder ⟨rfl, rfl, rfl, rfl, rfl, fun _ => rfl⟩ h2
              · exact Aside.inOrder ⟨rfl, rfl, rfl, rfl, rfl, fun _ => rfl⟩ h2
              · exact Aside.inOrder ⟨rfl, rfl, rfl, rfl, rfl, fun _ => rfl⟩ h2
              · exact (conclude_aside _ _ _ _).inOrder (settleNotice_inOrder _ _ h2)
            · split
              · exact (conclude_aside _ _ _ _).inOrder h2
              · rename_i w _
                have h3 : InOrder (shutSingleUse w k f (modRx p (acceptInto k f) (hearFrom p s))) := by
                  unfold shutSingleUse; split
                  · exact Aside.inOrder (s := setGate w false (modRx p (acceptInto k f) (hearFrom p s)))
                      ⟨rfl, rfl, rfl, rfl, rfl, fun _ => rfl⟩ ((service_aside _).inOrder h2)
                  · exact h2
                unfold beginRequest; split
                · exact Aside.inOrder ⟨rfl, rfl, rfl, rfl, rfl, fun _ => rfl⟩ h3
                · exact Aside.inOrder ⟨rfl, rfl, rfl, rfl, rfl, fun _ => rfl⟩ h3
                · exact Aside.inOrder ⟨rfl, rfl, rfl, rfl, rfl, fun _ => rfl⟩ h3
                · exact (conclude_aside _ _ _ _).inOrder (settleNotice_inOrder _ _ h3)
      · exact (line_aside _).inOrder h1

theorem takeRequest_inOrder (h : InOrder s) : InOrder (takeRequest s) := by
  unfold takeRequest; split
  · exact h
  · split
    · exact h
    · rename_i f rest _
      have h1 := (line_aside (s := s) fun sl => { sl with inRequests := rest }).inOrder h
      simp only []; split
      · exact h1
      · split
        · exact serve_inOrder _ _ _ h1
        · exact h1

/-! ## The host port -/

/-- An event is taken: the head of the held list posts into its place (R59, R160). -/
theorem removeEvent_inOrder (h : InOrder s) : InOrder (removeEvent s) := by
  refine ⟨?_, h.2.chain ((OnlyChain.trans (b := { s with ev := { s.ev with events := s.ev.events.drop 1 } }) ⟨_, _, _,
      rfl⟩ (postHeld_only _))) (SameOut.trans (t := { s with ev := { s.ev with events := s.ev.events.drop 1 } }) (.ce rfl) postHeld_sameOut)⟩
  obtain ⟨work, ⟨full, nodup, right⟩, room⟩ := h.1
  unfold removeEvent postHeld
  split
  · rename_i e
    have e : s.ce.held = [] := e
    refine ⟨work, ⟨fun x => absurd e x, nodup, right⟩, ?_⟩
    show (s.ev.events.drop 1).length ≤ 32
    rw [List.length_drop]; omega
  · rename_i ch rest hl
    have hl : s.ce.held = ch :: rest := hl
    have len := full (by rw [hl]; simp)
    have m : ch ∈ s.ce.held := by rw [hl]; simp
    obtain ⟨e, he, ec, ek, en⟩ := (right ch).2 m
    have st := (right ch).1.1 m
    rw [hl, List.nodup_cons] at nodup
    have he' : (State.channel { s with ev := { s.ev with events := s.ev.events.drop 1 } } ch).pendingEvent = some e := he
    rw [he']
    simp only []
    generalize hs0 : ({ s with ev := { s.ev with events := s.ev.events.drop 1 } } : State) = s0
    have r := h.1.rest (ch := ch) (by rw [st]; simp) (by rw [st]; simp)
    have c0 : ∀ k, s0.channel k = s.channel k := fun k => by rw [← hs0]; rfl
    have w0 : ∀ k, worksOf s0 k = worksOf s k := fun k => by rw [← hs0]; rfl
    have t0 : ∀ k, turnOf s0 k = turnOf s k := fun k => by rw [← hs0]
    have n0 : s0.nq = s.nq := by rw [← hs0]
    have ev0 : s0.ev.events.length = 31 := by rw [← hs0]; show (s.ev.events.drop 1).length = 31; simp [len]
    have self : (modChannel ch (fun c => { c with pendingEvent := none }) s0).channel ch = { s.channel ch with pendingEvent := none } := by
      rw [channel_modChannel_self, c0]
    have other : ∀ k, k ≠ ch → (modChannel ch (fun c => { c with pendingEvent := none }) s0).channel k = s.channel k := fun k ne => by
      rw [channel_modChannel, if_neg ne, c0]
    refine afterPost_channels e.kind ⟨fun k ne => ?_, fun k ne => ?_, fun _ => ?_, nodup.2, nodup.1, ?_⟩ ⟨?_, ?_, ?_, ?_⟩ ek (fun x => ?_)
    · have := work k
      unfold WorkInOrderOf at this ⊢
      rw [show State.channel (pushEvent e (setHeld rest (modChannel ch (fun c => { c with pendingEvent := none }) s0))) k = s.channel k from other k ne,
        show worksOf (pushEvent e (setHeld rest (modChannel ch (fun c => { c with pendingEvent := none }) s0))) k = worksOf s k from w0 k]
      refine ⟨this.1, this.2.1, fun x => this.2.2.1 ((t0 k).symm.trans x), fun v m => this.2.2.2.1 v (n0 ▸ m), this.2.2.2.2⟩
    · have := right k
      rw [hl] at this
      unfold HeldRight
      rw [show State.channel (pushEvent e (setHeld rest (modChannel ch (fun c => { c with pendingEvent := none }) s0))) k = s.channel k from other k ne]
      simpa [ne] using this
    · show (s0.ev.events ++ [e]).length = 32; simp [ev0]
    · show (s0.ev.events ++ [e]).length ≤ 32; simp [ev0]
    · exact (w0 ch).trans r.1
    · show ((modChannel ch (fun c => { c with pendingEvent := none }) s0).channel ch).outstanding = 0
      rw [self]; exact r.2.1
    · exact (t0 ch).trans r.2.2
    · intro v m x
      have := (work ch).2.2.2.1 v (n0 ▸ m) x
      rw [st] at this; cases this
    · show ((modChannel ch (fun c => { c with pendingEvent := none }) s0).channel ch).current ≠ none
      rw [self]; exact en x

theorem carryOut_aside : Aside s (carryOut s) := port_aside _
theorem shiftOut_aside (b : List Byte) : Aside s (shiftOut b s) := port_aside _
theorem refuse_aside (r : RefusalReason) : Aside s (refuse r s) := port_aside _
theorem present_aside (r : List Byte) (x : Took) : Aside s (present r x s) := port_aside _

theorem completeTransaction_inOrder (h : InOrder s) : InOrder (completeTransaction s) := by
  unfold completeTransaction; split
  · rename_i r x _
    have h1 : InOrder (carryOut (shiftOut r s)) := ((shiftOut_aside r).trans carryOut_aside).inOrder h
    simp only []; split
    · exact removeEvent_inOrder h1
    · exact h1
  · exact h

theorem atCommand_inOrder {f : State → State} (h : InOrder s) (hf : ∀ s, InOrder s → InOrder (f s)) : InOrder (atCommand f s) := by
  unfold atCommand; split
  · exact hf _ ((shiftOut_aside _).inOrder h)
  · exact h

theorem withOperands_inOrder {α : Type} {c : HostCode} {x : Taken α} {f : α → State → State} (h : InOrder s)
    (hf : ∀ a s, InOrder s → InOrder (f a s)) :
    InOrder (withOperands c x f s) := by
  unfold withOperands; split
  · exact ((shiftOut_aside _).trans (port_aside _)).inOrder h
  · exact hf _ _ ((shiftOut_aside _).inOrder h)
  · split
    · exact hf _ _ ((shiftOut_aside _).inOrder h)
    · exact h
  · exact h

theorem releaseSelect_inOrder (b : Fin 8) (h : InOrder s) : InOrder (releaseSelect b s) := by
  unfold releaseSelect; split
  · exact h
  · have h1 : InOrder { s with pins := { s.pins with selected := false } } := Aside.inOrder ⟨rfl, rfl, rfl, rfl, rfl, fun _ => rfl⟩ h
    simp only []; split
    · exact h1
    · refine (port_aside _).inOrder ?_
      unfold endTransaction; split
      · unfold undoTake; split
        · exact settleNotice_inOrder _ _ h1
        · exact Aside.inOrder ⟨rfl, rfl, rfl, rfl, rfl, fun _ => rfl⟩ h1
        · exact h1
      · simp only [endReadStream]; split <;> exact Aside.inOrder ⟨rfl, rfl, rfl, rfl, rfl, fun _ => rfl⟩ h1
      · unfold endWriteStream; split
        · exact h1
        · split
          · exact (refuse_aside _).inOrder h1
          · exact Aside.inOrder ⟨rfl, rfl, rfl, rfl, rfl, fun _ => rfl⟩ h1
      · exact h1

/-- A channel with nothing under way starts afresh. -/
theorem begin_channels (f : Channel → Channel) (h : ChannelsInOrder s) (a : (s.channel ch).state ≠ .active)
    (b : (s.channel ch).state ≠ .draining)
    (w : (s.channel ch).state ≠ .awaiting) (d : (s.channel ch).state ≠ .held)
    (out : (f (s.channel ch)).outstanding = (s.channel ch).outstanding) (st : (f (s.channel ch)).state = .active)
    (cur : (f (s.channel ch)).current = none) (n : (f (s.channel ch)).issued = (f (s.channel ch)).completed) :
    ChannelsInOrder (startFetch ch (modChannel ch f s)) := by
  obtain ⟨x, y, z⟩ := h.rest a b
  have r : AtRest ch s := ⟨x, y, z, fun v m e => w ((h.1 ch).2.2.2.1 v m e)⟩
  refine startFetch_channels ((h.others d).next (.mod f)) (r.mod f out) ?_ ?_ (fun _ => ?_) <;> rw [channel_modChannel_self]
  · exact st
  · exact cur
  · exact n

theorem decideSubmit_inOrder (o : SubmitOps) (h : InOrder s) : InOrder (decideSubmit o s) := by
  unfold decideSubmit; split
  · exact (refuse_aside _).inOrder h
  · split
    · rename_i ch k _ _
      split
      · exact (refuse_aside _).inOrder h
      · rename_i st
        have st : (s.channel ch).state = .idle := by simpa using st
        split
        · exact (refuse_aside _).inOrder h
        · have h1 : InOrder (carryOut s) := carryOut_aside.inOrder h
          have st1 : ((carryOut s).channel ch).state = .idle := st
          refine ⟨begin_channels _ h1.1 ?_ ?_ ?_ ?_ rfl rfl rfl rfl,
              h1.2.chain (OnlyChain.trans ⟨_, _, _, rfl⟩ (startFetch_only _ _))
              ((SameOut.mod _ rfl).trans startFetch_sameOut)⟩ <;> rw [st1] <;> simp
    · exact (refuse_aside _).inOrder h

theorem restart_inOrder (c : ChannelNo) (k : ChainClass) (h : InOrder s)
    (st : (s.channel c).state = .idle ∨ (s.channel c).state = .faulted) : InOrder (restart c k s) := by
  have h1 : InOrder (carryOut s) := carryOut_aside.inOrder h
  have st1 : ((carryOut s).channel c).state = .idle ∨ ((carryOut s).channel c).state = .faulted := st
  unfold restart
  refine ⟨begin_channels _ h1.1 ?_ ?_ ?_ ?_ rfl rfl rfl rfl, h1.2.chain (OnlyChain.trans ⟨_, _, _,
      rfl⟩ (startFetch_only _ _)) ((SameOut.mod _ rfl).trans startFetch_sameOut)⟩ <;> rcases st1 with st1 | st1 <;> rw [st1] <;> simp

theorem decideResume_inOrder (o : ResumeOps) (h : InOrder s) : InOrder (decideResume o s) := by
  unfold decideResume; split
  · exact (refuse_aside _).inOrder h
  · split
    · split
      · rename_i e _; exact restart_inOrder _ _ h (.inl e)
      · rename_i e; exact restart_inOrder _ _ h (.inr e)
      · exact (refuse_aside _).inOrder h
    · exact (refuse_aside _).inOrder h

theorem orphanEntries_table (c : ChannelNo) (tb : TableExact s) : TableExact (orphanEntries c s) := by
  have ent : ∀ i, (orphanEntries c s).entry i = (s.entry i).map (orphaned c) := by
    intro i; unfold orphanEntries State.entry; simp [modChannel, setChannel, Vector.get_map]
  have cnt : ∀ test : Entry → Bool, entryCount (orphanEntries c s) test = entryCount s (fun e => test (orphaned c e)) := by
    intro test; unfold entryCount
    refine List.countP_congr fun i _ => ?_
    rw [ent, Option.any_map]
  have chan : ∀ k, (orphanEntries c s).channel k = if k = c then { s.channel k with outstanding := 0 } else s.channel k := by
    intro k; unfold orphanEntries; rw [channel_modChannel]; split
    · rename_i e; subst e; rfl
    · rfl
  refine ⟨⟨tb.1.1, fun i => ?_⟩, fun k => ?_, fun q => ?_⟩
  · rw [ent, Option.isSome_map]; exact tb.1.2 i
  · rw [chan, cnt]
    by_cases x : k = c
    · subst x; rw [if_pos rfl]; symm
      show entryCount s _ = 0
      unfold entryCount; rw [List.countP_eq_zero]
      intro i _ y
      obtain ⟨e, -, z⟩ := Option.any_eq_true _ _ |>.1 y
      unfold orphaned at z; split at z <;> simp_all
    · rw [if_neg x, tb.2.1 k]
      congr 1; funext e
      unfold orphaned; split
      · rename_i h; simp [h, Ne.symm x]
      · rfl
  · rw [cnt]
    refine (tb.2.2 q).trans ?_
    congr 1; funext e
    unfold orphaned; split <;> rfl

/-- ABORT leaves its channel with nothing under way and off the held list (R60). -/
theorem abortRunning_inOrder (h : InOrder s) : InOrder (abortRunning ch s) := by
  obtain ⟨⟨work, ⟨full, nodup, right⟩, room⟩, tb⟩ := h
  simp only [abortRunning]
  generalize hs1 : orphanEntries ch s = s1
  have tb1 : TableExact s1 := hs1 ▸ orphanEntries_table ch tb
  have ce1 : ∀ k, k ≠ ch → s1.channel k = s.channel k := by
    intro k ne; rw [← hs1]; unfold orphanEntries; rw [channel_modChannel, if_neg ne]; rfl
  have out1 : (s1.channel ch).outstanding = 0 := by rw [← hs1]; unfold orphanEntries; rw [channel_modChannel_self]
  have arb1 : s1.arb = s.arb := by rw [← hs1]; rfl
  have ev1 : s1.ev = s.ev := by rw [← hs1]; rfl
  have nq1 : s1.nq = s.nq := by rw [← hs1]; rfl
  have held1 : s1.ce.held = s.ce.held := by rw [← hs1]; rfl
  have turn1 : s1.ce.turn = s.ce.turn := by rw [← hs1]; rfl
  have g := giveUpTurn_only_of (s := s1) (ch := ch)
  generalize hs2 : giveUpTurn ch s1 = s2 at g
  have turn2 : turnOf s2 ch = false := by rw [← hs2]; exact giveUpTurn_turn
  have chan2 : ∀ k, s2.channel k = s1.channel k := fun k => by rw [← hs2]; exact giveUpTurn_channel
  have nq2 : s2.nq = s1.nq := by rw [← hs2]; exact giveUpTurn_waiters
  have rt2 : OnlyChain s1 s2 := hs2 ▸ giveUpTurn_only s1 ch
  generalize hs3 : dropCe (fun w => decide (w.owner = some ch)) s2 = s3
  have work3 : ∀ k, worksOf s3 k = if k = ch then [] else worksOf s2 k := by
    intro k
    rw [← hs3]; unfold worksOf dropCe
    simp only []
    induction s2.arb.ce with
    | nil => simp
    | cons j l ih =>
      obtain ⟨a, w⟩ := j
      rw [List.map_cons, List.map_cons, List.filter_cons, ih]
      have dr : CeWork.dropped.owner = none := rfl
      by_cases x : w.owner = some ch
      · rw [show (if decide ((a, w).2.owner = some ch) = true then ((a, w).1, CeWork.dropped) else (a, w)) = (a,
          .dropped) from if_pos (by simpa using x)]
        by_cases y : k = ch
        · simp [y, dr]
        · rw [if_neg y, if_neg y, List.map_cons, List.filter_cons, if_neg (by simp [dr]), if_neg (by simp [x, Ne.symm y])]
      · by_cases y : k = ch
        · simp [x, y]
        · simp [x, y, List.filter_cons]
  have ce3 : s3.ce = s2.ce := by rw [← hs3]; rfl
  have chan3 : ∀ k, s3.channel k = s1.channel k := fun k => by unfold State.channel; rw [ce3]; exact chan2 k
  have all : ChannelsInOrder (modChannel ch Channel.aborted (setHeld (s3.ce.held.erase ch) (withdrawWaiter ch s3))) := by
    have self : (modChannel ch Channel.aborted (setHeld (s3.ce.held.erase ch) (withdrawWaiter ch s3))).channel ch =
        (s1.channel ch).aborted := by
      rw [channel_modChannel_self]; exact congrArg _ (chan3 ch)
    have other : ∀ k, k ≠ ch → (modChannel ch Channel.aborted (setHeld (s3.ce.held.erase ch) (withdrawWaiter ch s3))).channel k =
        s.channel k := by
      intro k ne; rw [channel_modChannel, if_neg ne]; exact (chan3 k).trans (ce1 k ne)
    have heldEq : s3.ce.held = s.ce.held := by rw [ce3, g.held, held1]
    have evEq : s3.ev = s.ev := by rw [← hs3]; exact g.ev.trans ev1
    have nqEq : s3.nq = s.nq := by rw [← hs3]; exact nq2.trans nq1
    refine OthersInOrder.all (ch := ch) ⟨fun k ne => ?_, fun k ne => ?_, fun x => ?_, ?_, ?_, ?_⟩ ?_ ?_
    · have := work k
      unfold WorkInOrderOf at this ⊢
      rw [other k ne, show worksOf (modChannel ch Channel.aborted (setHeld (s3.ce.held.erase ch) (withdrawWaiter ch s3))) k = worksOf s k by
        show worksOf s3 k = _; rw [work3, if_neg ne, g.works k ne]; unfold worksOf; rw [arb1]]
      refine ⟨this.1, this.2.1, fun x => this.2.2.1 ?_, fun v m => this.2.2.2.1 v ?_, this.2.2.2.2⟩
      · have : turnOf s2 k = true := by
          have : s3.ce.turn.any (Turn.isOf k) = true := x
          rw [ce3] at this; exact this
        rw [g.turn k ne] at this
        rw [← turn1]; exact this
      · have : v ∈ s3.nq.waiters.filter fun w => w.channel ≠ ch := m
        rw [nqEq] at this; exact List.mem_of_mem_filter this
    · have := right k
      unfold HeldRight
      rw [other k ne]
      have e : (k ∈ (modChannel ch Channel.aborted (setHeld (s3.ce.held.erase ch) (withdrawWaiter ch s3))).ce.held) ↔ k ∈ s.ce.held := by
        show k ∈ s3.ce.held.erase ch ↔ _
        rw [heldEq, nodup.mem_erase_iff]; simp [ne]
      rw [e]; exact this
    · have x : s3.ce.held.erase ch ≠ [] := x
      show s3.ev.events.length = 32
      rw [evEq]; refine full fun y => x ?_
      rw [heldEq, y]; rfl
    · show (s3.ce.held.erase ch).Nodup; rw [heldEq]; exact nodup.erase ch
    · show ch ∉ s3.ce.held.erase ch; rw [heldEq, nodup.mem_erase_iff]; simp
    · show s3.ev.events.length ≤ 32; rw [evEq]; exact room
    · have wk : worksOf (modChannel ch Channel.aborted (setHeld (s3.ce.held.erase ch) (withdrawWaiter ch s3))) ch = [] := by
        show worksOf s3 ch = []; rw [work3, if_pos rfl]
      unfold WorkInOrderOf
      rw [self, wk]
      refine ⟨fun _ _ => ⟨rfl, out1⟩, nofun, fun x => ?_, fun v m e => ?_, fun x => ?_, fun x => ?_⟩
      · have : s3.ce.turn.any (Turn.isOf ch) = true := x
        rw [ce3] at this
        have : turnOf s2 ch = true := this
        rw [turn2] at this; cases this
      · have : v ∈ s3.nq.waiters.filter fun w => w.channel ≠ ch := m
        have := List.of_mem_filter this; simp at this; exact absurd e this
      · cases x
      · rcases x with x | x <;> cases x
    · rw [self]; simp [Channel.aborted]
  have tbl : TableExact (modChannel ch Channel.aborted (setHeld (s3.ce.held.erase ch) (withdrawWaiter ch s3))) := by
    refine (tb1.chain rt2 fun k => by rw [chan2]).same ?_ ?_ ?_
    · rw [← hs3]; rfl
    · refine SameOut.trans (t := setHeld (s3.ce.held.erase ch) (withdrawWaiter ch s3)) (.ce ?_) (.mod _ rfl)
      show s3.ce.channels = _; rw [ce3]
    · intro p; rw [← hs3]; rfl
  unfold postAborted
  split
  · rename_i room'
    refine ⟨⟨all.1, ⟨fun x => ?_, all.2.1.2.1, all.2.1.2.2⟩, ?_⟩, tbl.same rfl (fun _ => rfl) (fun _ => rfl)⟩
    · have := all.2.1.1 x; omega
    · show (_ ++ [_]).length ≤ 32
      rw [List.length_append]; simp only [List.length_cons, List.length_nil]; omega
  · exact ⟨all, tbl⟩

theorem decideAbort_inOrder (b : Byte) (h : InOrder s) : InOrder (decideAbort b s) := by
  unfold decideAbort; split
  · exact (refuse_aside _).inOrder h
  · split
    · exact (refuse_aside _).inOrder h
    · rename_i c _
      have h1 : InOrder (carryOut s) := carryOut_aside.inOrder h
      split
      · exact (refuse_aside _).inOrder h
      · rename_i st
        have st1 : ((carryOut s).channel c).state = .faulted := st
        have r := h1.1.rest (ch := c) (by rw [st1]; simp) (by rw [st1]; simp)
        refine ⟨channels_rest ((h1.1.others (by rw [st1]; simp)).next (.mod _)) (AtRest.mod ⟨r.1, r.2.1, r.2.2,
            fun v m e => ?_⟩ _ rfl) ?_ ?_ ?_,
          h1.2.same rfl (.mod _ rfl) (fun _ => rfl)⟩
        · have := (h1.1.1 c).2.2.2.1 v m e; rw [st1] at this; cases this
        all_goals rw [channel_modChannel_self]; simp [Channel.aborted]
      · exact abortRunning_inOrder h1

/-! ## Every command -/

/-- A reset leaves all in order. -/
theorem reset_inOrder (o : BitVec 5) (st : PageStore) (p : Pins) (n d : Nat) (q : List Instr) :
    InOrder { resetWith o st s with pins := p, now := n, draws := d, pending := q } := by
  have ch : ∀ k : ChannelNo, State.channel { resetWith o st s with pins := p, now := n, draws := d, pending := q } k = {} := by
    intro k; unfold State.channel; simp [resetWith, State.reset, Vector.get]
  have en : ∀ i, State.entry { resetWith o st s with pins := p, now := n, draws := d, pending := q } i = none := by
    intro k; unfold State.entry; simp [resetWith, State.reset, Vector.get]
  have pe : ∀ i, (State.peer { resetWith o st s with pins := p, now := n, draws := d, pending := q } i).tx = {} := by
    intro k; unfold State.peer; simp [resetWith, resetPeers, Vector.get]; split <;> rfl
  have cnt : ∀ t, entryCount { resetWith o st s with pins := p, now := n, draws := d, pending := q } t = 0 := by
    intro t; unfold entryCount; rw [List.countP_eq_zero]; intro i _; rw [en]; simp
  refine ⟨⟨fun k => ?_, ⟨nofun, List.nodup_nil, fun k => ?_⟩, Nat.zero_le _⟩,
      ⟨List.nodup_nil, fun i => by rw [en]; simp [resetWith, State.reset]⟩, fun k => ?_, fun q => ?_⟩
  · unfold WorkInOrderOf; rw [ch]
    exact ⟨fun _ _ => ⟨rfl, rfl⟩, nofun, nofun, nofun, nofun, by simp⟩
  · rw [ch]; exact ⟨by simp [resetWith, State.reset], nofun⟩
  · rw [ch, cnt]
  · rw [pe, cnt]

end Sys2Proof.Machine
end

