-- ==== Sys2Proof/Laws/Ages.lean ====
section
/-! SUPPORT. The ages of entries: what takes no entry leaves the ages in their window and in the order of taking, and so does taking one. -/

namespace Sys2Proof.Machine

variable {s t u : State} {ch k : ChannelNo}

/-- The turn in progress is the same or none. -/
def TurnLess (s t : State) : Prop := t.ce.turn = s.ce.turn ∨ t.ce.turn = none
theorem TurnLess.refl (s : State) : TurnLess s s := .inl rfl
theorem TurnLess.trans (a : TurnLess s t) (b : TurnLess t u) : TurnLess s u := by
  rcases b with b | b
  · rcases a with a | a
    · exact .inl (b.trans a)
    · exact .inr (b.trans a)
  · exact .inr b
theorem TurnLess.ce (h : t.ce.turn = s.ce.turn) : TurnLess s t := .inl h
theorem TurnLess.mod (f : Channel → Channel) : TurnLess s (modChannel ch f s) := .inl rfl

theorem startFetch_turnLess : TurnLess s (startFetch ch s) := by
  unfold startFetch; split
  · exact .refl s
  · exact (TurnLess.mod (ch := ch) Channel.restarted).trans (.ce rfl)

theorem moveOn_turnLess : TurnLess s (moveOn ch s) := (TurnLess.mod _).trans startFetch_turnLess

theorem afterPost_turnLess (e : EventKind) : TurnLess s (afterPost ch e s) := by
  cases e
  · exact moveOn_turnLess
  · exact .mod _
  · exact .mod _
  · exact .refl s

theorem offerEvent_turnLess (e : Event) : TurnLess s (offerEvent ch e s) := by
  unfold offerEvent; split
  · exact TurnLess.trans (t := pushEvent e s) (.ce rfl) (afterPost_turnLess _)
  · exact (TurnLess.mod (ch := ch) (fun c => { c with state := .held, pendingEvent := some e })).trans (.ce rfl)

theorem postHeld_turnLess : TurnLess s (postHeld s) := by
  unfold postHeld; split
  · exact .refl s
  · split
    · exact .refl s
    · rename_i c _ _ _ _ _
      refine TurnLess.trans ?_ (afterPost_turnLess _)
      exact (TurnLess.mod (ch := c) (fun c => { c with pendingEvent := none })).trans (.ce rfl)

theorem reportFault_turnLess (r : FaultRecord) : TurnLess s (reportFault ch r s) := (TurnLess.mod _).trans (offerEvent_turnLess _)
theorem failFetch_turnLess (a : Addr) (c : FaultCode) : TurnLess s (failFetch ch a c s) :=
  (TurnLess.mod (ch := ch) (fun c' => { c'.cleared with fault := some ⟨c, a, 0⟩ })).trans (.ce rfl)
theorem giveUpTurn_turnLess : TurnLess s (giveUpTurn ch s) := by
  unfold giveUpTurn; split
  · exact .inr rfl
  · exact .ce rfl
theorem checkDrain_turnLess : TurnLess s (checkDrain ch s) := by
  simp only [checkDrain]; split
  · split <;> exact .ce rfl
  · exact .refl s
theorem failSegment_turnLess (c : FaultCode) (off : Nat) : TurnLess s (failSegment ch c off s) := by
  unfold failSegment; split
  · exact (giveUpTurn_turnLess.trans (.mod _)).trans checkDrain_turnLess
  · exact checkDrain_turnLess
  · exact .refl s
theorem advanceRemote_turnLess (d : Descriptor) : TurnLess s (advanceRemote ch d s) := by unfold advanceRemote; split <;> exact .ce rfl
theorem advanceLocal_turnLess (d : Descriptor) : TurnLess s (advanceLocal ch d s) := by
  unfold advanceLocal; split
  · exact .ce rfl
  · exact advanceRemote_turnLess d
theorem startCompletion_turnLess : TurnLess s (startCompletion ch s) := by
  unfold startCompletion; split
  · exact .refl s
  · exact advanceLocal_turnLess _
theorem finishDescriptor_turnLess : TurnLess s (finishDescriptor ch s) := by
  simp only [finishDescriptor]; split
  · exact .refl s
  · split
    · exact (TurnLess.mod _).trans (offerEvent_turnLess _)
    · split
      · exact offerEvent_turnLess _
      · exact moveOn_turnLess
theorem completeIfDone_turnLess : TurnLess s (completeIfDone ch s) := by
  simp only [completeIfDone]; split
  · exact .refl s
  · split
    · exact startCompletion_turnLess
    · exact .refl s
theorem segmentDone_turnLess : TurnLess s (segmentDone ch s) := ((TurnLess.mod _).trans completeIfDone_turnLess).trans checkDrain_turnLess
theorem giveNotice_turnLess (n : Notice) : TurnLess s (giveNotice ch n s) := by
  simp only [giveNotice]; split
  · exact .mod _
  · split
    · exact (TurnLess.mod (ch := ch) (fun c => { c with state := .active })).trans (.ce rfl)
    · exact (TurnLess.mod _).trans startCompletion_turnLess
theorem settleNotice_turnLess (n : Notice) (add : List Notice → List Notice) : TurnLess s (settleNotice n add s) := by
  unfold settleNotice; split
  · exact TurnLess.trans (.ce rfl) (giveNotice_turnLess n)
  · exact .ce rfl
theorem startAwait_turnLess (d : Descriptor) : TurnLess s (startAwait ch d s) := by
  unfold startAwait; split
  · exact TurnLess.trans (.ce rfl) (giveNotice_turnLess _)
  · exact (TurnLess.mod (ch := ch) (fun c => { c with state := .awaiting })).trans (.ce rfl)
theorem passSegment_turnLess (d : Descriptor) : TurnLess s (passSegment ch d s) := by
  simp only [passSegment]; split
  · exact TurnLess.trans (.ce rfl) (.mod _)
  · exact .mod _


/-- No entry is new, and those kept have target, sequence number, place in the order and next-seq as before. -/
structure Fewer (s t : State) : Prop where
  ent : ∀ i e', t.entry i = some e' → ∃ e, s.entry i = some e ∧ e.target = e'.target ∧ e.sequence = e'.sequence
  ord : t.rt.order.Sublist s.rt.order
  seq : ∀ i e', t.entry i = some e' → (t.peer e'.target).tx.nextSeq = (s.peer e'.target).tx.nextSeq
  turn : TurnLess s t

theorem Fewer.refl (s : State) : Fewer s s := ⟨fun _ e h => ⟨e, h, rfl, rfl⟩, List.Sublist.refl _, fun _ _ _ => rfl, .refl s⟩
theorem Fewer.trans (a : Fewer s t) (b : Fewer t u) : Fewer s u := by
  refine ⟨fun i e h => ?_, b.ord.trans a.ord, fun i e h => ?_, a.turn.trans b.turn⟩
  · obtain ⟨e1, h1, x1, y1⟩ := b.ent i e h
    obtain ⟨e2, h2, x2, y2⟩ := a.ent i e1 h1
    exact ⟨e2, h2, x2.trans x1, y2.trans y1⟩
  · obtain ⟨e1, h1, x1, y1⟩ := b.ent i e h
    have := a.seq i e1 h1
    rw [x1] at this
    exact (b.seq i e h).trans this

/-- Where no entry is new the ages stay in their window and in the order of taking. -/
theorem Fewer.ages (f : Fewer s t) (h : AgesInWindow s) : AgesInWindow t := by
  have age' : ∀ i e', t.entry i = some e' → ∃ e, s.entry i = some e ∧ e.target = e'.target ∧ age t e' = age s e := by
    intro i e' h
    obtain ⟨e, he, x, y⟩ := f.ent i e' h
    refine ⟨e, he, x, ?_⟩
    unfold age; rw [f.seq i e' h, x, y]
  obtain ⟨h1, h2, h3, h4⟩ := h
  refine ⟨fun i e he => ?_, fun i j e g he hg x y => ?_, fun ch p x i e he z => ?_, ?_⟩
  · obtain ⟨e0, a, b, c⟩ := age' i e he; rw [c]; exact h1 i e0 a
  · obtain ⟨e0, a, b, c⟩ := age' i e he
    obtain ⟨g0, a', b', c'⟩ := age' j g hg
    exact h2 i j e0 g0 a a' (by rw [b, b', x]) (by rw [← c, ← c', y])
  · obtain ⟨e0, a, b, c⟩ := age' i e he
    rcases f.turn with w | w
    · rw [c]; exact h3 ch p (w ▸ x) i e0 a (b.trans z)
    · rw [w] at x; cases x
  · refine (h4.sublist f.ord).imp fun {i j} r e g he hg x => ?_
    obtain ⟨e0, a, b, c⟩ := age' i e he
    obtain ⟨g0, a', b', c'⟩ := age' j g hg
    rw [c, c']; exact r e0 g0 a a' (by rw [b, b', x])

/-- Table, numbers and turn untouched. -/
theorem Fewer.of (rt : t.rt = s.rt) (p : ∀ q, (t.peer q).tx.nextSeq = (s.peer q).tx.nextSeq) (tl : TurnLess s t) : Fewer s t := by
  refine ⟨fun i e h => ⟨e, ?_, rfl, rfl⟩, rt ▸ List.Sublist.refl _, fun i e _ => p _, tl⟩
  unfold State.entry at *; rw [← rt]; exact h
theorem Fewer.chain (o : OnlyChain s t) (tl : TurnLess s t) : Fewer s t := by
  obtain ⟨_, _, _, rfl⟩ := o; exact .of rfl (fun _ => rfl) tl
theorem Fewer.notice (o : OnlyNotice s t) (tl : TurnLess s t) : Fewer s t := by
  obtain ⟨_, _, _, _, rfl⟩ := o; exact .of rfl (fun _ => rfl) tl
theorem Fewer.tx (p : Station) (f : TransmitPart → TransmitPart) (x : (f (s.peer p).tx).nextSeq = (s.peer p).tx.nextSeq) : Fewer s
    (modTx p f s) := by
  refine .of rfl (fun q => ?_) (.inl rfl)
  rw [peer_modTx]; split
  · rename_i e; rw [e]; exact x
  · rfl
theorem Fewer.set {i : Slot} {e f : Entry} (he : s.entry i = some e) (a : f.target = e.target) (b : f.sequence = e.sequence) : Fewer s
    (setEntry i (some f) s) := by
  refine ⟨fun j g h => ?_, List.Sublist.refl _, fun _ _ _ => rfl, .inl rfl⟩
  rw [entry_setEntry] at h; split at h
  · rename_i x; cases h; exact ⟨e, x ▸ he, a.symm, b.symm⟩
  · exact ⟨g, h, rfl, rfl⟩

theorem freeEntry_fewer (i : Slot) (e : Entry) : Fewer s (freeEntry i e s) := by
  obtain ⟨rt, peer, chan, arb, ev, nq, turn, held⟩ := freeEntry_parts (s := s) i e
  refine ⟨fun j g h => ?_, ?_, fun j g _ => ?_, .inl turn⟩
  · rw [freeEntry_entry] at h; split at h
    · cases h
    · exact ⟨g, h, rfl, rfl⟩
  · rw [rt]; exact List.erase_sublist
  · rw [peer]; split <;> rfl
theorem failEntry_fewer (c : FaultCode) (i : Slot) (e : Entry) : Fewer s (failEntry c i e s) := by
  simp only [failEntry]; split
  · exact freeEntry_fewer i e
  · exact (freeEntry_fewer i e).trans (.chain (failSegment_only _ _ _ _) (failSegment_turnLess _ _))
theorem failAll_fewer (p : Station) (c : FaultCode) : Fewer s (failAll p c s) := by
  unfold failAll
  suffices ∀ (l : List (Slot × Entry)) (s : State), Fewer s (l.foldl (fun s x => failEntry c x.1 x.2 s) s) from this _ _
  intro l
  induction l with
  | nil => exact fun s => .refl s
  | cons x l ih => exact fun s => (failEntry_fewer c x.1 x.2).trans (ih _)
theorem resetTransmit_fewer (p : Station) (c : FaultCode) (o : OrderListsHeld s) : Fewer s (resetTransmit p c s) := by
  have f := failAll_fewer (s := s) p c
  refine ⟨f.ent, f.ord, fun i e h => ?_, f.turn⟩
  have ne : e.target ≠ p := failAll_gone p c o i e h
  show ((modTx p _ (failAll p c s)).peer e.target).tx.nextSeq = _
  rw [peer_modTx, if_neg ne]
  exact f.seq i e h

/-- Neither table nor turn nor numbers. -/
theorem Fewer.aside (a : Aside s t) (p : ∀ q, (t.peer q).tx.nextSeq = (s.peer q).tx.nextSeq) : Fewer s t := .of a.rt p (.inl (by rw [a.ce]))

/-! ## Taking an entry -/

/-- An entry is taken for a target that has none of age 4 (R65, R67): it is the youngest, and the last in the order. -/
theorem takeEntry_ages (d : Descriptor) (k : RequestKind) (p : Station) (seg : Segment) (b : List Byte) (o : OrderListsHeld s)
    (h : AgesInWindow s)
    (t0 : s.ce.turn = none) (no4 : ∀ i e, s.entry i = some e → e.target = p → age s e ≠ 4) : AgesInWindow (takeEntry ch d k p seg b s) := by
  unfold takeEntry; split
  · exact h
  · rename_i i hi
    have free := lowestFree_none hi
    simp only []
    generalize he : Entry.mk ch false k p _ _ _ _ _ _ _ _ _ _ = e
    have et : e.target = p := by rw [← he]
    have es : e.sequence = (s.peer p).tx.nextSeq := by rw [← he]
    generalize hs3 : modChannel ch _ (modTx p _ (setOrder _ (setEntry i (some e) s))) = s3
    have ent : ∀ j, s3.entry j = if j = i then some e else s.entry j := by
      intro j; rw [← hs3]; exact entry_setEntry s i j _
    have ord : s3.rt.order = s.rt.order ++ [i] := by rw [← hs3]; rfl
    have seq : ∀ q, (s3.peer q).tx.nextSeq = if q = p then (s.peer q).tx.nextSeq + 1 else (s.peer q).tx.nextSeq := by
      intro q
      have : s3.peer q = (modTx p (fun t => { t with nextSeq := t.nextSeq + 1, held := t.held + 1, syncNeeded := false }) s).peer q :=
          by rw [← hs3]; rfl
      rw [this, peer_modTx]; split
      · rename_i e; rw [e]
      · rfl
    have tn : s3.ce.turn = none := by rw [← hs3]; exact t0
    have fw : Fewer s3 (passSegment ch d (placeRequest i e b s3)) := by
      refine Fewer.trans (t := placeRequest i e b s3) (.of rfl (fun _ => rfl) (.inl rfl)) ?_
      exact .of (passSegment_rt d).1 (fun q => by unfold State.peer; rw [(passSegment_rt d).2]) (passSegment_turnLess d)
    refine fw.ages ?_
    clear fw
    obtain ⟨h1, h2, h3, h4⟩ := h
    have new : age s3 e = 1 := by unfold age; rw [et, seq, if_pos rfl, es]; simp [BitVec.add_comm]
    have old : ∀ j g, s.entry j = some g → age s3 g = age s g + (if g.target = p then 1 else 0) := by
      intro j g hg
      have := h1 j g hg
      unfold age at this ⊢
      rw [seq]
      by_cases x : g.target = p
      · rw [if_pos x, if_pos x]
        have n4 := no4 j g hg x
        unfold age at n4
        generalize (s.peer g.target).tx.nextSeq = a at *
        generalize g.sequence = c at *
        have : a + 1 - c = (a - c) + 1 := by bv_omega
        rw [this]; generalize a - c = z at *
        rw [BitVec.toNat_add]; simp; omega
      · rw [if_neg x, if_neg x]; rfl
    have split : ∀ j g, s3.entry j = some g → (j = i ∧ g = e) ∨ (j ≠ i ∧ s.entry j = some g) := by
      intro j g hg; rw [ent] at hg; split at hg
      · cases hg; exact .inl ⟨by assumption, rfl⟩
      · exact .inr ⟨by assumption, hg⟩
    have age2 : ∀ j g, s.entry j = some g → g.target = p → 2 ≤ age s3 g ∧ age s3 g ≤ 4 := by
      intro j g hg x
      have := h1 j g hg; have := no4 j g hg x
      rw [old j g hg, if_pos x]; omega
    refine ⟨fun j g hg => ?_, fun j l g f hg hf x y => ?_, fun _ _ x => (by rw [tn] at x; cases x), ?_⟩
    · rcases split j g hg with ⟨-, rfl⟩ | ⟨-, hg⟩
      · rw [new]; omega
      · have := h1 j g hg
        rw [old j g hg]; split
        · rename_i x; have := no4 j g hg x; omega
        · omega
    · rcases split j g hg with ⟨rfl, rfl⟩ | ⟨-, hg⟩ <;> rcases split l f hf with ⟨rfl, rfl⟩ | ⟨-, hf⟩
      · rfl
      · have := age2 l f hf (by rw [← x, et]); omega
      · have := age2 j g hg (by rw [x, et]); omega
      · rw [old j g hg, old l f hf, x] at y
        exact h2 j l g f hg hf x (by omega)
    · rw [ord, List.pairwise_append]
      refine ⟨?_, by simp, fun a ha b hb g f hg hf x => ?_⟩
      · refine (List.Pairwise.and_mem.1 h4).imp fun {a b} r g f hg hf x => ?_
        obtain ⟨ma, mb, r⟩ := r
        rcases split a g hg with ⟨rfl, -⟩ | ⟨-, hg⟩
        · have := (o.2 a).1 ma; rw [free] at this; cases this
        rcases split b f hf with ⟨rfl, -⟩ | ⟨-, hf⟩
        · have := (o.2 b).1 mb; rw [free] at this; cases this
        rw [old a g hg, old b f hf, x]
        have := r g f hg hf x; omega
      · simp at hb; subst hb
        rcases split a g hg with ⟨rfl, -⟩ | ⟨-, hg⟩
        · have := (o.2 a).1 ha; rw [free] at this; cases this
        rcases split b f hf with ⟨-, rfl⟩ | ⟨n, -⟩
        · have := age2 a g hg (by rw [x, et]); omega
        · exact absurd rfl n

end Sys2Proof.Machine
end

