-- ==== Sys2Proof/Laws/PerInstr.lean ====
section
/-! SUPPORT. Statements about every command as syntax: the bytes the host clocks in for it. -/

namespace Sys2Proof.Laws.CommandBytes

/-- The host command a command is, if it is one (R172). -/
def hostCode : Instr → Option HostCode
  | .status => some .status
  | .storeRead _ => some .storeRead
  | .storeWrite _ => some .storeWrite
  | .takeEvent => some .takeEvent
  | .takeNotice => some .takeNotice
  | .takeChanges => some .takeChanges
  | .submit _ => some .submit
  | .resume _ => some .resume
  | .abort _ => some .abort
  | .readChannel _ => some .readChannel
  | .readPeer _ => some .readPeer
  | .setWindow _ => some .setWindow
  | .setLabel _ => some .setLabel
  | .setTiming _ => some .setTiming
  | .sealStation => some .sealStation
  | .gate _ => some .gate
  | .mask _ => some .mask
  | .leave => some .leave
  | .hardwareReset _ _ => none
  | .powerUp _ _ _ => none
  | .storeDisturbance _ _ _ _ => none
  | .storeAccessEnd => none
  | .issueTurn => none
  | .replyTake => none
  | .deadlinePass _ => none
  | .busyBackoffEnd _ => none
  | .requestTake => none
  | .frameEnd _ => none
  | .claimWindowOpen => none
  | .claimSlot _ _ => none
  | .claimWindowEnd => none
  | .transmissionEnd => none
  | .selectAssert _ => none
  | .selectRelease _ => none
  | .transactionComplete => none
  | .unknownCommand _ => none
  | .resetEnd _ => none
  | .streamByte _ => none

/-- The bytes of a well-formed whole host command are its command byte and as many operand bytes as its code takes (R180); those of an
unknown command are its command byte alone (R171). -/
def Statement (i : Instr) : Prop :=
  i.wellFormed = true → ∀ b, hostBytes i = some b →
    match hostCode i with
    | some c => b.head? = some (codeByte c) ∧ b.length = 1 + operandCount c
    | none => b.length = 1

theorem hardwareReset (straps : BitVec 5) (made : Bool) : Statement (.hardwareReset straps made) := by
  intro _ b h; cases h

theorem powerUp (straps : BitVec 5) (content : List Host.Cell) (marks : List (WordNo × Condition)) : Statement (.powerUp straps content marks) := by
  intro _ b h; cases h

theorem storeDisturbance (word : WordNo) (bits : Nat) (found : Condition) (raw : List Byte) : Statement (.storeDisturbance word bits found raw) := by
  intro _ b h; cases h

theorem storeAccessEnd : Statement .storeAccessEnd := by
  intro _ b h; cases h

theorem issueTurn : Statement .issueTurn := by
  intro _ b h; cases h

theorem replyTake : Statement .replyTake := by
  intro _ b h; cases h

theorem deadlinePass (slot : Slot) : Statement (.deadlinePass slot) := by
  intro _ b h; cases h

theorem busyBackoffEnd (target : Station) : Statement (.busyBackoffEnd target) := by
  intro _ b h; cases h

theorem requestTake : Statement .requestTake := by
  intro _ b h; cases h

theorem frameEnd (received : List Byte) : Statement (.frameEnd received) := by
  intro _ b h; cases h

theorem claimWindowOpen : Statement .claimWindowOpen := by
  intro _ b h; cases h

theorem claimSlot (slot : Fin 62) (part : SlotPart) : Statement (.claimSlot slot part) := by
  intro _ b h; cases h

theorem claimWindowEnd : Statement .claimWindowEnd := by
  intro _ b h; cases h

theorem transmissionEnd : Statement .transmissionEnd := by
  intro _ b h; cases h

theorem selectAssert (clockHigh : Bool) : Statement (.selectAssert clockHigh) := by
  intro _ b h; cases h

theorem selectRelease (bits : Fin 8) : Statement (.selectRelease bits) := by
  intro _ b h; cases h

theorem transactionComplete : Statement .transactionComplete := by
  intro _ b h; cases h

theorem unknownCommand (code : Byte) : Statement (.unknownCommand code) := by
  intro _ b h; cases h; rfl

theorem status : Statement .status := by
  intro _ b h; cases h; exact ⟨rfl, rfl⟩

theorem storeRead (t : Taken (BitVec 24)) : Statement (.storeRead t) := by
  intro _ b h; cases t <;> cases h; exact ⟨rfl, rfl⟩

theorem storeWrite (t : Taken (BitVec 24)) : Statement (.storeWrite t) := by
  intro _ b h; cases t <;> cases h; exact ⟨rfl, rfl⟩

theorem takeEvent : Statement .takeEvent := by
  intro _ b h; cases h; exact ⟨rfl, rfl⟩

theorem takeNotice : Statement .takeNotice := by
  intro _ b h; cases h; exact ⟨rfl, rfl⟩

theorem takeChanges : Statement .takeChanges := by
  intro _ b h; cases h; exact ⟨rfl, rfl⟩

theorem submit (t : Taken SubmitOps) : Statement (.submit t) := by
  intro _ b h; cases t <;> cases h; exact ⟨rfl, rfl⟩

theorem resume (t : Taken ResumeOps) : Statement (.resume t) := by
  intro _ b h; cases t <;> cases h; exact ⟨rfl, rfl⟩

theorem abort (t : Taken Byte) : Statement (.abort t) := by
  intro _ b h; cases t <;> cases h; exact ⟨rfl, rfl⟩

theorem readChannel (t : Taken Byte) : Statement (.readChannel t) := by
  intro _ b h; cases t <;> cases h; exact ⟨rfl, rfl⟩

theorem readPeer (t : Taken Byte) : Statement (.readPeer t) := by
  intro _ b h; cases t <;> cases h; exact ⟨rfl, rfl⟩

theorem setWindow (t : Taken WindowOps) : Statement (.setWindow t) := by
  intro _ b h; cases t <;> cases h; exact ⟨rfl, rfl⟩

theorem setLabel (t : Taken (List Byte)) : Statement (.setLabel t) := by
  intro w b h; cases t
  · cases h
  · simp only [Instr.wellFormed, decide_eq_true_eq] at w
    cases h; simp [hostCode, codeByte, operandCount, w]

theorem setTiming (t : Taken Byte) : Statement (.setTiming t) := by
  intro _ b h; cases t <;> cases h; exact ⟨rfl, rfl⟩

theorem sealStation : Statement .sealStation := by
  intro _ b h; cases h; exact ⟨rfl, rfl⟩

theorem gate (t : Taken GateOps) : Statement (.gate t) := by
  intro _ b h; cases t <;> cases h; exact ⟨rfl, rfl⟩

theorem mask (t : Taken Byte) : Statement (.mask t) := by
  intro _ b h; cases t <;> cases h; exact ⟨rfl, rfl⟩

theorem leave : Statement .leave := by
  intro _ b h; cases h; exact ⟨rfl, rfl⟩

theorem resetEnd (straps : BitVec 5) : Statement (.resetEnd straps) := by
  intro _ b h; cases h

theorem streamByte (data : Byte) : Statement (.streamByte data) := by
  intro _ b h; cases h

end Sys2Proof.Laws.CommandBytes
end

