-- ==== Sys2Proof/Laws/Port.lean ====
section
/-! SUPPORT. The host port's shared operations: what a command does that is taken whole, refused, carried out, or shown. -/

namespace Sys2Proof.Machine

/-- A command with operands, taken whole, runs its decision point once the port has shifted out its bytes (R168, R169). -/
theorem withOperands_whole {α : Type} {c : HostCode} {s : State} (h : ReadyFor c s) (x : α) (f : α → State → State) :
    withOperands c (.whole x) f s = f x { s with hp := { s.hp with out := s.hp.out ++ answered c s, sdo := .driven } } := by
  unfold ReadyFor at h
  cases k : s.hp.txn <;> rw [k] at h <;> simp [Transaction.awaits] at h <;> simp [withOperands, answered, shiftOut, modPort, k, h]

/-- The command byte of a command with operands takes the transaction to OPERANDS (R169). -/
theorem withOperands_code {α : Type} {c : HostCode} {s : State} (h : s.hp.txn = .command) (f : α → State → State) :
    withOperands c .code f s
      = { s with hp := { s.hp with out := s.hp.out ++ [s.hp.status], sdo := .driven, txn := .operands c (operandCount c) } } := by
  simp [withOperands, shiftOut, modPort, h]

/-- A command without operands runs its decision point at the end of its command byte (R168, R169). -/
theorem atCommand_command {s : State} (h : s.hp.txn = .command) (f : State → State) :
    atCommand f s = f { s with hp := { s.hp with out := s.hp.out ++ [s.hp.status], sdo := .driven } } := by
  simp [atCommand, shiftOut, modPort, h]

/-- A refusal changes the port alone (R171). -/
theorem refuse_shifted (r : RefusalReason) (s : State) (bytes : List Byte) :
    refuse r { s with hp := { s.hp with out := s.hp.out ++ bytes, sdo := .driven } } = { s with hp := s.hp.denied bytes r } := rfl

/-- Carrying a command out changes the port alone (R169, R170). -/
theorem carryOut_shifted (s : State) (bytes : List Byte) :
    carryOut { s with hp := { s.hp with out := s.hp.out ++ bytes, sdo := .driven } } = { s with hp := s.hp.done bytes } := rfl

/-- Presenting a record changes the port alone (R169). -/
theorem present_shifted (record : List Byte) (took : Took) (s : State) (bytes : List Byte) :
    present record took { s with hp := { s.hp with out := s.hp.out ++ bytes, sdo := .driven } }
      = { s with hp := s.hp.showing bytes record took } := rfl

end Sys2Proof.Machine
end

