-- ==== Sys2Proof/Laws/Store.lean ====
section
/-! SUPPORT. The page store: reading a sparse list after a write, the canonical form kept by every operation, and what each kind of
access leaves. -/

namespace Sys2Proof.Machine

section Sparse

variable {α : Type} [DecidableEq α] {d : α}

/-- The form of a sparse list, as a proposition. -/
theorem sparseWf_iff {bound : Nat} {m : List (Nat × α)} :
    sparseWf d bound m = true ↔ (m.map Prod.fst).Pairwise (· < ·) ∧ ∀ e ∈ m, e.1 < bound ∧ e.2 ≠ d := by
  simp [sparseWf]

omit [DecidableEq α] in
theorem sparseGet_below {m : List (Nat × α)} {a : Nat} (h : ∀ e ∈ m, a < e.1) : sparseGet d m a = d := by
  induction m with
  | nil => rfl
  | cons e m ih =>
    obtain ⟨k, v⟩ := e
    have hk : a < k := h _ (List.mem_cons_self ..)
    simp only [sparseGet, if_neg (show k ≠ a by omega)]
    exact ih fun e he => h e (List.mem_cons_of_mem _ he)

theorem sparsePut_keys {m : List (Nat × α)} {a : Nat} {v : α} {e : Nat × α} (h : e ∈ sparsePut d a v m) :
    e ∈ m ∨ (e = (a, v) ∧ v ≠ d) := by
  induction m with
  | nil =>
    unfold sparsePut at h; split at h
    · cases h
    · rename_i hv; simp at h; exact .inr ⟨h, hv⟩
  | cons x m ih =>
    obtain ⟨k, u⟩ := x
    unfold sparsePut at h
    split at h
    · rcases List.mem_cons.1 h with rfl | h
      · exact .inl (List.mem_cons_self ..)
      · rcases ih h with h | h
        · exact .inl (List.mem_cons_of_mem _ h)
        · exact .inr h
    · split at h
      · split at h
        · exact .inl (List.mem_cons_of_mem _ h)
        · rename_i hv
          rcases List.mem_cons.1 h with rfl | h
          · exact .inr ⟨rfl, hv⟩
          · exact .inl (List.mem_cons_of_mem _ h)
      · split at h
        · exact .inl h
        · rename_i hv
          rcases List.mem_cons.1 h with rfl | h
          · exact .inr ⟨rfl, hv⟩
          · exact .inl h

/-- A write keeps the keys rising. -/
theorem sparsePut_rising {m : List (Nat × α)} (a : Nat) (v : α) (h : (m.map Prod.fst).Pairwise (· < ·)) :
    ((sparsePut d a v m).map Prod.fst).Pairwise (· < ·) := by
  induction m with
  | nil => unfold sparsePut; split <;> simp
  | cons x m ih =>
    obtain ⟨k, u⟩ := x
    simp only [List.map_cons, List.pairwise_cons] at h
    unfold sparsePut
    split
    · rename_i hk
      simp only [List.map_cons, List.pairwise_cons]
      refine ⟨?_, ih h.2⟩
      intro b hb
      obtain ⟨e, he, rfl⟩ := List.mem_map.1 hb
      rcases sparsePut_keys he with he | ⟨rfl, _⟩
      · exact h.1 _ (List.mem_map_of_mem he)
      · exact hk
    · split
      · rename_i hk; subst hk
        split
        · exact h.2
        · simp only [List.map_cons, List.pairwise_cons]; exact h
      · split
        · simp only [List.map_cons, List.pairwise_cons]; exact h
        · rename_i h1 h2 _
          simp only [List.map_cons, List.pairwise_cons]
          refine ⟨?_, h⟩
          intro b hb
          rcases List.mem_cons.1 hb with rfl | hb
          · omega
          · have := h.1 b hb; omega

/-- A write in range keeps the canonical form. -/
theorem sparsePut_wf {bound : Nat} {m : List (Nat × α)} {a : Nat} {v : α} (h : sparseWf d bound m = true) (ha : a < bound) :
    sparseWf d bound (sparsePut d a v m) = true := by
  rw [sparseWf_iff] at h ⊢
  refine ⟨sparsePut_rising a v h.1, fun e he => ?_⟩
  rcases sparsePut_keys he with he | ⟨rfl, hv⟩
  · exact h.2 e he
  · exact ⟨ha, hv⟩

/-- A read after a write: the value written, at its key; what was there, elsewhere. -/
theorem sparseGet_put {m : List (Nat × α)} (h : (m.map Prod.fst).Pairwise (· < ·)) (a b : Nat) (v : α) :
    sparseGet d (sparsePut d a v m) b = if b = a then v else sparseGet d m b := by
  induction m with
  | nil =>
    unfold sparsePut; split
    · rename_i hv; subst hv; simp [sparseGet]
    · simp only [sparseGet, eq_comm (a := a)]
  | cons x m ih =>
    obtain ⟨k, u⟩ := x
    simp only [List.map_cons, List.pairwise_cons] at h
    have below : ∀ e ∈ m, k < e.1 := fun e he => h.1 _ (List.mem_map_of_mem he)
    unfold sparsePut
    split
    · rename_i hk
      simp only [sparseGet, ih h.2]
      by_cases hb : k = b
      · rw [if_pos hb, if_pos hb, if_neg (by omega)]
      · rw [if_neg hb, if_neg hb]
    · split
      · rename_i hk; subst hk
        by_cases hb : b = k
        · subst hb
          split
          · rename_i hv; subst hv; rw [if_pos rfl]; exact sparseGet_below below
          · simp [sparseGet]
        · rw [if_neg hb]
          split <;> simp [sparseGet, Ne.symm hb]
      · rename_i h1 h2
        have hak : a < k := by omega
        split
        · rename_i hv; subst hv
          by_cases hb : b = a
          · subst hb
            rw [if_pos rfl]
            exact sparseGet_below fun e he => by
              rcases List.mem_cons.1 he with rfl | he
              · exact hak
              · have := below e he; omega
          · rw [if_neg hb]
        · by_cases hb : b = a
          · subst hb; simp [sparseGet]
          · rw [if_neg hb, sparseGet, if_neg (Ne.symm hb)]

/-- Writing what is there changes nothing. -/
theorem sparsePut_same {bound : Nat} {m : List (Nat × α)} (h : sparseWf d bound m = true) (a : Nat) :
    sparsePut d a (sparseGet d m a) m = m := by
  rw [sparseWf_iff] at h
  induction m with
  | nil => simp [sparseGet, sparsePut]
  | cons x m ih =>
    obtain ⟨k, u⟩ := x
    have hp := h.1
    simp only [List.map_cons, List.pairwise_cons] at hp
    have below : ∀ e ∈ m, k < e.1 := fun e he => hp.1 _ (List.mem_map_of_mem he)
    unfold sparsePut
    split
    · rename_i hk
      simp only [sparseGet, if_neg (show k ≠ a by omega)]
      rw [ih ⟨hp.2, fun e he => h.2 e (List.mem_cons_of_mem _ he)⟩]
    · split
      · rename_i hk; subst hk
        simp only [sparseGet]
        simp [(h.2 (k, u) (List.mem_cons_self ..)).2]
      · have : sparseGet d ((k, u) :: m) a = d := sparseGet_below fun e he => by
          rcases List.mem_cons.1 he with rfl | he
          · simp; omega
          · have := below e he; omega
        rw [this]; simp

end Sparse

/-! ## The canonical form -/

theorem PageStore.wf_iff {st : PageStore} :
    st.wf = true ↔ sparseWf (0 : Byte) 131072 st.cells = true ∧ sparseWf Condition.good 16384 st.conditions = true := by
  simp [PageStore.wf]

theorem foldPut_wf {m : List (Nat × Byte)} (f : Nat → Byte) (base : Nat) (l : List Nat) (hl : ∀ k ∈ l, base + k < 131072)
    (h : sparseWf (0 : Byte) 131072 m = true) :
    sparseWf (0 : Byte) 131072 (l.foldl (fun m k => sparsePut 0 (base + k) (f k) m) m) = true := by
  induction l generalizing m with
  | nil => exact h
  | cons k l ih =>
    exact ih (fun j hj => hl j (List.mem_cons_of_mem _ hj)) (sparsePut_wf h (hl k (List.mem_cons_self ..)))

theorem word_range (w : WordNo) {k : Nat} (h : k < 8) : 8 * w.toNat + k < 131072 := by
  have := w.isLt; omega

theorem putWord_wf {st : PageStore} (h : st.wf = true) (w : WordNo) (b : List Byte) : (putWord st w b).wf = true := by
  rw [PageStore.wf_iff] at h ⊢
  exact ⟨foldPut_wf (byteAt b) _ _ (fun k hk => word_range w (List.mem_range.1 hk)) h.1, h.2⟩

theorem setCondition_wf {st : PageStore} (h : st.wf = true) (w : WordNo) (c : Condition) : (setCondition st w c).wf = true := by
  rw [PageStore.wf_iff] at h ⊢
  exact ⟨h.1, sparsePut_wf h.2 w.isLt⟩

/-- Every access keeps the store's canonical form. -/
theorem performAccess_wf {st : PageStore} (h : st.wf = true) (a : Access) : (performAccess st a).1.wf = true := by
  cases a with
  | read w =>
    simp only [performAccess, readAccess]; split
    · exact h
    · exact setCondition_wf h w .good
  | full w b => exact setCondition_wf (putWord_wf h w b) w .good
  | part w n b =>
    simp only [performAccess, partAccess]; split
    · exact h
    · exact setCondition_wf (putWord_wf h w _) w .good
  | swap w u c n =>
    simp only [performAccess, swapAccess]; split
    · exact h
    · split
      · exact setCondition_wf (putWord_wf h w _) w .good
      · exact setCondition_wf h w .good

/-- Every disturbance keeps it. -/
theorem disturb_wf {st : PageStore} (h : st.wf = true) (w : WordNo) (n : Nat) (f : Condition) (r : List Byte) :
    (disturb st w n f r).wf = true := by
  unfold disturb; split
  · exact h
  · exact setCondition_wf h w _
  all_goals exact setCondition_wf (putWord_wf h w r) w _

/-- The content that power leaves has it. -/
theorem contentStore_wf (content : List Host.Cell) (marks : List (WordNo × Condition)) : (contentStore content marks).wf = true := by
  rw [PageStore.wf_iff]
  constructor
  · suffices g : ∀ (l : List Host.Cell) (m : List (Nat × Byte)), sparseWf (0 : Byte) 131072 m = true →
        sparseWf (0 : Byte) 131072 (l.foldl (fun m c => if c.1 < 131072 then sparsePut 0 c.1 c.2 m else m) m) = true from
      g content [] rfl
    intro l
    induction l with
    | nil => exact fun m h => h
    | cons c l ih =>
      intro m h
      rw [List.foldl_cons]
      refine ih _ ?_
      split
      · rename_i hc; exact sparsePut_wf h hc
      · exact h
  · suffices g : ∀ (l : List (WordNo × Condition)) (m : List (Nat × Condition)), sparseWf Condition.good 16384 m = true →
        sparseWf Condition.good 16384 (l.foldl (fun m c => sparsePut .good c.1.toNat c.2 m) m) = true from g marks [] rfl
    intro l
    induction l with
    | nil => exact fun m h => h
    | cons c l ih => exact fun m h => ih _ (sparsePut_wf h c.1.isLt)

/-! ## Reading after a write -/

theorem cells_rising {st : PageStore} (h : st.wf = true) : (st.cells.map Prod.fst).Pairwise (· < ·) :=
  (sparseWf_iff.1 (PageStore.wf_iff.1 h).1).1

theorem conditions_rising {st : PageStore} (h : st.wf = true) : (st.conditions.map Prod.fst).Pairwise (· < ·) :=
  (sparseWf_iff.1 (PageStore.wf_iff.1 h).2).1

theorem condition_setCondition {st : PageStore} (h : st.wf = true) (w v : WordNo) (c : Condition) :
    condition (setCondition st w c) v = if v = w then c else condition st v := by
  simp only [condition, setCondition, sparseGet_put (conditions_rising h), BitVec.toNat_inj]

theorem setCondition_same {st : PageStore} (h : st.wf = true) (w : WordNo) (c : Condition) (e : condition st w = c) :
    setCondition st w c = st := by
  subst e
  simp only [setCondition, condition, sparsePut_same (PageStore.wf_iff.1 h).2]

@[simp] theorem condition_putWord (st : PageStore) (w v : WordNo) (b : List Byte) : condition (putWord st w b) v = condition st v := rfl

@[simp] theorem storedByte_setCondition (st : PageStore) (w : WordNo) (c : Condition) (a : Nat) :
    storedByte (setCondition st w c) a = storedByte st a := rfl

theorem foldPut_get {m : List (Nat × Byte)} (f : Nat → Byte) (base : Nat) (l : List Nat) (hl : l.Nodup)
    (h : (m.map Prod.fst).Pairwise (· < ·)) (a : Nat) :
    sparseGet 0 (l.foldl (fun m k => sparsePut 0 (base + k) (f k) m) m) a
      = if base ≤ a ∧ a - base ∈ l then f (a - base) else sparseGet 0 m a := by
  induction l generalizing m with
  | nil => simp
  | cons k l ih =>
    rw [List.foldl_cons, ih (List.nodup_cons.1 hl).2 (sparsePut_rising _ _ h), sparseGet_put h]
    by_cases hb : base ≤ a ∧ a - base ∈ l
    · rw [if_pos hb, if_pos ⟨hb.1, List.mem_cons_of_mem _ hb.2⟩]
    · rw [if_neg hb]
      by_cases ha : a = base + k
      · rw [if_pos ha, if_pos ⟨by omega, by rw [List.mem_cons]; left; omega⟩]; congr 1; omega
      · rw [if_neg ha, if_neg]
        rintro ⟨h1, h2⟩
        rcases List.mem_cons.1 h2 with h2 | h2
        · omega
        · exact hb ⟨h1, h2⟩

/-- The bytes of the store after a word is given its bytes. -/
theorem storedByte_putWord {st : PageStore} (h : st.wf = true) (w : WordNo) (b : List Byte) (a : Nat) :
    storedByte (putWord st w b) a = if a / 8 = w.toNat then byteAt b (a % 8) else storedByte st a := by
  have := foldPut_get (byteAt b) (8 * w.toNat) (List.range 8) (List.nodup_range) (cells_rising h) a
  simp only [storedByte, putWord, this, List.mem_range]
  by_cases ha : a / 8 = w.toNat
  · rw [if_pos ha, if_pos (by omega)]; congr 1; omega
  · rw [if_neg ha, if_neg (by omega)]

theorem wordBytes_length (st : PageStore) (w : WordNo) : (wordBytes st w).length = 8 := by simp [wordBytes]

theorem wordBytes_getD (st : PageStore) (w : WordNo) {k : Nat} (h : k < 8) :
    (wordBytes st w).getD k 0 = storedByte st (8 * w.toNat + k) := by
  simp [wordBytes, List.getD_eq_getElem?_getD, h]

/-- A byte of a word after a run of bytes has been merged into it. -/
theorem mergeRun_getD (old run : List Byte) (first k : Nat) (h : old.length = 8) (hf : first + run.length ≤ 8) :
    (mergeRun old first run).getD k 0
      = if first ≤ k ∧ k < first + run.length then run.getD (k - first) 0 else old.getD k 0 := by
  simp only [mergeRun, List.getD_eq_getElem?_getD, List.append_assoc]
  by_cases h1 : k < first
  · rw [if_neg (by omega), List.getElem?_append_left (by simp; omega), List.getElem?_take_of_lt h1]
  · by_cases h2 : k < first + run.length
    · rw [if_pos ⟨by omega, h2⟩, List.getElem?_append_right (by simp; omega),
        List.getElem?_append_left (by simp; omega)]
      congr 2; simp; omega
    · rw [if_neg (by omega), List.getElem?_append_right (by simp; omega),
        List.getElem?_append_right (by simp; omega), List.getElem?_drop]
      congr 2; simp; omega

end Sys2Proof.Machine
end

