-- ==== Sys2Proof/Tests/Slice0.lean ====
section
/-! SUPPORT. Tests: ill-formed commands refused, host bytes read, the manual's worked examples, one step of each command, and
states that meet the hypotheses of the statements. Expected values come from the manual's tables and examples. -/

/- The theorems are checked one after another: side by side their kernel checks would each hold a thread. -/
set_option Elab.async false

namespace Sys2Proof.Machine.Tests

open Sys2Proof Sys2Proof.Machine

/-! ## Helpers -/

/-- The state a step answers. -/
def after : Host.Outcome State Fault Refusal → State
  | .next t => t
  | _ => State.reset

/-- A part in a phase, selected, with its transaction in a state. -/
def port (p : Phase) (x : Transaction) : State :=
  { State.reset with hp := { phase := p, txn := x }, pins := { selected := true } }

/-- A part in a phase whose transaction is at its operands. -/
def ready (c : HostCode) (p : Phase) : State := port p (.operands c (operandCount c))

/-- Station 0 in RUNNING, station 3 PRESENT. -/
def running : State := setStatus 3 .present { State.reset with hp := { phase := .running } }

/-- A descriptor at 0x00100 for station 3, tag 7: next 0x00120, local 0x01000, remote 0x02000. -/
def desc (op flags count : Byte) : List Byte :=
  [0, 1, 0x20, op, flags, 3, 0, 7, 0, count, 0, 0, 0, 0x10, 0, 0, 0, 0x20, 0, 0] ++ List.replicate 12 0

/-- Channel 0 ACTIVE with such a descriptor. -/
def chan (op flags count : Byte) : Channel :=
  { state := .active, resume := some 0x100, current := some ⟨0x100, desc op flags count⟩ }

/-- A request table entry of channel 0 for station 3, sequence 0. -/
def entry (k : RequestKind) (v : EntryState) : Entry :=
  { channel := 0, orphan := false, kind := k, target := 3, sequence := 0, localAt := 0x1000, remoteAt := 0x2000, length := 16,
    tag := 7, offset := 0, final := false, sync := false, tries := 1, state := v }

/-- A state that holds an entry in slot 0. -/
def holding (e : Entry) (s : State) : State :=
  modTx 3 (fun t => { t with nextSeq := 1, held := 1 }) (setOrder [0] (setEntry 0 (some e) s))

/-- A frame to station 0. -/
def frame (k : FrameKind) (sender sequence : Byte) (length : BitVec 16) (payload : List Byte) : Frame :=
  { kind := k, flags := {}, sender := sender, target := 0, sequence := sequence, address := 0x2000, length := length, code := 0,
    payload := payload }

/-- A state in which an access of the host port, the channel engine or the service unit holds the grant. -/
def grantedHp (a : Access) (w : HpWork) (s : State) : State := { s with arb := { last := .hp, granted := some .hp, hp := [(a, w)] } }
def grantedCe (a : Access) (w : CeWork) (s : State) : State := { s with arb := { last := .ce, granted := some .ce, ce := [(a, w)] } }
def grantedSu (a : Access) (w : SuWork) (s : State) : State := { s with arb := { last := .su, granted := some .su, su := [(a, w)] } }

/-- A store with one word in a condition. -/
def stored (c : Condition) : PageStore := setCondition {} 1 c

/-! ## Well-formedness -/

theorem test_wellFormed_powerUp_refused : (Instr.powerUp 0 [(131072, 1)] []).wellFormed = false := by decide

theorem test_wellFormed_powerUp : (Instr.powerUp 0 [(131071, 1)] []).wellFormed = true := by decide

theorem test_wellFormed_disturbance_bits_refused :
    (Instr.storeDisturbance 0 0 .good (List.replicate 8 0)).wellFormed = false := by decide

theorem test_wellFormed_disturbance_raw_refused :
    (Instr.storeDisturbance 0 1 .good (List.replicate 7 0)).wellFormed = false := by decide

theorem test_wellFormed_frameEnd_refused : (Instr.frameEnd []).wellFormed = false := by decide

theorem test_wellFormed_unknownCommand_refused : (Instr.unknownCommand 0x30).wellFormed = false := by decide

theorem test_wellFormed_setLabel_refused : (Instr.setLabel (.whole (List.replicate 7 0x41))).wellFormed = false := by decide

/-! ## Bytes (R126, R180, R183, R184) -/

/-- The bytes of the host commands, written out from R180. -/
theorem test_host_bytes :
    hostCommandOf [0x00] = some .status ∧ hostCommandOf [0x10, 0x00, 0x04, 0x00] = some (.storeRead (.whole 0x400))
      ∧ hostCommandOf [0x30, 2, 1, 0x01, 0xFF, 0xE0] = some (.submit (.whole ⟨2, 1, 0x1FFE0⟩))
      ∧ hostCommandOf [0x40, 7, 0x01, 0xFF, 0x02, 0x00, 5, 0x80, 0, 0, 0x40, 1, 0]
        = some (.setWindow (.whole ⟨7, 511, 512, 5, 0x80000040, 1, 0⟩))
      ∧ hostCommandOf [0x50, 1, 1] = some (.gate (.whole ⟨1, 1⟩)) ∧ hostCommandOf [0x51, 7] = some (.mask (.whole 7))
      ∧ hostCommandOf [0x7F] = some (.unknownCommand 0x7F) ∧ hostCommandOf [0x32] = none := by decide +kernel

/-- Stations 7 and 30 of a station set: bit 7 of the first byte, bit 6 of the fourth (R180). -/
theorem test_station_set : stationSetOf 0x80000040 = 0x40000080 := by decide

/-- The check of the nine characters 1 to 9 is 0xFC891918 for the cyclic check that R126 describes. -/
theorem test_frame_check :
    frameCheck [0x31, 0x32, 0x33, 0x34, 0x35, 0x36, 0x37, 0x38, 0x39] = [0xFC, 0x89, 0x19, 0x18] := by decide +kernel

/-- The header of a WRITE with SYNC and FINAL from 4 to 9, sequence 200, at 0x12345, 16 bytes (R183). -/
theorem test_header :
    headerBytes {
      kind := .request .write, flags := { sync := true, final := true }, sender := 4, target := 9, sequence := 200
      address := 0x12345, length := 16, code := 0, payload := [] }
      = [0x2C, 4, 9, 200, 0x01, 0x23, 0x45, 0x00, 0x10, 0x00] := by decide

/-- An event record: CHAIN-FAULT of channel 2, REMOTE-DENIED, descriptor 0x10020, detail 100 (R184). -/
theorem test_event_record :
    eventRecord { kind := .chainFault, channel := 2, code := some .remoteDenied, address := 0x10020, detail := 100 }
      = [0x32, 0x08, 0x08, 0x01, 0, 0, 0, 100] := by decide

/-! ## The worked examples of the manual -/

/-- The two-dimensional GET of 2.4.1: its four segments, and the advanced addresses. -/
theorem test_segments :
    let d : Descriptor :=
      { next := 0, op := some .get, stop := true, notify := false, final := false, advLocal := true, advRemote := true, plane := true,
        keepValue := false, target := 12, tag := 0, count := 100, lines := 3, localAt := 0x1000, remoteAt := 0x40C0,
        localPitch := 100, remotePitch := 160 }
    d.segmentAt 0 0 = ⟨0x1000, 0x40C0, 64, 0, false⟩ ∧ d.positionAfter 0 0 = (0, 64)
      ∧ d.segmentAt 0 64 = ⟨0x1040, 0x4100, 36, 64, false⟩ ∧ d.positionAfter 0 64 = (1, 0)
      ∧ d.segmentAt 1 0 = ⟨0x1064, 0x4160, 100, 100, false⟩ ∧ d.segmentAt 2 0 = ⟨0x10C8, 0x4200, 100, 200, true⟩
      ∧ d.advancedLocal = 0x112C ∧ d.advancedRemote = 0x42A0 ∧ d.check 7 true = none := by decide

/-- The overlapping windows of 5.1.1. -/
theorem test_windows :
    let w (b l : Nat) (r : Rights) (f : BitVec 31) (u o : Bool) : Window :=
      { base := b, length := l, rights := r, senders := f, singleUse := u, isOpen := o }
    let s : State := { State.reset with su := { windows :=
      #v[w 64 4 { read := true } (1 <<< 7 ||| 1 <<< 9) false true, w 66 1 { read := true, write := true } (1 <<< 9) true true,
         w 0 512 { read := true } (-1) false false, {}, {}, {}, {}, {}] } }
    windowUsed s 7 .read 0x4210 0x422F = some 0 ∧ windowUsed s 9 .write 0x4210 0x422F = some 1
      ∧ windowUsed (setGate 1 false s) 9 .write 0x4220 0x423F = none ∧ windowUsed s 9 .read 0x4210 0x422F = some 0
      ∧ windowUsed s 9 .write 0x4300 0x430F = none ∧ windowUsed s 12 .read 0x100 0x107 = none := by decide +kernel

/-- The grants of 1.3.3: after CE the order is SU, HP, CE; with no SU waiting, HP follows CE. -/
theorem test_grants :
    let s (l : Requester) (su : List (Access × SuWork)) : State := { State.reset with
      arb := { last := l, hp := [(.read 0, .stream)], ce := [(.read 64, .dropped)], su := su } }
    (grantNext (s .ce [(.read 1, .swap)])).arb.granted = some .su ∧ (grantNext (s .su [(.read 1, .swap)])).arb.granted = some .hp
      ∧ (grantNext (s .hp [(.read 1, .swap)])).arb.granted = some .ce ∧ (grantNext (s .ce [])).arb.granted = some .hp := by decide

/-- The slots of 7.6.1: with rotor 13, station 20 has reply slot 7, station 2 request slot 51, station 9 request slot 58. -/
theorem test_slots :
    slotPlace 20 13 = 7 ∧ 31 + slotPlace 2 13 = 51 ∧ 31 + slotPlace 9 13 = 58 ∧ 31 + slotPlace 2 21 = 43 ∧ slotPlace 14 21 = 24
      ∧ 31 + slotPlace 9 3 = 37 := by decide

/-- The digits of 7.6.2: 5 and 6 in one slot show 4; 4 and 5 show 4. -/
theorem test_read_back : readBack 5 [6] = 4 ∧ readBack 4 [5] = 4 := by decide

/-! ## One step of each command -/

/-- A reset during a granted access makes it whole or not at all, and keeps the store (R13, R14). -/
theorem test_hardwareReset :
    let s := grantedHp (.full 1 (List.replicate 8 9)) .dropped running
    (after (exec (.hardwareReset 5 true) s)).st = { cells := (List.range 8).map fun k => (8 + k, 9) } ∧ (after (exec (.hardwareReset 5 false) s)).st = {}
      ∧ (after (exec (.hardwareReset 5 true) s)).own = 5 ∧ (after (exec (.hardwareReset 5 true) s)).hp.phase = .config := by
  decide +kernel

theorem test_powerUp :
    let t := after (exec (.powerUp 30 [(131071, 7)] [(16383, .uncorrectable)]) running)
    storedByte t.st 131071 = 7 ∧ condition t.st 16383 = .uncorrectable ∧ t.own = 30 ∧ (t.peer 30).status = .self := by decide +kernel

/-- One wrong bit, then a second (R2). -/
theorem test_storeDisturbance :
    let t := after (exec (.storeDisturbance 1 1 .good (List.replicate 8 0)) running)
    condition t.st 1 = .correctable
      ∧ condition (after (exec (.storeDisturbance 1 1 .good (List.replicate 8 5)) t)).st 1 = .uncorrectable := by decide +kernel

/-- Steps 3 and 5 of 10.10: the partial write is refused and the skip noted; the last word clears COMMIT and sets WRITE-ERROR. -/
theorem test_storeAccessEnd :
    let w := writePiece 0x404 ((List.range 12).map (BitVec.ofNat 8)) false
    let s := { grantedHp w.1 (.commit w.2) running with st := setCondition {} 128 .uncorrectable }
    let t := after (exec .storeAccessEnd s)
    let u := after (exec .storeAccessEnd t)
    condition t.st 128 = .uncorrectable ∧ storedByte t.st 0x404 = 0 ∧ t.arb.granted = some .hp
      ∧ storedByte u.st 0x408 = 4 ∧ u.hp.writeError = true ∧ u.arb.hp = [] := by decide +kernel

/-- A GET of 16 bytes takes entry 0 with sequence 0, and its READ frame is queued (R48, R67, R68). -/
theorem test_issueTurn :
    let t := after (exec .issueTurn (setChannel 0 (chan 2 1 16) running))
    (t.entry 0).map Entry.length = some 16 ∧ (t.peer 3).tx.nextSeq = 1 ∧ (t.channel 0).allIssued = true
      ∧ t.sl.requestQueue.map (fun q => q.frame.address) = [0x2000] := by decide +kernel

/-- The last ACK of a PUT: the entry is free, and the status byte 0x01 is asked for at 0x0011F (R32, R50). -/
theorem test_replyTake :
    let c : Channel := { chan 1 1 16 with allIssued := true, issued := 1, outstanding := 1 }
    let s := holding (entry .write (.waiting 100)) (setChannel 0 c running)
    let t := after (exec .replyTake { s with sl := { s.sl with inReplies := [frame (.reply .ack) 3 0 0 []] } })
    t.entry 0 = none ∧ (t.channel 0).outstanding = 0 ∧ t.arb.ce = [(.part 35 7 [0x01], .doneStatus 0)] := by decide +kernel

/-- Go-back (R83). -/
theorem test_deadlinePass :
    let t := after (exec (.deadlinePass 0) (holding (entry .write (.waiting 100)) running))
    (t.entry 0).map Entry.state = some (.rewind true) ∧ t.now = 100 := by decide +kernel

theorem test_busyBackoffEnd :
    let s := modTx 3 (fun t => { t with backoff := some 50 }) running
    ((after (exec (.busyBackoffEnd 3) s)).peer 3).tx.backoff = none := by decide +kernel

/-- A NOTICE in order is queued, cached and acknowledged (R99, R108, R116). -/
theorem test_requestTake :
    let s := { running with sl := { running.sl with inRequests := [frame (.request .notice) 3 0 6 [0, 7, 1, 2, 3, 4]] } }
    let t := after (exec .requestTake s)
    t.nq.records = [⟨3, 7, [1, 2, 3, 4]⟩] ∧ (t.peer 3).rx.expected = 1
      ∧ t.sl.replyQueue.map (fun f => (f.kind, f.target)) = [(.reply .ack, 3)] := by decide +kernel

/-- From an ABSENT station: NOT-JOINED, and a presence frame (R97). -/
theorem test_requestTake_absent :
    let s := { running with sl := { running.sl with inRequests := [frame (.request .notice) 4 0 6 [0, 7, 1, 2, 3, 4]] } }
    let t := after (exec .requestTake s)
    t.sl.replyQueue.map Frame.code = [0x05] ∧ t.sl.holder.isSome = true ∧ (t.peer 4).rx.expected = 0 := by decide +kernel

/-- A good reply frame goes to its buffer and sets the rotor; a bit wrong, and nothing is taken (R127, R128, R130). -/
theorem test_frameEnd :
    let b := frameBytes (frame (.reply .ack) 12 0 0 [])
    let t := after (exec (.frameEnd b) running)
    let u := after (exec (.frameEnd (b.set 3 1)) running)
    t.sl.rotor = 13 ∧ t.sl.inReplies.length = 1 ∧ u.sl.rotor = 0 ∧ u.sl.inReplies = [] := by decide +kernel

/-- A HELLO in CONFIG makes its sender PRESENT and sets its flag (R148). -/
theorem test_frameEnd_hello :
    let b := frameBytes (presenceFrame 9 (List.replicate 8 0x41) true false)
    let t := after (exec (.frameEnd b) State.reset)
    (t.peer 9).status = .present ∧ (t.peer 9).label = List.replicate 8 0x41 ∧ t.ev.peerFlags = 0x200 := by decide +kernel

theorem test_claimWindowOpen :
    let s := { running with own := 20, sl := { running.sl with rotor := 13 } }
    (after (exec .claimWindowOpen s)).sl.window = some ⟨true, 7, 38, false⟩ := by decide +kernel

/-- 7.6.2: station 5 with station 6 in slot 33 defers; station 4 with station 5 in slot 32 wins. -/
theorem test_claimSlot :
    let q : QueuedFrame := ⟨0, frame (.request .read) 5 0 16 [], false⟩
    let s (own : BitVec 5) (n : Nat) : State := { running with own := own, sl := {
      requestQueue := [q], window := some ⟨true, n - 31, n, false⟩ } }
    (after (exec (.claimSlot 33 (.whole [6])) (s 5 33))).sl.claim = .idle
      ∧ (after (exec (.claimSlot 32 (.whole [5])) (s 4 32))).sl.claim = .sending .request := by decide +kernel

theorem test_claimWindowEnd :
    (after (exec .claimWindowEnd { running with sl := { rotor := 13 } })).sl.rotor = 0 := by decide +kernel

/-- Station 20's reply is sent: it leaves the queue, and the rotor is 21 (7.6.1). -/
theorem test_transmissionEnd :
    let s := { running with own := 20, sl := { replyQueue := [frame (.reply .ack) 20 0 0 []], claim := .sending .reply } }
    let t := after (exec .transmissionEnd s)
    t.sl.rotor = 21 ∧ t.sl.replyQueue = [] ∧ t.sl.claim = .idle := by decide +kernel

/-- A HELLO sent in JOINING begins RUNNING (R153, R189). -/
theorem test_transmissionEnd_hello :
    let s := { State.reset with
      hp := { phase := .joining }, sl := { holder := some (presenceFrame 0 [] true false), claim := .sending .presence } }
    (after (exec .transmissionEnd s)).hp.phase = .running := by decide +kernel

/-- The status byte of step 2 of 10.10: RUNNING with COMMIT set, 0x0A (R181). -/
theorem test_selectAssert :
    let t := after (exec (.selectAssert false) { running with hp := { running.hp with commit := true } })
    t.hp.status = 0x0A ∧ t.hp.txn = .command ∧ t.hp.sdo = .driven := by decide +kernel

/-- Changes taken and not shifted out are set again (R163). -/
theorem test_selectRelease :
    (after (exec (.selectRelease 0) (port .running (.output [] (.changes 6 1))))).ev.peerFlags = 6 := by decide +kernel

theorem test_transactionComplete :
    let s := port .running (.output [1, 2] (.event true))
    let e : Event := { kind := .chainDone, channel := 0, code := none, address := 0, detail := 0 }
    let t := after (exec .transactionComplete { s with ev := { s.ev with events := [e] } })
    t.ev.events = [] ∧ t.hp.out = [1, 2] ∧ t.hp.txn = .spent := by decide +kernel

theorem test_unknownCommand :
    (after (exec (.unknownCommand 0x7F) (port .running .command))).hp.reason = some .unknown := by decide +kernel

/-- The output of STATUS after reset (R177, R181): phase, reason, counts, own number, enables, timing 1. -/
theorem test_status :
    (after (exec .status (port .config .command))).hp.txn = .output [0, 0, 0, 0, 0, 0, 0, 1] .copy := by decide +kernel

/-- Step 2 of 10.10: refused BUSY. -/
theorem test_storeRead :
    let s := ready .storeRead .running
    (after (exec (.storeRead (.whole 0x400)) { s with hp := { s.hp with commit := true } })).hp.reason = some .busy := by
  decide +kernel

/-- Step 1 of 10.10: the range is written from byte 4 of word 128. -/
theorem test_storeWrite :
    let t := after (exec (.storeWrite (.whole 0x404)) (ready .storeWrite .running))
    let u := after (exec (.streamByte 9) t)
    t.hp.txn = .writing 0x404 0 ∧ u.hp.buffer = [9]
      ∧ (after (exec (.selectRelease 0) u)).arb.hp.map Prod.fst = [.part 128 4 [9]] := by decide +kernel

/-- A byte of a STORE-READ stream: byte 5 of its word, and the next word asked for (R173). -/
theorem test_streamByte :
    let r : ReadStream := ⟨0x405, some ⟨[0, 1, 2, 3, 4, 5, 6, 7], false⟩, none, true, false⟩
    let t := after (exec (.streamByte 0) (port .running (.reading r)))
    t.hp.out = [5] ∧ t.arb.hp.map Prod.fst = [.read 129] := by decide +kernel

/-- Two bytes of a NONE record and an early release (R168, R169): they are out, and the event queue is as it was. -/
theorem test_streamByte_record :
    let t := after (exec (.streamByte 0) (after (exec (.streamByte 0) (port .running (.output (List.replicate 8 0) (.event false))))))
    t.hp.out = [0, 0] ∧ t.hp.txn = .output (List.replicate 6 0) (.event false)
      ∧ (after (exec (.selectRelease 3) t)).hp.out = [0, 0] := by decide +kernel

/-- The last byte of a record completes TAKE-EVENT (R160, R169); the first byte of RESUME's operands leaves one to come (R168). -/
theorem test_streamByte_last :
    let s := port .running (.output [7] (.event true))
    let e : Event := { kind := .chainDone, channel := 0, code := none, address := 0, detail := 0 }
    let t := after (exec (.streamByte 0) { s with ev := { events := [e] } })
    t.ev.events = [] ∧ t.hp.out = [7] ∧ t.hp.txn = .spent
      ∧ (after (exec (.streamByte 1) (ready .resume .running))).hp.txn = .operands .resume 1 := by decide +kernel

theorem test_takeEvent : (after (exec .takeEvent (port .running .command))).hp.txn = .output (List.replicate 8 0) (.event false) := by
  decide +kernel

theorem test_takeNotice :
    let s := port .running .command
    let t := after (exec .takeNotice { s with nq := { s.nq with records := [⟨3, 0x1234, [1, 2, 3, 4]⟩] } })
    t.hp.txn = .output [1, 3, 0x12, 0x34, 1, 2, 3, 4] (.notice (some ⟨3, 0x1234, [1, 2, 3, 4]⟩)) ∧ t.nq.records = [] := by decide +kernel

theorem test_takeChanges :
    let s := port .running .command
    let t := after (exec .takeChanges { s with ev := { s.ev with peerFlags := 0x40000081, windowFlags := 2 } })
    t.hp.txn = .output [0x81, 0, 0, 0x40, 3, 2] (.changes 0x40000081 2) ∧ t.ev.peerFlags = 0 := by decide +kernel

theorem test_submit :
    let t := after (exec (.submit (.whole ⟨2, 0, 0x100⟩)) (ready .submit .running))
    (t.channel 2).state = .active ∧ (t.channel 2).cls = .urgent ∧ t.arb.ce = [(.read 32, .fetch 2 0x100 [])]
      ∧ t.arb.granted = some .ce := by decide +kernel

theorem test_resume :
    let s := setChannel 1 { state := .faulted, resume := some 0x200 } (ready .resume .running)
    ((after (exec (.resume (.whole ⟨1, 2⟩)) s)).channel 1).state = .active := by decide +kernel

/-- ABORT of a running channel: an orphan, and CHAIN-ABORTED with the resume address (R60). -/
theorem test_abort :
    let s := holding (entry .write (.waiting 100)) (setChannel 0 (chan 1 1 16) (ready .abort .running))
    let t := after (exec (.abort (.whole 0)) s)
    (t.channel 0).state = .idle ∧ (t.entry 0).map Entry.orphan = some true ∧ t.ev.events.map Event.address = [0x100] := by decide +kernel

theorem test_readChannel : (after (exec (.readChannel (.whole 4)) (ready .readChannel .running))).hp.reason = some .range := by
  decide +kernel

theorem test_readPeer :
    (after (exec (.readPeer (.whole 0)) (ready .readPeer .running))).hp.txn = .output (3 :: List.replicate 15 0) .copy := by decide +kernel

theorem test_setWindow :
    let t := after (exec (.setWindow (.whole ⟨7, 511, 512, 2, 0x80000000, 1, 1⟩)) (ready .setWindow .config))
    t.su.windows.get 7 = { base := 511, length := 512, rights := { write := true }, senders := 0x80, singleUse := true, isOpen := true } := by
  decide +kernel

theorem test_setLabel :
    (after (exec (.setLabel (.whole (List.replicate 8 0x41))) (ready .setLabel .config))).hp.label = List.replicate 8 0x41 := by
  decide +kernel

theorem test_setTiming :
    (after (exec (.setTiming (.whole 3)) (ready .setTiming .config))).timeout = 204800 := by decide +kernel

theorem test_seal :
    let t := after (exec .sealStation (port .config .command))
    t.hp.phase = .joining ∧ t.sl.holder.map Frame.flags = some { hello := true } := by decide +kernel

theorem test_gate : ((after (exec (.gate (.whole ⟨7, 1⟩)) (ready .gate .detached))).su.windows.get 7).isOpen = true := by decide +kernel

theorem test_mask :
    let t := after (exec (.mask (.whole 5)) (ready .mask .config))
    t.ev.eventEnable = true ∧ t.ev.noticeEnable = false ∧ t.ev.changeEnable = true := by decide +kernel

/-- LEAVE with an empty table loads the LEAVING frame at once (R190). -/
theorem test_leave :
    let t := after (exec .leave (port .running .command))
    t.hp.phase = .leaving ∧ t.sl.holder.map Frame.flags = some { leaving := true } := by decide +kernel

theorem test_resetEnd :
    let t := after (exec (.resetEnd 12) (after (exec (.hardwareReset 31 false) running)))
    t.own = 12 ∧ t.pins.resetLow = false ∧ (t.peer 12).status = .self := by decide +kernel

/-! ## Witnesses: for each statement with hypotheses, states and operands that meet them -/

/-- What most statements ask of a state. -/
abbrev Fit (s : State) : Prop := Live s ∧ Settled s

theorem test_witness_StepRunsFrontCommand : ({ running with pending := [.status] } : State).pending = .status :: [] := rfl

theorem test_witness_EmptyQueueStepPassesOnePeriod : running.pending = [] := rfl

theorem test_witness_EveryCommandRunsAndSettles : Settled running ∧ Settled (grantedHp (.read 1) .stream running) := by decide +kernel

theorem test_witness_HostCommandBytesRoundTrip :
    ((Instr.unknownCommand 0xFF).wellFormed = true ∧ hostBytes (.unknownCommand 0xFF) = some [0xFF])
      ∧ ((Instr.setLabel (.whole (List.replicate 8 7))).wellFormed = true
        ∧ hostBytes (.setLabel (.whole (List.replicate 8 7))) = some (0x41 :: List.replicate 8 7))
      ∧ hostCommandOf [0x32, 3] = some (.abort (.whole 3)) := by decide +kernel

theorem test_witness_FrameBytesRoundTrip :
    (stationOf 0 = some 0 ∧ ([] : List Byte).length ≤ 256) ∧ stationOf 30 = some 30 ∧ (List.replicate 256 (1 : Byte)).length ≤ 256 := by
  decide +kernel

theorem test_witness_WordReadByCondition :
    ((stored .good).wf = true ∧ condition (stored .good) 1 = .good)
      ∧ ((stored .correctable).wf = true ∧ condition (stored .correctable) 1 = .correctable)
      ∧ (stored .uncorrectable).wf = true ∧ condition (stored .uncorrectable) 1 = .uncorrectable := by decide +kernel

theorem test_witness_FullWordWriteHeals : (stored .uncorrectable).wf = true ∧ (List.replicate 8 (7 : Byte)).length = 8 := by decide +kernel

/-- Past the last segment (R48, 3.10): past the count of the only line, and past the one step of a SWAP. -/
theorem test_endPosition :
    (descriptorOf (desc 1 0 4)).endPosition 0 = (0, 4) ∧ (descriptorOf (desc 1 0 4)).endPosition 65531 = (1, 0)
      ∧ (descriptorOf (desc 3 0 0)).endPosition 0 = (0, 1) := by decide +kernel

/-- The check of the digits 1 to 9 by the register of R126: the well-known check for this generator, start value and complement
(PRESUMED: from outside the manual). -/
theorem test_checkRegister : ~~~ checkRegister [0x31, 0x32, 0x33, 0x34, 0x35, 0x36, 0x37, 0x38, 0x39] = 0xFC891918 := by
  decide +kernel

theorem test_witness_PartialWordWriteByCondition :
    ((stored .correctable).wf = true ∧ 1 ≤ [(9 : Byte)].length ∧ 7 + [(9 : Byte)].length ≤ 8 ∧ condition (stored .correctable) 1 ≠ .uncorrectable)
      ∧ ((List.replicate 7 (9 : Byte)).length ≤ 7 ∧ 1 + (List.replicate 7 (9 : Byte)).length ≤ 8)
      ∧ (stored .uncorrectable).wf = true ∧ condition (stored .uncorrectable) 1 = .uncorrectable := by decide +kernel

theorem test_witness_SwapAccessByCondition :
    let old (st : PageStore) := (List.range 4).map fun k => storedByte st (8 * (1 : WordNo).toNat + 4 + k)
    ((stored .good).wf = true ∧ condition (stored .good) 1 ≠ .uncorrectable ∧ old (stored .good) = List.replicate 4 0)
      ∧ (condition (stored .correctable) 1 ≠ .uncorrectable ∧ old (stored .correctable) ≠ [0, 0, 0, 1])
      ∧ condition (stored .uncorrectable) 1 = .uncorrectable := by decide +kernel

theorem test_witness_StoreFormKept :
    let s := { grantedHp (.full 1 (List.replicate 8 9)) .dropped running with pending := [.storeAccessEnd] }
    s.st.wf = true ∧ step s = .next (after (step s)) ∧ (after (step s)).st ≠ s.st :=
  ⟨by decide +kernel, rfl, by decide +kernel⟩

theorem test_witness_StoreChangesOnlyByAccess :
    let s := grantedHp (.full 1 (List.replicate 8 9)) .dropped running
    let changes (c : Instr) : Prop := exec c s = .next (after (exec c s)) ∧ (after (exec c s)).st ≠ s.st
    changes .storeAccessEnd ∧ changes (.hardwareReset 0 true) ∧ changes (.powerUp 0 [(1, 1)] [])
      ∧ changes (.storeDisturbance 1 1 .good []) :=
  ⟨⟨rfl, by decide +kernel⟩, ⟨rfl, by decide +kernel⟩, ⟨rfl, by decide +kernel⟩, rfl, by decide +kernel⟩

theorem test_witness_StoreChangesOnlyByAccess_cases :
    let s := grantedHp (.full 1 (List.replicate 8 9)) .dropped running
    grantedAccess s.arb = some (.full 1 (List.replicate 8 9)) ∧ s.pins.resetLow = false ∧ grantedAccess running.arb = none
      ∧ ({ s with pins := { resetLow := true } } : State).pins.resetLow = true ∧ s.st.wf = true := by decide +kernel

theorem test_witness_GrantFollowsCycle :
    let s (l : Requester) (hp : List (Access × HpWork)) (ce : List (Access × CeWork)) (su : List (Access × SuWork)) : State :=
      { running with arb := { last := l, hp := hp, ce := ce, su := su } }
    let h : Access × HpWork := (.read 1, .stream)
    (grantedHp (.read 1) .stream running).arb.granted.isSome = true
      ∧ (∀ r ∈ [Requester.hp, .ce, .su], waits (s .hp [] [] []).arb r = false)
      ∧ (preference (s .su [h] [] []).arb.last = [.hp, .ce, .su] ∧ waits (s .su [h] [] []).arb .hp = true)
      ∧ (waits (s .su [] [(.read 1, .dropped)] []).arb .hp = false ∧ waits (s .su [] [(.read 1, .dropped)] []).arb .ce = true)
      ∧ waits (s .su [] [] [(.read 1, .swap)]).arb .hp = false ∧ waits (s .su [] [] [(.read 1, .swap)]).arb .ce = false
      ∧ waits (s .su [] [] [(.read 1, .swap)]).arb .su = true := by decide +kernel

theorem test_witness_ResetEndSamplesStraps :
    (after (exec (.hardwareReset 3 false) running)).pins.resetLow = true ∧ running.pins.resetLow = false := by decide +kernel

/-- RESET held with select released, with it asserted, and commands that neither reset nor end a reset. -/
theorem test_witness_ResetEndSamplesStraps_held :
    let s (x : Bool) : State := { running with pins := { selected := x, resetLow := true } }
    (s true).pins.resetLow = true ∧ (s false).pins.resetLow = true ∧ Resets .status = false ∧ Resets .storeAccessEnd = false
      ∧ (after (exec (.selectAssert true) (s false))).pins = { selected := true, resetLow := true } := by decide +kernel

theorem test_witness_PowerUpGivesContent :
    (([(0, 1), (131071, 2)] : List Host.Cell).map Prod.fst).Nodup
      ∧ (([(0, .correctable), (16383, .uncorrectable)] : List (WordNo × Condition)).map Prod.fst).Nodup := by decide +kernel

theorem test_witness_DisturbanceMovesCondition :
    let s (c : Condition) : State := { running with st := stored c }
    ((s .good).st.wf = true ∧ 1 ≤ 1 ∧ condition (s .good).st 1 = .good)
      ∧ (s .correctable).st.wf = true ∧ condition (s .correctable).st 1 = .correctable := by decide +kernel

/-- Disturbances whose result R2 leaves open: of no bit, of two bits of a CORRECTABLE word, of three of a GOOD one, and of an
UNCORRECTABLE word. -/
theorem test_witness_DisturbanceMovesCondition_open :
    let s (c : Condition) : State := { running with st := stored c }
    let open' (bits : Nat) (c : Condition) : Prop := (s c).st.wf = true ∧ 1 ≤ bits ∧ ¬ (bits = 1 ∧ condition (s c).st 1 = .good)
      ∧ ¬ (bits = 1 ∧ condition (s c).st 1 = .correctable) ∧ ¬ (bits = 2 ∧ condition (s c).st 1 = .good)
    open' 2 .correctable ∧ open' 3 .good ∧ open' 1 .uncorrectable
      ∧ condition (after (exec (.storeDisturbance 1 2 .good (List.replicate 8 7)) (s .correctable))).st 1 = .good := by decide +kernel

theorem test_witness_SelectAssertComposesStatus : Fit running ∧ running.pins.selected = false := by decide +kernel

theorem test_witness_CommandBytePassesToOperands :
    let s := port .running .command
    let u := { s with hp := { s.hp with commit := true } }
    (Fit s ∧ s.hp.txn = .command ∧ s.hp.commit = false) ∧ Fit u ∧ u.hp.txn = .command ∧ u.hp.commit = true := by decide +kernel

theorem test_witness_RefusedForPhaseOrCode :
    (Fit (ready .submit .joining) ∧ ReadyFor .submit (ready .submit .joining) ∧ (ready .submit .joining).hp.phase ≠ .running)
      ∧ (Fit (ready .resume .detached) ∧ ReadyFor .resume (ready .resume .detached))
      ∧ (Fit (ready .abort .config) ∧ ReadyFor .abort (ready .abort .config) ∧ Fit (ready .abort .detached))
      ∧ (Fit (ready .gate .config) ∧ ReadyFor .gate (ready .gate .config))
      ∧ (Fit (ready .setWindow .joining) ∧ ReadyFor .setWindow (ready .setWindow .joining))
      ∧ (Fit (ready .setLabel .joining) ∧ ReadyFor .setLabel (ready .setLabel .joining) ∧ (List.replicate 8 (1 : Byte)).length = 8)
      ∧ (Fit (ready .setTiming .joining) ∧ ReadyFor .setTiming (ready .setTiming .joining))
      ∧ (Fit (port .joining .command) ∧ (port .joining .command).hp.txn = .command ∧ (port .joining .command).hp.phase ≠ .config)
      ∧ (0x01 : Byte) ∉ [0x00, 0x10, 0x11, 0x20, 0x21, 0x22, 0x30, 0x31, 0x32, 0x38, 0x39, 0x40, 0x41, 0x42, 0x4F, 0x50, 0x51, 0x5F] := by
  refine ⟨?_, ?_, ?_, ?_, ?_, ?_, ?_, ?_, ?_⟩ <;> decide +kernel

theorem test_witness_RefusedForOperandOrUse :
    let busy (s : State) : State := setChannel 3 { state := .held, resume := some 0 } s
    let streaming (s : State) : State := { s with hp := { s.hp with commit := true } }
    (Fit (ready .submit .running) ∧ ReadyFor .submit (ready .submit .running) ∧ 3 < (4 : Byte).toNat ∧ 2 < (3 : Byte).toNat
        ∧ ((ready .submit .running).channel 3).state = .idle ∧ (0x1FFE1 : BitVec 24).toNat % 32 ≠ 0 ∧ 0x1FFFF < (0x20000 : BitVec 24).toNat)
      ∧ (Fit (busy (ready .submit .running)) ∧ ((busy (ready .submit .running)).channel 3).state ≠ .idle)
      ∧ (Fit (ready .resume .running) ∧ ReadyFor .resume (ready .resume .running)
        ∧ ((ready .resume .running).channel 0).state = .idle ∧ ((ready .resume .running).channel 0).resume = none)
      ∧ (Fit (busy (ready .resume .running)) ∧ ((busy (ready .resume .running)).channel 3).state = .held)
      ∧ (Fit (ready .abort .joining) ∧ ReadyFor .abort (ready .abort .joining) ∧ ((ready .abort .joining).channel 3).state = .idle)
      ∧ (Fit (ready .readChannel .config) ∧ ReadyFor .readChannel (ready .readChannel .config))
      ∧ (Fit (ready .readPeer .config) ∧ ReadyFor .readPeer (ready .readPeer .config) ∧ 30 < (31 : Byte).toNat)
      ∧ (Fit (ready .gate .running) ∧ ReadyFor .gate (ready .gate .running) ∧ 7 < (8 : Byte).toNat ∧ 1 < (2 : Byte).toNat)
      ∧ (Fit (ready .setWindow .config) ∧ ReadyFor .setWindow (ready .setWindow .config) ∧ 511 < (512 : BitVec 16).toNat
        ∧ 512 < (513 : BitVec 16).toNat)
      ∧ (Fit (ready .setTiming .config) ∧ ReadyFor .setTiming (ready .setTiming .config))
      ∧ (Fit (streaming (ready .storeRead .config)) ∧ (streaming (ready .storeRead .config)).hp.commit = true)
      ∧ (Fit (ready .storeRead .config) ∧ (ready .storeRead .config).hp.commit = false)
      ∧ (Fit (ready .storeWrite .config) ∧ ReadyFor .storeWrite (ready .storeWrite .config))
      ∧ (Fit { port .config .command with own := 31 } ∧ ({ port .config .command with own := 31 } : State).own = 31)
      ∧ (let s := { port .config .command with su := { windows := Vector.replicate 8 { base := 511, length := 2 } } }
         Fit s ∧ 512 < (s.su.windows.get 7).base + (s.su.windows.get 7).length ∧ (s.su.windows.get 7).rights = ⟨false, false, false⟩)
      ∧ (Fit (busy (port .running .command)) ∧ ((busy (port .running .command)).channel 3).state ≠ .idle
        ∧ ((busy (port .running .command)).channel 3).state ≠ .faulted) := by
  refine ⟨?_, ?_, ?_, ?_, ?_, ?_, ?_, ?_, ?_, ?_, ?_, ?_, ?_, ?_, ?_, ?_⟩ <;> decide +kernel

/-- A STORE-WRITE taken whole, from its command byte on, during a commit. -/
theorem test_witness_RefusedForOperandOrUse_busy :
    let s := { port .config .command with hp := { (port .config .command).hp with commit := true } }
    Fit s ∧ s.hp.txn = .command ∧ s.hp.commit = true
      ∧ (after (exec (.storeWrite (.whole 0x20000)) s)).hp.reason = some .busy := by decide +kernel

theorem test_witness_RecordCommandsDecide :
    let e : Event := { kind := .chainDone, channel := 0, code := none, address := 0, detail := 0 }
    let n : Notice := ⟨3, 7, [1, 2, 3, 4]⟩
    let s := port .running .command
    let full := { s with ev := { s.ev with events := [e] }, nq := { s.nq with records := [n] } }
    (Fit s ∧ s.hp.txn = .command ∧ s.ev.events = [] ∧ s.nq.records = [])
      ∧ (Fit full ∧ full.hp.txn = .command ∧ full.ev.events = e :: [] ∧ full.nq.records = n :: [])
      ∧ (Fit (ready .readChannel .detached) ∧ ReadyFor .readChannel (ready .readChannel .detached) ∧ (3 : Byte).toNat = (3 : ChannelNo).val)
      ∧ (Fit (ready .readPeer .detached) ∧ ReadyFor .readPeer (ready .readPeer .detached) ∧ (30 : Byte).toNat = (30 : Station).val) := by
  decide +kernel

theorem test_witness_RecordLayouts :
    (⟨3, 7, [1, 2, 3, 4]⟩ : Notice).value.length = 4 ∧ (chan 1 1 16).current = some ⟨0x100, desc 1 1 16⟩ ∧ (desc 1 1 16).length = 32
      ∧ (shownLabel running 3).length = 8 ∧ (running.peer 3).tx.held < 256
      ∧ ({ kind := .chainFault, channel := 3, code := none, address := 0, detail := 4294967295 } : Event).detail < 4294967296
      ∧ (chan 1 1 16).outstanding < 256 ∧ (chan 1 1 16).line < 65536 ∧ (chan 1 1 16).offset < 65536
      ∧ (chan 1 1 16).issued < 4294967296 ∧ (chan 1 1 16).completed < 4294967296 ∧ (chan 1 1 16).fault = none := by decide +kernel

theorem test_witness_CompletionCarriesOut :
    let e : Event := { kind := .chainFault, channel := 2, code := some .storeError, address := 0, detail := 0 }
    let s (took : Took) := port .running (.output [1] took)
    let held := setHeld [2] (setChannel 2 { state := .held, pendingEvent := some e } (s (.event true)))
    (Fit (s .copy) ∧ (s .copy).hp.txn = .output [1] .copy) ∧ (Fit (s (.event true)) ∧ (s (.event true)).ce.held = [])
      ∧ Fit held ∧ held.hp.txn = .output [1] (.event true) ∧ held.ce.held = 2 :: [] ∧ (held.channel 2).pendingEvent = some e
      ∧ (e.kind = .chainDone ∨ e.kind = .chainFault) := by decide +kernel

theorem test_witness_CompletionCarriesOut_notify :
    let e : Event := { kind := .descriptorNotify, channel := 2, code := none, address := 0x100, detail := 0 }
    let s := setHeld [2, 1] (setChannel 2 { chan 1 1 16 with state := .held, pendingEvent := some e }
      (port .running (.output [1] (.event true))))
    Fit s ∧ s.hp.txn = .output [1] (.event true) ∧ s.ce.held = 2 :: [1] ∧ (s.channel 2).pendingEvent = some e
      ∧ (s.channel 2).current = some ⟨0x100, desc 1 1 16⟩ := by decide +kernel

theorem test_witness_EarlyReleaseUndoes :
    let n : Notice := ⟨3, 7, [1, 2, 3, 4]⟩
    let ok (x : Transaction) : Prop := Fit (port .running x) ∧ (port .running x).pins.selected = true ∧ (port .running x).hp.txn = x
    ok .idle ∧ ok .command ∧ ok (.operands .mask 1) ∧ ok .spent ∧ ok (.output [] .copy) ∧ ok (.output [] (.event true))
      ∧ ok (.output [] (.notice none)) ∧ ok (.output [] (.notice (some n))) ∧ ok (.output [] (.changes 1 1))
      ∧ matchingWaiter (port .running .idle).nq n = none := by
  refine ⟨?_, ?_, ?_, ?_, ?_, ?_, ?_, ?_, ?_, ?_⟩ <;> decide +kernel

/-- Channel 0 AWAITING tag 7 from station 3, first among the waiters. -/
def awaiting (s : State) : State :=
  { setChannel 0 { chan 5 1 4 with state := .awaiting } s with nq := { waiters := [⟨0, 7, 3⟩, ⟨1, 7, 31⟩] } }

theorem test_witness_EarlyReleaseUndoes_waiter :
    let n : Notice := ⟨3, 7, [1, 2, 3, 4]⟩
    let s := awaiting (port .running (.output [] (.notice (some n))))
    Fit s ∧ s.pins.selected = true ∧ s.hp.txn = .output [] (.notice (some n)) ∧ matchingWaiter s.nq n = some ⟨0, 7, 3⟩
      ∧ (s.channel 0).current = some ⟨0x100, desc 5 1 4⟩ ∧ (descriptorOf (desc 5 1 4)).op = some .await := by decide +kernel

theorem test_witness_StoreReadBeginsAndEnds :
    (Fit (ready .storeRead .running) ∧ ReadyFor .storeRead (ready .storeRead .running)
        ∧ (ready .storeRead .running).hp.commit = false ∧ (0x1FFFF : BitVec 24).toNat ≤ 0x1FFFF)
      ∧ (let s := port .running (.reading ⟨0, none, none, true, true⟩)
         Fit s ∧ s.pins.selected = true ∧ s.hp.txn = .reading ⟨0, none, none, true, true⟩) := by decide +kernel

/-- A word comes to a stream without one in hand, and to one with it; read, or refused. -/
theorem test_witness_StoreReadBeginsAndEnds_word :
    let w : StreamWord := ⟨List.replicate 8 1, false⟩
    let r (x : Option StreamWord) : ReadStream := ⟨0, x, none, true, false⟩
    let s (c : Condition) (x : Option StreamWord) : State :=
      { grantedHp (.read 1) .stream (port .running (.reading (r x))) with st := stored c }
    let ok (c : Condition) (x : Option StreamWord) : Prop :=
      Fit (s c x) ∧ (s c x).arb.granted = some .hp ∧ (s c x).arb.hp = (.read 1, .stream) :: [] ∧ (s c x).hp.txn = .reading (r x)
    ok .good none ∧ ok .good (some w) ∧ ok .uncorrectable none ∧ ok .uncorrectable (some w)
      ∧ (performAccess (s .good none).st (.read 1)).2 = .data (List.replicate 8 0)
      ∧ (performAccess (s .uncorrectable none).st (.read 1)).2 = .storeError (List.replicate 8 0) := by
  refine ⟨?_, ?_, ?_, ?_, ?_, ?_⟩ <;> decide +kernel

/-- A release within the first byte of a word in hand, and one without such a word; an access whose outcome is disregarded. -/
theorem test_witness_StoreReadBeginsAndEnds_begun :
    let w : StreamWord := ⟨List.replicate 8 1, false⟩
    let r (fresh : Bool) (x : Option StreamWord) : ReadStream := ⟨0x1FFFF, x, none, fresh, true⟩
    let s (fresh : Bool) (x : Option StreamWord) := grantedHp (.read 1) .stream (port .running (.reading (r fresh x)))
    let d := grantedHp (.read 1) .dropped (port .running .idle)
    (Fit (s true (some w)) ∧ (s true (some w)).pins.selected = true ∧ (7 : Fin 8) ≠ 0 ∧ (r true (some w)).word ≠ none)
      ∧ Fit (s false (some w)) ∧ Fit (s true none) ∧ (r true none).word = none
      ∧ Fit d ∧ d.arb.granted = some .hp ∧ d.arb.hp = (.read 1, .dropped) :: [] := by decide +kernel

theorem test_witness_StreamByteMovesOn :
    let w : StreamWord := ⟨[1, 2, 3, 4, 5, 6, 7, 8], true⟩
    let r (a : Addr) (fresh : Bool) : ReadStream := ⟨a, some w, none, fresh, false⟩
    let ok (x : Transaction) : Prop := Fit (port .running x) ∧ (port .running x).hp.txn = x
    ok (.reading (r 0x1FFFF true)) ∧ ok (.reading (r 0 false)) ∧ ok (.writing 0x1FFFF 255) ∧ ok (.writing 0 256) ∧ ok .spent
      ∧ ok (.output [1, 2] (.event true)) ∧ ok (.output [1] (.event true)) ∧ ok (.operands .resume 2) := by
  refine ⟨?_, ?_, ?_, ?_, ?_, ?_, ?_, ?_⟩ <;> decide +kernel

theorem test_witness_StoreWriteCommits :
    let ok (a : Addr) (n : Nat) : Prop :=
      Fit (port .running (.writing a n)) ∧ (port .running (.writing a n)).pins.selected = true
    (Fit (ready .storeWrite .running) ∧ ReadyFor .storeWrite (ready .storeWrite .running) ∧ (ready .storeWrite .running).hp.commit = false)
      ∧ ok 0 0 ∧ (ok 0 257 ∧ 256 < 257) ∧ (ok 0x1FFFF 2 ∧ 0x1FFFF < (0x1FFFF : Addr).toNat + 2 - 1)
      ∧ (ok 0x1FF00 256 ∧ (0x1FF00 : Addr).toNat + 256 - 1 ≤ 0x1FFFF) := by decide +kernel

theorem test_witness_CommitWordEnds :
    let s (rest : List Byte) := grantedHp (.part 128 4 [1]) (.commit ⟨0x405, rest, false⟩) running
    Fit (s []) ∧ (s []).arb.granted = some .hp ∧ (s []).arb.hp = (.part 128 4 [1], .commit ⟨0x405, [], false⟩) :: []
      ∧ Fit (s [2]) ∧ (s [2]).arb.hp = (.part 128 4 [1], .commit ⟨0x405, [2], false⟩) :: [] := by decide +kernel

/-- The cut of a range: a whole word, a word entered in its middle, and the last bytes of a range. -/
theorem test_witness_CommitWordEnds_cut :
    ((0x408 % 8 = 0 ∧ 8 ≤ (List.replicate 8 (1 : Byte)).length) ∧ (writePiece 0x408 (List.replicate 8 1) false).2.rest = [])
      ∧ (¬ (0x40F % 8 = 0 ∧ 8 ≤ [1, 2].length) ∧ (writePiece 0x40F [1, 2] true).2.rest = [2])
      ∧ ¬ (0x408 % 8 = 0 ∧ 8 ≤ (List.replicate 7 (1 : Byte)).length) ∧ 16 - min (8 - 0x405 % 8) 16 ≠ 0 := by decide +kernel

theorem test_witness_ConfigurationCommandsSet :
    (Fit (ready .setWindow .config) ∧ ReadyFor .setWindow (ready .setWindow .config) ∧ (ready .setWindow .config).hp.phase = .config
        ∧ (7 : Byte).toNat = (7 : WindowNo).val ∧ (511 : BitVec 16).toNat ≤ 511 ∧ (512 : BitVec 16).toNat ≤ 512 ∧ (1 : Byte).toNat ≤ 1)
      ∧ (Fit (ready .setLabel .config) ∧ ReadyFor .setLabel (ready .setLabel .config) ∧ (List.replicate 8 (1 : Byte)).length = 8)
      ∧ Fit (ready .setTiming .config) ∧ ReadyFor .setTiming (ready .setTiming .config) ∧ (3 : Byte).toNat = (3 : Fin 4).val := by
  decide +kernel

theorem test_witness_SealLoadsHello :
    let ws : Vector Window 8 := (Vector.replicate 8 {}).set 0 { base := 0, length := 512, rights := { read := true } }
    let s := { port .config .command with own := 30, su := { windows := ws } }
    Fit s ∧ s.hp.txn = .command ∧ s.hp.phase = .config ∧ s.own ≠ 31
      ∧ ∀ w : WindowNo, (s.su.windows.get w).base + (s.su.windows.get w).length ≤ 512
        ∧ ((s.su.windows.get w).length ≠ 0 → (s.su.windows.get w).rights ≠ ⟨false, false, false⟩) := by decide +kernel

theorem test_witness_GateAndMaskSet :
    (Fit (ready .gate .joining) ∧ ReadyFor .gate (ready .gate .joining) ∧ (ready .gate .joining).hp.phase ≠ .config
        ∧ (7 : Byte).toNat = (7 : WindowNo).val ∧ (1 : Byte).toNat ≤ 1)
      ∧ Fit (ready .mask .detached) ∧ ReadyFor .mask (ready .mask .detached) := by decide +kernel

theorem test_witness_LeaveBeginsDeparture :
    let s := setChannel 3 { state := .faulted } (port .running .command)
    let held := holding (entry .write .queued) s
    (Fit s ∧ s.hp.txn = .command ∧ s.hp.phase = .running
        ∧ (∀ ch, (s.channel ch).state = .idle ∨ (s.channel ch).state = .faulted)
        ∧ (∀ i, s.entry i = none) ∧ s.sl.holder = none ∧ s.sl.aside = none)
      ∧ Fit held ∧ (∀ ch, (held.channel ch).state = .idle ∨ (held.channel ch).state = .faulted)
      ∧ held.entry 0 = some (entry .write .queued) := by decide +kernel

theorem test_witness_LeaveBeginsDeparture_holder :
    let f := presenceFrame 0 [] false false
    let s (p : Phase) (h a : Option Frame) (c : Claim) := { port p .command with sl := { holder := h, aside := a, claim := c } }
    let at' (p : Phase) (h : Option Frame) (c : Claim) : Prop := (s p h none c).hp.phase = p ∧ (∀ i, (s p h none c).entry i = none)
      ∧ (s p h none c).sl.holder = h ∧ (s p h none c).sl.aside = none ∧ (s p h none c).sl.claim = c
    let fits (c : Claim) : Prop := Fit (s .running (some f) none c) ∧ at' .running (some f) c
    at' .leaving none .idle ∧ at' .leaving (some f) .idle ∧ at' .leaving (some f) (.marking 31 .presence)
      ∧ at' .leaving (some f) (.sending .presence) ∧ f.flags.leaving = false ∧ f.flags.hello = false
      ∧ (s .leaving none (some f) .idle).sl.aside.isSome = true ∧ (presenceFrame 0 [] false true).flags.leaving = true
      ∧ fits .idle ∧ fits (.marking 61 .presence) ∧ fits (.sending .presence) := by
  refine ⟨?_, ?_, ?_, ?_, ?_, ?_, ?_, ?_, ?_, ?_, ?_⟩ <;> decide +kernel

theorem test_witness_SubmitAndResumeStartChains :
    let f := setChannel 3 { state := .faulted, resume := some 0x1FFE0 } (ready .resume .running)
    let i := setChannel 0 { resume := some 0 } (ready .resume .running)
    (Fit (ready .submit .running) ∧ ReadyFor .submit (ready .submit .running) ∧ classOf 2 = some .bulk
        ∧ ((ready .submit .running).channel 3).state = .idle ∧ (0x1FFE0 : BitVec 24).toNat % 32 = 0 ∧ (0x1FFE0 : BitVec 24).toNat ≤ 0x1FFFF)
      ∧ (Fit f ∧ ReadyFor .resume f ∧ (f.channel 3).resume = some 0x1FFE0 ∧ (f.channel 3).state = .faulted)
      ∧ Fit i ∧ ReadyFor .resume i ∧ (i.channel 0).resume = some 0 ∧ (i.channel 0).state = .idle := by decide +kernel

theorem test_witness_AbortGivesUpChain :
    let s (v : ChannelState) := setChannel 3 { state := v } (ready .abort .joining)
    let ok (v : ChannelState) : Prop := Fit (s v) ∧ ReadyFor .abort (s v) ∧ ((s v).channel 3).state = v
    ok .active ∧ ok .awaiting ∧ ok .held ∧ ok .draining ∧ ok .faulted := by decide +kernel

/-- An ABORT in LEAVING with an entry held, and the end of an access of a chain given up. -/
theorem test_witness_AbortGivesUpChain_dropped :
    let s := holding (entry .write .queued) (setChannel 0 { state := .active } (ready .abort .leaving))
    let d := grantedCe (.read 1) .dropped running
    (Live s ∧ ReadyFor .abort s ∧ s.hp.phase = .leaving ∧ loadLeaving s = s ∧ (s.channel 0).state = .active)
      ∧ Fit d ∧ d.arb.granted = some .ce ∧ d.arb.ce = (.read 1, .dropped) :: [] := by decide +kernel

theorem test_witness_FetchWordEnds :
    let s (c : Condition) (got : List Byte) := { grantedCe (.read 1) (.fetch 3 0x1FFE0 got) running with st := stored c }
    let d (op : Byte) := { grantedCe (.read 35) (.fetch 0 0x100 ((desc op 1 16).take 24)) running with
      st := putWord {} 35 ((desc op 1 16).drop 24) }
    let check (op : Byte) := (descriptorOf ((desc op 1 16).take 24 ++ wordBytes (d op).st 35)).check (d op).own true
    (Fit (s .uncorrectable []) ∧ condition (s .uncorrectable []).st 1 = .uncorrectable)
      ∧ (Fit (s .good (List.replicate 16 0)) ∧ condition (s .good []).st 1 ≠ .uncorrectable ∧ (List.replicate 16 (0 : Byte)).length < 24)
      ∧ (Fit (d 2) ∧ condition (d 2).st 35 ≠ .uncorrectable ∧ 24 ≤ ((desc 2 1 16).take 24).length ∧ check 2 = none)
      ∧ (Fit (d 9) ∧ check 9 = some .badDescriptor) := by decide +kernel

theorem test_witness_FetchWordEnds_await :
    let s (records : List Notice) := { grantedCe (.read 35) (.fetch 0 0x100 ((desc 5 1 4).take 24)) running with
      st := putWord {} 35 ((desc 5 1 4).drop 24), nq := { records := records } }
    let d := descriptorOf ((desc 5 1 4).take 24 ++ wordBytes (s []).st 35)
    let ok (records : List Notice) : Prop := Fit (s records) ∧ (s records).arb.granted = some .ce
      ∧ condition (s records).st 35 ≠ .uncorrectable ∧ d.check (s records).own true = none ∧ d.op = some .await
    ok [] ∧ ok [⟨4, 7, []⟩, ⟨3, 7, []⟩, ⟨3, 7, [1]⟩] ∧ noticeMatches ⟨4, 7, []⟩ d.tag d.target = false
      ∧ noticeMatches ⟨3, 7, []⟩ d.tag d.target = true := by decide +kernel

theorem test_witness_FetchChecksDecide :
    (descriptorOf (desc 9 0 4)).op = none ∧ (descriptorOf (desc 1 0 4)).op = some .put ∧ (descriptorOf (desc 2 0 4)).op = some .get
      ∧ (descriptorOf (desc 3 0 4)).op = some .swap ∧ (descriptorOf (desc 4 0 4)).op = some .notice
      ∧ (descriptorOf (desc 5 0 4)).op = some .await ∧ (descriptorOf (desc 1 0 4)).check 0 true = none
      ∧ (descriptorOf (desc 3 0 4)).check 0 false = some .peerAbsent ∧ (descriptorOf (desc 4 0 5)).check 0 true = some .badDescriptor := by
  decide +kernel

theorem test_witness_SegmentsCut :
    let d := descriptorOf (desc 1 0 4)
    let u := { d with plane := true, lines := 2 }
    (d.op = some .put ∧ 0 < d.lineCount ∧ 3 < d.count ∧ (d.segmentAt 0 3).last = true)
      ∧ u.op = some .put ∧ 0 < u.lineCount ∧ 3 < u.count ∧ (u.segmentAt 0 3).last = false := by decide +kernel

/-- Descriptors at the ends of the ranges of R35: the last with a position past its end, in the next line or in its own. -/
theorem test_witness_SegmentsCut_end :
    let d (lines count : Nat) : Descriptor := { descriptorOf (desc 1 0 4) with plane := true, lines := lines, count := count }
    let size (d : Descriptor) : Nat := if d.op = some .put ∨ d.op = some .get then d.count else 1
    ((d 4095 65535).lineCount < 4096 ∧ size (d 4095 65535) = 65535)
      ∧ ((d 4096 65534).lineCount = 4096 ∧ size (d 4096 65534) < 65535)
      ∧ (descriptorOf (desc 3 0 0)).op = some .swap ∧ (descriptorOf (desc 4 0 4)).op = some .notice
      ∧ (descriptorOf (desc 4 0 4)).lineCount = 1 := by decide +kernel

theorem test_witness_StatusWriteEnds :
    let e : Event := { kind := .chainDone, channel := 0, code := none, address := 0, detail := 0 }
    let s (flags : Byte) (n : Nat) (w : CeWork) := { grantedCe (.part 35 7 [1]) w (setChannel 0 (chan 1 flags 16) running) with
      ev := { events := List.replicate n e } }
    let ok (flags : Byte) (n : Nat) : Prop := Fit (s flags n (.doneStatus 0)) ∧ (s flags n (.doneStatus 0)).ev.events.length = n
      ∧ (performAccess (s flags n (.doneStatus 0)).st (.part 35 7 [1])).2 = .written
    (ok 1 31 ∧ (descriptorOf (desc 1 1 16)).stop = true) ∧ ok 1 32
      ∧ (ok 0 32 ∧ (descriptorOf (desc 1 0 16)).stop = false ∧ (descriptorOf (desc 1 0 16)).notify = false)
      ∧ (ok 2 31 ∧ (descriptorOf (desc 1 2 16)).stop = false ∧ (descriptorOf (desc 1 2 16)).notify = true) ∧ ok 2 32
      ∧ Fit (s 0 31 (.faultStatus 0 ⟨.storeError, 0x100, 0⟩)) ∧ Fit (s 0 32 (.faultStatus 0 ⟨.storeError, 0x100, 0⟩)) := by decide +kernel

theorem test_witness_StatusWriteEnds_writes :
    let x : Access := .part 35 7 [1]
    let s (c : Condition) (op : Byte) (w : CeWork) :=
      { grantedCe x w (setChannel 0 (chan op 1 4) running) with st := setCondition {} 35 c }
    let ok (op : Byte) (w : CeWork) : Prop := ∀ c ∈ [Condition.good, .uncorrectable], Fit (s c op w)
      ∧ (s c op w).arb.ce = (x, w) :: [] ∧ ((s c op w).channel 0).current = some ⟨0x100, desc op 1 4⟩
      ∧ (performAccess (s c op w).st x).2 = if c = .good then .written else .storeError []
    ok 1 (.doneStatus 0) ∧ ok 1 (.advanceLocal 0) ∧ ok 1 (.advanceRemote 0) ∧ ok 2 (.getWrite 0 ⟨288, [1], false⟩ 0)
      ∧ ok 2 (.getWrite 0 ⟨288, [], false⟩ 0) ∧ ok 3 (.resultWrite 0) ∧ ok 5 (.valueWrite 0 ⟨288, [1], false⟩)
      ∧ ok 5 (.valueWrite 0 ⟨288, [], true⟩) ∧ (descriptorOf (desc 5 1 4)).op = some .await := by
  refine ⟨?_, ?_, ?_, ?_, ?_, ?_, ?_, ?_, ?_⟩ <;> decide +kernel

theorem test_witness_EligibleByTable :
    OrderListsHeld (setChannel 0 (chan 1 1 16) running) ∧ eligible (setChannel 0 (chan 1 1 16) running) 0 = true := by decide +kernel

theorem test_witness_EligibleByTable_resend :
    let e := entry .write (.rewind true)
    OrderListsHeld (holding e running) ∧ chooseResend (holding e running) = some (0, e) := by decide +kernel

theorem test_witness_TurnChoice :
    chooseChannel (setChannel 0 (chan 1 1 16) running) = some 0 ∧ chooseChannel running = none := by decide +kernel

theorem test_witness_TurnIssuesOrResends :
    let s (op : Byte) := setChannel 0 (chan op 1 16) running
    let k (op : Byte) := (descriptorOf (desc op 1 16)).op.bind Op.request
    let ok (op : Byte) : Prop := Fit (s op) ∧ (s op).ce.turn = none ∧ (s op).sl.requestQueue.length < 4 ∧ chooseResend (s op) = none
      ∧ chooseChannel (s op) = some 0
    let r (kind : RequestKind) := holding (entry kind (.rewind true)) running
    let again (kind : RequestKind) : Prop := Fit (r kind) ∧ (r kind).ce.turn = none
      ∧ chooseResend (r kind) = some (0, entry kind (.rewind true))
    (ok 1 ∧ k 1 = some .write ∧ payloadSize .write ((descriptorOf (desc 1 1 16)).segmentAt 0 0).length ≠ 0)
      ∧ (ok 2 ∧ k 2 = some .read ∧ stationOf (descriptorOf (desc 2 1 16)).target = some 3 ∧ ((s 2).peer 3).status = .present
        ∧ lowestFree (s 2) = some 0)
      ∧ again .write ∧ again .read := by decide +kernel

theorem test_witness_TurnIssuesOrResends_absent :
    let s := setStatus 3 .absent (setChannel 0 (chan 2 1 16) running)
    Fit s ∧ s.ce.turn = none ∧ s.sl.requestQueue.length < 4 ∧ chooseResend s = none ∧ chooseChannel s = some 0
      ∧ (s.peer 3).status ≠ .present := by decide +kernel

theorem test_witness_TurnIssuesOrResends_payload :
    let e := entry .write (.rewind true)
    let s (c : Condition) (left : Nat) (t : Turn) (v : PeerStatus) : State := { grantedCe (.read 1) (.payload ⟨0, 8, 16, left, []⟩)
      (setTurn (some t) (setChannel 0 (chan 1 1 16) (setStatus 3 v running))) with st := stored c }
    let ok (c : Condition) (left : Nat) (t : Turn) (v : PeerStatus) : Prop := Fit (s c left t v) ∧ (s c left t v).ce.turn = some t
      ∧ ((s c left t v).channel 0).current = some ⟨0x100, desc 1 1 16⟩ ∧ ((s c left t v).channel 0).allIssued = false
      ∧ ((s c left t v).peer 3).status = v ∧ lowestFree (s c left t v) = some 0
      ∧ (performAccess (s c left t v).st (.read 1)).2
        = if c = .uncorrectable then .storeError (List.replicate 8 0) else .data (List.replicate 8 0)
    let again (c : Condition) : Prop := Fit (holding e (s c 0 (.resend 0) .present))
      ∧ (holding e (s c 0 (.resend 0) .present)).entry 0 = some e
    (descriptorOf (desc 1 1 16)).op.bind Op.request = some .write ∧ ok .good 1 (.channel 0 3) .present
      ∧ ok .correctable 0 (.channel 0 3) .present ∧ ok .good 0 (.channel 0 3) .absent ∧ ok .uncorrectable 0 (.channel 0 3) .present
      ∧ again .good ∧ again .uncorrectable := by
  refine ⟨?_, ?_, ?_, ?_, ?_, ?_, ?_⟩ <;> decide +kernel

/-- States with a reply to take. -/
def replying (f : Frame) (s : State) : State := { s with sl := { s.sl with inReplies := [f] } }

/-- A resend turn whose entry is no longer held: its payload read, or refused. -/
theorem test_witness_TurnIssuesOrResends_freed :
    let s (c : Condition) : State :=
      { grantedCe (.read 1) (.payload ⟨0, 8, 16, 0, []⟩) (setTurn (some (.resend 0)) running) with st := stored c }
    Live (s .good) ∧ (s .good).arb.granted = some .ce ∧ (s .good).ce.turn = some (.resend 0) ∧ (s .good).entry 0 = none
      ∧ (performAccess (s .good).st (.read 1)).2 = .data (List.replicate 8 0)
      ∧ (performAccess (s .uncorrectable).st (.read 1)).2 = .storeError (List.replicate 8 0) := by decide +kernel

theorem test_witness_AckCompletesSegment :
    let f (k : ReplyKind) (code : Byte) (n : BitVec 16) : Frame :=
      { frame (.reply k) 3 0 n (List.replicate n.toNat 5) with code := code }
    let s (e : Entry) (g : Frame) := replying g (holding e (setChannel 0 { chan 1 1 16 with outstanding := 1 } running))
    let w (k : RequestKind) : Entry := { entry k (.waiting 100) with length := 4 }
    let ok (e : Entry) (g : Frame) : Prop := Fit (s e g) ∧ (s e g).hp.phase = .running ∧ OrderListsHeld (s e g)
      ∧ ((s e g).peer 3).status ≠ .unreachable ∧ matchEntry (s e g) 3 g.sequence = some (0, e)
    stationOf 3 = some 3
      ∧ (Fit (replying (f .ack 0 0) running) ∧ matchEntry (replying (f .ack 0 0) running) 3 0 = none)
      ∧ (Fit (setStatus 3 .unreachable (s (w .write) (f .ack 0 0)))
        ∧ ((setStatus 3 .unreachable (s (w .write) (f .ack 0 0))).peer 3).status = .unreachable)
      ∧ ok (w .swap) (f .ack 0 0) ∧ ok (w .read) (f .readData 0 3) ∧ ok (w .write) (f .readData 0 4) ∧ ok (w .read) (f .swapReply 0x10 4)
      ∧ ok (w .swap) (f .swapReply 0x12 4) ∧ ok (w .write) (f .nak 0 0) ∧ ok (w .write) (f .nak 7 0)
      ∧ (ok (w .write) (f .ack 0 0) ∧ ok { w .notice with orphan := true } (f .ack 0 0))
      ∧ (ok (w .read) (f .readData 0 4) ∧ (f .readData 0 4).length.toNat = (w .read).length
        ∧ (w .read).length ≤ (f .readData 0 4).payload.length)
      ∧ (ok (w .swap) (f .swapReply 0x10 4) ∧ ok (w .swap) (f .swapReply 0x11 4) ∧ 4 ≤ (f .swapReply 0x10 4).payload.length)
      ∧ ok (w .write) (f .nak 1 0) ∧ ok (w .write) (f .nak 2 0) ∧ ok (w .write) (f .nak 6 0) ∧ ok (w .write) (f .nak 5 0) := by
  refine ⟨?_, ?_, ?_, ?_, ?_, ?_, ?_, ?_, ?_, ?_, ?_, ?_, ?_, ?_, ?_, ?_, ?_⟩ <;> decide +kernel

/-- Channels and queues for what freeing an entry, a segment done and a segment failed do. -/
theorem test_witness_AckCompletesSegment_laws :
    let c : Channel := { chan 1 1 16 with allIssued := true, issued := 1 }
    let r : FaultRecord := ⟨.storeError, 0x100, 0⟩
    let d : Channel := { c with state := .draining, fault := some r }
    let s (c : Channel) (t : Option Turn) := setTurn t (setChannel 0 c running)
    let q : QueuedFrame := ⟨0, frame (.request .write) 0 0 0 [], false⟩
    let l (cl : Claim) : State := { running with sl := { requestQueue := [q], claim := cl } }
    (((s c none).channel 0).current = some ⟨0x100, desc 1 1 16⟩ ∧ c.state = .active ∧ c.allIssued = true ∧ c.completed + 1 = c.issued
        ∧ writeUnderWay (s c none) 0 = false)
      ∧ (((s d none).channel 0).state = .draining ∧ ((s d none).channel 0).fault = some r ∧ ((s d none).channel 0).outstanding = 0)
      ∧ (s c (some (.channel 0 3))).ce.turn = some (.channel 0 3) ∧ (running.channel 0).state = .idle
      ∧ (l .idle).sl.requestQueue = q :: [] ∧ (l (.sending .request)).sl.claim = .sending .request
      ∧ (l (.marking 61 .request)).sl.claim = .marking 61 .request := by decide +kernel

theorem test_witness_NakRewindsEntry :
    let nak (code : Byte) : Frame := { frame (.reply .nak) 3 0 0 [] with code := code }
    let e : Entry := { entry .write (.waiting 100) with tries := 3 }
    let s (code : Byte) (e : Entry) := replying (nak code) (holding e running)
    let two (e : Entry) (s : State) : State := setOrder [1, 0] (setEntry 1 (some { e with sequence := 255 }) s)
    let ok (s : State) (code : Byte) (e : Entry) : Prop := Fit s ∧ s.sl.inReplies = nak code :: [] ∧ (s.peer 3).status = .present
      ∧ matchEntry s 3 0 = some (0, e)
    ok (s 3 (entry .write .queued)) 3 (entry .write .queued) ∧ (ok (s 3 e) 3 e ∧ isOldest (s 3 e) e = true ∧ e.tries < 4)
      ∧ (ok (two e (s 3 e)) 3 e ∧ isOldest (two e (s 3 e)) e = false) ∧ ok (s 4 e) 4 e
      ∧ (let u : Entry := { e with tries := 4 }
         ok (s 3 u) 3 u ∧ isOldest (s 3 u) u = true ∧ OrderListsHeld (s 3 u) ∧ ok (s 4 u) 4 u) := by
  refine ⟨?_, ?_, ?_, ?_, ?_⟩ <;> decide +kernel

/-- An entry of the greatest age, held for its target alone. -/
theorem test_witness_NakRewindsEntry_oldest :
    let s := modTx 3 (fun t => { t with nextSeq := 4 }) (holding (entry .write (.waiting 100)) running)
    OrderListsHeld s ∧ age s (entry .write (.waiting 100)) = 4 ∧ isOldest s (entry .write (.waiting 100)) = true := by decide +kernel

theorem test_witness_DeadlineAndBackoffEnd :
    let e (n : Nat) : Entry := { entry .write (.waiting 100) with tries := n }
    let s (n : Nat) := modTx 3 (fun t => { t with backoff := some 9 }) (holding (e n) running)
    (∀ n ∈ [3, 4], Fit (s n) ∧ OrderListsHeld (s n) ∧ (s n).entry 0 = some (e n) ∧ ((s n).peer 3).tx.backoff = some 9)
      ∧ (∀ j : Slot, j ≠ 0 → (s 3).entry j = none) ∧ (e 3).tries < 4 ∧ 4 ≤ (e 4).tries := by decide +kernel

theorem test_witness_WindowCheck :
    let ws : Vector Window 8 :=
      (Vector.replicate 8 {}).set 7 { base := 511, length := 1, rights := { swap := true }, senders := 1, isOpen := true }
    let s := { State.reset with su := { windows := ws } }
    windowUsed s 0 .swap 0x1FF00 0x1FFFF = some 7 ∧ windowUsed s 0 .swap 0x1FEFF 0x1FFFF = none := by decide +kernel

/-- States with a request to take. -/
def asked (f : Frame) (s : State) : State := { s with sl := { s.sl with inRequests := [f] } }

theorem test_witness_RequestRefused :
    let f (sender q : Byte) (n : BitVec 16) (k : RequestKind) := frame (.request k) sender q n (List.replicate 6 0)
    let full (s : State) : State := { s with nq := { s.nq with records := List.replicate 16 ⟨3, 1, [0, 0, 0, 0]⟩ } }
    let ok (g : Frame) (s : State) : Prop := Fit (asked g s) ∧ (asked g s).hp.phase = .running ∧ (asked g s).su.execution = none
    let inTurn (g : Frame) (k : RequestKind) : Prop := duplicateRecord (asked g running) 3 k g.sequence = none
      ∧ g.sequence = ((asked g running).peer 3).rx.expected
    let r : Frame := frame (.request .read) 3 0 16 []
    (ok (f 3 0 6 .notice) { running with sl := { running.sl with replyQueue := List.replicate 8 (f 3 0 6 .notice) } })
      ∧ (ok (f 4 0 6 .notice) running ∧ (running.peer 4).status = .absent)
      ∧ (ok (f 3 1 6 .notice) running ∧ (running.peer 3).status = .present ∧ (1 : Byte) ≠ (running.peer 3).rx.expected)
      ∧ (ok (f 3 0 6 .notice) (full running) ∧ inTurn (f 3 0 6 .notice) .notice ∧ 16 ≤ (full running).nq.records.length + setApart (full running))
      ∧ (ok (f 3 0 5 .notice) running ∧ wellFormedRequest .notice (f 3 0 5 .notice) = false)
      ∧ (ok r running ∧ inTurn r .read ∧ wellFormedRequest .read r = true ∧ windowUsed (asked r running) 3 .read 0x2000 0x200F = none) := by
  decide +kernel

theorem test_witness_RequestRefused_unreachable :
    let l := { running with hp := { phase := .leaving }, sl := { holder := some (presenceFrame 0 [] false true) } }
    let s := asked (frame (.request .read) 3 0 16 []) (setStatus 3 .unreachable l)
    Fit s ∧ s.hp.phase = .leaving ∧ (s.peer 3).status = .unreachable ∧ s.sl.replyQueue.length < 8 := by decide +kernel

theorem test_witness_RequestForm :
    let f (k : RequestKind) (n : BitVec 16) : Frame := { frame (.request k) 3 0 n (List.replicate n.toNat 0) with address := 0x1FFF0 }
    wellFormedRequest .write (f .write 16) = true ∧ wellFormedRequest .write (f .write 17) = false
      ∧ wellFormedRequest .swap (f .swap 8) = true ∧ wellFormedRequest .notice (f .notice 6) = true := by decide +kernel

theorem test_witness_NoticeAcceptedAndDuplicate :
    let f := frame (.request .notice) 3 0 6 [0, 7, 1, 2, 3, 4]
    let cached (k : RequestKind) (o : CacheOutcome) := modRx 3 (fun _ => { expected := 1, cache := [⟨0, k, some o⟩] }) running
    let g (k : RequestKind) := frame (.request k) 3 0 8 (List.replicate 8 0)
    let ok (k : RequestKind) (o : CacheOutcome) : Prop := Fit (asked (g k) (cached k o))
      ∧ duplicateRecord (asked (g k) (cached k o)) 3 k 0 = some ⟨0, k, some o⟩
    (Fit (asked f running) ∧ (asked f running).su.execution = none ∧ (running.peer 3).status = .present
        ∧ duplicateRecord (asked f running) 3 .notice 0 = none ∧ f.sequence = (running.peer 3).rx.expected
        ∧ matchingWaiter running.nq ⟨3, 7, [1, 2, 3, 4]⟩ = none)
      ∧ ok .write .ack ∧ ok .swap (.swapped [1, 2, 3, 4]) ∧ ok .swap (.unchanged [1, 2, 3, 4]) ∧ ok .write .denied ∧ ok .write .store
      ∧ ok .write .malformed := by decide +kernel

theorem test_witness_NoticeAcceptedAndDuplicate_waiter :
    let s := asked (frame (.request .notice) 3 0 6 [0, 7, 1, 2, 3, 4]) (awaiting running)
    Fit s ∧ (s.peer 3).status = .present ∧ duplicateRecord s 3 .notice 0 = none ∧ (s.peer 3).rx.expected = 0
      ∧ s.nq.records.length + setApart s < 16 ∧ matchingWaiter s.nq ⟨3, 7, [1, 2, 3, 4]⟩ = some ⟨0, 7, 3⟩
      ∧ (s.channel 0).current = some ⟨0x100, desc 5 1 4⟩ ∧ (descriptorOf (desc 5 1 4)).op = some .await := by decide +kernel

theorem test_witness_NoticeAcceptedAndDuplicate_window :
    let all : Window :=
      { base := 0, length := 512, rights := ⟨true, true, true⟩, senders := 0x08, singleUse := true, isOpen := true }
    let s (k : RequestKind) (final : Bool) := asked
      { frame (.request k) 3 0 8 (if k = .read then [] else List.replicate 8 1) with flags := { final := final } }
      { running with su := { windows := (Vector.replicate 8 {}).set 7 all } }
    let ok (k : RequestKind) (final : Bool) : Prop := Fit (s k final) ∧ (s k final).su.execution = none
      ∧ duplicateRecord (s k final) 3 k 0 = none ∧ (((s k final).sl.inRequests.map fun f => (wellFormedRequest k f,
        windowUsed (s k final) 3 k (requestRange k f).1 (requestRange k f).2)) = [(true, some 7)])
    ok .write true ∧ ok .write false ∧ ok .read false ∧ ok .swap false ∧ all.singleUse = true := by decide +kernel

theorem test_witness_NoticeAcceptedAndDuplicate_read :
    let s (n : BitVec 16) (b : List Byte) := asked (frame (.request .read) 3 0 n b)
      (modRx 3 (fun _ => { expected := 1, cache := [⟨0, .read, some .readData⟩] }) running)
    let ok (n : BitVec 16) (b : List Byte) : Prop := Fit (s n b) ∧ duplicateRecord (s n b) 3 .read 0 = some ⟨0, .read, some .readData⟩
    ok 256 [] ∧ ok 257 [] ∧ ok 0 [] ∧ ok 1 [7] ∧ (0x2000 : Addr).toNat % 256 + 256 ≤ 256 := by decide +kernel

theorem test_witness_RequestAccessEnds :
    let f (k : RequestKind) := frame (.request k) 3 0 8 (List.replicate 8 1)
    let s (c : Condition) (x : Access) (w : SuWork) := { grantedSu x w running with
      st := stored c, su := { running.su with execution := some ⟨f .write, 3, false⟩ } }
    let gives (c : Condition) (x : Access) (o : StoreOutcome) : Prop := (performAccess (stored c) x).2 = o
    let z : List Byte := List.replicate 4 0
    (Fit (s .good (.part 1 7 [1]) (.write ⟨16, [2], false⟩)) ∧ Fit (s .good (.part 1 7 [1]) (.write ⟨16, [], false⟩))
        ∧ gives .good (.part 1 7 [1]) .written ∧ gives .uncorrectable (.part 1 7 [1]) (.storeError []))
      ∧ (Fit (s .good (.read 1) (.read ⟨0, 8, 16, 1, []⟩)) ∧ Fit (s .good (.read 1) (.read ⟨0, 8, 16, 0, []⟩))
        ∧ gives .good (.read 1) (.data (List.replicate 8 0)) ∧ gives .uncorrectable (.read 1) (.storeError (List.replicate 8 0)))
      ∧ Fit (s .good (.swap 1 true z z) .swap) ∧ gives .good (.swap 1 true z z) (.swapped z)
      ∧ gives .good (.swap 1 true [1, 0, 0, 0] z) (.unchanged z) ∧ gives .uncorrectable (.swap 1 true z z) (.storeError []) := by
  decide +kernel

theorem test_witness_NoticeMatch : (31 : Byte).toNat ≤ 31 ∧ noticeMatches ⟨3, 7, []⟩ 7 31 = true ∧ noticeMatches ⟨3, 7, []⟩ 7 3 = true := by
  decide +kernel

theorem test_witness_FrameEndRoutes :
    let f (k : FrameKind) (t : Byte) : Frame := { frame k 3 0 0 [] with target := t }
    let s (p : Phase) : State := { running with hp := { running.hp with phase := p } }
    (Fit running ∧ running.sl.claim = .idle ∧ (List.replicate 13 (0 : Byte)).length < 14 ∧ 270 < (List.replicate 271 (0 : Byte)).length)
      ∧ Fit (s .detached) ∧ Fit (s .config) ∧ Fit (s .joining)
      ∧ receiveBytes (frameBytes (f (.request .read) 0)) = .good 3 (f (.request .read) 0)
      ∧ receiveBytes (frameBytes (f (.reply .ack) 0)) = .good 3 (f (.reply .ack) 0)
      ∧ receiveBytes (frameBytes (f (.reply .ack) 31)) = .good 3 (f (.reply .ack) 31) := by decide +kernel

theorem test_witness_FrameEndRoutes_unknown :
    let body : List Byte := [0xF0, 30, 0, 0, 0, 0, 0, 0, 0, 0]
    let sending : State := { running with sl := { claim := .sending .reply, replyQueue := [frame (.reply .ack) 0 0 0 []] } }
    receiveBytes (body ++ frameCheck body) = .unknownKind 30 ∧ Fit sending ∧ sending.sl.claim = .sending .reply
      ∧ (let g := presenceFrame 30 [1] false false
         receiveBytes (frameBytes { g with payload := [1] }) = .good 30 { g with payload := [1] } ∧ g.payload.length ≠ 8) := by
  decide +kernel

/-- A sender byte just above the numbers of stations, and the last kind nibble. -/
theorem test_witness_FrameEndRoutes_sender :
    let bytes (head sender : Byte) : List Byte :=
      let body := head :: sender :: List.replicate 8 0
      body ++ frameCheck body
    30 < (byteAt (bytes 0x10 31) 1).toNat ∧ (bytes 0x10 31).length = 14 ∧ frameCheck ((bytes 0xC0 30).take 10) = (bytes 0xC0 30).drop 10
      ∧ stationOf (byteAt (bytes 0xC0 30) 1) = some 30
      ∧ (byteAt (bytes 0xC0 30) 0).extractLsb' 4 4 ∉ [0x1#4, 0x2#4, 0x3#4, 0x4#4, 0x5#4, 0x8#4, 0x9#4, 0xA#4, 0xB#4] := by
  decide +kernel

theorem test_witness_HelloRestartsPeer :
    let f := presenceFrame 30 (List.replicate 8 0x41) true false
    Live running ∧ OrderListsHeld running ∧ running.sl.claim = .idle ∧ receiveBytes (frameBytes f) = .good 30 f
      ∧ f.sender ≠ running.own.setWidth 8 ∧ f.target = 31 ∧ f.kind = .presence ∧ f.payload.length = 8 ∧ f.flags.hello = true
      ∧ f.flags.leaving = false ∧ running.hp.phase ≠ .detached ∧ State.reset.hp.phase = .config := by decide +kernel

theorem test_witness_HelloRestartsPeer_kinds :
    let f (station : Byte) (leaving : Bool) : Frame :=
      { presenceFrame 3 (List.replicate 8 0x41) false leaving with target := station }
    let s := holding (entry .write .queued) (setChannel 0 (chan 1 1 16) running)
    Live s ∧ OrderListsHeld s ∧ receiveBytes (frameBytes (f 0 true)) = .good 3 (f 0 true)
      ∧ receiveBytes (frameBytes (f 31 false)) = .good 3 (f 31 false) ∧ (0 : Byte) = s.own.setWidth 8
      ∧ (s.peer 3).status ≠ .self ∧ (s.channel 0).state = .active ∧ (s.channel 0).current = some ⟨0x100, desc 1 1 16⟩
      ∧ s.rt.order = [] ++ 0 :: [] ∧ (s.entry 0).map (fun e => (e.target, e.channel, e.orphan)) = some (3, 0, false) := by decide +kernel

theorem test_witness_ClaimWindowRuns :
    let f := frame (.reply .ack) 0 0 0 []
    let w : ClaimWindow := ⟨true, 0, 31, false⟩
    let s (c : Claim) (sl : LineUnit) : State := { running with sl := { sl with window := some w, claim := c } }
    let q : LineUnit := { replyQueue := [f], requestQueue := [⟨0, f, false⟩] }
    (Fit (s .idle q) ∧ (s .idle q).sl.claim = .idle ∧ (0 : Fin 62).val = w.replySlot ∧ (31 : Fin 62).val = w.requestSlot
        ∧ w.claimed = false ∧ w.replySlot < w.requestSlot ∧ (s .idle q).sl.holder = none)
      ∧ Fit (s .idle { holder := some (presenceFrame 0 [] false false) })
      ∧ (Fit (s (.marking 31 .request) q) ∧ (s (.marking 31 .request) q).sl.aside = none)
      ∧ readBack 0 [5] = 0 ∧ readBack 5 [2] ≠ 5 := by decide +kernel

theorem test_witness_ClaimWindowRuns_aside :
    let l := presenceFrame 0 [] false true
    let s (h : Option Frame) : State :=
      { running with hp := { phase := .leaving }, sl := { holder := h, aside := some l, claim := .marking 61 .presence } }
    let w : ClaimWindow := ⟨true, 30, 61, true⟩
    let c : State := { running with sl := { window := some w } }
    Fit (s (some (presenceFrame 0 [] false false))) ∧ Fit (s none) ∧ (s none).sl.aside = some l ∧ l.flags.leaving = true
      ∧ Fit c ∧ c.sl.window = some w ∧ w.claimed = true ∧ c.sl.claim = .idle := by decide +kernel

/-- The presence frame in the holder of the witness above is no HELLO. -/
theorem test_witness_ClaimWindowRuns_holder :
    HelloInJoining { running with sl := { holder := some (presenceFrame 0 [] false false) } } := by
  refine ⟨fun f h k => ?_, fun f h => ?_⟩
  · cases h; cases k
  · cases h

/-- A slot given as a whole: in it this station claims, and another's number shows. -/
theorem test_witness_ClaimWindowRuns_whole :
    let f := frame (.reply .ack) 0 0 0 []
    let s : State := { running with own := 5, sl := { replyQueue := [f], window := some ⟨true, 5, 36, false⟩ } }
    Fit s ∧ s.sl.holder = none ∧ s.sl.aside = none
      ∧ (after (exec (.claimSlot 5 (.whole [7])) s)).sl.claim = .sending .reply
      ∧ (after (exec (.claimSlot 5 (.whole [2])) s)).sl.claim = .idle := by decide +kernel

theorem test_witness_TransmissionReports :
    let f (hello leaving : Bool) := presenceFrame 0 [] hello leaving
    let s (p : Phase) (sl : LineUnit) : State := { running with hp := { running.hp with phase := p }, sl := sl }
    let held (p : Phase) (hello leaving : Bool) := s p { holder := some (f hello leaving), claim := .sending .presence }
    let q : QueuedFrame := ⟨0, frame (.request .read) 0 0 16 [], false⟩
    let r := holding (entry .read .queued) (s .running { requestQueue := [q], claim := .sending .request })
    Fit (s .running { replyQueue := [q.frame], claim := .sending .reply }) ∧ (Fit r ∧ r.entry 0 = some (entry .read .queued)
        ∧ (entry .read .queued).sequence = q.frame.sequence)
      ∧ Fit (held .joining true false) ∧ Fit (held .leaving false true) ∧ Fit (held .running false false)
      ∧ (held .leaving false true).sl.holder = some (f false true) ∧ (held .leaving false true).sl.aside = none := by decide +kernel

/-- An unmarked presence frame sent in LEAVING while an entry is held, with nothing kept aside. -/
theorem test_witness_TransmissionReports_leaving :
    let s := holding (entry .read (.waiting 100)) { running with
      hp := { phase := .leaving }, sl := { holder := some (presenceFrame 0 [] false false), claim := .sending .presence } }
    Fit s ∧ s.sl.claim = .sending .presence ∧ s.sl.holder = some (presenceFrame 0 [] false false) ∧ s.sl.aside = none
      ∧ s.hp.phase = .leaving := by decide +kernel

theorem test_witness_TransmissionReports_withdrawn :
    let q (w : Bool) : QueuedFrame := ⟨0, frame (.request .read) 0 9 16 [], w⟩
    let s (w : Bool) := holding (entry .read .queued) { running with sl := { requestQueue := [q w], claim := .sending .request } }
    let u : State := { running with
      hp := { phase := .leaving }
      sl := { holder := some (presenceFrame 0 [] false false), aside := some (presenceFrame 0 [] false true), claim := .sending .presence } }
    (Fit (s true) ∧ (s true).sl.requestQueue = q true :: [] ∧ (q true).withdrawn = true)
      ∧ (Fit (s false) ∧ (s false).entry 0 = some (entry .read .queued) ∧ (entry .read .queued).sequence ≠ (q false).frame.sequence)
      ∧ Fit u ∧ u.sl.claim = .sending .presence ∧ u.hp.phase = .leaving := by decide +kernel

theorem test_witness_QueuesStayBounded : QueuesBounded running ∧ step running = .next (after (step running)) :=
  ⟨by decide +kernel, rfl⟩

/-- Two channels held with 32 events in the queue, one with CHAIN-DONE and one with DESCRIPTOR-NOTIFY, a third that drains with an entry
outstanding and a data write under way, and a fourth that writes its completion: all the premises together. -/
theorem test_witness_QueuesStayBounded_held :
    let e (k : EventKind) (ch : ChannelNo) : Event := { kind := k, channel := ch, code := none, address := 0x100, detail := 0 }
    let held (k : EventKind) (ch : ChannelNo) : Channel := { chan 2 2 16 with state := .held, pendingEvent := some (e k ch) }
    let s : State := { holding { entry .read .queued with channel := 2 }
        (setChannel 0 (held .chainDone 0) (setChannel 1 (held .descriptorNotify 1) (setChannel 2 { chan 2 0 16 with
          state := .draining, fault := some ⟨.storeError, 0x100, 0⟩, outstanding := 1 } (setChannel 3 { chan 1 0 16 with
          state := .active, issued := 1, completed := 1, allIssued := true } (setHeld [1, 0] running))))) with
      ev := { events := List.replicate 32 (e .chainDone 0) }
      arb := { ce := [(.part 0 0 [0], .getWrite 2 ⟨1, [0], false⟩ 0), (.part 0 7 [1], .doneStatus 3)] } }
    QueuesBounded s ∧ OrderListsHeld s ∧ CountsExact s ∧ WorkInOrder s ∧ HeldListInOrder s ∧ s.ce.held = [1, 0]
      ∧ step s = .next (after (step s)) := by
  refine ⟨?_, ?_, ?_, ?_, ?_, ?_, rfl⟩ <;> decide +kernel

/-- A queue with room for one more event, and no channel held. -/
theorem test_witness_QueuesStayBounded_room :
    let s : State := { running with
      ev := { events := List.replicate 31 { kind := .chainDone, channel := 0, code := none, address := 0, detail := 0 } } }
    HeldListInOrder s ∧ s.ev.events.length < 32 := by decide +kernel

theorem test_witness_CachesStayInOrder :
    CacheInOrder (modRx 3 (fun _ => { expected := 1, cache := [⟨255, .read, none⟩, ⟨0, .write, none⟩] }) running) := by decide +kernel

theorem test_witness_CountsStayExact :
    let s := holding (entry .write .queued) (setChannel 0 { outstanding := 1 } running)
    OrderListsHeld s ∧ CountsExact s := by decide +kernel

/-- Two entries of a target with the ages 1 and 4, the older one taken earlier. -/
theorem test_witness_CountsStayExact_ages :
    let e (q : Byte) : Entry := { entry .write .queued with sequence := q }
    let s := modTx 3 (fun t => { t with nextSeq := 1 })
      (setOrder [15, 0] (setEntry 15 (some (e 253)) (setEntry 0 (some (e 0)) running)))
    OrderListsHeld s ∧ AgesInWindow s := by
  intro e s
  refine ⟨by decide +kernel, ?_⟩
  have other : ∀ i : Slot, i ≠ 0 → i ≠ 15 → s.entry i = none := by decide +kernel
  have first : s.entry 0 = some (e 0) := rfl
  have last : s.entry 15 = some (e 253) := rfl
  have ages : age s (e 0) = 1 ∧ age s (e 253) = 4 := by decide +kernel
  have held : ∀ (i : Slot) (g : Entry), s.entry i = some g → (i = 0 ∧ g = e 0) ∨ (i = 15 ∧ g = e 253) := by
    intro i g h
    by_cases a : i = 0
    · subst a; rw [first] at h; cases h; exact .inl ⟨rfl, rfl⟩
    · by_cases b : i = 15
      · subst b; rw [last] at h; cases h; exact .inr ⟨rfl, rfl⟩
      · rw [other i a b] at h; cases h
  refine ⟨fun i g h => ?_, fun i j g k h1 h2 _ same => ?_, fun ch p h => (by cases h), ?_⟩
  · rcases held i g h with ⟨_, rfl⟩ | ⟨_, rfl⟩
    · rw [ages.1]; decide
    · rw [ages.2]; decide
  · rcases held i g h1 with ⟨rfl, rfl⟩ | ⟨rfl, rfl⟩ <;> rcases held j k h2 with ⟨rfl, rfl⟩ | ⟨rfl, rfl⟩
    · rfl
    · rw [ages.1, ages.2] at same; cases same
    · rw [ages.1, ages.2] at same; cases same
    · rfl
  · refine List.pairwise_pair.2 fun g k h1 h2 _ => ?_
    rw [last] at h1; rw [first] at h2; cases h1; cases h2
    rw [ages.1, ages.2]; decide

theorem test_witness_TargetsStayPresent :
    let s := holding (entry .write .queued) running
    OrderListsHeld s ∧ ConfigQuiet s ∧ (s.peer 3).status = .present ∧ (∀ i : Slot, i ≠ 0 → s.entry i = none)
      ∧ ∀ p : Station, (s.peer p).status = .self ↔ p.val = s.own.toNat := by decide +kernel

theorem test_witness_PhaseAndConfiguration :
    let moves (c : Instr) (s : State) : Prop := exec c s = .next (after (exec c s)) ∧ Resets c = false
      ∧ (after (exec c s)).hp.phase ≠ s.hp.phase
    let s (p : Phase) (hello leaving : Bool) : State := { State.reset with
      hp := { phase := p }, sl := { holder := some (presenceFrame 0 [] hello leaving), claim := .sending .presence } }
    moves .sealStation (port .config .command) ∧ moves .transmissionEnd (s .joining true false) ∧ moves .leave (port .running .command)
      ∧ moves .transmissionEnd (s .leaving false true) :=
  ⟨⟨rfl, rfl, by decide +kernel⟩, ⟨rfl, rfl, by decide +kernel⟩, ⟨rfl, rfl, by decide +kernel⟩, rfl, rfl, by decide +kernel⟩

end Sys2Proof.Machine.Tests
end

section
/-! The page store and its arbiter: what a word written back whole leaves, what each kind of write returns by the condition it finds,
and which requester the free store is granted to. -/

namespace Sys2Proof.Machine

/-! ## A word written back with fresh check bits (R4 to R6) -/

section

variable {st : PageStore} (h : st.wf = true) (w : WordNo)
include h

/-- A word found readable and left GOOD, with the other words' conditions as they were (R2). -/
theorem condition_setCondition_good :
    condition (setCondition st w .good) w = .good
      ∧ ∀ v, v ≠ w → condition (setCondition st w .good) v = condition st v := by
  refine ⟨?_, fun v other => ?_⟩
  · rw [condition_setCondition h, if_pos rfl]
  · rw [condition_setCondition h, if_neg other]

/-- A word rewritten is GOOD, and no byte of another word and no other condition changes. -/
theorem rewriteWord_frame (b : List Byte) :
    let u := setCondition (putWord st w b) w .good
    condition u w = .good
      ∧ (∀ a, a / 8 ≠ w.toNat → storedByte u a = storedByte st a) ∧ ∀ v, v ≠ w → condition u v = condition st v := by
  obtain ⟨healed, others⟩ := condition_setCondition_good (putWord_wf h w b) w
  refine ⟨healed, fun a outside => ?_, others⟩
  rw [storedByte_setCondition, storedByte_putWord h, if_neg outside]

/-- Byte `k` of a word rewritten is byte `k` of what was written (R1). -/
theorem storedByte_rewriteWord (b : List Byte) {k : Nat} (hk : k < 8) :
    storedByte (setCondition (putWord st w b) w .good) (8 * w.toNat + k) = byteAt b k := by
  rw [storedByte_setCondition, storedByte_putWord h, if_pos (by omega)]
  congr 1; omega

theorem wordBytes_rewriteWord {b : List Byte} (hb : b.length = 8) :
    wordBytes (setCondition (putWord st w b) w .good) w = b := by
  refine List.ext_getElem (by rw [wordBytes_length, hb]) fun k hk hk' => ?_
  rw [wordBytes_length] at hk
  calc (wordBytes (setCondition (putWord st w b) w .good) w)[k]
      = storedByte (setCondition (putWord st w b) w .good) (8 * w.toNat + k) := by simp [wordBytes]
    _ = byteAt b k := storedByte_rewriteWord h w b hk
    _ = b[k] := by simp [byteAt, hk']

/-- The bytes of a word after a run merged into its own bytes has been written back (R5). -/
theorem storedByte_mergeWord {first : Nat} {run : List Byte} (fits : first + run.length ≤ 8) {k : Nat} (hk : k < 8) :
    storedByte (setCondition (putWord st w (mergeRun (wordBytes st w) first run)) w .good) (8 * w.toNat + k)
      = if first ≤ k ∧ k < first + run.length then byteAt run (k - first) else storedByte st (8 * w.toNat + k) := by
  rw [storedByte_rewriteWord h w _ hk, byteAt, mergeRun_getD _ _ _ _ (wordBytes_length st w) fits, wordBytes_getD st w hk, byteAt]

end

/-! ## Each kind of write by the condition it finds -/

section

variable {st : PageStore} {w : WordNo}

theorem performAccess_full (b : List Byte) :
    performAccess st (.full w b) = (setCondition (putWord st w b) w .good, .written) := rfl

theorem performAccess_part_readable (first : Nat) (run : List Byte) (readable : condition st w ≠ .uncorrectable) :
    performAccess st (.part w first run)
      = (setCondition (putWord st w (mergeRun (wordBytes st w) first run)) w .good, .written) := by
  rw [performAccess, partAccess]; split
  · contradiction
  · rfl

theorem performAccess_part_uncorrectable (first : Nat) (run : List Byte) (bad : condition st w = .uncorrectable) :
    performAccess st (.part w first run) = (st, .storeError []) := by
  simp only [performAccess, partAccess, bad]

/-- The half of a word that a swap compares, byte by byte in address order (R6). -/
theorem halfOf_wordBytes (upper : Bool) :
    halfOf upper (wordBytes st w)
      = (List.range 4).map fun k => storedByte st (8 * w.toNat + (if upper then 4 else 0) + k) := by
  cases upper <;> rfl

theorem performAccess_swap_equal {upper : Bool} {compare old : List Byte} (new : List Byte)
    (readable : condition st w ≠ .uncorrectable) (half : halfOf upper (wordBytes st w) = old) (equal : old = compare) :
    performAccess st (.swap w upper compare new)
      = (setCondition (putWord st w (mergeRun (wordBytes st w) (if upper then 4 else 0) new)) w .good, .swapped old) := by
  rw [performAccess, swapAccess]; split
  · contradiction
  · rw [half, if_pos equal]

theorem performAccess_swap_differ {upper : Bool} {compare old : List Byte} (new : List Byte)
    (readable : condition st w ≠ .uncorrectable) (half : halfOf upper (wordBytes st w) = old) (differ : old ≠ compare) :
    performAccess st (.swap w upper compare new) = (setCondition st w .good, .unchanged old) := by
  rw [performAccess, swapAccess]; split
  · contradiction
  · rw [half, if_neg differ]

theorem performAccess_swap_uncorrectable (upper : Bool) (compare new : List Byte) (bad : condition st w = .uncorrectable) :
    performAccess st (.swap w upper compare new) = (st, .storeError []) := by
  simp only [performAccess, swapAccess, bad]

end

/-! ## The grant (R10) -/

theorem waits_hp {a : Arbiter} : waits a .hp = true ↔ a.hp ≠ [] := by simp [waits]

theorem waits_ce {a : Arbiter} : waits a .ce = true ↔ a.ce ≠ [] := by simp [waits]

theorem waits_su {a : Arbiter} : waits a .su = true ↔ a.su ≠ [] := by simp [waits]

/-- With nothing waiting the free store stays free. -/
theorem grantNext_idle {s : State} (idle : ∀ r, waits s.arb r = false) : grantNext s = s := by
  refine grantNext_same (.inr ⟨?_, ?_, ?_⟩)
  · simpa [waits] using idle .hp
  · simpa [waits] using idle .ce
  · simpa [waits] using idle .su

/-- The free store goes to the first in the order of preference who waits, who becomes the last grantee. -/
theorem grantNext_first {s : State} {r : Requester} (free : s.arb.granted = none)
    (first : (preference s.arb.last).find? (waits s.arb) = some r) :
    grantNext s = { s with arb := { s.arb with granted := some r, last := r } } := by
  simp only [grantNext, free, first]

/-! ## The statements -/

/-- Settles O7: the full write makes no case of the condition, so what a word rewritten holds is all there is to say. -/
theorem fullWordWriteHeals : Obligations.FullWordWriteHeals := by
  intro st w bytes h whole
  exact ⟨_, performAccess_full bytes, wordBytes_rewriteWord h w whole, rewriteWord_frame h w bytes⟩

/-- Settles O8: a readable word is rewritten with the run merged into it, an UNCORRECTABLE one is refused. -/
theorem partialWordWriteByCondition : Obligations.PartialWordWriteByCondition := by
  intro st w first run h _ _ fits
  refine ⟨fun readable => ?_, performAccess_part_uncorrectable first run⟩
  exact ⟨_, performAccess_part_readable first run readable, fun k hk => storedByte_mergeWord h w fits hk,
    rewriteWord_frame h w _⟩

/-- Settles O9: the half compared is the old value; equal, the word is rewritten with the new value merged in; different, only its
condition is mended; UNCORRECTABLE, it is refused. -/
theorem swapAccessByCondition : Obligations.SwapAccessByCondition := by
  intro st w upper compare new h _ newLength first old
  have half : halfOf upper (wordBytes st w) = old := halfOf_wordBytes upper
  refine ⟨fun readable equal => ?_, fun readable differ => ?_, performAccess_swap_uncorrectable upper compare new⟩
  · have fits : first + new.length ≤ 8 := by
      have : first ≤ 4 := by cases upper <;> decide
      omega
    refine ⟨_, performAccess_swap_equal new readable half equal, fun k hk => ?_, rewriteWord_frame h w _⟩
    simpa only [newLength] using storedByte_mergeWord h w fits hk
  · exact ⟨_, performAccess_swap_differ new readable half differ, rfl, condition_setCondition_good h w⟩

/-- Settles O12: in the order of preference, whoever does not wait is passed over. -/
theorem grantFollowsCycle : Obligations.GrantFollowsCycle := by
  intro s
  refine ⟨fun held => grantNext_same (.inl held), fun _ => grantNext_idle, fun free r x y order => ?_,
    waits_hp, waits_ce, waits_su, rfl, rfl, rfl, rfl⟩
  refine ⟨fun hr => grantNext_first free ?_, fun hr hx => grantNext_first free ?_, fun hr hx hy => grantNext_first free ?_⟩
  · rw [order, List.find?_cons_of_pos hr]
  · rw [order, List.find?_cons_of_neg (by simp [hr]), List.find?_cons_of_pos hx]
  · rw [order, List.find?_cons_of_neg (by simp [hr]), List.find?_cons_of_neg (by simp [hx]), List.find?_cons_of_pos hy]

end Sys2Proof.Machine
end

section
/-! Every command: what each happening does before it is closed, what a command can leave, and what that keeps whatever the
happening is: the waiting commands, a settled state, the form of the store. -/

namespace Sys2Proof.Machine

/-! ## What a command can leave -/

/-- What a happening does before it is closed by `settle`; nothing, for the resets and the disturbance, which are not closed. -/
def happens : Instr → State → State
  | .storeAccessEnd => endAccess
  | .issueTurn => takeTurn
  | .replyTake => takeReply
  | .deadlinePass i => passDeadline i
  | .busyBackoffEnd p => endBackoff p
  | .requestTake => takeRequest
  | .frameEnd received => takeFrame received
  | .claimWindowOpen => openWindow
  | .claimSlot n part => passSlot n part
  | .claimWindowEnd => endWindow
  | .transmissionEnd => endTransmission
  | .selectAssert high => assertSelect high
  | .selectRelease bits => releaseSelect bits
  | .transactionComplete => completeTransaction
  | .unknownCommand code => fun s => if hostCodeOf code = none then atCommand (refuse .unknown) s else s
  | .status => atCommand fun s => present (statusRecord s) .copy s
  | .storeRead t => withOperands .storeRead t decideStoreRead
  | .storeWrite t => takeStoreWrite t
  | .takeEvent => atCommand decideTakeEvent
  | .takeNotice => atCommand decideTakeNotice
  | .takeChanges => atCommand decideTakeChanges
  | .submit t => withOperands .submit t decideSubmit
  | .resume t => withOperands .resume t decideResume
  | .abort t => withOperands .abort t decideAbort
  | .readChannel t => withOperands .readChannel t decideReadChannel
  | .readPeer t => withOperands .readPeer t decideReadPeer
  | .setWindow t => withOperands .setWindow t decideSetWindow
  | .setLabel t => fun s => if labelTaken t then withOperands .setLabel t decideSetLabel s else s
  | .setTiming t => withOperands .setTiming t decideSetTiming
  | .sealStation => atCommand decideSeal
  | .gate t => withOperands .gate t decideGate
  | .mask t => withOperands .mask t decideMask
  | .leave => atCommand decideLeave
  | .streamByte data => clockByte data
  | .hardwareReset _ _ | .powerUp _ _ _ | .resetEnd _ | .storeDisturbance _ _ _ _ => id

/-- What a command can leave: every block reset; the store alone changed; while RESET is held low, the level of select followed;
and otherwise what its happening does, closed. -/
inductive Leaves (c : Instr) (s : State) : State → Prop
  | reset (straps : BitVec 5) (st : PageStore) (low : Bool) :
      Resets c = true → (st = s.st ∨ st = storeAtReset true s ∧ (∃ n, c = .hardwareReset n true)
        ∨ ∃ n b m, c = .powerUp n b m ∧ st = contentStore b m) →
      Leaves c s { resetWith straps st s with pins := { s.pins with resetLow := low } }
  | same : Leaves c s s
  | disturbed (w : WordNo) (bits : Nat) (found : Condition) (raw : List Byte) :
      c = .storeDisturbance w bits found raw → Leaves c s { s with st := disturb s.st w bits found raw }
  | selects (level : Bool) : s.pins.resetLow = true → Leaves c s { s with pins := { s.pins with selected := level } }
  | closed : s.pins.resetLow = false → Resets c = false → Leaves c s (settle (happens c s))

/-- A happening answers the state as it was, while RESET is held low, or what it does, closed. -/
theorem leaves_of_happening {c : Instr} {s t : State} (free : Resets c = false) (e : happening (happens c) s = .next t) :
    Leaves c s t := by
  obtain rfl : (if s.pins.resetLow then s else settle (happens c s)) = t := Host.Outcome.next.inj e
  cases low : s.pins.resetLow
  · exact .closed low free
  · exact .same

theorem leaves_of_select {c : Instr} {s t : State} (free : Resets c = false)
    (held : s.pins.resetLow = true → ∃ level, happens c s = { s with pins := { s.pins with selected := level } })
    (e : Host.Outcome.next (if s.pins.resetLow then happens c s else settle (happens c s))
      = (.next t : Host.Outcome State Fault Refusal)) : Leaves c s t := by
  obtain rfl := Host.Outcome.next.inj e
  cases low : s.pins.resetLow
  · exact .closed low free
  · obtain ⟨level, h⟩ := held low
    simp only [if_true, h]; exact .selects level low

theorem assertSelect_held {s : State} (low : s.pins.resetLow = true) (high : Bool) :
    assertSelect high s = { s with pins := { s.pins with selected := true } } := by
  have followed (on : s.pins.selected = true) : s.pins = { s.pins with selected := true } := by rw [← on]
  unfold assertSelect; split
  · rename_i on; exact congrArg (fun p => { s with pins := p }) (followed on)
  · simp only [low]

theorem releaseSelect_held {s : State} (low : s.pins.resetLow = true) (bits : Fin 8) :
    releaseSelect bits s = { s with pins := { s.pins with selected := false } } := by
  have followed (off : s.pins.selected = false) : s.pins = { s.pins with selected := false } := by rw [← off]
  unfold releaseSelect; split
  · rename_i off; exact congrArg (fun p => { s with pins := p }) (followed off)
  · simp only [low]

/-- Every command answers a next state. -/
theorem exec_answers (c : Instr) (s : State) : ∃ t, exec c s = .next t := by cases c <;> exact ⟨_, rfl⟩

/-- What a command leaves is one of the five. -/
theorem exec_leaves {c : Instr} {s t : State} (e : exec c s = .next t) : Leaves c s t := by
  cases c
  case hardwareReset straps made =>
    obtain rfl := Host.Outcome.next.inj e
    refine .reset straps (storeAtReset made s) true rfl ?_
    cases made
    · exact .inl rfl
    · exact .inr (.inl ⟨rfl, straps, rfl⟩)
  case powerUp straps content marks =>
    obtain rfl := Host.Outcome.next.inj e
    exact .reset straps _ s.pins.resetLow rfl (.inr (.inr ⟨straps, content, marks, rfl, rfl⟩))
  case resetEnd straps =>
    obtain rfl : releaseReset straps s = t := Host.Outcome.next.inj e
    unfold releaseReset; split
    · exact .reset straps s.st false rfl (.inl rfl)
    · exact .same
  case storeDisturbance w bits found raw =>
    obtain rfl := Host.Outcome.next.inj e
    exact .disturbed w bits found raw rfl
  case selectAssert high => exact leaves_of_select rfl (fun low => ⟨_, assertSelect_held low high⟩) e
  case selectRelease bits => exact leaves_of_select rfl (fun low => ⟨_, releaseSelect_held low bits⟩) e
  all_goals exact leaves_of_happening rfl e

/-- A step keeps what the passing of a period and every command keep, whatever commands wait. -/
theorem step_keeps {P : State → Prop} (tick : ∀ s, P s → P (tick s)) (waiting : ∀ s q, P s → P { s with pending := q })
    (command : ∀ c s t, P s → exec c s = .next t → P t) {s t : State} (h : P s) (e : step s = .next t) : P t := by
  unfold step at e
  cases q : s.pending with
  | nil => rw [q] at e; obtain rfl := Host.Outcome.next.inj e; exact tick s h
  | cons c rest => rw [q] at e; exact command c _ _ (waiting s rest h) e

/-! ## What the host commands leave -/

/-- The transaction stands before the decision point of a command (R169). -/
def Deciding (s : State) : Prop := s.hp.txn = .command ∨ ∃ c left, s.hp.txn = .operands c left

/-- What a host command that starts, stops or takes back no chain and no phase leaves as it was: the chains, the tables, the store
and its other requesters, the line; the phase and, after CONFIG, what SEAL has fixed; and no notice more than before. -/
structure PortStep (s t : State) : Prop where
  only : ∃ (hp : HostPort) (asked : List (Access × HpWork)) (windows : Vector Window 8) (ev : EventUnit)
    (records : List Notice) (pins : Pins), t = { s with
    hp := hp, arb := { s.arb with hp := asked }, su := { s.su with windows := windows }
    ev := { ev with events := s.ev.events }, nq := { s.nq with records := records }, pins := pins }
  phase : t.hp.phase = s.hp.phase
  fixed : s.hp.phase ≠ .config → t.hp.label = s.hp.label ∧ t.hp.timing = s.hp.timing
    ∧ ∀ w : WindowNo, (t.su.windows.get w).fixed = (s.su.windows.get w).fixed
  notices : t.nq.records.length + setApart t ≤ s.nq.records.length + setApart s

theorem PortStep.refl (s : State) : PortStep s s :=
  ⟨⟨_, _, _, _, _, _, rfl⟩, rfl, fun _ => ⟨rfl, rfl, fun _ => rfl⟩, le_rfl⟩

theorem PortStep.trans {s t u : State} (a : PortStep s t) (b : PortStep t u) : PortStep s u := by
  refine ⟨?_, b.phase.trans a.phase, fun sealed => ?_, b.notices.trans a.notices⟩
  · obtain ⟨_, _, _, _, _, _, h⟩ := a.only
    obtain ⟨_, _, _, _, _, _, k⟩ := b.only
    subst h; exact ⟨_, _, _, _, _, _, k⟩
  · obtain ⟨l, m, w⟩ := a.fixed sealed
    obtain ⟨l', m', w'⟩ := b.fixed (by rw [a.phase]; exact sealed)
    exact ⟨l'.trans l, m'.trans m, fun n => (w' n).trans (w n)⟩

section
variable {s : State}

/-- A change of the port that keeps phase, label and timing, and sets no further notice apart. -/
theorem portStep_modPort {f : HostPort → HostPort} (phase : (f s.hp).phase = s.hp.phase) (label : (f s.hp).label = s.hp.label)
    (timing : (f s.hp).timing = s.hp.timing) (apart : setApart (modPort f s) ≤ setApart s) : PortStep s (modPort f s) :=
  ⟨⟨_, _, _, _, _, _, rfl⟩, phase, fun _ => ⟨label, timing, fun _ => rfl⟩, Nat.add_le_add_left apart _⟩

theorem shiftOut_port (bytes : List Byte) : PortStep s (shiftOut bytes s) := portStep_modPort rfl rfl rfl le_rfl

theorem refuse_port (r : RefusalReason) : PortStep s (refuse r s) := portStep_modPort rfl rfl rfl (Nat.zero_le _)

theorem carryOut_port : PortStep s (carryOut s) := portStep_modPort rfl rfl rfl (Nat.zero_le _)

theorem present_port {record : List Byte} {took : Took} (none : ∀ n, took ≠ .notice (some n)) :
    PortStep s (present record took s) := by
  refine portStep_modPort rfl rfl rfl ?_
  simp only [setApart, modPort_hp]; split
  · rename_i n h; simp only [Transaction.output.injEq] at h; exact absurd h.2 (none n)
  · exact Nat.zero_le _

/-- What a command without operands does is nothing, or its decision (R169). -/
theorem atCommand_or (f : State → State) :
    atCommand f s = s ∨ s.hp.txn = .command ∧ atCommand f s = f (shiftOut [s.hp.status] s) := by
  unfold atCommand; split
  · rename_i h; exact .inr ⟨h, rfl⟩
  · exact .inl rfl

/-- What a command with operands does is nothing, the passage to OPERANDS, or its decision (R169). -/
theorem withOperands_or {α : Type} (c : HostCode) (t : Taken α) (f : α → State → State) :
    withOperands c t f s = s
      ∨ (s.hp.txn = .command ∧ ∃ b n, withOperands c t f s = modPort (fun p => { p with txn := .operands c n }) (shiftOut b s))
      ∨ ∃ x b, Deciding s ∧ withOperands c t f s = f x (shiftOut b s) := by
  unfold withOperands; split
  · rename_i h; exact .inr (.inl ⟨h, _, _, rfl⟩)
  · rename_i h; exact .inr (.inr ⟨_, _, .inl h, rfl⟩)
  · rename_i h
    split
    · exact .inr (.inr ⟨_, _, .inr ⟨_, _, h⟩, rfl⟩)
    · exact .inl rfl
  · exact .inl rfl

/-- A command without operands keeps what shifting out and its decision keep. -/
theorem atCommand_port {f : State → State} (decides : ∀ u, Deciding u → PortStep u (f u)) : PortStep s (atCommand f s) := by
  rcases atCommand_or (s := s) f with h | ⟨k, h⟩ <;> rw [h]
  · exact .refl s
  · exact (shiftOut_port _).trans (decides _ (.inl k))

/-- A command with operands keeps what shifting out and its decision keep. -/
theorem withOperands_port {α : Type} {c : HostCode} {t : Taken α} {f : α → State → State}
    (decides : ∀ x u, Deciding u → PortStep u (f x u)) : PortStep s (withOperands c t f s) := by
  rcases withOperands_or (s := s) c t f with h | ⟨-, b, n, h⟩ | ⟨x, b, k, h⟩ <;> rw [h]
  · exact .refl s
  · exact (shiftOut_port b).trans (portStep_modPort rfl rfl rfl (Nat.zero_le _))
  · exact (shiftOut_port b).trans (decides x _ k)

theorem assertSelect_port (high : Bool) : PortStep s (assertSelect high s) := by
  have pins (p : Pins) : PortStep s { s with pins := p } :=
    ⟨⟨_, _, _, _, _, _, rfl⟩, rfl, fun _ => ⟨rfl, rfl, fun _ => rfl⟩, le_rfl⟩
  simp only [assertSelect]; split
  · exact .refl s
  · split
    · exact pins _
    · exact (pins _).trans (portStep_modPort rfl rfl rfl (Nat.zero_le _))

theorem decideStoreRead_port (a : BitVec 24) : PortStep s (decideStoreRead a s) := by
  unfold decideStoreRead; split
  · exact refuse_port _
  · split
    · exact refuse_port _
    · exact ⟨⟨_, _, _, _, _, _, rfl⟩, rfl, fun _ => ⟨rfl, rfl, fun _ => rfl⟩, Nat.add_le_add_left (Nat.zero_le _) _⟩

theorem takeStoreWrite_port (t : Taken (BitVec 24)) : PortStep s (takeStoreWrite t s) := by
  unfold takeStoreWrite; split
  · cases t <;> exact (shiftOut_port _).trans (refuse_port _)
  · refine withOperands_port fun a u _ => ?_
    unfold decideStoreWrite; split
    · exact refuse_port _
    · exact portStep_modPort rfl rfl rfl (Nat.zero_le _)

theorem decideTakeEvent_port : PortStep s (decideTakeEvent s) := by
  unfold decideTakeEvent; split <;> exact present_port (by simp)

theorem decideTakeNotice_port : PortStep s (decideTakeNotice s) := by
  unfold decideTakeNotice; split
  · exact present_port (by simp)
  · rename_i n rest h
    refine ⟨⟨_, _, _, _, _, _, rfl⟩, rfl, fun _ => ⟨rfl, rfl, fun _ => rfl⟩, ?_⟩
    show rest.length + 1 ≤ s.nq.records.length + setApart s
    rw [h, List.length_cons]; omega

theorem decideTakeChanges_port : PortStep s (decideTakeChanges s) :=
  ⟨⟨_, _, _, (decideTakeChanges s).ev, _, _, rfl⟩, rfl, fun _ => ⟨rfl, rfl, fun _ => rfl⟩, Nat.add_le_add_left (Nat.zero_le _) _⟩

theorem decideReadChannel_port (b : Byte) : PortStep s (decideReadChannel b s) := by
  unfold decideReadChannel; split
  · exact refuse_port _
  · exact present_port (by simp)

theorem decideReadPeer_port (b : Byte) : PortStep s (decideReadPeer b s) := by
  unfold decideReadPeer; split
  · exact refuse_port _
  · exact present_port (by simp)

/-- After SEAL a configuration command is refused; before it, nothing is fixed. -/
theorem decideSetWindow_port (o : WindowOps) : PortStep s (decideSetWindow o s) := by
  unfold decideSetWindow; split
  · exact refuse_port _
  · rename_i config
    split
    · split
      · exact refuse_port _
      · exact ⟨⟨_, _, _, _, _, _, rfl⟩, rfl, fun sealed => absurd sealed config, Nat.add_le_add_left (Nat.zero_le _) _⟩
    · exact refuse_port _

theorem decideSetLabel_port (label : List Byte) : PortStep s (decideSetLabel label s) := by
  unfold decideSetLabel; split
  · exact refuse_port _
  · rename_i config
    exact ⟨⟨_, _, _, _, _, _, rfl⟩, rfl, fun sealed => absurd sealed config, Nat.add_le_add_left (Nat.zero_le _) _⟩

theorem decideSetTiming_port (b : Byte) : PortStep s (decideSetTiming b s) := by
  unfold decideSetTiming; split
  · exact refuse_port _
  · rename_i config
    split
    · exact refuse_port _
    · exact ⟨⟨_, _, _, _, _, _, rfl⟩, rfl, fun sealed => absurd sealed config, Nat.add_le_add_left (Nat.zero_le _) _⟩

/-- The gate is no attribute that SEAL fixes (R89). -/
theorem setGate_fixed (w v : WindowNo) (g : Bool) :
    ((setGate w g s).su.windows.get v).fixed = (s.su.windows.get v).fixed := by
  simp only [setGate, modService_su, Vector.get_eq_getElem, Vector.getElem_set, Window.fixed]
  split
  · rename_i same; simp only [same]
  · rfl

theorem decideGate_port (o : GateOps) : PortStep s (decideGate o s) := by
  unfold decideGate; split
  · exact refuse_port _
  · split
    · exact ⟨⟨_, _, _, _, _, _, rfl⟩, rfl, fun _ => ⟨rfl, rfl, fun v => setGate_fixed (s := carryOut s) _ v _⟩,
        Nat.add_le_add_left (Nat.zero_le _) _⟩
    · exact refuse_port _

theorem decideMask_port (b : Byte) : PortStep s (decideMask b s) :=
  ⟨⟨_, _, _, (decideMask b s).ev, _, _, rfl⟩, rfl, fun _ => ⟨rfl, rfl, fun _ => rfl⟩, Nat.add_le_add_left (Nat.zero_le _) _⟩

theorem streamOut_port (r : ReadStream) : PortStep s (streamOut r s) := by
  simp only [streamOut]; split
  · exact .refl s
  · split <;> exact ⟨⟨_, _, _, _, _, _, rfl⟩, rfl, fun _ => ⟨rfl, rfl, fun _ => rfl⟩, Nat.add_le_add_left (Nat.zero_le _) _⟩

/-- A byte of a record that is not its last leaves set apart what was (R176). -/
theorem recordByte_port {record : List Byte} {took : Took} (now : s.hp.txn = .output record took) :
    PortStep s (recordByte record took s) ∨ recordByte record took s = completeTransaction s := by
  match record with
  | [] => exact .inl (.refl s)
  | [_] => exact .inr rfl
  | b :: c :: rest =>
    show PortStep s (modPort (fun p => { p with txn := .output (c :: rest) took }) (shiftOut [b] s)) ∨ _
    refine .inl ((shiftOut_port [b]).trans (portStep_modPort rfl rfl rfl ?_))
    have apart : setApart (shiftOut [b] s) = setApart s := rfl
    rw [apart]
    simp only [setApart, modPort_hp, now]
    cases took with
    | notice n => cases n <;> exact le_rfl
    | _ => exact le_rfl

/-- A single byte is one of the port alone, or the last one of a record, which is its completion (R168, R169). -/
theorem clockByte_port (data : Byte) : PortStep s (clockByte data s) ∨ clockByte data s = completeTransaction s := by
  unfold clockByte; split
  · exact .inl (streamOut_port _)
  · exact .inl ((shiftOut_port _).trans (portStep_modPort rfl rfl rfl (Nat.zero_le _)))
  · rename_i now; exact recordByte_port now
  · refine .inl ?_
    unfold operandByte; split
    · exact (shiftOut_port _).trans (portStep_modPort rfl rfl rfl (Nat.zero_le _))
    · exact .refl s
  · exact .inl (shiftOut_port _)
  · exact .inl (.refl s)

end

/-- The commands whose happening is a step of the port alone. -/
def PortCommand : Instr → Bool
  | .selectAssert _ | .unknownCommand _ | .status | .storeRead _ | .storeWrite _ | .takeEvent | .takeNotice | .takeChanges
  | .readChannel _ | .readPeer _ | .setWindow _ | .setLabel _ | .setTiming _ | .gate _ | .mask _ => true
  | _ => false

theorem portCommand_step {c : Instr} (h : PortCommand c = true) (s : State) : PortStep s (happens c s) := by
  cases c
  case selectAssert high => exact assertSelect_port high
  case unknownCommand code =>
    simp only [happens]; split
    · exact atCommand_port fun _ _ => refuse_port _
    · exact .refl s
  case status => exact atCommand_port fun _ _ => present_port (by simp)
  case storeRead t => exact withOperands_port fun a _ _ => decideStoreRead_port a
  case storeWrite t => exact takeStoreWrite_port t
  case takeEvent => exact atCommand_port fun _ _ => decideTakeEvent_port
  case takeNotice => exact atCommand_port fun _ _ => decideTakeNotice_port
  case takeChanges => exact atCommand_port fun _ _ => decideTakeChanges_port
  case readChannel t => exact withOperands_port fun b _ _ => decideReadChannel_port b
  case readPeer t => exact withOperands_port fun b _ _ => decideReadPeer_port b
  case setWindow t => exact withOperands_port fun o _ _ => decideSetWindow_port o
  case setLabel t =>
    simp only [happens]; split
    · exact withOperands_port fun l _ _ => decideSetLabel_port l
    · exact .refl s
  case setTiming t => exact withOperands_port fun b _ _ => decideSetTiming_port b
  case gate t => exact withOperands_port fun o _ _ => decideGate_port o
  case mask t => exact withOperands_port fun b _ _ => decideMask_port b
  all_goals exact absurd h Bool.false_ne_true

end Sys2Proof.Machine
end

section
/-! What the part's own work, inside, leaves and keeps: store, host port, own number, pins and waiting commands as they were, the
windows' sealed attributes, the presence holder free of HELLO, the reply caches in order, and every queue within its limit. -/

namespace Sys2Proof.Machine

/-! ## The event queue -/

section
variable {s : State} {ch : ChannelNo}

theorem startFetch_ev : (startFetch ch s).ev = s.ev := by unfold startFetch; split <;> rfl

theorem moveOn_ev : (moveOn ch s).ev = s.ev := startFetch_ev

theorem afterPost_ev (k : EventKind) : (afterPost ch k s).ev = s.ev := by
  cases k
  · exact moveOn_ev
  all_goals rfl

/-- A channel offers its event to a queue with room (R58, R159). -/
theorem offerEvent_room (e : Event) (room : s.ev.events.length ≤ 32) : (offerEvent ch e s).ev.events.length ≤ 32 := by
  unfold offerEvent; split
  · rename_i free
    rw [afterPost_ev, pushEvent_ev]
    simpa using free
  · exact room

theorem postHeld_events : (postHeld s).ev.events.length ≤ s.ev.events.length + 1 := by
  unfold postHeld; split
  · exact Nat.le_succ _
  · split
    · exact Nat.le_succ _
    · rw [afterPost_ev, pushEvent_ev]; simp

theorem giveUpTurn_ev : (giveUpTurn ch s).ev = s.ev := giveUpTurn_only_of.ev

theorem checkDrain_ev : (checkDrain ch s).ev = s.ev := by
  simp only [checkDrain]; split
  · split <;> rfl
  · rfl

theorem failSegment_ev (code : FaultCode) (offset : Nat) : (failSegment ch code offset s).ev = s.ev := by
  unfold failSegment; split
  · rw [checkDrain_ev]; exact giveUpTurn_ev
  · exact checkDrain_ev
  · rfl

theorem startCompletion_ev : (startCompletion ch s).ev = s.ev := by
  unfold startCompletion advanceLocal advanceRemote; split
  · rfl
  · split
    · rfl
    · split <;> rfl

theorem finishDescriptor_room (room : s.ev.events.length ≤ 32) : (finishDescriptor ch s).ev.events.length ≤ 32 := by
  simp only [finishDescriptor]; split
  · exact room
  · split
    · exact offerEvent_room _ room
    · split
      · exact offerEvent_room _ room
      · rw [moveOn_ev]; exact room

theorem completeIfDone_ev : (completeIfDone ch s).ev = s.ev := by
  simp only [completeIfDone]; split
  · rfl
  · split
    · exact startCompletion_ev
    · rfl

theorem segmentDone_ev : (segmentDone ch s).ev = s.ev := by
  unfold segmentDone; rw [checkDrain_ev, completeIfDone_ev]; rfl

theorem giveNotice_ev (n : Notice) : (giveNotice ch n s).ev = s.ev := by
  simp only [giveNotice]; split
  · rfl
  · split
    · rfl
    · exact startCompletion_ev

theorem settleNotice_ev (n : Notice) (add : List Notice → List Notice) : (settleNotice n add s).ev = s.ev := by
  unfold settleNotice; split
  · exact giveNotice_ev n
  · rfl

end

/-! ## The work inside the part -/

/-- The request frames and the one of the turn in progress (R134). -/
def requestLoad (s : State) : Nat := s.sl.requestQueue.length + if s.ce.turn.isSome then 1 else 0

/-- The replies and the one of the request in execution (R133). -/
def replyLoad (s : State) : Nat := s.sl.replyQueue.length + if s.su.execution.isSome then 1 else 0

/-- The queues and buffers other than those of frames to be sent are within their limits (R131, R132, R158, R176). -/
def InboundBounded (s : State) : Prop :=
  s.ev.events.length ≤ 32 ∧ s.nq.records.length + setApart s ≤ 16 ∧ s.sl.inRequests.length ≤ 4 ∧ s.sl.inReplies.length ≤ 4

theorem queuesBounded_iff {s : State} : QueuesBounded s ↔ InboundBounded s ∧ replyLoad s ≤ 8 ∧ requestLoad s ≤ 4 := by
  unfold QueuesBounded InboundBounded replyLoad requestLoad
  constructor
  · rintro ⟨a, b, c, d, e, f⟩; exact ⟨⟨a, b, c, d⟩, e, f⟩
  · rintro ⟨⟨a, b, c, d⟩, e, f⟩; exact ⟨a, b, c, d, e, f⟩

/-- What work inside the part leaves and keeps, where it adds at most `m` requests and `n` replies to those under way. -/
structure Inside (m n : Nat) (s t : State) : Prop where
  inner : Inner s t
  windows : ∀ w : WindowNo, (t.su.windows.get w).fixed = (s.su.windows.get w).fixed
  hello : HelloInJoining s → HelloInJoining t
  cache : CacheInOrder s → CacheInOrder t
  inbound : InboundBounded s → InboundBounded t
  requests : requestLoad t ≤ requestLoad s + m
  replies : replyLoad t ≤ replyLoad s + n

theorem Inside.refl (s : State) : Inside 0 0 s s :=
  ⟨.refl s, fun _ => rfl, id, id, id, le_rfl, le_rfl⟩

theorem Inside.trans {m n k l : Nat} {s t u : State} (a : Inside m n s t) (b : Inside k l t u) : Inside (m + k) (n + l) s u :=
  ⟨a.inner.trans b.inner, fun w => (b.windows w).trans (a.windows w), fun h => b.hello (a.hello h),
    fun h => b.cache (a.cache h), fun h => b.inbound (a.inbound h), by have := a.requests; have := b.requests; omega,
    by have := a.replies; have := b.replies; omega⟩

theorem Inside.more {m n k l : Nat} {s t : State} (a : Inside m n s t) (hm : m ≤ k) (hn : n ≤ l) : Inside k l s t :=
  ⟨a.inner, a.windows, a.hello, a.cache, a.inbound, by have := a.requests; omega, by have := a.replies; omega⟩

/-- Work inside that adds nothing, after other work. -/
theorem Inside.next {m n : Nat} {s t u : State} (a : Inside m n s t) (b : Inside 0 0 t u) : Inside m n s u := a.trans b

/-- Work inside after work that adds nothing. -/
theorem Inside.after {m n : Nat} {s t u : State} (a : Inside 0 0 s t) (b : Inside m n t u) : Inside m n s u :=
  (a.trans b).more (by omega) (by omega)

section
variable {s t : State} {ch : ChannelNo}

theorem cacheInOrder_of_rx (h : ∀ p, (t.peer p).rx = (s.peer p).rx) (c : CacheInOrder s) : CacheInOrder t := fun p => by
  rw [h p]; exact c p

theorem requestLoad_of_turnLess (turn : TurnLess s t) (queue : t.sl.requestQueue.length ≤ s.sl.requestQueue.length) :
    requestLoad t ≤ requestLoad s := by
  unfold requestLoad
  rcases turn with h | h
  · rw [h]; omega
  · simp only [h, Option.isSome_none, Bool.false_eq_true, if_false]; omega

/-- The channels' own work, which begins no turn and posts no event too many. -/
theorem OnlyChain.inside (o : OnlyChain s t) (turn : TurnLess s t)
    (room : s.ev.events.length ≤ 32 → t.ev.events.length ≤ 32) : Inside 0 0 s t := by
  obtain ⟨ce, arb, ev, rfl⟩ := o
  exact ⟨⟨rfl, rfl, rfl, rfl, rfl⟩, fun _ => rfl, id, id, fun ⟨a, b, c, d⟩ => ⟨room a, b, c, d⟩,
    requestLoad_of_turnLess turn le_rfl, le_rfl⟩

/-- The channels' own work that posts no event. -/
theorem OnlyChain.inside_ev (o : OnlyChain s t) (turn : TurnLess s t) (ev : t.ev = s.ev) : Inside 0 0 s t :=
  o.inside turn (by rw [ev]; exact id)

theorem failSegment_inside (code : FaultCode) (offset : Nat) : Inside 0 0 s (failSegment ch code offset s) :=
  (failSegment_only s ch code offset).inside_ev (failSegment_turnLess code offset) (failSegment_ev code offset)

theorem segmentDone_inside : Inside 0 0 s (segmentDone ch s) :=
  (segmentDone_only s ch).inside_ev segmentDone_turnLess segmentDone_ev

theorem startCompletion_inside : Inside 0 0 s (startCompletion ch s) :=
  (startCompletion_only s ch).inside_ev startCompletion_turnLess startCompletion_ev

theorem failFetch_inside (a : Addr) (code : FaultCode) : Inside 0 0 s (failFetch ch a code s) :=
  (failFetch_only s ch a code).inside_ev (failFetch_turnLess a code) rfl

theorem startFetch_inside : Inside 0 0 s (startFetch ch s) :=
  (startFetch_only s ch).inside_ev startFetch_turnLess startFetch_ev

theorem askCe_inside (a : Access) (w : CeWork) : Inside 0 0 s (askCe a w s) :=
  OnlyChain.inside_ev ⟨_, _, _, rfl⟩ (.inl rfl) rfl

theorem modChannel_inside (f : Channel → Channel) : Inside 0 0 s (modChannel ch f s) :=
  OnlyChain.inside_ev ⟨_, _, _, rfl⟩ (.inl rfl) rfl

theorem setTurn_none_inside : Inside 0 0 s (setTurn none s) := OnlyChain.inside_ev ⟨_, _, _, rfl⟩ (.inr rfl) rfl

theorem reportFault_inside (r : FaultRecord) : Inside 0 0 s (reportFault ch r s) :=
  (reportFault_only s ch r).inside (reportFault_turnLess r) (fun room => offerEvent_room _ room)

theorem finishDescriptor_inside : Inside 0 0 s (finishDescriptor ch s) :=
  (finishDescriptor_only s ch).inside finishDescriptor_turnLess finishDescriptor_room

/-- A change of the line unit that lengthens no inbound buffer and no queue and brings no HELLO. -/
theorem modLine_inside {m n : Nat} {f : LineUnit → LineUnit} (hello : HelloInJoining s → HelloInJoining (modLine f s))
    (inRequests : s.sl.inRequests.length ≤ 4 → (f s.sl).inRequests.length ≤ 4)
    (inReplies : s.sl.inReplies.length ≤ 4 → (f s.sl).inReplies.length ≤ 4)
    (requests : (f s.sl).requestQueue.length ≤ s.sl.requestQueue.length + m)
    (replies : (f s.sl).replyQueue.length ≤ s.sl.replyQueue.length + n) : Inside m n s (modLine f s) := by
  refine ⟨⟨rfl, rfl, rfl, rfl, rfl⟩, fun _ => rfl, hello, id, fun ⟨a, b, c, d⟩ => ⟨a, b, inRequests c, inReplies d⟩, ?_, ?_⟩
  · unfold requestLoad
    show (f s.sl).requestQueue.length + (if s.ce.turn.isSome then 1 else 0) ≤ _
    omega
  · unfold replyLoad
    show (f s.sl).replyQueue.length + (if s.su.execution.isSome then 1 else 0) ≤ _
    omega

/-- A change of the peer table that leaves the receive parts, and of the request table. -/
theorem table_inside (rx : ∀ p, (t.peer p).rx = (s.peer p).rx) (only : ∃ rt peers, t = { s with rt := rt, peers := peers }) :
    Inside 0 0 s t := by
  obtain ⟨rt, peers, rfl⟩ := only
  exact ⟨⟨rfl, rfl, rfl, rfl, rfl⟩, fun _ => rfl, id, cacheInOrder_of_rx rx, id, le_rfl, le_rfl⟩

theorem rx_setPeer (p q : Station) (r : Peer) (same : r.rx = (s.peer p).rx) : ((setPeer p r s).peer q).rx = (s.peer q).rx := by
  rw [peer_setPeer]; split
  · rename_i e; rw [same, e]
  · rfl

theorem setPeer_inside {p : Station} {r : Peer} (same : r.rx = (s.peer p).rx) : Inside 0 0 s (setPeer p r s) :=
  table_inside (fun q => rx_setPeer p q r same) ⟨_, _, rfl⟩

theorem modTx_inside (p : Station) (f : TransmitPart → TransmitPart) : Inside 0 0 s (modTx p f s) := setPeer_inside rfl

theorem needSync_inside (p : Station) : Inside 0 0 s (needSync p s) := modTx_inside p _

theorem stopBackoff_inside (p : Station) : Inside 0 0 s (stopBackoff p s) := modTx_inside p _

theorem setStatus_inside (p : Station) (v : PeerStatus) : Inside 0 0 s (setStatus p v s) := setPeer_inside rfl

theorem setEntry_inside (i : Slot) (e : Option Entry) : Inside 0 0 s (setEntry i e s) :=
  table_inside (fun _ => rfl) ⟨_, _, rfl⟩

theorem flagPeer_inside (p : Station) : Inside 0 0 s (flagPeer p s) :=
  OnlyChain.inside ⟨_, _, _, rfl⟩ (.inl rfl) id

theorem draws_inside (d : Nat) : Inside 0 0 s { s with draws := d } :=
  ⟨⟨rfl, rfl, rfl, rfl, rfl⟩, fun _ => rfl, id, id, id, le_rfl, le_rfl⟩

theorem clock_inside (n : Nat) : Inside 0 0 s { s with now := n } :=
  ⟨⟨rfl, rfl, rfl, rfl, rfl⟩, fun _ => rfl, id, id, id, le_rfl, le_rfl⟩

theorem withdrawn_length (committed : Bool) (i : Slot) (q : List QueuedFrame) : (withdrawn committed i q).length ≤ q.length := by
  unfold withdrawn; split
  · simp only [List.length_cons, Nat.add_le_add_iff_right]; exact List.length_filter_le _ _
  · exact List.length_filter_le _ _

theorem freeEntry_inside (i : Slot) (e : Entry) : Inside 0 0 s (freeEntry i e s) := by
  have rows : Inside 0 0 s (modTx e.target (fun t => { t with held := t.held - 1 })
      (setOrder (s.rt.order.erase i) (setEntry i none s))) :=
    table_inside (fun q => rx_setPeer (s := setOrder (s.rt.order.erase i) (setEntry i none s)) _ q _ rfl) ⟨_, _, rfl⟩
  have counted : Inside 0 0 s (if e.orphan then modTx e.target (fun t => { t with held := t.held - 1 })
        (setOrder (s.rt.order.erase i) (setEntry i none s))
      else modChannel e.channel (fun c => { c with outstanding := c.outstanding - 1 })
        (modTx e.target (fun t => { t with held := t.held - 1 }) (setOrder (s.rt.order.erase i) (setEntry i none s)))) := by
    split
    · exact rows
    · exact rows.next (modChannel_inside _)
  simp only [freeEntry]; split
  · exact counted.next (modLine_inside id id id (withdrawn_length _ _ _) le_rfl)
  · exact counted

theorem failEntry_inside (code : FaultCode) (i : Slot) (e : Entry) : Inside 0 0 s (failEntry code i e s) := by
  simp only [failEntry]; split
  · exact freeEntry_inside i e
  · exact (freeEntry_inside i e).next (failSegment_inside _ _)

theorem failAll_inside (p : Station) (code : FaultCode) : Inside 0 0 s (failAll p code s) := by
  suffices each : ∀ (l : List (Slot × Entry)) (u : State), Inside 0 0 u (l.foldl (fun s x => failEntry code x.1 x.2 s) u) from
    each _ s
  intro l
  induction l with
  | nil => exact fun u => .refl u
  | cons x l ih => exact fun u => (failEntry_inside code x.1 x.2).next (ih _)

/-- A presence frame asked for is no HELLO (R150). -/
theorem askPresence_inside : Inside 0 0 s (askPresence s) := by
  unfold askPresence; split
  · refine modLine_inside (fun hello => ⟨fun f h yes => ?_, hello.2⟩) id id le_rfl le_rfl
    obtain rfl := Option.some.inj h; cases yes
  · exact .refl s

theorem declareUnreachable_inside (p : Station) : Inside 0 0 s (declareUnreachable p s) :=
  ((((failAll_inside p _).next (stopBackoff_inside p)).next (needSync_inside p)).next (setStatus_inside p _)).next (flagPeer_inside p)

theorem hearFrom_inside (p : Station) : Inside 0 0 s (hearFrom p s) := by
  unfold hearFrom; split
  · exact ((setStatus_inside p _).next (needSync_inside p)).next (flagPeer_inside p)
  · exact .refl s

/-! ## Turns -/

theorem passSegment_inside (d : Descriptor) : Inside 0 0 s (passSegment ch d s) := by
  obtain ⟨_, _, _, n, h⟩ := passSegment_pos (s := s) (ch := ch) d
  rw [h]; exact (draws_inside n).next (modChannel_inside _)

theorem placeRequest_inside (i : Slot) (e : Entry) (read : List Byte) : Inside 1 0 s (placeRequest i e read s) :=
  modLine_inside id id id (by simp) le_rfl

theorem takeEntry_inside (d : Descriptor) (k : RequestKind) (p : Station) (seg : Segment) (read : List Byte) :
    Inside 1 0 s (takeEntry ch d k p seg read s) := by
  unfold takeEntry; split
  · exact (Inside.refl s).more (by omega) le_rfl
  · rename_i i _
    have rows (e : Entry) : Inside 0 0 s (modTx p (fun t => { t with nextSeq := t.nextSeq + 1, held := t.held + 1, syncNeeded := false })
        (setOrder (s.rt.order ++ [i]) (setEntry i (some e) s))) :=
      table_inside (fun q => rx_setPeer (s := setOrder (s.rt.order ++ [i]) (setEntry i (some e) s)) _ q _ rfl) ⟨_, _, rfl⟩
    exact (((rows _).next (modChannel_inside _)).after (placeRequest_inside _ _ _)).next (passSegment_inside d)

theorem failInTurn_inside (code : FaultCode) : Inside 0 0 s (failInTurn ch code s) := by
  simp only [failInTurn]; split
  · exact .refl s
  · exact (passSegment_inside _).next (failSegment_inside _ _)

theorem finishChannelTurn_inside (p : Station) (read : List Byte) : Inside 1 0 s (finishChannelTurn ch p read s) := by
  simp only [finishChannelTurn]; split
  · exact setTurn_none_inside.more (by omega) le_rfl
  · split
    · exact setTurn_none_inside.more (by omega) le_rfl
    · split
      · exact setTurn_none_inside.after (takeEntry_inside _ _ _ _ _)
      · exact (setTurn_none_inside.next (failInTurn_inside _)).more (by omega) le_rfl

theorem finishResend_inside (i : Slot) (read : List Byte) : Inside 1 0 s (finishResend i read s) := by
  simp only [finishResend]; split
  · exact setTurn_none_inside.more (by omega) le_rfl
  · exact ((setTurn_none_inside.next (setEntry_inside i _)).next (modTx_inside _ _)).after (placeRequest_inside _ _ _)

theorem failResend_inside (i : Slot) : Inside 0 0 s (failResend i s) := by
  simp only [failResend]; split
  · exact setTurn_none_inside
  · exact (setTurn_none_inside.next (failEntry_inside _ _ _)).next (modTx_inside _ _)

theorem finishTurn_inside (x : Turn) (read : List Byte) : Inside 1 0 s (finishTurn x read s) := by
  cases x
  · exact finishChannelTurn_inside _ read
  · exact finishResend_inside _ read

theorem failTurn_inside (x : Turn) : Inside 0 0 s (failTurn x s) := by
  cases x
  · exact setTurn_none_inside.next (failInTurn_inside _)
  · exact failResend_inside _

theorem beginTurn_inside (x : Turn) (a n : Nat) : Inside 1 0 s (beginTurn x a n s) := by
  unfold beginTurn; split
  · exact finishTurn_inside x []
  · refine Inside.after (t := { s with ce := { s.ce with turn := none }}) ?_ ?_
    · exact OnlyChain.inside_ev ⟨_, _, _, rfl⟩ (.inr rfl) rfl
    · refine ⟨⟨rfl, rfl, rfl, rfl, rfl⟩, fun _ => rfl, id, id, id, ?_, le_rfl⟩
      exact Nat.add_le_add_right (Nat.le_add_right _ _) 1

theorem beginChannelTurn_inside : Inside 1 0 s (beginChannelTurn ch s) := by
  simp only [beginChannelTurn]; split
  · exact (Inside.refl s).more (by omega) le_rfl
  · split
    · refine Inside.after (t := { s with ce := { s.ce with rotation := _ } }) ?_ (beginTurn_inside _ _ _)
      exact OnlyChain.inside_ev ⟨_, _, _, rfl⟩ (.inl rfl) rfl
    · exact (Inside.refl s).more (by omega) le_rfl

/-- A turn is begun where none is in progress and the request queue has a free place (R45). -/
theorem takeTurn_inside : Inside 1 0 s (takeTurn s) ∧ (requestLoad s ≤ 4 → requestLoad (takeTurn s) ≤ 4) := by
  unfold takeTurn; split
  · exact ⟨(Inside.refl s).more (by omega) le_rfl, id⟩
  · rename_i free
    obtain ⟨noTurn, room⟩ := not_or.1 free
    have load : requestLoad s ≤ 3 := by unfold requestLoad; rw [if_neg noTurn]; omega
    refine (fun begun => ⟨begun, fun _ => by have := begun.requests; omega⟩ : Inside 1 0 s _ → _) ?_
    split
    · exact beginTurn_inside _ _ _
    · split
      · exact beginChannelTurn_inside
      · exact (Inside.refl s).more (by omega) le_rfl

/-- The end of a payload read ends its turn, which gives up its place among the requests (R134). -/
theorem payloadWord_inside (r : RangeRead) (o : StoreOutcome) : Inside 0 0 s (payloadWord r o s) := by
  unfold payloadWord; split
  · exact .refl s
  · rename_i x turn
    split
    · exact failTurn_inside x
    · rename_i bytes _
      simp only []; split
      · have freed : requestLoad (setTurn none s) + 1 = requestLoad s := by unfold requestLoad; simp [turn]
        have same : finishTurn x (r.inHand bytes) s = finishTurn x (r.inHand bytes) (setTurn none s) := by cases x <;> rfl
        have ended := finishTurn_inside (s := s) x (r.inHand bytes)
        have load : requestLoad (finishTurn x (r.inHand bytes) s) ≤ requestLoad s := by
          rw [same]; exact (finishTurn_inside x _).requests.trans freed.le
        exact ⟨ended.inner, ended.windows, ended.hello, ended.cache, ended.inbound, load, ended.replies⟩
      · exact askCe_inside _ _

end

end Sys2Proof.Machine
end

section
/-! The work inside the part, command by command: replies, deadlines, requests, presence frames and the accesses of the store. -/

namespace Sys2Proof.Machine

section
variable {s t : State} {ch : ChannelNo}

/-! ## Replies and deadlines -/

theorem succeedAck_inside (i : Slot) (e : Entry) : Inside 0 0 s (succeedAck i e s) := by
  simp only [succeedAck]; split
  · exact freeEntry_inside i e
  · exact (freeEntry_inside i e).next segmentDone_inside

theorem drawFree_inside (payload : List Byte) (n : Nat) : Inside 0 0 s (drawFree payload n s) := draws_inside _

theorem succeedRead_inside (i : Slot) (e : Entry) (payload : List Byte) : Inside 0 0 s (succeedRead i e payload s) := by
  simp only [succeedRead]; split
  · exact freeEntry_inside i e
  · exact ((freeEntry_inside i e).next (drawFree_inside _ _)).next (askCe_inside _ _)

theorem succeedSwap_inside (i : Slot) (e : Entry) (r : SwapResult) (payload : List Byte) :
    Inside 0 0 s (succeedSwap i e r payload s) := by
  simp only [succeedSwap]; split
  · exact freeEntry_inside i e
  · exact (((freeEntry_inside i e).next (drawFree_inside _ _)).next (modChannel_inside _)).next (askCe_inside _ _)

theorem nakSequence_inside (i : Slot) (e : Entry) : Inside 0 0 s (nakSequence i e s) := by
  unfold nakSequence; split
  · exact setEntry_inside _ _
  · split
    · exact (setEntry_inside _ _).next (needSync_inside _)
    · exact declareUnreachable_inside _

theorem nakBusy_inside (i : Slot) (e : Entry) : Inside 0 0 s (nakBusy i e s) := by
  unfold nakBusy; split
  · exact (setEntry_inside _ _).next (modTx_inside _ _)
  · exact (failEntry_inside _ _ _).next (needSync_inside _)

theorem nakNotJoined_inside (p : Station) : Inside 0 0 s (nakNotJoined p s) :=
  (((failAll_inside _ _).next (stopBackoff_inside _)).next (needSync_inside _)).next askPresence_inside

theorem actOnNak_inside (i : Slot) (e : Entry) (c : NakCode) : Inside 0 0 s (actOnNak i e c s) := by
  unfold actOnNak; split
  · exact failEntry_inside _ _ _
  · exact failEntry_inside _ _ _
  · exact failEntry_inside _ _ _
  · exact nakNotJoined_inside _
  · exact nakSequence_inside _ _
  · exact nakBusy_inside _ _
  · exact .refl s
  · exact .refl s

theorem actOnReply_inside (i : Slot) (e : Entry) (f : Frame) : Inside 0 0 s (actOnReply i e f s) := by
  unfold actOnReply; split
  · exact succeedAck_inside _ _
  · exact succeedAck_inside _ _
  · split
    · exact succeedRead_inside _ _ _
    · exact .refl s
  · split
    · exact succeedSwap_inside _ _ _ _
    · exact .refl s
  · split
    · exact actOnNak_inside _ _ _
    · exact .refl s
  · exact .refl s

theorem takeReply_inside : Inside 0 0 s (takeReply s) := by
  unfold takeReply; split
  · exact .refl s
  · rename_i f rest h
    have taken : Inside 0 0 s (modLine (fun sl => { sl with inReplies := rest }) s) :=
      modLine_inside id id (fun b => by rw [h, List.length_cons] at b; exact Nat.le_of_succ_le b) le_rfl le_rfl
    simp only []; split
    · exact taken
    · split
      · exact taken.next (hearFrom_inside _)
      · exact (taken.next (hearFrom_inside _)).next (actOnReply_inside _ _ _)

theorem passDeadline_inside (i : Slot) : Inside 0 0 s (passDeadline i s) := by
  unfold passDeadline; split
  · exact .refl s
  · split
    · simp only []; split
      · exact (clock_inside _).next (declareUnreachable_inside _)
      · exact (clock_inside _).next (table_inside (fun _ => rfl) ⟨_, _, rfl⟩)
    · exact .refl s

theorem endBackoff_inside (p : Station) : Inside 0 0 s (endBackoff p s) := by
  unfold endBackoff; split
  · exact .refl s
  · exact (clock_inside _).next (stopBackoff_inside _)

/-! ## Notices -/

/-- Work that only hands notices over or queues them, within the queue's limit (R113). -/
theorem OnlyNotice.inside (o : OnlyNotice s t) (turn : TurnLess s t) (ev : t.ev = s.ev)
    (records : s.nq.records.length + setApart s ≤ 16 → t.nq.records.length + setApart s ≤ 16) : Inside 0 0 s t := by
  obtain ⟨ce, arb, ev', nq, rfl⟩ := o
  exact ⟨⟨rfl, rfl, rfl, rfl, rfl⟩, fun _ => rfl, id, id,
    fun ⟨a, b, c, d⟩ => ⟨(congrArg (·.events.length ≤ 32) ev).mpr a, records b, c, d⟩, requestLoad_of_turnLess turn le_rfl, le_rfl⟩

theorem giveNotice_nq (n : Notice) : (giveNotice ch n s).nq = s.nq := by
  obtain ⟨_, _, _, h⟩ := giveNotice_only s ch n
  rw [h]

/-- A notice that finds a waiter joins no queue; another joins it once (R116). -/
theorem settleNotice_records (n : Notice) (add : List Notice → List Notice) :
    (settleNotice n add s).nq.records = s.nq.records ∨ (settleNotice n add s).nq.records = add s.nq.records := by
  unfold settleNotice; split
  · rw [giveNotice_nq]; exact .inl rfl
  · exact .inr rfl

theorem noticeArrives_inside (n : Notice) (room : noticesFull s = false) : Inside 0 0 s (noticeArrives n s) := by
  refine (settleNotice_only s n _).inside (settleNotice_turnLess n _) (settleNotice_ev n _) fun bound => ?_
  have free : s.nq.records.length + setApart s < 16 := by
    simpa [noticesFull] using room
  rcases settleNotice_records (s := s) n (fun rs => rs ++ [n]) with h | h <;> rw [h]
  · exact bound
  · simp only [List.length_append, List.length_cons, List.length_nil]; omega

/-! ## Reply caches (R92) -/

/-- Sequence numbers that run up to just below E. -/
def SequencesBelow (expected : Byte) (l : List Byte) : Prop :=
  ∀ i (h : i < l.length), l[i] = expected - BitVec.ofNat 8 (l.length - i)

theorem sequencesBelow_iff {expected : Byte} {l : List Byte} :
    SequencesBelow expected l ↔ l = (List.range l.length).map fun i => expected - BitVec.ofNat 8 (l.length - i) := by
  constructor
  · intro h
    refine List.ext_getElem (by simp) fun i hi _ => ?_
    rw [h i hi]; simp
  · intro h i hi
    have := congrArg (fun m => m[i]?) h
    simpa [hi] using this

theorem SequencesBelow.drop {expected : Byte} {l : List Byte} (h : SequencesBelow expected l) :
    SequencesBelow expected (l.drop 1) := by
  intro i hi
  rw [List.length_drop] at hi
  have := h (1 + i) (by omega)
  rw [List.getElem_drop, this, List.length_drop]; congr 2; omega

/-- A request in sequence is the newest record, at E - 1 (R92, R99). -/
theorem SequencesBelow.snoc {expected : Byte} {l : List Byte} (h : SequencesBelow expected l) :
    SequencesBelow (expected + 1) (l ++ [expected]) := by
  intro i hi
  simp only [List.length_append, List.length_cons, List.length_nil] at hi ⊢
  rcases Nat.lt_or_ge i l.length with inside | last
  · rw [List.getElem_append_left inside, h i inside, show l.length + (0 + 1) - i = (l.length - i) + 1 by omega,
      BitVec.ofNat_add]
    bv_omega
  · obtain rfl : i = l.length := by omega
    simp

/-- A reply cache in order (R92). -/
def CacheRight (r : ReceivePart) : Prop := r.cache.length ≤ 4 ∧ SequencesBelow r.expected (r.cache.map CacheRecord.sequence)

theorem cacheInOrder_iff : CacheInOrder s ↔ ∀ p, CacheRight (s.peer p).rx := by
  refine forall_congr' fun p => and_congr_right fun _ => ?_
  rw [sequencesBelow_iff, List.length_map]

theorem cacheRight_empty : CacheRight {} := ⟨Nat.zero_le _, nofun⟩

/-- An accepted request leaves the cache in order: SYNC begins it anew, and another is in sequence (R98, R99). -/
theorem acceptInto_right {k : RequestKind} {f : Frame} {r : ReceivePart} (h : CacheRight r)
    (inTurn : f.sequence = r.expected ∨ f.flags.sync = true) : CacheRight (acceptInto k f r) := by
  obtain ⟨short, below⟩ := h
  simp only [acceptInto]
  by_cases sync : f.flags.sync = true
  · simp only [sync, if_true]
    exact ⟨by simp, fun i hi => by simp at hi; simp [hi]⟩
  · simp only [sync, if_false, Bool.false_eq_true]
    have e := inTurn.resolve_right sync
    split
    · refine ⟨by simp; omega, ?_⟩
      rw [List.map_append]; simpa [e] using below.snoc
    · refine ⟨by simp; omega, ?_⟩
      rw [List.map_append]; simpa [e, List.map_drop] using below.drop.snoc

/-- Filling outcomes in leaves the sequence numbers (R99). -/
theorem fill_right {r : ReceivePart} (o : CacheOutcome) (h : CacheRight r) :
    CacheRight { r with cache := r.cache.map fun c => if c.outcome = none then { c with outcome := some o } else c } := by
  obtain ⟨short, below⟩ := h
  refine ⟨by simpa using short, ?_⟩
  have same : (r.cache.map fun c => if c.outcome = none then { c with outcome := some o } else c).map CacheRecord.sequence
      = r.cache.map CacheRecord.sequence := by
    rw [List.map_map]; refine List.map_congr_left fun c _ => ?_
    simp only [Function.comp]; split <;> rfl
  rw [same]; exact below

/-- A change of a receive part that keeps its cache in order. -/
theorem modRx_inside {p : Station} {f : ReceivePart → ReceivePart} (right : CacheRight (s.peer p).rx → CacheRight (f (s.peer p).rx)) :
    Inside 0 0 s (modRx p f s) := by
  refine ⟨⟨rfl, rfl, rfl, rfl, rfl⟩, fun _ => rfl, id, fun h => ?_, id, le_rfl, le_rfl⟩
  rw [cacheInOrder_iff] at h ⊢
  intro q; rw [peer_modRx]; split
  · exact right (h p)
  · exact h q

/-! ## Requests -/

theorem answer_inside (f : Frame) (a : Answer) : Inside 0 1 s (answer f a s) :=
  modLine_inside id id id le_rfl (by simp)

theorem fillOutcome_inside (p : Station) (o : CacheOutcome) : Inside 0 0 s (fillOutcome p o s) := modRx_inside (fill_right o)

theorem conclude_inside (p : Station) (f : Frame) (o : CacheOutcome) (a : Answer) : Inside 0 1 s (conclude p f o a s) :=
  (fillOutcome_inside p o).after (answer_inside f a)

/-- A change of the service unit that keeps what SEAL fixed of the windows (R89). -/
theorem modService_inside {n : Nat} {f : ServiceUnit → ServiceUnit}
    (windows : ∀ w : WindowNo, ((f s.su).windows.get w).fixed = (s.su.windows.get w).fixed)
    (replies : (if (f s.su).execution.isSome then 1 else 0) ≤ (if s.su.execution.isSome then 1 else 0) + n) :
    Inside 0 n s (modService f s) :=
  ⟨⟨rfl, rfl, rfl, rfl, rfl⟩, windows, id, id, id, le_rfl, by
    unfold replyLoad; rw [Nat.add_assoc]; exact Nat.add_le_add_left replies _⟩

/-- The execution that ends gives its place among the replies to its answer (R110, R133). -/
theorem endExecution_inside {x : Execution} (now : s.su.execution = some x) (o : CacheOutcome) (a : Answer) :
    Inside 0 0 s (endExecution x o a s) := by
  have ended : Inside 0 0 s (modService (fun u => { u with execution := none }) s) := modService_inside (fun _ => rfl) (by simp)
  have freed : replyLoad (modService (fun u => { u with execution := none }) s) + 1 = replyLoad s := by simp [replyLoad, now]
  have placed : Inside 0 1 (modService (fun u => { u with execution := none }) s) (endExecution x o a s) := by
    simp only [endExecution]; split
    · exact answer_inside _ _
    · exact conclude_inside _ _ _ _
  have all := ended.after placed
  exact ⟨all.inner, all.windows, all.hello, all.cache, all.inbound, all.requests,
    placed.replies.trans freed.le⟩

theorem beginExecution_inside (p : Station) (f : Frame) (d : Bool) : Inside 0 1 s (beginExecution p f d s) :=
  modService_inside (fun _ => rfl) (by simp)

theorem askSu_inside (a : Access) (w : SuWork) : Inside 0 0 s (askSu a w s) :=
  OnlyChain.inside_ev ⟨_, _, _, rfl⟩ (.inl rfl) rfl

theorem askHp_inside (a : Access) (w : HpWork) : Inside 0 0 s (askHp a w s) :=
  OnlyChain.inside_ev ⟨_, _, _, rfl⟩ (.inl rfl) rfl

theorem beginRead_inside (p : Station) (f : Frame) (d : Bool) : Inside 0 1 s (beginRead p f d s) :=
  (beginExecution_inside p f d).next (askSu_inside _ _)

theorem beginRequest_inside (p : Station) (k : RequestKind) (f : Frame) (room : k = .notice → noticesFull s = false) :
    Inside 0 1 s (beginRequest p k f s) := by
  cases k with
  | write => exact (beginExecution_inside p f false).next (askSu_inside _ _)
  | read => exact beginRead_inside p f false
  | swap => exact (beginExecution_inside p f false).next (askSu_inside _ _)
  | notice => exact (noticeArrives_inside _ (room rfl)).after (conclude_inside _ _ _ _)

theorem setGate_inside (w : WindowNo) (g : Bool) : Inside 0 0 s (setGate w g s) :=
  modService_inside (fun v => setGate_fixed w v g) le_rfl

theorem flagWindow_inside (w : WindowNo) : Inside 0 0 s (flagWindow w s) := OnlyChain.inside ⟨_, _, _, rfl⟩ (.inl rfl) id

theorem shutSingleUse_inside (w : WindowNo) (k : RequestKind) (f : Frame) : Inside 0 0 s (shutSingleUse w k f s) := by
  unfold shutSingleUse; split
  · exact (setGate_inside w false).next (flagWindow_inside w)
  · exact .refl s

theorem acceptRequest_inside (p : Station) (k : RequestKind) (f : Frame) (room : k = .notice → noticesFull s = false)
    (inTurn : f.sequence = (s.peer p).rx.expected ∨ f.flags.sync = true) : Inside 0 1 s (acceptRequest p k f s) := by
  have taken : Inside 0 0 s (modRx p (acceptInto k f) s) := modRx_inside fun h => acceptInto_right h inTurn
  simp only [acceptRequest]; split
  · exact taken.after (conclude_inside _ _ _ _)
  · split
    · exact taken.after (beginRequest_inside p k f room)
    · rename_i other
      split
      · exact taken.after (conclude_inside _ _ _ _)
      · exact (taken.next (shutSingleUse_inside _ k f)).after (beginRequest_inside p k f fun e => absurd e other)

theorem answerDuplicate_inside (p : Station) (f : Frame) (o : Option CacheOutcome) : Inside 0 1 s (answerDuplicate p f o s) := by
  unfold answerDuplicate; split
  · exact (Inside.refl s).more le_rfl (by omega)
  · split
    · exact answer_inside _ _
    · split
      · exact beginRead_inside _ _ _
      · exact answer_inside _ _

theorem classify_inside (p : Station) (k : RequestKind) (f : Frame) : Inside 0 1 s (classify p k f s) := by
  unfold classify; split
  · exact answerDuplicate_inside _ _ _
  · split
    · rename_i inTurn
      split
      · exact answer_inside _ _
      · rename_i room
        exact acceptRequest_inside p k f (fun e => by simpa [e] using room) inTurn
    · exact answer_inside _ _

theorem serve_inside (p : Station) (k : RequestKind) (f : Frame) : Inside 0 1 s (serve p k f s) := by
  unfold serve; split
  · exact (answer_inside _ _).next askPresence_inside
  · exact (hearFrom_inside p).after (classify_inside p k f)

/-- A request is taken where there is room for its reply (R96). -/
theorem takeRequest_inside : Inside 0 1 s (takeRequest s) ∧ (replyLoad s ≤ 8 → replyLoad (takeRequest s) ≤ 8) := by
  unfold takeRequest; split
  · exact ⟨(Inside.refl s).more le_rfl (by omega), id⟩
  · rename_i free
    have idle : ¬ s.su.execution.isSome = true := (not_or.1 free).2
    split
    · exact ⟨(Inside.refl s).more le_rfl (by omega), id⟩
    · rename_i f rest h
      have taken : Inside 0 0 s (modLine (fun sl => { sl with inRequests := rest }) s) :=
        modLine_inside id (fun b => by rw [h, List.length_cons] at b; exact Nat.le_of_succ_le b) id le_rfl le_rfl
      simp only []; split
      · exact ⟨taken.more le_rfl (by omega), taken.replies.trans⟩
      · rename_i room
        have load : replyLoad s < 8 := by
          have room : ¬ 8 ≤ s.sl.replyQueue.length := room
          unfold replyLoad; rw [if_neg idle]; omega
        refine (fun served => ⟨served, fun _ => by have := served.replies; omega⟩ : Inside 0 1 s _ → _) ?_
        split
        · exact taken.after (serve_inside _ _ _)
        · exact taken.more le_rfl (by omega)

/-! ## Frames received, and claims -/

theorem noteStatus_inside (p : Station) (v : PeerStatus) (a : Bool) : Inside 0 0 s (noteStatus p v a s) := by
  simp only [noteStatus]; split
  · exact (setStatus_inside p v).next (flagPeer_inside p)
  · exact setStatus_inside p v

theorem resetTransmit_inside (p : Station) (code : FaultCode) : Inside 0 0 s (resetTransmit p code s) :=
  (failAll_inside p code).next (modTx_inside p _)

theorem resetReceive_inside (p : Station) : Inside 0 0 s (resetReceive p s) := modRx_inside fun _ => cacheRight_empty

theorem takePresence_inside (p : Station) (f : Frame) : Inside 0 0 s (takePresence p f s) := by
  have kept : Inside 0 0 s (storeLabel p f.payload s) := setPeer_inside rfl
  simp only [takePresence]; split
  · exact kept.next (noteStatus_inside _ _ _)
  · split
    · exact (((kept.next (resetTransmit_inside _ _)).next (resetReceive_inside _)).next (noteStatus_inside _ _ _)).next
        askPresence_inside
    · split
      · exact ((kept.next (resetTransmit_inside _ _)).next (resetReceive_inside _)).next (noteStatus_inside _ _ _)
      · unfold unmarkedFrom; split
        · exact (kept.next (needSync_inside _)).next (noteStatus_inside _ _ _)
        · exact kept

theorem routeFrame_inside (p : Station) (f : Frame) : Inside 0 0 s (routeFrame p f s) := by
  unfold routeFrame; split
  · exact takePresence_inside p f
  · split
    · rename_i room; exact modLine_inside id (fun _ => by simpa using room) id le_rfl le_rfl
    · exact .refl s
  · split
    · rename_i room; exact modLine_inside id id (fun _ => by simpa using room) le_rfl le_rfl
    · exact .refl s

theorem takeFrame_inside (received : List Byte) : Inside 0 0 s (takeFrame received s) := by
  have past : Inside 0 0 s (modLine (fun sl => { sl with window := none }) s) :=
    modLine_inside id id id le_rfl le_rfl
  have rotor (u : State) (r : Station) : Inside 0 0 u (modLine (fun sl => { sl with rotor := r }) u) :=
    modLine_inside id id id le_rfl le_rfl
  unfold takeFrame; split
  · exact .refl s
  · simp only []; split
    · exact past
    · split
      · exact past
      · exact past.next (rotor _ _)
      · split
        · exact (past.next (rotor _ _)).next (routeFrame_inside _ _)
        · exact past.next (rotor _ _)

theorem openWindow_inside : Inside 0 0 s (openWindow s) := by
  unfold openWindow; split
  · exact .refl s
  · exact modLine_inside id id id le_rfl le_rfl

theorem endWindow_inside : Inside 0 0 s (endWindow s) := by
  unfold endWindow; split
  · exact .refl s
  · split <;> exact modLine_inside id id id le_rfl le_rfl

theorem beginSlot_inside (n : Fin 62) : Inside 0 0 s (beginSlot n s) := by
  unfold beginSlot; split
  · split
    · exact modLine_inside id id id le_rfl le_rfl
    · exact .refl s
  · exact .refl s

/-- What waits behind a commitment comes into the holder, or is dropped (R135). -/
theorem loadAside_only (sl : LineUnit) : ∃ holder aside, loadAside sl = { sl with holder := holder, aside := aside }
    ∧ (holder = sl.holder ∨ holder = sl.aside) ∧ (aside = sl.aside ∨ aside = none) := by
  unfold loadAside; split
  · exact ⟨_, _, rfl, .inl rfl, .inl rfl⟩
  · rename_i l h
    split
    · exact ⟨_, _, rfl, .inr h.symm, .inr rfl⟩
    · split
      · exact ⟨_, _, rfl, .inl rfl, .inr rfl⟩
      · exact ⟨_, _, rfl, .inr h.symm, .inr rfl⟩

/-- A frame kept aside is no HELLO, so it brings none into the holder (R135). -/
theorem hello_loadAside {sl : LineUnit} (h : HelloInJoining s) (holder : sl.holder = s.sl.holder ∨ sl.holder = none)
    (aside : sl.aside = s.sl.aside) : HelloInJoining { s with sl := loadAside sl } := by
  obtain ⟨holder', aside', e, places, kept⟩ := loadAside_only sl
  rw [e]
  refine ⟨fun f hf yes => ?_, fun f hf => ?_⟩
  · replace hf : holder' = some f := hf
    rcases places with q | q
    · rcases holder with r | r
      · exact h.1 f (by rw [← r, ← q]; exact hf) yes
      · rw [q, r] at hf; cases hf
    · have := h.2 f (by rw [← aside, ← q]; exact hf)
      rw [this] at yes; cases yes
  · replace hf : aside' = some f := hf
    rcases kept with q | q
    · exact h.2 f (by rw [← aside, ← q]; exact hf)
    · rw [q] at hf; cases hf

theorem defer_inside : Inside 0 0 s (modLine defer s) := by
  obtain ⟨holder, aside, e, -⟩ := loadAside_only { s.sl with claim := .idle, requestQueue := s.sl.requestQueue.filter fun q => !q.withdrawn }
  have line : defer s.sl = { s.sl with
      claim := .idle, requestQueue := s.sl.requestQueue.filter fun q => !q.withdrawn, holder := holder, aside := aside } := e
  refine modLine_inside (fun h => hello_loadAside h (.inl rfl) rfl) ?_ ?_ ?_ ?_ <;> rw [line]
  · exact id
  · exact id
  · exact List.length_filter_le _ _
  · exact le_rfl

theorem endSlot_inside (n : Fin 62) (others : List (BitVec 5)) : Inside 0 0 s (endSlot n others s) := by
  unfold endSlot; split
  · split
    · exact .refl s
    · split
      · exact modLine_inside id id id le_rfl le_rfl
      · exact defer_inside
  · exact .refl s

theorem passSlot_inside (n : Fin 62) (part : SlotPart) : Inside 0 0 s (passSlot n part s) := by
  cases part with
  | begins => exact beginSlot_inside n
  | ends others => exact endSlot_inside n others
  | whole others => exact (beginSlot_inside n).next (endSlot_inside n others)

/-! ## Accesses that end -/

theorem takeMatching_shorter {tag : BitVec 16} {filter : Byte} {rs out : List Notice} {n : Notice}
    (h : takeMatching tag filter rs = some (n, out)) : out.length ≤ rs.length := by
  induction rs generalizing n out with
  | nil => cases h
  | cons m rs ih =>
    unfold takeMatching at h; split at h
    · cases h; simp
    · obtain ⟨⟨n', out'⟩, found, h⟩ := Option.map_eq_some_iff.1 h
      cases h; simpa using ih found

theorem keepDescriptor_inside (a : Addr) (bytes : List Byte) : Inside 0 0 s (keepDescriptor ch a bytes s) := by
  have kept : Inside 0 0 s (modChannel ch (fun c => { c.restarted with current := some ⟨a, bytes⟩ }) s) := modChannel_inside _
  simp only [keepDescriptor]; split
  · refine kept.next ((startAwait_only _ _ _).inside (startAwait_turnLess _) ?_ ?_)
    · unfold startAwait; split
      · rw [giveNotice_ev]; rfl
      · rfl
    · intro bound
      unfold startAwait; split
      · rename_i rest h
        rw [giveNotice_nq]
        exact (Nat.add_le_add_right (takeMatching_shorter h) _).trans bound
      · exact bound
  · exact kept

theorem fetchWord_inside (a : Addr) (got : List Byte) (o : StoreOutcome) : Inside 0 0 s (fetchWord ch a got o s) := by
  unfold fetchWord; split
  · exact failFetch_inside _ _
  · simp only []; split
    · exact askCe_inside _ _
    · simp only [fetched]; split
      · exact failFetch_inside _ _
      · exact keepDescriptor_inside _ _

theorem getWord_inside (r : RangeWrite) (offset : Nat) (o : StoreOutcome) : Inside 0 0 s (getWord ch r offset o s) := by
  simp only [getWord]; split
  · exact askCe_inside _ _
  · split
    · exact failSegment_inside _ _
    · exact segmentDone_inside

theorem valueWord_inside (r : RangeWrite) (o : StoreOutcome) : Inside 0 0 s (valueWord ch r o s) := by
  simp only [valueWord]; split
  · exact askCe_inside _ _
  · split
    · exact failSegment_inside _ _
    · exact startCompletion_inside

theorem advanceEnded_inside (o : StoreOutcome) {next : Descriptor → State → State} (goes : ∀ d, Inside 0 0 s (next d s)) :
    Inside 0 0 s (advanceEnded ch o next s) := by
  unfold advanceEnded; split
  · exact .refl s
  · split
    · exact askCe_inside _ _
    · exact goes _

theorem advanceRemote_inside (d : Descriptor) : Inside 0 0 s (advanceRemote ch d s) := by
  unfold advanceRemote; split <;> exact askCe_inside _ _

theorem actCe_inside (w : CeWork) (o : StoreOutcome) : Inside 0 0 s (actCe w o s) := by
  cases w with
  | fetch ch a got => exact fetchWord_inside a got o
  | payload r => exact payloadWord_inside r o
  | getWrite ch r offset => exact getWord_inside r offset o
  | resultWrite ch =>
    simp only [actCe]; split
    · exact failSegment_inside _ _
    · exact segmentDone_inside
  | valueWrite ch r => exact valueWord_inside r o
  | advanceLocal ch => exact advanceEnded_inside o advanceRemote_inside
  | advanceRemote ch => exact advanceEnded_inside o fun _ => askCe_inside _ _
  | doneStatus ch =>
    simp only [actCe]; split
    · exact reportFault_inside _
    · exact finishDescriptor_inside
  | faultStatus ch r => exact reportFault_inside r
  | dropped => exact .refl s

theorem actSu_inside (w : SuWork) (o : StoreOutcome) : Inside 0 0 s (actSu w o s) := by
  unfold actSu; split
  · exact .refl s
  · rename_i x now
    cases w with
    | write r =>
      simp only [remoteWrite]; split
      · exact askSu_inside _ _
      · split <;> exact endExecution_inside now _ _
    | read r =>
      simp only [remoteRead]; split
      · exact endExecution_inside now _ _
      · split
        · exact endExecution_inside now _ _
        · exact askSu_inside _ _
    | swap => simp only [remoteSwap]; split <;> exact endExecution_inside now _ _

end

end Sys2Proof.Machine
end

section
/-! What every command keeps: the store where no access ends, the waiting commands, what SEAL has fixed, the reply caches and the
bounds of the queues; and how the phase moves. -/

namespace Sys2Proof.Machine

/-- What a happening keeps, whatever it is (log 20; R89, R92, R130 to R134, R158, R187). -/
structure Keeps (s t : State) : Prop where
  st : t.st = s.st
  pending : t.pending = s.pending
  fixed : s.hp.phase ≠ .config → t.hp.phase ≠ .config ∧ t.own = s.own ∧ t.hp.label = s.hp.label ∧ t.hp.timing = s.hp.timing
    ∧ ∀ w : WindowNo, (t.su.windows.get w).fixed = (s.su.windows.get w).fixed
  cache : CacheInOrder s → CacheInOrder t
  queues : QueuesBounded s → QueuesBounded t

/-- What a happening that moves no phase keeps besides (R188, R189). -/
structure KeepsPhase (s t : State) : Prop extends Keeps s t where
  phase : t.hp.phase = s.hp.phase
  hello : HelloInJoining s → HelloInJoining t

theorem Keeps.trans {s t u : State} (a : Keeps s t) (b : Keeps t u) : Keeps s u := by
  refine ⟨b.st.trans a.st, b.pending.trans a.pending, fun sealed => ?_, fun h => b.cache (a.cache h), fun h => b.queues (a.queues h)⟩
  obtain ⟨p, o, l, m, w⟩ := a.fixed sealed
  obtain ⟨p', o', l', m', w'⟩ := b.fixed p
  exact ⟨p', o'.trans o, l'.trans l, m'.trans m, fun n => (w' n).trans (w n)⟩

theorem KeepsPhase.refl (s : State) : KeepsPhase s s :=
  ⟨⟨rfl, rfl, fun h => ⟨h, rfl, rfl, rfl, fun _ => rfl⟩, id, id⟩, rfl, id⟩

theorem KeepsPhase.trans {s t u : State} (a : KeepsPhase s t) (b : KeepsPhase t u) : KeepsPhase s u :=
  ⟨a.toKeeps.trans b.toKeeps, b.phase.trans a.phase, fun h => b.hello (a.hello h)⟩

section
variable {s t : State} {ch : ChannelNo}

/-- Work inside whose frames find their places keeps all of it. -/
theorem Inside.keeps_of {m n : Nat} (i : Inside m n s t) (requests : requestLoad s ≤ 4 → requestLoad t ≤ 4)
    (replies : replyLoad s ≤ 8 → replyLoad t ≤ 8) : KeepsPhase s t := by
  obtain ⟨st, hp, own, -, pending⟩ := i.inner
  refine ⟨⟨st, pending, fun h => ?_, i.cache, fun q => ?_⟩, by rw [hp], i.hello⟩
  · rw [hp]; exact ⟨h, own, rfl, rfl, i.windows⟩
  · rw [queuesBounded_iff] at q ⊢
    obtain ⟨inbound, reply, request⟩ := q
    exact ⟨i.inbound inbound, replies reply, requests request⟩

theorem Inside.keeps (i : Inside 0 0 s t) : KeepsPhase s t := i.keeps_of i.requests.trans i.replies.trans

/-- A step of the port keeps all of it. -/
theorem PortStep.keeps (h : PortStep s t) : KeepsPhase s t := by
  obtain ⟨⟨hp, asked, windows, ev, records, pins, rfl⟩, phase, fixed, notices⟩ := h
  refine ⟨⟨rfl, rfl, fun sealed => ?_, id, fun q => ?_⟩, phase, fun hello => ?_⟩
  · obtain ⟨label, timing, w⟩ := fixed sealed
    exact ⟨by rw [phase]; exact sealed, rfl, label, timing, w⟩
  · obtain ⟨a, b, rest⟩ := q
    exact ⟨a, notices.trans b, rest⟩
  · exact ⟨fun f e yes => (congrArg (· = Phase.joining) phase).mpr (hello.1 f e yes), hello.2⟩

/-! ## The happenings that are more than one kind of work -/

/-- The report of a request frame that is sent sets its entry alone (R69). -/
theorem reportSent_inside (q : QueuedFrame) : Inside 0 0 s (reportSent q s) := by
  unfold reportSent; split
  · exact .refl s
  · split
    · exact setEntry_inside _ _
    · exact .refl s

/-- How a transmission that ends moves the phase (R153, R189, R191). -/
def SentMoves (s t : State) : Prop :=
  t.hp.phase = s.hp.phase ∨ (s.hp.phase = .joining ∧ t.hp.phase = .running) ∨ (s.hp.phase = .leaving ∧ t.hp.phase = .detached)

theorem reportPresence_moves (f : Frame) : ∃ phase, reportPresence f s = { s with hp := { s.hp with phase := phase } }
    ∧ SentMoves s (reportPresence f s) := by
  unfold reportPresence SentMoves; split
  · rename_i h; exact ⟨_, rfl, .inr (.inl ⟨h.2, rfl⟩)⟩
  · split
    · rename_i h; exact ⟨_, rfl, .inr (.inr ⟨h.2, rfl⟩)⟩
    · exact ⟨_, rfl, .inl rfl⟩

theorem SentMoves.sealed (h : SentMoves s t) (sealed : s.hp.phase ≠ .config) : t.hp.phase ≠ .config := by
  rcases h with h | ⟨-, h⟩ | ⟨-, h⟩ <;> rw [h]
  · exact sealed
  · decide
  · decide

/-- A frame that has gone out leaves its queue or its place; behind a presence frame, what was kept aside comes in (R135, R140). -/
theorem afterSending_inside (c : Committed) : Inside 0 0 s (modLine (afterSending s.own c) s)
    ∧ (c = .presence → HelloInJoining s → ∀ f, (afterSending s.own c s.sl).holder = some f → f.flags.hello = false) := by
  cases c with
  | reply => exact ⟨modLine_inside id id id le_rfl (by simp [afterSending]), nofun⟩
  | request => exact ⟨modLine_inside id id id (by simp [afterSending]) le_rfl, nofun⟩
  | presence =>
    obtain ⟨holder, aside, e, place, -⟩ := loadAside_only { s.sl with
      claim := .idle, rotor := Fin.ofNat 31 (s.own.toNat + 1)
      lastSent := ((sentFrame s.sl .presence).map frameBytes).getD [], holder := none }
    have line : afterSending s.own .presence s.sl = _ := e
    refine ⟨modLine_inside (fun h => hello_loadAside h (.inr rfl) rfl) ?_ ?_ ?_ ?_, fun _ h f hf => ?_⟩
    · rw [line]; exact id
    · rw [line]; exact id
    · rw [line]; exact le_rfl
    · rw [line]; exact le_rfl
    · rw [line] at hf
      replace hf : holder = some f := hf
      rcases place with q | q
      · rw [q] at hf; cases hf
      · exact h.2 f (by rw [← q]; exact hf)

/-- A transmission that ends moves the phase by its report alone, and then holds no HELLO. -/
theorem endTransmission_keeps : Keeps s (endTransmission s) ∧ SentMoves s (endTransmission s)
    ∧ (HelloInJoining s → HelloInJoining (endTransmission s)) := by
  unfold endTransmission; split
  · rename_i c _
    obtain ⟨gone, none⟩ := afterSending_inside (s := s) c
    cases c with
    | reply => exact ⟨gone.keeps.toKeeps, .inl rfl, gone.hello⟩
    | request =>
      simp only [reportFrame]; split
      · split
        · exact ⟨gone.keeps.toKeeps, .inl rfl, gone.hello⟩
        · rename_i q _ _
          have all := (gone.next (reportSent_inside q)).keeps
          exact ⟨all.toKeeps, .inl all.phase, all.hello⟩
      · exact ⟨gone.keeps.toKeeps, .inl rfl, gone.hello⟩
    | presence =>
      simp only [reportFrame]; split
      · rename_i f _
        obtain ⟨phase, e, moves⟩ := reportPresence_moves (s := modLine (afterSending s.own .presence) s) f
        have kept := gone.keeps
        refine ⟨⟨?_, ?_, fun sealed => ?_, fun h => ?_, fun h => ?_⟩, moves, fun h => ?_⟩
        · rw [e]; exact kept.st
        · rw [e]; exact kept.pending
        · refine ⟨SentMoves.sealed (s := s) moves sealed, ?_⟩
          rw [e]; exact ⟨rfl, rfl, rfl, fun _ => rfl⟩
        · rw [e]; exact kept.cache h
        · rw [e]; exact kept.queues h
        · rw [e]
          refine ⟨fun g hg yes => ?_, (gone.hello h).2⟩
          have := none rfl h g hg
          rw [this] at yes; cases yes
      · exact ⟨gone.keeps.toKeeps, .inl rfl, gone.hello⟩
  · exact ⟨(KeepsPhase.refl s).toKeeps, .inl rfl, id⟩

theorem actHp_port (w : HpWork) (o : StoreOutcome) : PortStep s (actHp w o s) := by
  have word (b : List Byte) (bad : Bool) : PortStep s (streamWord b bad s) := by
    unfold streamWord; split
    · exact portStep_modPort rfl rfl rfl (Nat.zero_le _)
    · exact .refl s
  unfold actHp; split
  · simp only [commitWord]; split
    · exact portStep_modPort rfl rfl rfl le_rfl
    · exact ⟨⟨_, _, _, _, _, _, rfl⟩, rfl, fun _ => ⟨rfl, rfl, fun _ => rfl⟩, le_rfl⟩
  · exact word _ _
  · exact word _ _
  · exact .refl s

/-- Which access ends: that of the requester to which the store is granted, and its work acts on the outcome (R8, R16). -/
theorem endAccess_cases (s : State) :
    (grantedAccess s.arb = none ∧ endAccess s = s)
    ∨ (∃ a w rest, s.arb.granted = some .hp ∧ s.arb.hp = (a, w) :: rest
        ∧ endAccess s = actHp w (performAccess s.st a).2 (madeAccess a { s.arb with hp := rest } s))
    ∨ (∃ a w rest, s.arb.granted = some .ce ∧ s.arb.ce = (a, w) :: rest
        ∧ endAccess s = actCe w (performAccess s.st a).2 (madeAccess a { s.arb with ce := rest } s))
    ∨ ∃ a w rest, s.arb.granted = some .su ∧ s.arb.su = (a, w) :: rest
        ∧ endAccess s = actSu w (performAccess s.st a).2 (madeAccess a { s.arb with su := rest } s) := by
  cases g : s.arb.granted with
  | none => exact .inl ⟨by simp [grantedAccess, g], by simp [endAccess, g]⟩
  | some r =>
    cases r with
    | hp =>
      cases q : s.arb.hp with
      | nil => exact .inl ⟨by simp [grantedAccess, g, q], by simp [endAccess, g, q]⟩
      | cons j rest => exact .inr (.inl ⟨j.1, j.2, rest, rfl, rfl, by simp [endAccess, g, q]⟩)
    | ce =>
      cases q : s.arb.ce with
      | nil => exact .inl ⟨by simp [grantedAccess, g, q], by simp [endAccess, g, q]⟩
      | cons j rest => exact .inr (.inr (.inl ⟨j.1, j.2, rest, rfl, rfl, by simp [endAccess, g, q]⟩))
    | su =>
      cases q : s.arb.su with
      | nil => exact .inl ⟨by simp [grantedAccess, g, q], by simp [endAccess, g, q]⟩
      | cons j rest => exact .inr (.inr (.inr ⟨j.1, j.2, rest, rfl, rfl, by simp [endAccess, g, q]⟩))

/-- Once the granted access has been made, acting on its outcome keeps all that every happening keeps. -/
theorem endAccess_keeps (s : State) : (grantedAccess s.arb = none ∧ endAccess s = s)
    ∨ ∃ a arb, grantedAccess s.arb = some a
      ∧ KeepsPhase { s with st := (performAccess s.st a).1, arb := arb } (endAccess s) := by
  rcases endAccess_cases s with h | ⟨a, w, rest, g, q, h⟩ | ⟨a, w, rest, g, q, h⟩ | ⟨a, w, rest, g, q, h⟩
  · exact .inl h
  · exact .inr ⟨a, _, by simp [grantedAccess, g, q], by rw [h]; exact (actHp_port w _).keeps⟩
  · exact .inr ⟨a, _, by simp [grantedAccess, g, q], by rw [h]; exact (actCe_inside w _).keeps⟩
  · exact .inr ⟨a, _, by simp [grantedAccess, g, q], by rw [h]; exact (actSu_inside w _).keeps⟩

/-- Taking an event frees the place that the head of the held list posts into (R160). -/
theorem removeEvent_keeps : KeepsPhase s (removeEvent s) := by
  have posted := postHeld_only { s with ev := { s.ev with events := s.ev.events.drop 1 } }
  have fewer : s.ev.events.length ≤ 32 → (removeEvent s).ev.events.length ≤ 32 := fun room =>
    (postHeld_events (s := { s with ev := { s.ev with events := s.ev.events.drop 1 } })).trans (by
      show (s.ev.events.drop 1).length + 1 ≤ 32
      rw [List.length_drop]; omega)
  exact (OnlyChain.inside ((OnlyChain.trans ⟨_, _, _, rfl⟩ posted)) (.trans (.inl rfl) postHeld_turnLess) fewer).keeps

theorem completeTransaction_keeps : KeepsPhase s (completeTransaction s) := by
  unfold completeTransaction; split
  · have done (record : List Byte) : KeepsPhase s (carryOut (shiftOut record s)) := (shiftOut_port record |>.trans carryOut_port).keeps
    simp only []; split
    · exact (done _).trans removeEvent_keeps
    · exact done _
  · exact .refl s

/-- A notice set apart that is given back counts as queued no more than as set apart (R176). -/
theorem returnNotice_keeps {record : List Byte} {n : Notice} (now : s.hp.txn = .output record (.notice (some n))) :
    KeepsPhase s (toIdle (returnNotice n s)) := by
  have only := settleNotice_only s n (fun rs => n :: rs)
  have turn := settleNotice_turnLess (s := s) n (fun rs => n :: rs)
  have ev := settleNotice_ev (s := s) n (fun rs => n :: rs)
  have records := settleNotice_records (s := s) n (fun rs => n :: rs)
  have apart : setApart s = 1 := by simp [setApart, now]
  unfold returnNotice
  obtain ⟨ce, arb, ev', nq, e⟩ := only
  rw [e] at turn ev records ⊢
  refine ⟨⟨rfl, rfl, fun h => ⟨h, rfl, rfl, rfl, fun _ => rfl⟩, id, fun q => ?_⟩, rfl, id⟩
  rw [queuesBounded_iff] at q ⊢
  obtain ⟨⟨events, bound, inReq, inRep⟩, replies, requests⟩ := q
  rw [apart] at bound
  refine ⟨⟨(congrArg (·.events.length ≤ 32) ev).mpr events, ?_, inReq, inRep⟩, replies,
    (requestLoad_of_turnLess turn le_rfl).trans requests⟩
  show nq.records.length + 0 ≤ 16
  rcases records with h | h
  · replace h : nq.records = s.nq.records := h
    rw [h]; omega
  · replace h : nq.records = n :: s.nq.records := h
    rw [h, List.length_cons]; omega

theorem toIdle_port : PortStep s (toIdle s) := portStep_modPort rfl rfl rfl (Nat.zero_le _)

theorem undoTake_changes_inside (peers : BitVec 31) (windows : BitVec 8) :
    Inside 0 0 s (undoTake (.changes peers windows) s) := OnlyChain.inside ⟨_, _, _, rfl⟩ (.inl rfl) id

theorem endReadStream_keeps (bits : Fin 8) (r : ReadStream) : KeepsPhase s (endReadStream bits r s) := by
  have dropped : Inside 0 0 s (dropStream s) := OnlyChain.inside_ev ⟨_, _, _, rfl⟩ (.inl rfl) rfl
  simp only [endReadStream]; split
  · exact (dropped.next (askHp_inside _ _)).keeps.trans (portStep_modPort rfl rfl rfl le_rfl).keeps
  · exact dropped.keeps.trans (portStep_modPort rfl rfl rfl le_rfl).keeps

theorem endWriteStream_keeps (bits : Fin 8) (start : Addr) (taken : Nat) : KeepsPhase s (endWriteStream bits start taken s) := by
  unfold endWriteStream; split
  · exact .refl s
  · split
    · exact (refuse_port _).keeps
    · exact (portStep_modPort rfl rfl rfl le_rfl).keeps.trans (askHp_inside _ _).keeps

/-- What the release of select does to the transaction in progress, and to what it had taken (R169, R176). -/
theorem endTransaction_keeps (bits : Fin 8) : KeepsPhase s (toIdle (endTransaction bits s)) := by
  unfold endTransaction; split
  · rename_i record took now
    unfold undoTake; split
    · exact returnNotice_keeps now
    · exact (undoTake_changes_inside _ _).keeps.trans toIdle_port.keeps
    · exact toIdle_port.keeps
  · exact (endReadStream_keeps _ _).trans toIdle_port.keeps
  · exact (endWriteStream_keeps _ _ _).trans toIdle_port.keeps
  · exact toIdle_port.keeps

theorem releaseSelect_keeps (bits : Fin 8) : KeepsPhase s (releaseSelect bits s) := by
  have pins (p : Pins) : KeepsPhase s { s with pins := p } :=
    ⟨⟨rfl, rfl, fun h => ⟨h, rfl, rfl, rfl, fun _ => rfl⟩, id, id⟩, rfl, id⟩
  simp only [releaseSelect]; split
  · exact .refl s
  · split
    · exact pins _
    · exact (pins { s.pins with selected := false }).trans (endTransaction_keeps bits)

/-! ## Chains started and given up -/

theorem decideSubmit_keeps (o : SubmitOps) : KeepsPhase s (decideSubmit o s) := by
  unfold decideSubmit; split
  · exact (refuse_port _).keeps
  · split
    · split
      · exact (refuse_port _).keeps
      · split
        · exact (refuse_port _).keeps
        · exact carryOut_port.keeps.trans ((modChannel_inside _).next startFetch_inside).keeps
    · exact (refuse_port _).keeps

theorem restart_keeps (k : ChainClass) : KeepsPhase s (restart ch k s) :=
  carryOut_port.keeps.trans ((modChannel_inside _).next startFetch_inside).keeps

theorem decideResume_keeps (o : ResumeOps) : KeepsPhase s (decideResume o s) := by
  unfold decideResume; split
  · exact (refuse_port _).keeps
  · split
    · split
      · exact restart_keeps _
      · exact restart_keeps _
      · exact (refuse_port _).keeps
    · exact (refuse_port _).keeps

theorem giveUpTurn_inside : Inside 0 0 s (giveUpTurn ch s) :=
  (giveUpTurn_only s ch).inside_ev giveUpTurn_turnLess giveUpTurn_ev

theorem postAborted_inside : Inside 0 0 s (postAborted ch s) := by
  unfold postAborted; split
  · rename_i room
    exact OnlyChain.inside ⟨_, _, _, rfl⟩ (.inl rfl) fun _ => by simpa using room
  · exact .refl s

theorem abortRunning_inside : Inside 0 0 s (abortRunning ch s) := by
  have orphans : Inside 0 0 s (orphanEntries ch s) :=
    (table_inside (s := s) (t := { s with rt := { s.rt with entries := s.rt.entries.map (Option.map (orphaned ch)) } })
      (fun _ => rfl) ⟨_, _, rfl⟩).next (modChannel_inside _)
  have dropped (u : State) : Inside 0 0 u (dropCe (fun w => decide (w.owner = some ch)) u) :=
    OnlyChain.inside_ev ⟨_, _, _, rfl⟩ (.inl rfl) rfl
  have withdraws (u : State) : Inside 0 0 u (withdrawWaiter ch u) :=
    OnlyNotice.inside ⟨_, _, _, _, rfl⟩ (.inl rfl) rfl id
  have released (u : State) (h : List ChannelNo) : Inside 0 0 u (setHeld h u) :=
    OnlyChain.inside_ev ⟨_, _, _, rfl⟩ (.inl rfl) rfl
  exact ((((((orphans.next giveUpTurn_inside).next (dropped _)).next (withdraws _)).next (released _ _)).next
    (modChannel_inside _)).next postAborted_inside)

theorem decideAbort_keeps (b : Byte) : KeepsPhase s (decideAbort b s) := by
  unfold decideAbort; split
  · exact (refuse_port _).keeps
  · split
    · exact (refuse_port _).keeps
    · split
      · exact (refuse_port _).keeps
      · exact carryOut_port.keeps.trans (modChannel_inside _).keeps
      · exact carryOut_port.keeps.trans abortRunning_inside.keeps

theorem withOperands_keeps {α : Type} {c : HostCode} {x : Taken α} {f : α → State → State}
    (decides : ∀ a u, KeepsPhase u (f a u)) : KeepsPhase s (withOperands c x f s) := by
  rcases withOperands_or (s := s) c x f with h | ⟨-, b, n, h⟩ | ⟨a, b, -, h⟩ <;> rw [h]
  · exact .refl s
  · exact (shiftOut_port b).keeps.trans (portStep_modPort rfl rfl rfl (Nat.zero_le _)).keeps
  · exact (shiftOut_port b).keeps.trans (decides a _)

/-! ## The commands that move the phase -/

/-- SEAL is refused, or carries CONFIG to JOINING with a HELLO in the holder (R188). -/
theorem decideSeal_keeps : Keeps s (decideSeal s) ∧ (HelloInJoining s → HelloInJoining (decideSeal s))
    ∧ ((decideSeal s).hp.phase = s.hp.phase ∨ s.hp.phase = .config ∧ (decideSeal s).hp.phase = .joining) := by
  have refused (r : RefusalReason) : KeepsPhase s (refuse r s) := (refuse_port r).keeps
  unfold decideSeal; split
  · exact ⟨(refused _).toKeeps, (refused _).hello, .inl (refused _).phase⟩
  · rename_i config
    replace config := not_not.1 config
    split
    · exact ⟨(refused _).toKeeps, (refused _).hello, .inl (refused _).phase⟩
    · refine ⟨⟨rfl, rfl, fun sealed => absurd config sealed, id, fun q => ?_⟩, fun h => ⟨fun _ _ _ => rfl, h.2⟩, .inr ⟨config, rfl⟩⟩
      obtain ⟨a, b, rest⟩ := q
      exact ⟨a, (Nat.add_le_add_left (Nat.zero_le _) _).trans b, rest⟩

/-- LEAVE is refused, or carries RUNNING to LEAVING (R190). -/
theorem decideLeave_keeps : Keeps s (decideLeave s) ∧ (HelloInJoining s → HelloInJoining (decideLeave s))
    ∧ ((decideLeave s).hp.phase = s.hp.phase ∨ s.hp.phase = .running ∧ (decideLeave s).hp.phase = .leaving) := by
  have refused (r : RefusalReason) : KeepsPhase s (refuse r s) := (refuse_port r).keeps
  unfold decideLeave; split
  · exact ⟨(refused _).toKeeps, (refused _).hello, .inl (refused _).phase⟩
  · rename_i running
    replace running := not_not.1 running
    split
    · exact ⟨(refused _).toKeeps, (refused _).hello, .inl (refused _).phase⟩
    · refine ⟨⟨rfl, rfl, fun _ => ⟨nofun, rfl, rfl, rfl, fun _ => rfl⟩, id, fun q => ?_⟩, fun h => ⟨fun f e yes => ?_, h.2⟩,
        .inr ⟨running, rfl⟩⟩
      · obtain ⟨a, b, rest⟩ := q
        exact ⟨a, (Nat.add_le_add_left (Nat.zero_le _) _).trans b, rest⟩
      · have := h.1 f e yes
        rw [running] at this; cases this

/-- How the phase moves with a command (R186 to R191). -/
def PhaseMoves (c : Instr) (s t : State) : Prop :=
  t.hp.phase ≠ s.hp.phase →
    (c = .sealStation ∧ s.hp.phase = .config ∧ t.hp.phase = .joining)
    ∨ (c = .transmissionEnd ∧ s.hp.phase = .joining ∧ t.hp.phase = .running)
    ∨ (c = .leave ∧ s.hp.phase = .running ∧ t.hp.phase = .leaving)
    ∨ (c = .transmissionEnd ∧ s.hp.phase = .leaving ∧ t.hp.phase = .detached)

theorem KeepsPhase.moves {c : Instr} (k : KeepsPhase s t) :
    Keeps s t ∧ (HelloInJoining s → HelloInJoining t) ∧ PhaseMoves c s t := ⟨k.toKeeps, k.hello, fun h => absurd k.phase h⟩

theorem atCommand_moves {c : Instr} {f : State → State} (decides : ∀ u, u.hp.phase = s.hp.phase →
    Keeps u (f u) ∧ (HelloInJoining u → HelloInJoining (f u)) ∧ PhaseMoves c u (f u)) :
    Keeps s (atCommand f s) ∧ (HelloInJoining s → HelloInJoining (atCommand f s)) ∧ PhaseMoves c s (atCommand f s) := by
  rcases atCommand_or (s := s) f with h | ⟨-, h⟩ <;> rw [h]
  · exact (KeepsPhase.refl s).moves
  · have shifted := (shiftOut_port (s := s) [s.hp.status]).keeps
    obtain ⟨kept, hello, moves⟩ := decides (shiftOut [s.hp.status] s) rfl
    exact ⟨shifted.toKeeps.trans kept, fun h => hello (shifted.hello h), moves⟩

/-- Every happening but the end of an access keeps what every happening keeps, and moves the phase as the rules say. -/
theorem happens_keeps (c : Instr) (s : State) (other : c ≠ .storeAccessEnd) :
    Keeps s (happens c s) ∧ (HelloInJoining s → HelloInJoining (happens c s)) ∧ PhaseMoves c s (happens c s) := by
  by_cases port : PortCommand c = true
  · exact (portCommand_step port s).keeps.moves
  cases c
  case storeAccessEnd => exact absurd rfl other
  case issueTurn => exact (takeTurn_inside.1.keeps_of takeTurn_inside.2 takeTurn_inside.1.replies.trans).moves
  case replyTake => exact takeReply_inside.keeps.moves
  case deadlinePass i => exact (passDeadline_inside i).keeps.moves
  case busyBackoffEnd p => exact (endBackoff_inside p).keeps.moves
  case requestTake => exact (takeRequest_inside.1.keeps_of takeRequest_inside.1.requests.trans takeRequest_inside.2).moves
  case frameEnd received => exact (takeFrame_inside received).keeps.moves
  case claimWindowOpen => exact openWindow_inside.keeps.moves
  case claimSlot n part => exact (passSlot_inside n part).keeps.moves
  case claimWindowEnd => exact endWindow_inside.keeps.moves
  case transmissionEnd =>
    obtain ⟨kept, moves, hello⟩ := endTransmission_keeps (s := s)
    refine ⟨kept, hello, fun changed => ?_⟩
    rcases moves with h | ⟨a, b⟩ | ⟨a, b⟩
    · exact absurd h changed
    · exact .inr (.inl ⟨rfl, a, b⟩)
    · exact .inr (.inr (.inr ⟨rfl, a, b⟩))
  case selectRelease bits => exact (releaseSelect_keeps bits).moves
  case transactionComplete => exact completeTransaction_keeps.moves
  case submit t => exact (withOperands_keeps fun o _ => decideSubmit_keeps o).moves
  case resume t => exact (withOperands_keeps fun o _ => decideResume_keeps o).moves
  case abort t => exact (withOperands_keeps fun b _ => decideAbort_keeps b).moves
  case sealStation =>
    refine atCommand_moves fun u _ => ?_
    obtain ⟨kept, hello, moves⟩ := decideSeal_keeps (s := u)
    exact ⟨kept, hello, fun changed => .inl ⟨rfl, moves.resolve_left changed⟩⟩
  case leave =>
    refine atCommand_moves fun u _ => ?_
    obtain ⟨kept, hello, moves⟩ := decideLeave_keeps (s := u)
    exact ⟨kept, hello, fun changed => .inr (.inr (.inl ⟨rfl, moves.resolve_left changed⟩))⟩
  case streamByte data =>
    rcases clockByte_port (s := s) data with h | h
    · exact h.keeps.moves
    · rw [happens, h]; exact completeTransaction_keeps.moves
  case hardwareReset => exact (KeepsPhase.refl s).moves
  case powerUp => exact (KeepsPhase.refl s).moves
  case resetEnd => exact (KeepsPhase.refl s).moves
  case storeDisturbance => exact (KeepsPhase.refl s).moves
  all_goals exact absurd rfl port

/-! ## What closes a happening -/

theorem loadLeavingFrame_hello {own : BitVec 5} {label : List Byte} {sl : LineUnit} :
    (∀ f, (loadLeavingFrame own label sl).holder = some f → sl.holder = some f ∨ f.flags.hello = false)
      ∧ ∀ f, (loadLeavingFrame own label sl).aside = some f → sl.aside = some f ∨ f.flags.hello = false := by
  have mine : (presenceFrame own label false true).flags.hello = false := rfl
  have held (f : Frame) (e : some (presenceFrame own label false true) = some f) : f.flags.hello = false :=
    Option.some.inj e ▸ mine
  simp only [loadLeavingFrame]; split
  · exact ⟨fun f e => .inr (held f e), fun _ e => .inl e⟩
  · split
    · exact ⟨fun _ e => .inl e, fun f e => .inr (held f e)⟩
    · split
      · exact ⟨fun _ e => .inl e, fun _ e => .inl e⟩
      · exact ⟨fun f e => .inr (held f e), fun _ e => .inl e⟩

theorem loadLeavingFrame_only (own : BitVec 5) (label : List Byte) (sl : LineUnit) :
    ∃ holder aside, loadLeavingFrame own label sl = { sl with holder := holder, aside := aside } := by
  simp only [loadLeavingFrame]; split
  · exact ⟨_, _, rfl⟩
  · split
    · exact ⟨_, _, rfl⟩
    · split <;> exact ⟨_, _, rfl⟩

theorem loadLeaving_inside : Inside 0 0 s (loadLeaving s) := by
  unfold loadLeaving; split
  · obtain ⟨inHolder, inAside⟩ := loadLeavingFrame_hello (own := s.own) (label := s.hp.label) (sl := s.sl)
    obtain ⟨holder, aside, line⟩ := loadLeavingFrame_only s.own s.hp.label s.sl
    refine modLine_inside (fun h => ⟨fun f e yes => ?_, fun f e => ?_⟩) ?_ ?_ ?_ ?_
    · rcases inHolder f e with old | no
      · exact h.1 f old yes
      · rw [no] at yes; cases yes
    · exact (inAside f e).elim (h.2 f) id
    all_goals rw [line]
    · exact id
    · exact id
    · exact le_rfl
    · exact le_rfl
  · exact .refl s

theorem settle_inside : Inside 0 0 s (settle s) := by
  obtain ⟨arb, h⟩ := grantNext_only (loadLeaving s)
  rw [settle, h]
  exact loadLeaving_inside.next (OnlyChain.inside_ev ⟨_, _, _, rfl⟩ (.inl rfl) rfl)

end

end Sys2Proof.Machine
end

section
/-! The statements about every command and every step that need no more than what every happening keeps: the machine, a settled
state, the form of the store, the reply caches, the phase and the configuration, and the bounds of the queues. -/

namespace Sys2Proof.Machine

/-! ## A reset part -/

/-- Every block at its reset values; only store, own number, pins, clock, draws and waiting commands are given. -/
def Fresh (t : State) : Prop := ∃ st own pins now draws pending, t = { State.reset with
  st := st, own := own, peers := resetPeers own, pins := pins, now := now, draws := draws, pending := pending }

theorem fresh_reset : Fresh State.reset := ⟨_, _, _, _, _, _, rfl⟩

theorem fresh_resetWith (own : BitVec 5) (st : PageStore) (pins : Pins) (s : State) :
    Fresh { resetWith own st s with pins := pins } := ⟨_, _, _, _, _, _, rfl⟩

section
variable {t : State}

theorem Fresh.entry (h : Fresh t) (i : Slot) : t.entry i = none := by
  obtain ⟨_, _, _, _, _, _, rfl⟩ := h; simp [State.entry, State.reset, Vector.get]

theorem Fresh.channel (h : Fresh t) (ch : ChannelNo) : t.channel ch = {} := by
  obtain ⟨_, _, _, _, _, _, rfl⟩ := h; simp [State.channel, State.reset, Vector.get]

theorem Fresh.peer (h : Fresh t) (p : Station) : t.peer p = if p.val = t.own.toNat then { status := .self } else {} := by
  obtain ⟨_, _, _, _, _, _, rfl⟩ := h; simp only [State.peer, resetPeers, Vector.get_eq_getElem, Vector.getElem_ofFn]

theorem Fresh.window (h : Fresh t) (w : WindowNo) : t.su.windows.get w = {} := by
  obtain ⟨_, _, _, _, _, _, rfl⟩ := h; simp [State.reset, Vector.get]

theorem Fresh.rx (h : Fresh t) (p : Station) : (t.peer p).rx = {} := by rw [h.peer]; split <;> rfl

theorem Fresh.cache (h : Fresh t) : CacheInOrder t := cacheInOrder_iff.2 fun p => by rw [h.rx]; exact cacheRight_empty

theorem Fresh.queues (h : Fresh t) : QueuesBounded t := by
  obtain ⟨_, _, _, _, _, _, rfl⟩ := h
  exact ⟨Nat.zero_le _, Nat.zero_le _, Nat.zero_le _, Nat.zero_le _, Nat.zero_le _, Nat.zero_le _⟩

theorem Fresh.hello (h : Fresh t) : HelloInJoining t := by
  obtain ⟨_, _, _, _, _, _, rfl⟩ := h
  exact ⟨nofun, nofun⟩

theorem Fresh.inOrder (h : Fresh t) : InOrder t := by
  obtain ⟨st, own, pins, now, draws, pending, rfl⟩ := h
  exact reset_inOrder (s := State.reset) own st pins now draws pending

theorem Fresh.ages (h : Fresh t) : AgesInWindow t := by
  have none (i : Slot) (e : Entry) (k : t.entry i = some e) : False := by rw [h.entry] at k; cases k
  refine ⟨fun i e k => (none i e k).elim, fun i _ e _ k => (none i e k).elim, fun _ _ _ i e k => (none i e k).elim, ?_⟩
  obtain ⟨_, _, _, _, _, _, rfl⟩ := h
  exact List.Pairwise.nil

theorem Fresh.quiet (h : Fresh t) : ConfigQuiet t := by
  refine fun _ => ⟨h.entry, fun ch => by rw [h.channel], ?_⟩
  obtain ⟨_, _, _, _, _, _, rfl⟩ := h
  exact ⟨rfl, rfl, rfl, rfl⟩

theorem Fresh.targets (h : Fresh t) : TargetsPresent t := by
  refine ⟨fun i e k => (by rw [h.entry] at k; cases k), fun p => ?_⟩
  rw [h.peer]; split
  · rename_i own; simp [own]
  · rename_i other; simp [other]

theorem Fresh.settled (h : Fresh t) : Settled t := by
  obtain ⟨_, _, _, _, _, _, rfl⟩ := h
  exact ⟨.inr ⟨rfl, rfl, rfl⟩, loadLeaving_phase (by simp [State.reset])⟩

end

/-! ## A settled state -/

/-- Where nobody waits for the store, no access is asked for. -/
theorem arbiter_idle {a : Arbiter} (h : ∀ r, waits a r = false) : a.hp = [] ∧ a.ce = [] ∧ a.su = [] :=
  ⟨by simpa [waits] using h .hp, by simpa [waits] using h .ce, by simpa [waits] using h .su⟩

/-- Every requester is somewhere in the order of preference (R10). -/
theorem mem_preference (r x : Requester) : x ∈ preference r := by cases r <;> cases x <;> decide

theorem grantNext_settled (s : State) : (grantNext s).arb.granted.isSome
    ∨ (grantNext s).arb.hp = [] ∧ (grantNext s).arb.ce = [] ∧ (grantNext s).arb.su = [] := by
  cases g : s.arb.granted with
  | some r => left; simp [grantNext, g]
  | none =>
    cases q : (preference s.arb.last).find? (waits s.arb) with
    | some r => left; simp [grantNext_first g q]
    | none =>
      right
      have idle : ∀ r, waits s.arb r = false := fun r => by
        simpa using List.find?_eq_none.1 q r (mem_preference _ _)
      rw [grantNext_idle idle]; exact arbiter_idle idle

/-- A LEAVING frame loaded is not loaded again; a HELLO that keeps its place keeps it (R135, R190). -/
theorem loadLeaving_loadLeaving (s : State) : loadLeaving (loadLeaving s) = loadLeaving s := by
  by_cases due : s.hp.phase = .leaving ∧ tableEmpty s ∧ leavingLoaded s.sl = false
  · have once : loadLeaving s = modLine (loadLeavingFrame s.own s.hp.label) s := if_pos due
    by_cases now : leavingLoaded (loadLeavingFrame s.own s.hp.label s.sl) = true
    · rw [once]
      unfold loadLeaving; rw [if_neg]
      rintro ⟨-, -, k⟩
      exact absurd (now.symm.trans k) Bool.false_ne_true.symm
    · have kept : loadLeavingFrame s.own s.hp.label s.sl = s.sl := by
        revert now
        simp only [loadLeavingFrame]; split
        · simp [leavingLoaded, presenceFrame]
        · split
          · simp [leavingLoaded]
          · split
            · exact fun _ => rfl
            · simp [leavingLoaded, presenceFrame]
      have same : loadLeaving s = s := by
        rw [once, modLine, kept]
      rw [same, same]
  · have never : loadLeaving s = s := if_neg due
    rw [never, never]

/-- What closes a happening leaves a settled state. -/
theorem settle_settled (s : State) : Settled (settle s) := by
  refine ⟨grantNext_settled _, ?_⟩
  obtain ⟨arb, h⟩ := grantNext_only (loadLeaving s)
  unfold settle; rw [h]
  exact loadLeaving_same (loadLeaving_loadLeaving s) rfl rfl rfl rfl rfl

/-! ## Every command -/

section
variable {c : Instr} {s t : State}

/-- A command keeps the waiting commands (log 20). -/
theorem Leaves.pending (h : Leaves c s t) : t.pending = s.pending := by
  cases h with
  | closed low free =>
    rw [settle_inside.inner.2.2.2.2]
    by_cases access : c = .storeAccessEnd
    · subst access
      rcases endAccess_keeps s with ⟨-, h⟩ | ⟨a, arb, -, k⟩
      · exact congrArg State.pending h
      · exact k.pending
    · exact (happens_keeps c s access).1.pending
  | _ => rfl

/-- A predicate that no field but blocks, phase and port decide is kept by every command if reset states have it, and if every
happening and its close keep it. -/
theorem Leaves.keeps {P : State → Prop} (fresh : ∀ u, Fresh u → P u) (outside : ∀ st arb pins u, P u → P { u with st := st, arb := arb, pins := pins })
    (happening : ∀ u v, Keeps u v → P u → P v) (h : Leaves c s t) (hs : P s) : P t := by
  cases h with
  | reset straps st low => exact fresh _ (fresh_resetWith straps st _ s)
  | same => exact hs
  | disturbed w bits found raw => exact outside (disturb s.st w bits found raw) s.arb s.pins s hs
  | selects level => exact outside s.st s.arb _ s hs
  | closed low free =>
    refine happening _ _ settle_inside.keeps.toKeeps ?_
    by_cases access : c = .storeAccessEnd
    · subst access
      rcases endAccess_keeps s with ⟨-, h⟩ | ⟨a, arb, -, k⟩
      · rw [happens, h]; exact hs
      · exact happening _ _ k.toKeeps (outside _ arb s.pins s hs)
    · exact happening _ _ (happens_keeps c s access).1 hs

theorem Leaves.cache (h : Leaves c s t) (hs : CacheInOrder s) : CacheInOrder t :=
  h.keeps (fun _ => Fresh.cache) (fun _ _ _ _ k => k) (fun _ _ k => k.cache) hs

theorem Leaves.queues (h : Leaves c s t) (hs : QueuesBounded s) : QueuesBounded t :=
  h.keeps (fun _ => Fresh.queues) (fun _ _ _ _ k => k) (fun _ _ k => k.queues) hs

/-- What SEAL has fixed stays fixed until a reset (R89, R187). -/
theorem Leaves.fixed (h : Leaves c s t) (free : Resets c = false) (sealed : s.hp.phase ≠ .config) :
    t.own = s.own ∧ t.hp.label = s.hp.label ∧ t.hp.timing = s.hp.timing
      ∧ ∀ w : WindowNo, (t.su.windows.get w).fixed = (s.su.windows.get w).fixed := by
  cases h with
  | reset _ _ _ r => rw [free] at r; cases r
  | closed low =>
    by_cases access : c = .storeAccessEnd
    · subst access
      rcases endAccess_keeps s with ⟨-, h⟩ | ⟨a, arb, -, k⟩
      · rw [happens, h]; exact (settle_inside.keeps.fixed sealed).2
      · exact ((k.toKeeps.trans settle_inside.keeps.toKeeps).fixed sealed).2
    · exact (((happens_keeps c s access).1.trans settle_inside.keeps.toKeeps).fixed sealed).2
  | _ => exact ⟨rfl, rfl, rfl, fun _ => rfl⟩

/-- The phase moves as the rules say, and no HELLO stays in the holder when JOINING ends (R186 to R191). -/
theorem Leaves.moves (h : Leaves c s t) : (HelloInJoining s → HelloInJoining t) ∧ (Resets c = false → PhaseMoves c s t) := by
  cases h with
  | reset straps st low r =>
    exact ⟨fun _ => (fresh_resetWith straps st _ s).hello, fun free => absurd (free.symm.trans r) Bool.false_ne_true⟩
  | same => exact ⟨id, fun _ changed => absurd rfl changed⟩
  | disturbed => exact ⟨id, fun _ changed => absurd rfl changed⟩
  | selects => exact ⟨id, fun _ changed => absurd rfl changed⟩
  | closed low =>
    have closing := (settle_inside (s := happens c s)).keeps
    by_cases access : c = .storeAccessEnd
    · subst access
      rcases endAccess_keeps s with ⟨-, h⟩ | ⟨a, arb, -, k⟩
      · rw [happens, h] at closing ⊢
        exact ⟨closing.hello, fun _ changed => absurd closing.phase changed⟩
      · have all := k.trans closing
        exact ⟨all.hello, fun _ changed => absurd all.phase changed⟩
    · obtain ⟨-, hello, moves⟩ := happens_keeps c s access
      exact ⟨fun h => closing.hello (hello h), fun _ => by unfold PhaseMoves at moves ⊢; rwa [closing.phase]⟩

theorem endAccess_st (s : State) : (grantedAccess s.arb = none → (endAccess s).st = s.st)
    ∧ ∀ a, grantedAccess s.arb = some a → (endAccess s).st = (performAccess s.st a).1 := by
  rcases endAccess_keeps s with ⟨g, h⟩ | ⟨a, arb, g, k⟩
  · rw [g, h]; exact ⟨fun _ => rfl, nofun⟩
  · rw [g]; exact ⟨nofun, fun b e => by rw [k.st]; cases e; rfl⟩

/-- A command leaves the form of the store (log 2). -/
theorem Leaves.st_wf (h : Leaves c s t) (wf : s.st.wf = true) : t.st.wf = true := by
  cases h with
  | reset straps st low r kind =>
    show st.wf = true
    rcases kind with rfl | ⟨rfl, -⟩ | ⟨_, b, m, -, rfl⟩
    · exact wf
    · unfold storeAtReset; split
      · exact performAccess_wf wf _
      · exact wf
    · exact contentStore_wf b m
  | same => exact wf
  | disturbed w bits found raw => exact disturb_wf wf w bits found raw
  | selects => exact wf
  | closed low free =>
    rw [settle_inside.inner.1]
    by_cases access : c = .storeAccessEnd
    · subst access
      obtain ⟨free, made⟩ := endAccess_st s
      cases g : grantedAccess s.arb with
      | none => rw [happens, free g]; exact wf
      | some a => rw [happens, made a g]; exact performAccess_wf wf a
    · rw [(happens_keeps c s access).1.st]; exact wf

/-- A command leaves a settled state settled. -/
theorem Leaves.settled (h : Leaves c s t) (hs : Settled s) : Settled t := by
  cases h with
  | reset straps st low => exact (fresh_resetWith straps st _ s).settled
  | closed => exact settle_settled _
  | _ => exact ⟨hs.1, loadLeaving_same hs.2 rfl rfl rfl rfl rfl⟩

end

/-! ## The statements -/

/-- Settles O1: the step looks at the front of the queue alone. -/
theorem stepRunsFrontCommand : Obligations.StepRunsFrontCommand := by
  intro c rest s front
  simp only [step, front]

/-- Settles O2: with no command to run, the step is `tick`. -/
theorem emptyQueueStepPassesOnePeriod : Obligations.EmptyQueueStepPassesOnePeriod := by
  intro s empty
  simp only [step, empty, tick]

/-- Settles O3: what a command leaves is one of five, each of which keeps the waiting commands and is settled or as settled as before. -/
theorem everyCommandRunsAndSettles : Obligations.EveryCommandRunsAndSettles := by
  intro c s
  obtain ⟨t, e⟩ := exec_answers c s
  exact ⟨t, e, (exec_leaves e).pending, (exec_leaves e).settled⟩

/-- Settles O10: only a granted access, a reset, power and a disturbance write the store, and each keeps its form. -/
theorem storeFormKept : Obligations.StoreFormKept := by
  intro s t wf e
  exact step_keeps (P := fun u => u.st.wf = true) (fun _ h => h) (fun _ _ h => h) (fun _ _ _ h e => (exec_leaves e).st_wf h) wf e

/-- Settles O56: a request accepted in sequence, or with SYNC, extends the numbers just below E; nothing else changes them but a
reset of the record. -/
theorem cachesStayInOrder : Obligations.CachesStayInOrder := by
  intro s t h e
  exact step_keeps (P := CacheInOrder) (fun _ h => h) (fun _ _ h => h) (fun _ _ _ h e => (exec_leaves e).cache h) h e

/-- Settles O60: the commands that set what SEAL fixes are refused after CONFIG, and three commands alone move the phase. -/
theorem phaseAndConfiguration : Obligations.PhaseAndConfiguration := by
  intro c s t e
  have left := exec_leaves e
  exact ⟨left.moves.1, left.fixed, left.moves.2⟩

/-- Settles O59: at reset every list is empty and every count 0. -/
theorem formsHoldAtReset : Obligations.FormsHoldAtReset := by
  have fresh := fresh_reset
  obtain ⟨⟨work, held, -⟩, listed, counts⟩ := fresh.inOrder
  exact ⟨rfl, fresh.queues, fresh.cache, listed, counts, fresh.hello, fresh.quiet, fresh.targets, fresh.ages, work, held, fresh.settled⟩

end Sys2Proof.Machine
end

section
/-! The channels' work, the held list and the request table stay in order through every command. -/

namespace Sys2Proof.Machine

section
variable {c : Instr} {s t : State}

/-- A step of the port leaves chains and tables alone. -/
theorem PortStep.aside (h : PortStep s t) : Aside s t := by
  obtain ⟨⟨_, _, _, _, _, _, rfl⟩, -, -, -⟩ := h
  exact ⟨rfl, rfl, rfl, rfl, rfl, fun _ => rfl⟩

theorem decideSeal_aside : Aside s (decideSeal s) := by
  unfold decideSeal; split
  · exact refuse_aside _
  · split
    · exact refuse_aside _
    · exact ⟨rfl, rfl, rfl, rfl, rfl, fun _ => rfl⟩

theorem decideLeave_aside : Aside s (decideLeave s) := by
  unfold decideLeave; split
  · exact refuse_aside _
  · split
    · exact refuse_aside _
    · exact ⟨rfl, rfl, rfl, rfl, rfl, fun _ => rfl⟩

theorem openWindow_aside : Aside s (openWindow s) := by
  unfold openWindow; split
  · exact .refl s
  · exact line_aside _

theorem endWindow_aside : Aside s (endWindow s) := by
  unfold endWindow; split
  · exact .refl s
  · split <;> exact line_aside _

/-- Every happening keeps channels, held list and request table in order. -/
theorem happens_inOrder (c : Instr) (h : InOrder s) : InOrder (happens c s) := by
  by_cases port : PortCommand c = true
  · exact (portCommand_step port s).aside.inOrder h
  cases c
  case storeAccessEnd => exact endAccess_inOrder h
  case issueTurn => exact takeTurn_inOrder h
  case replyTake => exact takeReply_inOrder h
  case deadlinePass i => exact passDeadline_inOrder i h
  case busyBackoffEnd p => exact endBackoff_inOrder p h
  case requestTake => exact takeRequest_inOrder h
  case frameEnd received => exact takeFrame_inOrder received h
  case claimWindowOpen => exact openWindow_aside.inOrder h
  case claimSlot n part => exact (passSlot_aside n part).inOrder h
  case claimWindowEnd => exact endWindow_aside.inOrder h
  case transmissionEnd => exact endTransmission_inOrder h
  case selectRelease bits => exact releaseSelect_inOrder bits h
  case transactionComplete => exact completeTransaction_inOrder h
  case submit t => exact withOperands_inOrder h fun o _ => decideSubmit_inOrder o
  case resume t => exact withOperands_inOrder h fun o _ => decideResume_inOrder o
  case abort t => exact withOperands_inOrder h fun b _ => decideAbort_inOrder b
  case sealStation => exact atCommand_inOrder h fun _ => decideSeal_aside.inOrder
  case leave => exact atCommand_inOrder h fun _ => decideLeave_aside.inOrder
  case streamByte data =>
    rcases clockByte_port (s := s) data with k | k
    · exact k.aside.inOrder h
    · rw [happens, k]; exact completeTransaction_inOrder h
  case hardwareReset => exact h
  case powerUp => exact h
  case resetEnd => exact h
  case storeDisturbance => exact h
  all_goals exact absurd rfl port

/-- Every command keeps channels, held list and request table in order. -/
theorem Leaves.inOrder (h : Leaves c s t) (hs : InOrder s) : InOrder t := by
  cases h with
  | reset straps st low => exact (fresh_resetWith straps st _ s).inOrder
  | closed => exact settle_aside.inOrder (happens_inOrder c hs)
  | _ => exact Aside.inOrder ⟨rfl, rfl, rfl, rfl, rfl, fun _ => rfl⟩ hs

end

/-- Settles O55: each command adds to a queue only where its rule finds room, and each operation of a channel keeps its work and the
held list in order. -/
theorem queuesStayBounded : Obligations.QueuesStayBounded := by
  refine ⟨fun s t bounded e => ?_, fun s t bounded listed counts work held e => ?_, fun s held room => ?_⟩
  · exact step_keeps (P := QueuesBounded) (fun _ h => h) (fun _ _ h => h) (fun _ _ _ h e => (exec_leaves e).queues h) bounded e
  · have ordered : InOrder s := ⟨⟨work, held, bounded.1⟩, listed, counts⟩
    have kept : InOrder t := step_keeps (P := InOrder)
      (fun _ => Aside.inOrder ⟨rfl, rfl, rfl, rfl, rfl, fun _ => rfl⟩)
      (fun _ _ => Aside.inOrder ⟨rfl, rfl, rfl, rfl, rfl, fun _ => rfl⟩)
      (fun _ _ _ h e => (exec_leaves e).inOrder h) ordered e
    exact ⟨kept.1.1, kept.1.2.1⟩
  · by_contra listed
    exact absurd (held.1 listed) (Nat.ne_of_lt room)

end Sys2Proof.Machine
end

section
/-! The request table through every operation: the order of taking, the counts, the ages and the statuses of targets. An operation is
`Still` if it neither takes nor frees an entry and moves no status; the others have a lemma each. -/

namespace Sys2Proof.Machine

/-- What the invariants of the table read in an entry: channel, orphan mark, target and sequence number. -/
def Entry.mark (e : Entry) : (ChannelNo × Bool × Station) × Byte := (e.key, e.sequence)

/-- No entry taken or freed, no outstanding count, held count, next sequence number or status moved, and no turn begun. -/
structure Still (s t : State) : Prop where
  order : t.rt.order = s.rt.order
  mark : ∀ i, (t.entry i).map Entry.mark = (s.entry i).map Entry.mark
  out : SameOut s t
  held : ∀ p, (t.peer p).tx.held = (s.peer p).tx.held
  seq : ∀ p, (t.peer p).tx.nextSeq = (s.peer p).tx.nextSeq
  status : ∀ p, (t.peer p).status = (s.peer p).status
  own : t.own = s.own
  turn : TurnLess s t

/-- The order of taking lists the held entries; and the counts, the ages and the statuses of targets are right, as far as each is
supposed. -/
structure TableHolds (counts ages present : Prop) (s : State) : Prop where
  listed : OrderListsHeld s
  counts : counts → CountsExact s
  ages : ages → AgesInWindow s
  present : present → TargetsPresent s

section
variable {s t u : State} {ch : ChannelNo} {counts ages present : Prop}

/-! ## Operations that are still -/

theorem Still.refl (s : State) : Still s s :=
  ⟨rfl, fun _ => rfl, .refl s, fun _ => rfl, fun _ => rfl, fun _ => rfl, rfl, .refl s⟩

theorem Still.trans (a : Still s t) (b : Still t u) : Still s u :=
  ⟨b.order.trans a.order, fun i => (b.mark i).trans (a.mark i), a.out.trans b.out, fun p => (b.held p).trans (a.held p),
    fun p => (b.seq p).trans (a.seq p), fun p => (b.status p).trans (a.status p), b.own.trans a.own, a.turn.trans b.turn⟩

/-- The table and the peer table are not touched. -/
theorem Still.of (rt : t.rt = s.rt) (peers : t.peers = s.peers) (own : t.own = s.own) (out : SameOut s t) (turn : TurnLess s t) :
    Still s t :=
  ⟨by rw [rt], fun i => by rw [entry_of_rt rt], out, fun p => by rw [peer_of_peers peers], fun p => by rw [peer_of_peers peers],
    fun p => by rw [peer_of_peers peers], own, turn⟩

theorem Still.chain (only : OnlyChain s t) (out : SameOut s t) (turn : TurnLess s t) : Still s t := by
  obtain ⟨_, _, _, rfl⟩ := only
  exact .of rfl rfl rfl out turn

theorem Still.notice (only : OnlyNotice s t) (out : SameOut s t) (turn : TurnLess s t) : Still s t := by
  obtain ⟨_, _, _, _, rfl⟩ := only
  exact .of rfl rfl rfl out turn

/-- Nothing of the channel engine, the table and the peer table is touched. -/
theorem Still.outside (ce : t.ce = s.ce) (rt : t.rt = s.rt) (peers : t.peers = s.peers) (own : t.own = s.own) : Still s t :=
  .of rt peers own (.ce (by rw [ce])) (.ce (by rw [ce]))

theorem Still.noTurn : Still s (setTurn none s) := .of rfl rfl rfl (.ce rfl) (.inr rfl)

theorem Still.line (f : LineUnit → LineUnit) : Still s (modLine f s) := .outside rfl rfl rfl rfl

theorem Still.port (h : PortStep s t) : Still s t := by
  obtain ⟨⟨_, _, _, _, _, _, rfl⟩, -, -, -⟩ := h
  exact .outside rfl rfl rfl rfl

/-- A record that agrees in a part leaves that part of every station as it was. -/
theorem peer_setPeer_part {α : Type} (part : Peer → α) {p : Station} {r : Peer} (same : part r = part (s.peer p)) (q : Station) :
    part ((setPeer p r s).peer q) = part (s.peer q) := by
  rw [peer_setPeer]; split
  · rename_i h; rw [h]; exact same
  · rfl

theorem modTx_status (p : Station) (f : TransmitPart → TransmitPart) (q : Station) :
    ((modTx p f s).peer q).status = (s.peer q).status :=
  peer_setPeer_part (s := s) (r := { s.peer p with tx := f (s.peer p).tx }) (·.status) rfl q

theorem setStatus_tx (p : Station) (v : PeerStatus) (q : Station) : ((setStatus p v s).peer q).tx = (s.peer q).tx :=
  peer_setPeer_part (s := s) (r := { s.peer p with status := v }) (·.tx) rfl q

/-- A peer record keeps its status, its held count and its next sequence number. -/
theorem Still.setPeer {p : Station} {r : Peer} (held : r.tx.held = (s.peer p).tx.held) (seq : r.tx.nextSeq = (s.peer p).tx.nextSeq)
    (status : r.status = (s.peer p).status) : Still s (setPeer p r s) :=
  ⟨rfl, fun _ => rfl, .ce rfl, peer_setPeer_part (·.tx.held) held, peer_setPeer_part (·.tx.nextSeq) seq,
    peer_setPeer_part (·.status) status, rfl, .inl rfl⟩

theorem needSync_still (p : Station) : Still s (needSync p s) := .setPeer rfl rfl rfl

theorem stopBackoff_still (p : Station) : Still s (stopBackoff p s) := .setPeer rfl rfl rfl

theorem modRx_still (p : Station) (f : ReceivePart → ReceivePart) : Still s (modRx p f s) := .setPeer rfl rfl rfl

theorem modTx_still {p : Station} {f : TransmitPart → TransmitPart} (held : (f (s.peer p).tx).held = (s.peer p).tx.held)
    (seq : (f (s.peer p).tx).nextSeq = (s.peer p).tx.nextSeq) : Still s (modTx p f s) := .setPeer held seq rfl

/-- An entry keeps its mark. -/
theorem Still.setEntry {i : Slot} {e f : Entry} (he : s.entry i = some e) (mark : f.mark = e.mark) :
    Still s (setEntry i (some f) s) := by
  refine ⟨rfl, fun j => ?_, .ce rfl, fun _ => rfl, fun _ => rfl, fun _ => rfl, rfl, .inl rfl⟩
  rw [entry_setEntry]; split
  · rename_i h; rw [h, he, Option.map_some, Option.map_some, mark]
  · rfl

/-- Every entry keeps its mark. -/
theorem Still.mapEntries {f : Entry → Entry} (mark : ∀ e, (f e).mark = e.mark) :
    Still s { s with rt := { s.rt with entries := s.rt.entries.map (Option.map f) } } := by
  refine ⟨rfl, fun i => ?_, .ce rfl, fun _ => rfl, fun _ => rfl, fun _ => rfl, rfl, .inl rfl⟩
  simp only [State.entry, Vector.get_map, Option.map_map, Function.comp_def, mark]

theorem modChannel_still {f : Channel → Channel} (out : (f (s.channel ch)).outstanding = (s.channel ch).outstanding) :
    Still s (modChannel ch f s) := .of rfl rfl rfl (.mod f out) (.inl rfl)

theorem startFetch_still : Still s (startFetch ch s) := .chain (startFetch_only s ch) startFetch_sameOut startFetch_turnLess

theorem failSegment_still (c : FaultCode) (off : Nat) : Still s (failSegment ch c off s) :=
  .chain (failSegment_only s ch c off) (failSegment_sameOut c off) (failSegment_turnLess c off)

theorem segmentDone_still : Still s (segmentDone ch s) := .chain (segmentDone_only s ch) segmentDone_sameOut segmentDone_turnLess

theorem startCompletion_still : Still s (startCompletion ch s) :=
  .chain (startCompletion_only s ch) startCompletion_sameOut startCompletion_turnLess

theorem askCe_still (a : Access) (w : CeWork) : Still s (askCe a w s) := .outside rfl rfl rfl rfl

theorem failFetch_still (a : Addr) (c : FaultCode) : Still s (failFetch ch a c s) :=
  .chain (failFetch_only s ch a c) (failFetch_sameOut a c) (failFetch_turnLess a c)

theorem settleNotice_still (n : Notice) (add : List Notice → List Notice) : Still s (settleNotice n add s) :=
  .notice (settleNotice_only s n add) (settleNotice_sameOut n add) (settleNotice_turnLess n add)

theorem startAwait_still (d : Descriptor) : Still s (startAwait ch d s) :=
  .notice (startAwait_only s ch d) (startAwait_sameOut d) (startAwait_turnLess d)

theorem passSegment_still (d : Descriptor) : Still s (passSegment ch d s) := by
  obtain ⟨_, _, _, _, e⟩ := passSegment_pos (s := s) (ch := ch) d
  refine .of (passSegment_rt d).1 (passSegment_rt d).2 ?_ (passSegment_sameOut d) (passSegment_turnLess d)
  rw [e]; rfl

theorem failInTurn_still (c : FaultCode) : Still s (failInTurn ch c s) := by
  simp only [failInTurn]; split
  · exact .refl s
  · exact (passSegment_still _).trans (failSegment_still _ _)

theorem postHeld_still : Still s (postHeld s) := .chain (postHeld_only s) postHeld_sameOut postHeld_turnLess

theorem askPresence_still : Still s (askPresence s) := by
  unfold askPresence; split
  · exact .line _
  · exact .refl s

theorem settle_still : Still s (settle s) := by
  obtain ⟨_, _, e⟩ := settle_only s
  rw [e]; exact .outside rfl rfl rfl rfl

/-! ## The table after a still operation -/

theorem Still.exact (h : Still s t) (table : TableExact s) : TableExact t := by
  refine table.keys h.order (fun i => ?_) h.out h.held
  have := congrArg (Option.map Prod.fst) (h.mark i)
  simpa only [Option.map_map, Function.comp_def, Entry.mark] using this

/-- Every entry after a still operation was there before, with its mark. -/
theorem Still.was (h : Still s t) {i : Slot} {e : Entry} (he : t.entry i = some e) : ∃ f, s.entry i = some f ∧ f.mark = e.mark := by
  have := h.mark i
  rw [he] at this
  exact Option.map_eq_some_iff.1 this.symm

theorem Still.fewer (h : Still s t) : Fewer s t := by
  refine ⟨fun i e he => ?_, by rw [h.order], fun _ e _ => h.seq e.target, h.turn⟩
  obtain ⟨f, hf, same⟩ := h.was he
  exact ⟨f, hf, congrArg (·.1.2.2) same, congrArg (·.2) same⟩

theorem Still.listed (h : Still s t) (listed : OrderListsHeld s) : OrderListsHeld t := by
  obtain ⟨nodup, iff⟩ := listed
  refine ⟨by rw [h.order]; exact nodup, fun i => ?_⟩
  have same := congrArg Option.isSome (h.mark i)
  rw [Option.isSome_map, Option.isSome_map] at same
  rw [h.order, same]; exact iff i

/-- Statuses and targets as before. -/
theorem Still.targets (h : Still s t) (present : TargetsPresent s) : TargetsPresent t := by
  obtain ⟨held, own⟩ := present
  refine ⟨fun i e he => ?_, fun p => by rw [h.status, h.own]; exact own p⟩
  obtain ⟨f, hf, same⟩ := h.was he
  have target : f.target = e.target := congrArg (·.1.2.2) same
  rw [h.status, ← target]; exact held i f hf

theorem TableHolds.still (h : TableHolds counts ages present s) (k : Still s t) : TableHolds counts ages present t :=
  ⟨k.listed h.listed, fun x => (k.exact ⟨h.listed, h.counts x⟩).2, fun x => k.fewer.ages (h.ages x), fun x => k.targets (h.present x)⟩

/-! ## Entries freed, taken, and made orphans -/

theorem freeEntry_listed (listed : OrderListsHeld s) (i : Slot) (e : Entry) : OrderListsHeld (freeEntry i e s) := by
  obtain ⟨nodup, iff⟩ := listed
  have rt := (freeEntry_parts (s := s) i e).1
  have order : (freeEntry i e s).rt.order = s.rt.order.erase i := by rw [rt]; rfl
  refine ⟨by rw [order]; exact nodup.erase i, fun j => ?_⟩
  rw [order, freeEntry_entry, nodup.mem_erase_iff, iff]
  by_cases x : j = i <;> simp [x]

theorem freeEntry_status (i : Slot) (e : Entry) (p : Station) : ((freeEntry i e s).peer p).status = (s.peer p).status := by
  have parts : (freeEntry i e s).peers = (modTx e.target (fun t => { t with held := t.held - 1 }) s).peers := by
    simp only [freeEntry]; split <;> split <;> rfl
  rw [peer_of_peers parts, modTx_status]

theorem TableHolds.free {i : Slot} {e : Entry} (h : TableHolds counts ages present s) (he : s.entry i = some e) :
    TableHolds counts ages present (freeEntry i e s) := by
  refine ⟨freeEntry_listed h.listed i e, fun x => (freeEntry_table ⟨h.listed, h.counts x⟩ he).2,
    fun x => (freeEntry_fewer i e).ages (h.ages x), fun x => ?_⟩
  obtain ⟨held, own⟩ := h.present x
  refine ⟨fun j f hf => ?_, fun p => ?_⟩
  · rw [freeEntry_entry] at hf
    split at hf
    · cases hf
    · rw [freeEntry_status]; exact held j f hf
  · rw [freeEntry_status, (freeEntry_only s i e).inner.2.2.1]; exact own p

theorem TableHolds.fail {i : Slot} {e : Entry} (c : FaultCode) (h : TableHolds counts ages present s) (he : s.entry i = some e) :
    TableHolds counts ages present (failEntry c i e s) := by
  simp only [failEntry]; split
  · exact h.free he
  · exact (h.free he).still (failSegment_still _ _)

theorem TableHolds.failAll (p : Station) (c : FaultCode) (h : TableHolds counts ages present s) :
    TableHolds counts ages present (failAll p c s) :=
  failAll_ind (TableHolds counts ages present) p c h.listed h fun _ _ k => k.fail c

theorem orphaned_keeps (e : Entry) : (orphaned ch e).target = e.target ∧ (orphaned ch e).sequence = e.sequence := by
  unfold orphaned; split <;> exact ⟨rfl, rfl⟩

theorem orphanEntries_entry (i : Slot) : (orphanEntries ch s).entry i = (s.entry i).map (orphaned ch) := by
  simp only [orphanEntries, State.entry, modChannel_rt, Vector.get_map]

theorem TableHolds.orphan (h : TableHolds counts ages present s) : TableHolds counts ages present (orphanEntries ch s) := by
  have was {i : Slot} {e : Entry} (he : (orphanEntries ch s).entry i = some e) :
      ∃ f, s.entry i = some f ∧ f.target = e.target ∧ f.sequence = e.sequence := by
    rw [orphanEntries_entry, Option.map_eq_some_iff] at he
    obtain ⟨f, hf, rfl⟩ := he
    obtain ⟨target, sequence⟩ := orphaned_keeps (ch := ch) f
    exact ⟨f, hf, target.symm, sequence.symm⟩
  have fewer : Fewer s (orphanEntries ch s) := ⟨fun _ _ => was, List.Sublist.refl _, fun _ _ _ => rfl, .inl rfl⟩
  refine ⟨⟨h.listed.1, fun i => ?_⟩, fun x => (orphanEntries_table ch ⟨h.listed, h.counts x⟩).2, fun x => fewer.ages (h.ages x),
    fun x => ⟨fun i e he => ?_, (h.present x).2⟩⟩
  · rw [orphanEntries_entry, Option.isSome_map]; exact h.listed.2 i
  · obtain ⟨f, hf, target, -⟩ := was he
    have := (h.present x).1 i f hf
    rwa [target] at this

/-- An entry taken is the one held for its target besides those before, and the last in the order. -/
theorem takeEntry_listed (d : Descriptor) (k : RequestKind) (p : Station) (seg : Segment) (b : List Byte)
    (h : TableHolds counts ages present s) (status : (s.peer p).status = .present) :
    OrderListsHeld (takeEntry ch d k p seg b s) ∧ (present → TargetsPresent (takeEntry ch d k p seg b s)) := by
  unfold takeEntry; split
  · exact ⟨h.listed, h.present⟩
  · rename_i i hi
    simp only []
    generalize he : Entry.mk ch false k p _ _ _ _ _ _ _ _ _ _ = e
    have target : e.target = p := by rw [← he]
    generalize taken : modChannel ch _ (modTx p _ (setOrder _ (setEntry i (some e) s))) = w
    have entry (j : Slot) : w.entry j = if j = i then some e else s.entry j := by rw [← taken]; exact entry_setEntry s i j _
    have order : w.rt.order = s.rt.order ++ [i] := by rw [← taken]; rfl
    have statuses (q : Station) : (w.peer q).status = (s.peer q).status := by
      rw [← taken]
      exact modTx_status (s := s) p (fun t => { t with nextSeq := t.nextSeq + 1, held := t.held + 1, syncNeeded := false }) q
    have own : w.own = s.own := by rw [← taken]; rfl
    have rest : Still w (passSegment ch d (placeRequest i e b w)) := (Still.line _).trans (passSegment_still d)
    obtain ⟨nodup, iff⟩ := h.listed
    have free : i ∉ s.rt.order := fun m => by have := (iff i).1 m; rw [lowestFree_none hi] at this; cases this
    refine ⟨rest.listed ⟨?_, fun j => ?_⟩, fun x => rest.targets ⟨fun j f hf => ?_, fun q => ?_⟩⟩
    · rw [order]; exact List.nodup_append.2 ⟨nodup, List.nodup_singleton i, fun a m b n e => by simp at n; exact free (n ▸ e ▸ m)⟩
    · rw [order, entry, List.mem_append, iff, List.mem_singleton]
      by_cases x : j = i <;> simp [x]
    · rw [entry] at hf; rw [statuses]; split at hf
      · cases hf; rw [target]; exact status
      · exact (h.present x).1 j f hf
    · rw [statuses, own]; exact (h.present x).2 q

/-- No entry of a target has age 4: it may get one more (R66). -/
def NoneOldest (p : Station) (s : State) : Prop := ∀ i e, s.entry i = some e → e.target = p → age s e ≠ 4

theorem TableHolds.take (d : Descriptor) (k : RequestKind) {p : Station} (seg : Segment) (b : List Byte)
    (h : TableHolds counts ages present s) (status : (s.peer p).status = .present) (free : s.ce.turn = none)
    (young : ages → NoneOldest p s) : TableHolds counts ages present (takeEntry ch d k p seg b s) := by
  obtain ⟨listed, targets⟩ := takeEntry_listed (ch := ch) d k p seg b h status
  exact ⟨listed, fun x => (takeEntry_table d k p seg b ⟨h.listed, h.counts x⟩).2,
    fun x => takeEntry_ages d k p seg b h.listed (h.ages x) free (young x), targets⟩

/-! ## Stations found and lost -/

/-- The status of a station other than the own changes, and is then PRESENT or no entry is held for it. -/
theorem TableHolds.status {p : Station} {v : PeerStatus} (h : TableHolds counts ages present s)
    (other : present → p.val ≠ s.own.toNat) (self : v ≠ .self)
    (held : present → v = .present ∨ ∀ i e, s.entry i = some e → e.target ≠ p) : TableHolds counts ages present (setStatus p v s) := by
  have status (q : Station) : ((setStatus p v s).peer q).status = if q = p then v else (s.peer q).status := by
    rw [peer_setStatus]; split <;> rfl
  have same : TableExact s → TableExact (setStatus p v s) := fun k => k.same rfl (.ce rfl) fun q => by rw [setStatus_tx]
  have fewer : Fewer s (setStatus p v s) := .of rfl (fun q => by rw [setStatus_tx]) (.inl rfl)
  refine ⟨h.listed, fun x => (same ⟨h.listed, h.counts x⟩).2, fun x => fewer.ages (h.ages x), fun x => ⟨fun i e he => ?_, fun q => ?_⟩⟩
  · rw [status]; split
    · rename_i target; exact (held x).resolve_right fun none => none i e he target
    · exact (h.present x).1 i e he
  · rw [status]; split
    · rename_i q_eq; subst q_eq
      exact ⟨fun e => absurd e self, fun e => absurd e (other x)⟩
    · exact (h.present x).2 q

/-- A held entry's target is not the own station, whose status is SELF. -/
theorem TargetsPresent.other (h : TargetsPresent s) {i : Slot} {e : Entry} (he : s.entry i = some e) : e.target.val ≠ s.own.toNat := by
  intro own
  have self := (h.2 e.target).2 own
  rw [h.1 i e he] at self; cases self

theorem flagPeer_still (p : Station) : Still s (flagPeer p s) := .outside rfl rfl rfl rfl

theorem failAll_own (p : Station) (c : FaultCode) : (Machine.failAll p c s).own = s.own := (failAll_only s p c).inner.2.2.1

/-- A target with a held entry is declared UNREACHABLE: then none is held for it (R85). -/
theorem TableHolds.unreachable {i : Slot} {e : Entry} (h : TableHolds counts ages present s) (he : s.entry i = some e) :
    TableHolds counts ages present (declareUnreachable e.target s) := by
  have failed := h.failAll e.target .peerUnreachable
  refine TableHolds.still (TableHolds.status (v := .unreachable) ((failed.still (stopBackoff_still _)).still (needSync_still _))
    (p := e.target) (fun x => ?_) nofun fun _ => .inr fun j f hf => ?_) (flagPeer_still e.target)
  · show _ ≠ (Machine.failAll e.target .peerUnreachable s).own.toNat
    rw [failAll_own]; exact (h.present x).other he
  · exact failAll_gone _ _ h.listed j f hf

theorem TableHolds.hear (p : Station) (h : TableHolds counts ages present s) : TableHolds counts ages present (hearFrom p s) := by
  unfold hearFrom; split
  · rename_i lost
    refine TableHolds.still (TableHolds.still (h.status (p := p) (v := .present) (fun x own => ?_) nofun fun _ => .inl rfl) (needSync_still p)) (flagPeer_still p)
    have self := ((h.present x).2 p).2 own
    rw [lost] at self; cases self
  · exact h

/-- The transmit part of a station is reset once no entry is held for it (R87). -/
theorem TableHolds.reset (p : Station) (c : FaultCode) (h : TableHolds counts ages present s) :
    TableHolds counts ages present (resetTransmit p c s) := by
  have failed := h.failAll p c
  have gone (i : Slot) (e : Entry) : (resetTransmit p c s).entry i = some e → e.target ≠ p := failAll_gone p c h.listed i e
  have status (q : Station) : ((resetTransmit p c s).peer q).status = ((Machine.failAll p c s).peer q).status :=
    modTx_status (s := Machine.failAll p c s) p _ q
  refine ⟨failed.listed, fun x => ⟨(failed.counts x).1, fun q => ?_⟩, fun x => (resetTransmit_fewer p c h.listed).ages (h.ages x),
    fun x => ⟨fun i e he => ?_, fun q => ?_⟩⟩
  · show ((modTx p _ (Machine.failAll p c s)).peer q).tx.held = _
    rw [peer_modTx]; split
    · rename_i same; subst same
      symm
      refine List.countP_eq_zero.2 fun i _ held => ?_
      obtain ⟨e, he, target⟩ := (Option.any_eq_true _ _).1 held
      exact gone i e he (by simpa using target)
    · exact (failed.counts x).2 q
  · rw [status]; exact (failed.present x).1 i e he
  · rw [status]; exact (failed.present x).2 q

end

end Sys2Proof.Machine
end

section
/-! The order of taking, the counts, the ages and the statuses of targets through every command. -/

namespace Sys2Proof.Machine

section
variable {s t : State} {ch : ChannelNo} {counts ages present : Prop}

/-! ## Turns -/

theorem mem_entriesFor_of (listed : OrderListsHeld s) {i : Slot} {e : Entry} (he : s.entry i = some e) :
    (i, e) ∈ entriesFor s e.target := by
  refine List.mem_filter.2 ⟨List.mem_filterMap.2 ⟨i, (listed.2 i).2 (by rw [he]; rfl), by rw [he]; rfl⟩, by simp⟩

/-- A target open for new frames has no entry of age 4 (R66). -/
theorem targetOpen_young {p : Station} (listed : OrderListsHeld s) (isOpen : targetOpen s p = true) : NoneOldest p s := by
  intro i e he target
  subst target
  have every := (Bool.and_eq_true _ _ ▸ isOpen).2
  have this := List.all_eq_true.1 every _ (mem_entriesFor_of listed he)
  simp only [Bool.and_eq_true, decide_eq_true_eq] at this
  exact this.2

theorem eligible_open {d : Descriptor} {p : Station} (h : eligible s ch = true) (hd : (s.channel ch).descriptor = some d)
    (hp : stationOf d.target = some p) : targetOpen s p = true := by
  simp only [eligible, hd, hp, Bool.and_eq_true] at h
  exact h.2

/-- A turn in progress of a channel is for a target with no entry of age 4. -/
def TurnYoung (s : State) : Turn → Prop
  | .channel _ p => NoneOldest p s
  | .resend _ => True

theorem TableHolds.begin {x : Turn} (h : TableHolds counts ages present s) (young : ages → TurnYoung s x) :
    TableHolds counts ages present (setTurn (some x) s) := by
  refine ⟨h.listed, h.counts, fun a => ?_, h.present⟩
  obtain ⟨window, apart, -, order⟩ := h.ages a
  refine ⟨window, apart, fun c p this => ?_, order⟩
  obtain rfl := Option.some.inj this
  exact young a

theorem TableHolds.finishChannel (p : Station) (b : List Byte) (h : TableHolds counts ages present s) (young : ages → NoneOldest p s) :
    TableHolds counts ages present (finishChannelTurn ch p b s) := by
  have ended := h.still (.noTurn (s := s))
  simp only [finishChannelTurn]; split
  · exact ended
  · split
    · exact ended
    · split
      · rename_i status; exact ended.take _ _ _ _ status rfl young
      · exact ended.still (failInTurn_still _)

theorem placeRequest_still (i : Slot) (e : Entry) (b : List Byte) : Still s (placeRequest i e b s) := .line _

theorem finishResend_still (i : Slot) (b : List Byte) : Still s (finishResend i b s) := by
  simp only [finishResend]; split
  · exact .noTurn
  · rename_i e he
    refine Still.trans ?_ (placeRequest_still _ _ _)
    refine Still.trans ?_ (modTx_still rfl rfl)
    exact Still.noTurn.trans (.setEntry he rfl)

theorem TableHolds.failResend (i : Slot) (h : TableHolds counts ages present s) : TableHolds counts ages present (failResend i s) := by
  simp only [Machine.failResend]; split
  · exact h.still .noTurn
  · rename_i e he
    exact ((h.still (.noTurn (s := s))).fail _ he).still (needSync_still _)

theorem TableHolds.finishTurn {x : Turn} (b : List Byte) (h : TableHolds counts ages present s) (young : ages → TurnYoung s x) :
    TableHolds counts ages present (finishTurn x b s) := by
  cases x with
  | channel ch p => exact h.finishChannel p b young
  | resend i => exact h.still (finishResend_still i b)

theorem TableHolds.failTurn {x : Turn} (h : TableHolds counts ages present s) : TableHolds counts ages present (failTurn x s) := by
  cases x with
  | channel ch p => exact (h.still (.noTurn (s := s))).still (failInTurn_still _)
  | resend i => exact h.failResend i

theorem TableHolds.beginTurn {x : Turn} (a n : Nat) (h : TableHolds counts ages present s) (young : ages → TurnYoung s x) :
    TableHolds counts ages present (beginTurn x a n s) := by
  simp only [Machine.beginTurn]; split
  · exact h.finishTurn [] young
  · exact (h.begin young).still (askCe_still _ _)

/-- A turn is begun for a resend, or for a channel whose target is open (R45, R46). -/
theorem TableHolds.takeTurn (h : TableHolds counts ages present s) : TableHolds counts ages present (takeTurn s) := by
  unfold Machine.takeTurn; split
  · exact h
  · split
    · exact h.beginTurn _ _ fun _ => trivial
    · split
      · rename_i ch chosen
        simp only [beginChannelTurn]; split
        · exact h
        · rename_i d hd
          split
          · rename_i p k hp _
            have young : NoneOldest p s := targetOpen_young h.listed (eligible_open (chooseChannel_eligible chosen) hd hp)
            exact TableHolds.beginTurn _ _ (h.still (.of rfl rfl rfl (.ce rfl) (.inl rfl))) fun _ => young
          · exact h
      · exact h

/-! ## Accesses -/

theorem TableHolds.payloadWord (r : RangeRead) (o : StoreOutcome) (h : TableHolds counts ages present s) :
    TableHolds counts ages present (payloadWord r o s) := by
  simp only [Machine.payloadWord]; split
  · exact h
  · rename_i x turn
    have young (a : ages) : TurnYoung s x := by
      cases x with
      | channel ch p => exact (h.ages a).2.2.1 ch p turn
      | resend i => trivial
    split
    · exact h.failTurn
    · split
      · exact h.finishTurn _ young
      · exact h.still (askCe_still _ _)

theorem fetchWord_still (a : Addr) (got : List Byte) (o : StoreOutcome) : Still s (fetchWord ch a got o s) := by
  have kept (b : List Byte) : Still s (keepDescriptor ch a b s) := by
    simp only [keepDescriptor]; split
    · exact (modChannel_still rfl).trans (startAwait_still _)
    · exact modChannel_still rfl
  simp only [fetchWord]; split
  · exact failFetch_still _ _
  · split
    · exact askCe_still _ _
    · simp only [fetched]; split
      · exact failFetch_still _ _
      · exact kept _

theorem getWord_still (r : RangeWrite) (off : Nat) (o : StoreOutcome) : Still s (getWord ch r off o s) := by
  simp only [getWord]; split
  · exact askCe_still _ _
  · split
    · exact failSegment_still _ _
    · exact segmentDone_still

theorem valueWord_still (r : RangeWrite) (o : StoreOutcome) : Still s (valueWord ch r o s) := by
  simp only [valueWord]; split
  · exact askCe_still _ _
  · split
    · exact failSegment_still _ _
    · exact startCompletion_still

theorem advanceEnded_still {next : Descriptor → State → State} (o : StoreOutcome) (goes : ∀ d, Still s (next d s)) :
    Still s (advanceEnded ch o next s) := by
  unfold advanceEnded; split
  · exact .refl s
  · split
    · exact askCe_still _ _
    · exact goes _

theorem reportFault_still (r : FaultRecord) : Still s (reportFault ch r s) :=
  .chain (reportFault_only s ch r) (reportFault_sameOut r) (reportFault_turnLess r)

theorem TableHolds.actCe (w : CeWork) (o : StoreOutcome) (h : TableHolds counts ages present s) :
    TableHolds counts ages present (actCe w o s) := by
  cases w with
  | fetch ch a got => exact h.still (fetchWord_still a got o)
  | payload r => exact h.payloadWord r o
  | getWrite ch r off => exact h.still (getWord_still r off o)
  | resultWrite ch =>
    simp only [Machine.actCe]; split
    · exact h.still (failSegment_still _ _)
    · exact h.still segmentDone_still
  | valueWrite ch r => exact h.still (valueWord_still r o)
  | advanceLocal ch =>
    exact h.still (advanceEnded_still o fun d =>
      .chain (advanceRemote_only s ch d) (advanceRemote_sameOut d) (advanceRemote_turnLess d))
  | advanceRemote ch => exact h.still (advanceEnded_still o fun d => askCe_still _ _)
  | doneStatus ch =>
    simp only [Machine.actCe]; split
    · exact h.still (reportFault_still _)
    · exact h.still (.chain (finishDescriptor_only s ch) finishDescriptor_sameOut finishDescriptor_turnLess)
  | faultStatus ch r => exact h.still (reportFault_still r)
  | dropped => exact h

theorem answer_still (f : Frame) (a : Answer) : Still s (answer f a s) := .line _

theorem conclude_still (p : Station) (f : Frame) (o : CacheOutcome) (a : Answer) : Still s (conclude p f o a s) :=
  Still.trans (t := fillOutcome p o s) (modRx_still _ _) (answer_still f a)

theorem endExecution_still (x : Execution) (o : CacheOutcome) (a : Answer) : Still s (endExecution x o a s) := by
  have ended : Still s (modService (fun u => { u with execution := none }) s) := .outside rfl rfl rfl rfl
  simp only [endExecution]; split
  · exact ended.trans (answer_still _ _)
  · exact ended.trans (conclude_still _ _ _ _)

theorem actSu_still (w : SuWork) (o : StoreOutcome) : Still s (actSu w o s) := by
  have asks (a : Access) (w : SuWork) : Still s (askSu a w s) := .outside rfl rfl rfl rfl
  unfold actSu; split
  · exact .refl s
  · cases w with
    | write r =>
      simp only [remoteWrite]; split
      · exact asks _ _
      · split <;> exact endExecution_still _ _ _
    | read r =>
      simp only [remoteRead]; split
      · exact endExecution_still _ _ _
      · split
        · exact endExecution_still _ _ _
        · exact asks _ _
    | swap => simp only [remoteSwap]; split <;> exact endExecution_still _ _ _

theorem TableHolds.endAccess (h : TableHolds counts ages present s) : TableHolds counts ages present (endAccess s) := by
  have made (a : Access) (arb : Arbiter) : TableHolds counts ages present (madeAccess a arb s) := h.still (.outside rfl rfl rfl rfl)
  rcases endAccess_cases s with ⟨-, e⟩ | ⟨a, w, rest, -, -, e⟩ | ⟨a, w, rest, -, -, e⟩ | ⟨a, w, rest, -, -, e⟩ <;> rw [e]
  · exact h
  · exact (made a _).still (.port (actHp_port w _))
  · exact (made a _).actCe w _
  · exact (made a _).still (actSu_still w _)

/-! ## Replies and deadlines -/

theorem TableHolds.actOnNak {i : Slot} {e : Entry} (c : NakCode) (h : TableHolds counts ages present s) (he : s.entry i = some e) :
    TableHolds counts ages present (actOnNak i e c s) := by
  have rewinds (charged : Bool) : Still s (setEntry i (some { e with state := .rewind charged }) s) := .setEntry he rfl
  unfold Machine.actOnNak; split
  · exact h.fail _ he
  · exact h.fail _ he
  · exact h.fail _ he
  · exact (((h.failAll _ _).still (stopBackoff_still _)).still (needSync_still _)).still askPresence_still
  · unfold nakSequence; split
    · exact h.still (rewinds _)
    · split
      · exact (h.still (rewinds _)).still (needSync_still _)
      · exact h.unreachable he
  · unfold nakBusy; split
    · exact (h.still (rewinds _)).still (modTx_still rfl rfl)
    · exact (h.fail _ he).still (needSync_still _)
  · exact h
  · exact h

theorem TableHolds.actOnReply {i : Slot} {e : Entry} (f : Frame) (h : TableHolds counts ages present s) (he : s.entry i = some e) :
    TableHolds counts ages present (actOnReply i e f s) := by
  have freed := h.free he
  have draws (b : List Byte) (n : Nat) : Still (freeEntry i e s) (drawFree b n (freeEntry i e s)) := .outside rfl rfl rfl rfl
  have acked : TableHolds counts ages present (succeedAck i e s) := by
    simp only [succeedAck]; split
    · exact freed
    · exact freed.still segmentDone_still
  unfold Machine.actOnReply; split
  · exact acked
  · exact acked
  · split
    · simp only [succeedRead]; split
      · exact freed
      · exact freed.still ((draws _ _).trans (askCe_still _ _))
    · exact h
  · split
    · simp only [succeedSwap]; split
      · exact freed
      · exact freed.still (((draws _ _).trans (modChannel_still rfl)).trans (askCe_still _ _))
    · exact h
  · split
    · exact h.actOnNak _ he
    · exact h
  · exact h

theorem matchEntry_held {p : Station} {q : Byte} {x : Slot × Entry} (h : matchEntry s p q = some x) : s.entry x.1 = some x.2 :=
  (mem_entriesFor (List.mem_of_find?_eq_some h)).1

theorem TableHolds.takeReply (h : TableHolds counts ages present s) : TableHolds counts ages present (takeReply s) := by
  simp only [Machine.takeReply]; split
  · exact h
  · have taken (rest : List Frame) := h.still (.line (s := s) fun sl => { sl with inReplies := rest })
    split
    · exact taken _
    · rename_i p _
      split
      · exact (taken _).hear p
      · rename_i x hx
        exact ((taken _).hear p).actOnReply _ (matchEntry_held hx)

theorem rewound_mark (p : Station) (e : Entry) : (rewound p e).mark = e.mark := by unfold rewound; split <;> rfl

theorem TableHolds.passDeadline (i : Slot) (h : TableHolds counts ages present s) : TableHolds counts ages present (passDeadline i s) := by
  have later (n : Nat) : Still s { s with now := n } := .outside rfl rfl rfl rfl
  unfold Machine.passDeadline; split
  · exact h
  · rename_i e he
    split
    · simp only []; split
      · exact (h.still (later _)).unreachable he
      · exact (h.still (later _)).still (.mapEntries (rewound_mark e.target))
    · exact h

theorem endBackoff_still (p : Station) : Still s (endBackoff p s) := by
  unfold endBackoff; split
  · exact .refl s
  · refine Still.trans ?_ (stopBackoff_still p)
    exact .outside rfl rfl rfl rfl

/-! ## Requests -/

theorem beginRequest_still (p : Station) (k : RequestKind) (f : Frame) : Still s (beginRequest p k f s) := by
  cases k with
  | notice => exact (settleNotice_still _ _).trans (conclude_still _ _ _ _)
  | _ => exact .outside rfl rfl rfl rfl

theorem shutSingleUse_still (w : WindowNo) (k : RequestKind) (f : Frame) : Still s (shutSingleUse w k f s) := by
  unfold shutSingleUse; split
  · exact .outside rfl rfl rfl rfl
  · exact .refl s

theorem classify_still (p : Station) (k : RequestKind) (f : Frame) : Still s (classify p k f s) := by
  have answers (a : Answer) : Still s (answer f a s) := .line _
  unfold classify; split
  · unfold answerDuplicate; split
    · exact .refl s
    · split
      · exact answers _
      · split
        · exact .outside rfl rfl rfl rfl
        · exact answers _
  · split
    · split
      · exact answers _
      · have accepted : Still s (modRx p (acceptInto k f) s) := modRx_still _ _
        simp only [acceptRequest]; split
        · exact accepted.trans (conclude_still _ _ _ _)
        · split
          · exact accepted.trans (beginRequest_still _ _ _)
          · split
            · exact accepted.trans (conclude_still _ _ _ _)
            · exact (accepted.trans (shutSingleUse_still _ _ _)).trans (beginRequest_still _ _ _)
    · exact answers _

theorem TableHolds.takeRequest (h : TableHolds counts ages present s) : TableHolds counts ages present (takeRequest s) := by
  simp only [Machine.takeRequest]; split
  · exact h
  · split
    · exact h
    · have taken (rest : List Frame) := h.still (.line (s := s) fun sl => { sl with inRequests := rest })
      split
      · exact taken _
      · split
        · unfold serve; split
          · exact ((taken _).still (.line _)).still askPresence_still
          · exact ((taken _).hear _).still (classify_still _ _ _)
        · exact taken _

/-! ## Frames -/

theorem TableHolds.note {p : Station} {v : PeerStatus} (always : Bool) (h : TableHolds counts ages present s)
    (other : present → p.val ≠ s.own.toNat) (self : v ≠ .self)
    (held : present → v = .present ∨ ∀ i e, s.entry i = some e → e.target ≠ p) :
    TableHolds counts ages present (noteStatus p v always s) := by
  simp only [noteStatus]; split
  · exact (h.status other self held).still (flagPeer_still p)
  · exact h.status other self held

/-- A presence frame of another station. In CONFIG a LEAVING frame finds no entry held; later it frees those of its sender first. -/
theorem TableHolds.takePresence {p : Station} (f : Frame) (h : TableHolds counts ages present s) (other : present → p.val ≠ s.own.toNat)
    (quiet : present → s.hp.phase = .config → ∀ i, s.entry i = none) : TableHolds counts ages present (takePresence p f s) := by
  have labelled : TableHolds counts ages present (storeLabel p f.payload s) := h.still (.setPeer rfl rfl rfl)
  have reset (c : FaultCode) : TableHolds counts ages present (resetReceive p (resetTransmit p c (storeLabel p f.payload s))) :=
    (labelled.reset p c).still (modRx_still _ _)
  have own (c : FaultCode) : (resetReceive p (resetTransmit p c (storeLabel p f.payload s))).own = s.own :=
    failAll_own (s := storeLabel p f.payload s) p c
  have gone (c : FaultCode) (i : Slot) (e : Entry) :
      (resetReceive p (resetTransmit p c (storeLabel p f.payload s))).entry i = some e → e.target ≠ p :=
    failAll_gone p c labelled.listed i e
  simp only [Machine.takePresence]; split
  · rename_i config
    refine labelled.note _ other (by split <;> decide) fun x => .inr fun i e he => ?_
    have : s.entry i = some e := he
    rw [quiet x config i] at this; cases this
  · split
    · refine TableHolds.still ?_ askPresence_still
      exact (reset _).note _ (fun x => by rw [own]; exact other x) nofun fun _ => .inl rfl
    · split
      · exact (reset _).note _ (fun x => by rw [own]; exact other x) nofun fun _ => .inr (gone _)
      · unfold unmarkedFrom; split
        · exact (labelled.still (needSync_still p)).note _ other nofun fun _ => .inl rfl
        · exact labelled

/-- A frame received as good carries its sender's number. -/
theorem receiveBytes_sender {b : List Byte} {p : Station} {f : Frame} (h : receiveBytes b = .good p f) : f.sender.toNat = p.val := by
  simp only [receiveBytes] at h
  split at h
  · cases h
  · split at h
    · cases h
    · rename_i q hq
      split at h
      · cases h
      · rename_i g hg
        obtain ⟨rfl, rfl⟩ := Received.good.inj h
        obtain ⟨_, -, rfl⟩ := Option.map_eq_some_iff.1 hg
        unfold stationOf at hq
        split at hq
        · rw [← Option.some.inj hq]
          simp [byteAt]
        · cases hq

/-- A frame that passes the filters is another station's. -/
theorem passesFilters_other {f : Frame} {p : Station} (h : passesFilters s f = true) (sender : f.sender.toNat = p.val) :
    p.val ≠ s.own.toNat := by
  intro own
  simp only [passesFilters, Bool.and_eq_true, decide_eq_true_eq] at h
  refine h.1.1 (BitVec.eq_of_toNat_eq ?_)
  rw [sender, own, ownByte, BitVec.toNat_setWidth]
  omega

theorem TableHolds.takeFrame (b : List Byte) (h : TableHolds counts ages present s)
    (quiet : present → s.hp.phase = .config → ∀ i, s.entry i = none) : TableHolds counts ages present (takeFrame b s) := by
  have line (f : LineUnit → LineUnit) : TableHolds counts ages present (modLine f s) := h.still (.line f)
  simp only [Machine.takeFrame]; split
  · exact h
  · split
    · exact line _
    · split
      · exact line _
      · exact (line _).still (.line _)
      · rename_i p f good
        have turned := (line fun sl => { sl with window := none }).still (.line fun sl => { sl with rotor := rotorAfter p })
        split
        · rename_i passes
          unfold routeFrame; split
          · exact turned.takePresence f (fun _ => passesFilters_other passes (receiveBytes_sender good)) quiet
          · split
            · exact turned.still (.line _)
            · exact turned
          · split
            · exact turned.still (.line _)
            · exact turned
        · exact turned

theorem openWindow_still : Still s (openWindow s) := by
  unfold openWindow; split
  · exact .refl s
  · exact .line _

theorem endWindow_still : Still s (endWindow s) := by
  unfold endWindow; split
  · exact .refl s
  · split <;> exact .line _

theorem passSlot_still (n : Fin 62) (part : SlotPart) : Still s (passSlot n part s) := by
  have begins (u : State) : Still u (beginSlot n u) := by
    unfold beginSlot; split
    · split
      · exact .line _
      · exact .refl u
    · exact .refl u
  have ends (others : List (BitVec 5)) (u : State) : Still u (endSlot n others u) := by
    unfold endSlot; split
    · split
      · exact .refl u
      · split <;> exact .line _
    · exact .refl u
  cases part with
  | begins => exact begins s
  | ends others => exact ends others s
  | whole others => exact (begins s).trans (ends others _)

theorem endTransmission_still : Still s (endTransmission s) := by
  unfold endTransmission; split
  · rename_i c _
    refine Still.trans (.line (afterSending s.own c)) ?_
    generalize modLine (afterSending s.own c) s = u
    cases c with
    | reply => exact .refl u
    | presence =>
      simp only [reportFrame]; split
      · unfold reportPresence; split
        · exact .outside rfl rfl rfl rfl
        · split
          · exact .outside rfl rfl rfl rfl
          · exact .refl u
      · exact .refl u
    | request =>
      simp only [reportFrame]; split
      · split
        · exact .refl u
        · unfold reportSent; split
          · exact .refl u
          · rename_i e he
            split
            · exact .setEntry he rfl
            · exact .refl u
      · exact .refl u
  · exact .refl s

/-! ## The host port -/

theorem releaseSelect_still (bits : Fin 8) : Still s (releaseSelect bits s) := by
  have idle (u : State) : Still u (toIdle u) := .outside rfl rfl rfl rfl
  have pins (p : Pins) : Still s { s with pins := p } := .outside rfl rfl rfl rfl
  have stream (r : ReadStream) (u : State) : Still u (endReadStream bits r u) := by
    simp only [endReadStream]; split <;> exact .outside rfl rfl rfl rfl
  have settles (u : State) : Still u (endTransaction bits u) := by
    unfold endTransaction; split
    · unfold undoTake; split
      · exact settleNotice_still _ _
      · exact .outside rfl rfl rfl rfl
      · exact .refl u
    · exact stream _ u
    · unfold endWriteStream; split
      · exact .refl u
      · split <;> exact .outside rfl rfl rfl rfl
    · exact .refl u
  simp only [releaseSelect]; split
  · exact .refl s
  · split
    · exact pins _
    · exact ((pins _).trans (settles _)).trans (idle _)

theorem completeTransaction_still : Still s (completeTransaction s) := by
  unfold completeTransaction; split
  · rename_i record _ _
    have done : Still s (carryOut (shiftOut record s)) := .outside rfl rfl rfl rfl
    simp only []; split
    · refine done.trans (Still.trans ?_ postHeld_still)
      exact .outside rfl rfl rfl rfl
    · exact done
  · exact .refl s

theorem decideSubmit_still (o : SubmitOps) : Still s (decideSubmit o s) := by
  unfold decideSubmit; split
  · exact .port (refuse_port _)
  · split
    · split
      · exact .port (refuse_port _)
      · split
        · exact .port (refuse_port _)
        · refine Still.trans ?_ startFetch_still
          refine Still.trans (.port carryOut_port) (modChannel_still rfl)
    · exact .port (refuse_port _)

theorem restart_still (k : ChainClass) : Still s (restart ch k s) := by
  refine Still.trans ?_ startFetch_still
  exact Still.trans (.port carryOut_port) (modChannel_still rfl)

theorem decideResume_still (o : ResumeOps) : Still s (decideResume o s) := by
  unfold decideResume; split
  · exact .port (refuse_port _)
  · split
    · split
      · exact restart_still _
      · exact restart_still _
      · exact .port (refuse_port _)
    · exact .port (refuse_port _)

theorem TableHolds.abort (h : TableHolds counts ages present s) : TableHolds counts ages present (abortRunning ch s) := by
  have gives : Still (orphanEntries ch s) (giveUpTurn ch (orphanEntries ch s)) :=
    .chain (giveUpTurn_only _ ch) giveUpTurn_sameOut giveUpTurn_turnLess
  have given := h.orphan.still gives
  have aborted (u : State) : Still u (modChannel ch Channel.aborted
      (setHeld ((dropCe (fun w => decide (w.owner = some ch)) u).ce.held.erase ch)
        (withdrawWaiter ch (dropCe (fun w => decide (w.owner = some ch)) u)))) := by
    refine Still.trans ?_ (modChannel_still rfl)
    exact .of rfl rfl rfl (.ce rfl) (.inl rfl)
  have posts (u : State) : Still u (postAborted ch u) := by
    unfold postAborted; split
    · exact .outside rfl rfl rfl rfl
    · exact .refl u
  exact (given.still (aborted _)).still (posts _)

theorem TableHolds.decideAbort (b : Byte) (h : TableHolds counts ages present s) : TableHolds counts ages present (decideAbort b s) := by
  have carried := h.still (.port carryOut_port)
  unfold Machine.decideAbort; split
  · exact h.still (.port (refuse_port _))
  · split
    · exact h.still (.port (refuse_port _))
    · split
      · exact h.still (.port (refuse_port _))
      · exact carried.still (modChannel_still rfl)
      · exact carried.abort

theorem withOperands_still {α : Type} {c : HostCode} {x : Taken α} {f : α → State → State} (decides : ∀ a u, Still u (f a u)) :
    Still s (withOperands c x f s) := by
  rcases withOperands_or (s := s) c x f with e | ⟨-, b, n, e⟩ | ⟨a, b, -, e⟩ <;> rw [e]
  · exact .refl s
  · exact .outside rfl rfl rfl rfl
  · exact (Still.port (shiftOut_port b)).trans (decides a _)

theorem TableHolds.operands {c : HostCode} {x : Taken Byte} {f : Byte → State → State} (h : TableHolds counts ages present s)
    (decides : ∀ a u, TableHolds counts ages present u → TableHolds counts ages present (f a u)) :
    TableHolds counts ages present (withOperands c x f s) := by
  rcases withOperands_or (s := s) c x f with e | ⟨-, b, n, e⟩ | ⟨a, b, -, e⟩ <;> rw [e]
  · exact h
  · exact h.still (.outside rfl rfl rfl rfl)
  · exact decides a _ (h.still (.port (shiftOut_port b)))

theorem atCommand_still {f : State → State} (decides : ∀ u, Still u (f u)) : Still s (atCommand f s) := by
  rcases atCommand_or (s := s) f with e | ⟨-, e⟩ <;> rw [e]
  · exact .refl s
  · exact (Still.port (shiftOut_port _)).trans (decides _)

theorem decideSeal_still : Still s (decideSeal s) := by
  unfold decideSeal; split
  · exact .port (refuse_port _)
  · split
    · exact .port (refuse_port _)
    · exact .outside rfl rfl rfl rfl

theorem decideLeave_still : Still s (decideLeave s) := by
  unfold decideLeave; split
  · exact .port (refuse_port _)
  · split
    · exact .port (refuse_port _)
    · exact .outside rfl rfl rfl rfl

/-! ## Every command -/

/-- Every happening keeps the table. -/
theorem TableHolds.happens (c : Instr) (h : TableHolds counts ages present s)
    (quiet : present → s.hp.phase = .config → ∀ i, s.entry i = none) : TableHolds counts ages present (happens c s) := by
  by_cases port : PortCommand c = true
  · exact h.still (.port (portCommand_step port s))
  cases c
  case storeAccessEnd => exact h.endAccess
  case issueTurn => exact h.takeTurn
  case replyTake => exact h.takeReply
  case deadlinePass i => exact h.passDeadline i
  case busyBackoffEnd p => exact h.still (endBackoff_still p)
  case requestTake => exact h.takeRequest
  case frameEnd received => exact h.takeFrame received quiet
  case claimWindowOpen => exact h.still openWindow_still
  case claimSlot n part => exact h.still (passSlot_still n part)
  case claimWindowEnd => exact h.still endWindow_still
  case transmissionEnd => exact h.still endTransmission_still
  case selectRelease bits => exact h.still (releaseSelect_still bits)
  case transactionComplete => exact h.still completeTransaction_still
  case submit t => exact h.still (withOperands_still fun o _ => decideSubmit_still o)
  case resume t => exact h.still (withOperands_still fun o _ => decideResume_still o)
  case abort t => exact h.operands fun b _ k => k.decideAbort b
  case sealStation => exact h.still (atCommand_still fun _ => decideSeal_still)
  case leave => exact h.still (atCommand_still fun _ => decideLeave_still)
  case streamByte data =>
    rcases clockByte_port (s := s) data with e | e
    · exact h.still (.port e)
    · rw [Machine.happens, e]; exact h.still completeTransaction_still
  case hardwareReset => exact h
  case powerUp => exact h
  case resetEnd => exact h
  case storeDisturbance => exact h
  all_goals exact absurd rfl port

theorem Fresh.table (h : Fresh t) : TableHolds counts ages present t :=
  ⟨h.inOrder.2.1, fun _ => h.inOrder.2.2, fun _ => h.ages, fun _ => h.targets⟩

/-- Every command keeps the table. -/
theorem Leaves.table {c : Instr} (left : Leaves c s t) (h : TableHolds counts ages present s)
    (quiet : present → s.hp.phase = .config → ∀ i, s.entry i = none) : TableHolds counts ages present t := by
  cases left with
  | reset straps st low => exact (fresh_resetWith straps st _ s).table
  | closed => exact (h.happens c quiet).still settle_still
  | _ => exact h.still (.outside rfl rfl rfl rfl)

end

end Sys2Proof.Machine
end

section
/-! The request table in order of age with exact counts, and targets that stay PRESENT. -/

namespace Sys2Proof.Machine

section
variable {s t : State}

/-! ## What the ages say -/

/-- The age of the entry in a slot; 0 if none is held there. -/
def slotAge (s : State) (i : Slot) : Nat := ((s.entry i).map (age s)).getD 0

theorem slotAge_of {i : Slot} {e : Entry} (he : s.entry i = some e) : slotAge s i = age s e := by rw [slotAge, he]; rfl

/-- Different ages from 1 to 4 leave room for at most four entries of a target (R65). -/
theorem entryCount_le (h : AgesInWindow s) (p : Station) : entryCount s (fun e => decide (e.target = p)) ≤ 4 := by
  obtain ⟨window, apart, -, -⟩ := h
  have held {i : Slot} (m : (s.entry i).any (fun e => decide (e.target = p)) = true) : ∃ e, s.entry i = some e ∧ e.target = p := by
    obtain ⟨e, he, target⟩ := (Option.any_eq_true _ _).1 m
    exact ⟨e, he, by simpa using target⟩
  rw [entryCount, List.countP_eq_length_filter, ← List.length_map (f := slotAge s)]
  refine (List.subperm_of_subset (l₂ := [1, 2, 3, 4]) (List.Nodup.map_on ?_ ((List.nodup_finRange 16).filter _)) ?_).length_le
  · intro i mi j mj same
    obtain ⟨e, he, ep⟩ := held (List.mem_filter.1 mi).2
    obtain ⟨f, hf, fp⟩ := held (List.mem_filter.1 mj).2
    rw [slotAge_of he, slotAge_of hf] at same
    exact apart i j e f he hf (ep.trans fp.symm) same
  · intro n m
    obtain ⟨i, mi, rfl⟩ := List.mem_map.1 m
    obtain ⟨e, he, -⟩ := held (List.mem_filter.1 mi).2
    have := window i e he
    rw [slotAge_of he]
    simp only [List.mem_cons, List.not_mem_nil, or_false]; omega

/-- The entries of a target stand in the order of taking oldest first (log 16). -/
theorem entriesFor_oldest_first (h : AgesInWindow s) (p : Station) : (entriesFor s p).Pairwise fun x y => age s y.2 < age s x.2 := by
  obtain ⟨-, -, -, order⟩ := h
  rw [entriesFor, heldEntries, List.pairwise_filter, List.pairwise_filterMap]
  refine order.imp fun {i j} older x hx y hy xp yp => ?_
  obtain ⟨e, he, rfl⟩ := Option.map_eq_some_iff.1 hx
  obtain ⟨f, hf, rfl⟩ := Option.map_eq_some_iff.1 hy
  exact older e f he hf ((of_decide_eq_true xp).trans (of_decide_eq_true yp).symm)

/-! ## CONFIG -/

/-- The channel engine at rest, the table empty and no waiter: what ConfigQuiet asks for in CONFIG. -/
structure Quiet (s : State) : Prop where
  entry : ∀ i : Slot, s.entry i = none
  current : ∀ ch : ChannelNo, (s.channel ch).current = none
  held : s.ce.held = []
  turn : s.ce.turn = none
  work : s.arb.ce = []
  waiters : s.nq.waiters = []

theorem configQuiet_iff : ConfigQuiet s ↔ (s.hp.phase = .config → Quiet s) :=
  forall_congr' fun _ => ⟨fun ⟨a, b, c, d, e, f⟩ => ⟨a, b, c, d, e, f⟩, fun ⟨a, b, c, d, e, f⟩ => ⟨a, b, c, d, e, f⟩⟩

/-- The channel engine, its accesses, the table and the waiters are left as they were. -/
structure Rests (s t : State) : Prop where
  ce : t.ce = s.ce
  work : t.arb.ce = s.arb.ce
  rt : t.rt = s.rt
  waiters : t.nq.waiters = s.nq.waiters

theorem Rests.refl (s : State) : Rests s s := ⟨rfl, rfl, rfl, rfl⟩

theorem Rests.trans {u : State} (a : Rests s t) (b : Rests t u) : Rests s u :=
  ⟨b.ce.trans a.ce, b.work.trans a.work, b.rt.trans a.rt, b.waiters.trans a.waiters⟩

theorem Aside.rests (h : Aside s t) : Rests s t := ⟨h.ce, h.arb, h.rt, h.w⟩

theorem Quiet.rests (h : Quiet s) (k : Rests s t) : Quiet t :=
  ⟨fun i => by rw [entry_of_rt k.rt]; exact h.entry i, fun ch => by rw [channel_of_ce k.ce]; exact h.current ch,
    by rw [k.ce]; exact h.held, by rw [k.ce]; exact h.turn, k.work.trans h.work, k.waiters.trans h.waiters⟩

theorem Quiet.heldEntries (h : Quiet s) : heldEntries s = [] :=
  List.filterMap_eq_nil_iff.2 fun i _ => by rw [h.entry i]; rfl

theorem Quiet.takeTurn (h : Quiet s) : takeTurn s = s := by
  have noResend : chooseResend s = none := by rw [chooseResend, h.heldEntries]; rfl
  have noChannel : chooseChannel s = none := by
    by_contra some
    obtain ⟨ch, chosen⟩ := Option.ne_none_iff_exists'.1 some
    have := chooseChannel_eligible chosen
    simp [eligible, Channel.descriptor, h.current ch] at this
  unfold Machine.takeTurn; split
  · rfl
  · rw [noResend, noChannel]

theorem Quiet.takeReply (h : Quiet s) : Rests s (takeReply s) := by
  simp only [Machine.takeReply]; split
  · exact .refl s
  · split
    · exact (line_aside _).rests
    · rename_i rest _ _ p _
      have heard : Aside s (hearFrom p (modLine (fun sl => { sl with inReplies := rest }) s)) := (line_aside _).trans (hearFrom_aside p)
      split
      · exact heard.rests
      · rename_i x hx
        have := matchEntry_held hx
        rw [(h.rests heard.rests).entry] at this; cases this

theorem Quiet.settleNotice (h : Quiet s) (n : Notice) (add : List Notice → List Notice) : Rests s (settleNotice n add s) := by
  have none : matchingWaiter s.nq n = none := by rw [matchingWaiter, h.waiters]; rfl
  rw [Machine.settleNotice, none]
  exact ⟨rfl, rfl, rfl, rfl⟩

/-- In CONFIG a presence frame moves a status alone (R148). -/
theorem takePresence_config {p : Station} (f : Frame) (config : s.hp.phase = .config) : Rests s (takePresence p f s) := by
  unfold takePresence; rw [if_pos config]
  exact Rests.trans (t := storeLabel p f.payload s) ⟨rfl, rfl, rfl, rfl⟩ (noteStatus_aside p _ _).rests

theorem takeFrame_config (b : List Byte) (config : s.hp.phase = .config) : Rests s (takeFrame b s) := by
  simp only [takeFrame]; split
  · exact .refl s
  · split
    · exact (line_aside _).rests
    · split
      · exact (line_aside _).rests
      · exact ((line_aside _).trans (line_aside _)).rests
      · rename_i p f _
        split
        · unfold routeFrame; split
          · exact Rests.trans ((line_aside _).trans (line_aside _)).rests (takePresence_config f config)
          · split <;> exact ⟨rfl, rfl, rfl, rfl⟩
          · split <;> exact ⟨rfl, rfl, rfl, rfl⟩
        · exact ((line_aside _).trans (line_aside _)).rests

theorem Quiet.endTransmission (h : Quiet s) : Rests s (endTransmission s) := by
  unfold Machine.endTransmission; split
  · rename_i c _
    cases c with
    | reply => exact (line_aside _).rests
    | presence =>
      simp only [reportFrame]; split
      · unfold reportPresence; split
        · exact ⟨rfl, rfl, rfl, rfl⟩
        · split <;> exact ⟨rfl, rfl, rfl, rfl⟩
      · exact (line_aside _).rests
    | request =>
      simp only [reportFrame]; split
      · rename_i q _
        have none : (modLine (afterSending s.own .request) s).entry q.slot = none := h.entry q.slot
        split
        · exact (line_aside _).rests
        · rw [reportSent, none]; exact (line_aside _).rests
      · exact (line_aside _).rests
  · exact .refl s

theorem Quiet.endAccess (h : Quiet s) : Rests s (endAccess s) := by
  rcases endAccess_cases s with ⟨-, e⟩ | ⟨a, w, rest, -, -, e⟩ | ⟨a, w, rest, -, q, -⟩ | ⟨a, w, rest, -, -, e⟩
  · rw [e]; exact .refl s
  · rw [e]
    refine Rests.trans ?_ (actHp_aside w _).rests
    exact ⟨rfl, rfl, rfl, rfl⟩
  · rw [h.work] at q; cases q
  · rw [e]
    refine Rests.trans ?_ (actSu_aside w _).rests
    exact ⟨rfl, rfl, rfl, rfl⟩

theorem Quiet.releaseSelect (h : Quiet s) (bits : Fin 8) : Rests s (releaseSelect bits s) := by
  simp only [Machine.releaseSelect]; split
  · exact .refl s
  · split
    · exact ⟨rfl, rfl, rfl, rfl⟩
    · unfold endTransaction; split
      · unfold undoTake; split
        · obtain ⟨ce, work, rt, waiters⟩ := Quiet.settleNotice (s := { s with pins := { s.pins with selected := false } })
            ⟨h.entry, h.current, h.held, h.turn, h.work, h.waiters⟩ ‹_› (fun rs => _ :: rs)
          exact ⟨ce, work, rt, waiters⟩
        · exact ⟨rfl, rfl, rfl, rfl⟩
        · exact ⟨rfl, rfl, rfl, rfl⟩
      · simp only [endReadStream]; split <;> exact ⟨rfl, rfl, rfl, rfl⟩
      · unfold endWriteStream; split
        · exact ⟨rfl, rfl, rfl, rfl⟩
        · split <;> exact ⟨rfl, rfl, rfl, rfl⟩
      · exact ⟨rfl, rfl, rfl, rfl⟩

theorem Quiet.completeTransaction (h : Quiet s) : Rests s (completeTransaction s) := by
  have posted (u : State) (none : u.ce.held = []) : Rests u (postHeld u) := by rw [postHeld, none]; exact .refl u
  unfold Machine.completeTransaction; split
  · simp only []; split
    · refine Rests.trans ?_ (posted _ h.held)
      exact ⟨rfl, rfl, rfl, rfl⟩
    · exact ⟨rfl, rfl, rfl, rfl⟩
  · exact .refl s

theorem withOperands_rests {α : Type} {c : HostCode} {x : Taken α} {f : α → State → State}
    (decides : ∀ a b, Rests s (f a (shiftOut b s))) : Rests s (withOperands c x f s) := by
  rcases withOperands_or (s := s) c x f with e | ⟨-, b, n, e⟩ | ⟨a, b, -, e⟩ <;> rw [e]
  · exact .refl s
  · exact ⟨rfl, rfl, rfl, rfl⟩
  · exact decides a b

theorem atCommand_rests {f : State → State} (decides : ∀ u, Aside u (f u)) : Rests s (atCommand f s) := by
  rcases atCommand_or (s := s) f with e | ⟨-, e⟩ <;> rw [e]
  · exact .refl s
  · exact ((shiftOut_aside _).trans (decides _)).rests

/-- In CONFIG chains are refused, and no happening starts anything (R37, R38, R172). -/
theorem Quiet.happens (c : Instr) (h : Quiet s) (config : s.hp.phase = .config) : Rests s (happens c s) := by
  have refused (r : RefusalReason) (b : List Byte) : Rests s (refuse r (shiftOut b s)) := ⟨rfl, rfl, rfl, rfl⟩
  have notRunning : s.hp.phase ≠ .running := by rw [config]; decide
  by_cases port : PortCommand c = true
  · exact (portCommand_step port s).aside.rests
  cases c
  case storeAccessEnd => exact h.endAccess
  case issueTurn => rw [Machine.happens, h.takeTurn]; exact .refl s
  case replyTake => exact h.takeReply
  case deadlinePass i => rw [Machine.happens, passDeadline, h.entry]; exact .refl s
  case busyBackoffEnd p =>
    simp only [Machine.happens, endBackoff]; split
    · exact .refl s
    · exact ⟨rfl, rfl, rfl, rfl⟩
  case requestTake =>
    have : takeRequest s = s := if_pos (.inl (by rw [config]; exact ⟨nofun, nofun⟩))
    rw [Machine.happens, this]; exact .refl s
  case frameEnd received => exact takeFrame_config received config
  case claimWindowOpen => exact openWindow_aside.rests
  case claimSlot n part => exact (passSlot_aside n part).rests
  case claimWindowEnd => exact endWindow_aside.rests
  case transmissionEnd => exact h.endTransmission
  case selectRelease bits => exact h.releaseSelect bits
  case transactionComplete => exact h.completeTransaction
  case submit t =>
    refine withOperands_rests fun o b => ?_
    have : decideSubmit o (shiftOut b s) = refuse .state (shiftOut b s) := if_pos notRunning
    rw [this]; exact refused _ _
  case resume t =>
    refine withOperands_rests fun o b => ?_
    have : decideResume o (shiftOut b s) = refuse .state (shiftOut b s) := if_pos notRunning
    rw [this]; exact refused _ _
  case abort t =>
    refine withOperands_rests fun o b => ?_
    have : decideAbort o (shiftOut b s) = refuse .state (shiftOut b s) := if_pos (.inl config)
    rw [this]; exact refused _ _
  case sealStation => exact atCommand_rests fun _ => decideSeal_aside
  case leave => exact atCommand_rests fun _ => decideLeave_aside
  case streamByte data =>
    rcases clockByte_port (s := s) data with e | e
    · exact e.aside.rests
    · rw [Machine.happens, e]; exact h.completeTransaction
  case hardwareReset => exact .refl s
  case powerUp => exact .refl s
  case resetEnd => exact .refl s
  case storeDisturbance => exact .refl s
  all_goals exact absurd rfl port

/-- Every command keeps the rest in CONFIG; only a reset comes back to CONFIG. -/
theorem Leaves.quiet {c : Instr} (left : Leaves c s t) (h : ConfigQuiet s) : ConfigQuiet t := by
  cases left with
  | reset straps st low => exact (fresh_resetWith straps st _ s).quiet
  | closed low free =>
    rw [configQuiet_iff] at h ⊢
    intro config
    have before : s.hp.phase = .config := by
      by_contra sealed
      have moves := (Leaves.closed low free).moves.2 free
      by_cases same : (settle (happens c s)).hp.phase = s.hp.phase
      · exact sealed (same.symm.trans config)
      · rcases moves same with ⟨-, -, e⟩ | ⟨-, -, e⟩ | ⟨-, -, e⟩ | ⟨-, -, e⟩ <;> rw [config] at e <;> cases e
    exact ((h before).rests ((h before).happens c before)).rests settle_aside.rests
  | _ => exact h

end

/-! ## The statements -/

/-- Settles O57: only taking an entry, freeing one and resetting a record move the counts and the ages; a new entry is the youngest
of its target and the last in the order. -/
theorem countsStayExact : Obligations.CountsStayExact := by
  refine ⟨fun s t listed e => ?_, fun s => entryCount_le, fun s => entriesFor_oldest_first⟩
  have kept : TableHolds (CountsExact s) (AgesInWindow s) False t :=
    step_keeps (P := TableHolds (CountsExact s) (AgesInWindow s) False)
      (fun _ h => h.still (.outside rfl rfl rfl rfl)) (fun _ _ h => h.still (.outside rfl rfl rfl rfl))
      (fun _ _ _ h e => (exec_leaves e).table h nofun) ⟨listed, id, id, nofun⟩ e
  exact ⟨kept.listed, kept.counts, kept.ages⟩

/-- Settles O58: an entry is taken for a PRESENT target alone, and a status moves only where no entry is held for the station, or to
PRESENT. -/
theorem targetsStayPresent : Obligations.TargetsStayPresent := by
  intro s t listed quiet present e
  have kept : TableHolds False False True t ∧ ConfigQuiet t :=
    step_keeps (P := fun u => TableHolds False False True u ∧ ConfigQuiet u)
      (fun _ h => ⟨h.1.still (.outside rfl rfl rfl rfl), h.2⟩) (fun _ _ h => ⟨h.1.still (.outside rfl rfl rfl rfl), h.2⟩)
      (fun _ _ _ h e => ⟨(exec_leaves e).table h.1 fun _ config => (h.2 config).1, (exec_leaves e).quiet h.2⟩)
      ⟨⟨listed, nofun, nofun, fun _ => present⟩, quiet⟩ e
  exact ⟨kept.1.listed, kept.2, kept.1.present trivial⟩

end Sys2Proof.Machine
end

section
/-! The page store: reads, what may change it, reset, power-up and disturbances. -/

namespace Sys2Proof.Machine

/-! ## Reads by the condition they find (R3) -/

section
variable {st : PageStore} {w : WordNo}

theorem performAccess_read_readable (readable : condition st w ≠ .uncorrectable) :
    performAccess st (.read w) = (setCondition st w .good, .data (wordBytes st w)) := by
  rw [performAccess, readAccess]; split
  · contradiction
  · rfl

theorem performAccess_read_uncorrectable (bad : condition st w = .uncorrectable) :
    performAccess st (.read w) = (st, .storeError (wordBytes st w)) := by
  rw [performAccess, readAccess, bad]

end

/-! ## Disturbances (R2) -/

section
variable {st : PageStore} {w : WordNo} {bits : Nat} {found : Condition} {raw : List Byte}

/-- One bit of a GOOD word moves its condition alone; every other disturbance puts the bytes given and a condition (R2). -/
theorem disturb_cases (some : 1 ≤ bits) :
    (bits = 1 ∧ condition st w = .good ∧ disturb st w bits found raw = setCondition st w .correctable)
    ∨ ∃ c, ¬ (bits = 1 ∧ condition st w = .good) ∧ disturb st w bits found raw = setCondition (putWord st w raw) w c
      ∧ (bits = 1 → condition st w = .correctable → c = .uncorrectable)
      ∧ (bits = 2 → condition st w = .good → c = .uncorrectable)
      ∧ (¬ (bits = 1 ∧ condition st w = .correctable) → ¬ (bits = 2 ∧ condition st w = .good) → c = found) := by
  unfold disturb; split
  · omega
  · rename_i good; exact .inl ⟨rfl, good, rfl⟩
  · rename_i once
    exact .inr ⟨_, by simp [once], rfl, fun _ _ => rfl, nofun, fun no => absurd ⟨rfl, once⟩ no⟩
  · rename_i good
    exact .inr ⟨_, by simp, rfl, nofun, fun _ _ => rfl, fun _ no => absurd ⟨rfl, good⟩ no⟩
  · rename_i _ notOne notTwice two
    exact .inr ⟨_, fun ⟨a, b⟩ => notOne a b, rfl, fun a b => (notTwice a b).elim, fun a b => (two a b).elim, fun _ _ => rfl⟩

/-- A word put with a condition leaves the other words as they were, and holds the bytes put. -/
theorem putWord_frame (h : st.wf = true) (w : WordNo) (b : List Byte) (c : Condition) :
    let u := setCondition (putWord st w b) w c
    (∀ k, k < 8 → storedByte u (8 * w.toNat + k) = byteAt b k) ∧ condition u w = c
      ∧ (∀ a, a / 8 ≠ w.toNat → storedByte u a = storedByte st a) ∧ ∀ v, v ≠ w → condition u v = condition st v := by
  refine ⟨fun k hk => ?_, ?_, fun a outside => ?_, fun v other => ?_⟩
  · rw [storedByte_setCondition, storedByte_putWord h, if_pos (by omega)]
    congr 1; omega
  · rw [condition_setCondition (putWord_wf h w b), if_pos rfl]
  · rw [storedByte_setCondition, storedByte_putWord h, if_neg outside]
  · rw [condition_setCondition (putWord_wf h w b), if_neg other, condition_putWord]

/-- A disturbance reaches its word alone. -/
theorem disturb_frame (h : st.wf = true) :
    (∀ a, a / 8 ≠ w.toNat → storedByte (disturb st w bits found raw) a = storedByte st a)
      ∧ ∀ v, v ≠ w → condition (disturb st w bits found raw) v = condition st v := by
  rcases Nat.eq_zero_or_pos bits with none | some
  · rw [none]; exact ⟨fun _ _ => rfl, fun _ _ => rfl⟩
  · rcases disturb_cases (st := st) (w := w) (found := found) (raw := raw) some with ⟨-, -, e⟩ | ⟨c, -, e, -⟩ <;> rw [e]
    · exact ⟨fun _ _ => rfl, fun v other => by rw [condition_setCondition h, if_neg other]⟩
    · exact (putWord_frame h w raw c).2.2

end

/-! ## Content given at power-up (R15) -/

section
variable {α : Type} [DecidableEq α] {d : α} {m : List (Nat × α)} {l : List (Nat × α)} {a : Nat}

/-- Puts a list of values, one after another. -/
def putAll (d : α) (l m : List (Nat × α)) : List (Nat × α) := l.foldl (fun m c => sparsePut d c.1 c.2 m) m

theorem sparseGet_putAll_other (rising : (m.map Prod.fst).Pairwise (· < ·)) (absent : a ∉ l.map Prod.fst) :
    sparseGet d (putAll d l m) a = sparseGet d m a := by
  induction l generalizing m with
  | nil => rfl
  | cons c l ih =>
    rw [List.map_cons, List.mem_cons, not_or] at absent
    refine (ih (sparsePut_rising c.1 c.2 rising) absent.2).trans ?_
    rw [sparseGet_put rising, if_neg absent.1]

/-- Of values put at different keys each is read back. -/
theorem sparseGet_putAll (rising : (m.map Prod.fst).Pairwise (· < ·)) (once : (l.map Prod.fst).Nodup) {v : α} (listed : (a, v) ∈ l) :
    sparseGet d (putAll d l m) a = v := by
  induction l generalizing m with
  | nil => cases listed
  | cons c l ih =>
    obtain ⟨absent, once⟩ := List.nodup_cons.1 once
    have next := sparsePut_rising (d := d) c.1 c.2 rising
    rcases List.mem_cons.1 listed with rfl | later
    · refine (sparseGet_putAll_other next absent).trans ?_
      rw [sparseGet_put rising, if_pos rfl]
    · exact ih next once later

end

/-- The content is what lies in the store, put cell by cell; the conditions are the marks, put word by word. -/
theorem contentStore_eq (content : List Host.Cell) (marks : List (WordNo × Condition)) :
    contentStore content marks = {
      cells := putAll 0 (content.filter fun c => decide (c.1 < 131072)) []
      conditions := putAll .good (marks.map fun c => (c.1.toNat, c.2)) [] } := by
  simp only [contentStore, putAll, List.foldl_filter, List.foldl_map, decide_eq_true_eq]

/-! ## Commands that are one happening -/

/-- Every command but the resets, the disturbance and the two levels of select is one happening (00, Conventions). -/
theorem exec_happening {c : Instr} (free : Resets c = false) (s : State) (store : ∀ w n found raw, c ≠ .storeDisturbance w n found raw)
    (asserts : ∀ high, c ≠ .selectAssert high) (releases : ∀ n, c ≠ .selectRelease n) : exec c s = happening (happens c) s := by
  cases c
  case hardwareReset => exact absurd free.symm Bool.false_ne_true
  case powerUp => exact absurd free.symm Bool.false_ne_true
  case resetEnd => exact absurd free.symm Bool.false_ne_true
  case storeDisturbance w n found raw => exact absurd rfl (store w n found raw)
  case selectAssert high => exact absurd rfl (asserts high)
  case selectRelease n => exact absurd rfl (releases n)
  all_goals rfl

theorem happening_held {s : State} (low : s.pins.resetLow = true) (f : State → State) : happening f s = .next s := by
  rw [happening, low]; rfl

/-- The granted access is the first one waiting of the requester that holds the grant (R8). -/
theorem grantedAccess_iff (arb : Arbiter) (a : Access) : grantedAccess arb = some a ↔
    (arb.granted = some .hp ∧ ∃ work rest, arb.hp = (a, work) :: rest)
    ∨ (arb.granted = some .ce ∧ ∃ work rest, arb.ce = (a, work) :: rest)
    ∨ (arb.granted = some .su ∧ ∃ work rest, arb.su = (a, work) :: rest) := by
  have head {β : Type} (l : List (Access × β)) : l.head?.map Prod.fst = some a ↔ ∃ work rest, l = (a, work) :: rest := by
    cases l with
    | nil => simp
    | cons j rest => exact ⟨fun h => ⟨j.2, rest, by rw [← Option.some.inj h]⟩, by rintro ⟨_, _, h⟩; cases h; rfl⟩
  unfold grantedAccess
  cases g : arb.granted with
  | none => simp
  | some r => cases r <;> simp [head]

theorem storeAtReset_made {s : State} {a : Access} (granted : grantedAccess s.arb = some a) :
    storeAtReset true s = (performAccess s.st a).1 := by simp only [storeAtReset, granted]

theorem storeAtReset_kept {made : Bool} {s : State} (h : made = false ∨ grantedAccess s.arb = none) : storeAtReset made s = s.st := by
  unfold storeAtReset; split
  · rename_i a granted
    rcases h with no | no
    · cases no
    · rw [granted] at no; cases no
  · rfl

/-! ## The statements -/

/-- Settles O6: a readable word is mended and its bytes returned; an UNCORRECTABLE one is refused. -/
theorem wordReadByCondition : Obligations.WordReadByCondition := by
  intro st w h
  refine ⟨rfl, fun good => ?_, fun correctable => ?_, performAccess_read_uncorrectable⟩
  · rw [performAccess_read_readable (by rw [good]; decide), setCondition_same h w _ good]
  · exact ⟨_, performAccess_read_readable (by rw [correctable]; decide), rfl, condition_setCondition_good h w⟩

/-- Settles O11: of the five things a command can leave, a reset, a disturbance and the end of an access alone reach the store. -/
theorem storeChangesOnlyByAccess : Obligations.StoreChangesOnlyByAccess := by
  refine ⟨fun c s t e changed => ?_, fun s => ?_, fun straps made s => ?_, fun w bits found raw s h => ?_, grantedAccess_iff⟩
  · cases exec_leaves e with
    | reset straps st low _ kind =>
      rcases kind with same | ⟨-, reset⟩ | ⟨n, b, m, power, -⟩
      · exact absurd same changed
      · exact .inr (.inl reset)
      · exact .inr (.inr (.inl ⟨n, b, m, power⟩))
    | same => exact absurd rfl changed
    | disturbed w n found raw disturbance => exact .inr (.inr (.inr ⟨w, n, found, raw, disturbance⟩))
    | selects => exact absurd rfl changed
    | closed =>
      refine .inl (by_contra fun other => changed ?_)
      rw [settle_inside.inner.1, (happens_keeps c s other).1.st]
  · cases low : s.pins.resetLow with
    | true => exact ⟨s, happening_held low endAccess, nofun, fun _ => rfl⟩
    | false =>
      refine ⟨_, happening_live low endAccess, fun a _ granted => ?_, fun h => ?_⟩ <;> rw [settle_inside.inner.1]
      · exact (endAccess_st s).2 a granted
      · exact (endAccess_st s).1 (h.resolve_left Bool.false_ne_true)
  · exact ⟨_, rfl, fun a yes granted => by rw [yes]; exact storeAtReset_made granted, storeAtReset_kept⟩
  · exact ⟨_, rfl, rfl, disturb_frame h⟩

/-- Settles O13: every block is the one of the reset state, with the straps' peer table. -/
theorem hardwareResetResets : Obligations.HardwareResetResets := by
  intro straps made s
  have fresh : Fresh (assertReset straps made s) := fresh_resetWith straps _ _ s
  refine ⟨_, rfl, rfl, rfl, rfl, ?_, fresh.channel, rfl, rfl, rfl, fresh.entry, rfl, fun p => ?_, fresh.window, rfl, rfl, rfl, rfl, rfl,
    rfl, rfl, rfl, rfl, rfl, rfl, rfl, rfl, rfl, rfl, rfl, rfl, rfl, rfl, rfl, rfl, rfl⟩
  · cases made with
    | false => exact .inl (storeAtReset_kept (.inl rfl))
    | true =>
      cases granted : grantedAccess s.arb with
      | none => exact .inl (storeAtReset_kept (.inr granted))
      | some a => exact .inr ⟨rfl, a, rfl, storeAtReset_made granted⟩
  · rw [fresh.peer]
    show (if p.val = straps.toNat then _ else _) = _
    split <;> rfl

/-- Settles O14: `releaseReset` is the reset state with the store kept; while RESET is held every happening is skipped. -/
theorem resetEndSamplesStraps : Obligations.ResetEndSamplesStraps := by
  intro straps s
  refine ⟨fun low => ⟨releaseReset straps s, rfl, if_pos low⟩, fun high => ?_, rfl, fun low => ⟨?_, fun high => ?_, fun n => ?_, ?_⟩⟩
  · have : releaseReset straps s = s := if_neg (by rw [high]; decide)
    exact congrArg Host.Outcome.next this
  · intro c free store asserts releases
    rw [exec_happening free s store asserts releases, happening_held low]
  · show Host.Outcome.next (if s.pins.resetLow then _ else _) = _
    rw [if_pos low, assertSelect_held low]
  · show Host.Outcome.next (if s.pins.resetLow then _ else _) = _
    rw [if_pos low, releaseSelect_held low]
  · exact fun w n found raw => rfl

/-- Settles O15: content and conditions put at different keys are read back. -/
theorem powerUpGivesContent : Obligations.PowerUpGivesContent := by
  intro straps content marks s cellsOnce marksOnce
  refine ⟨_, rfl, contentStore_wf content marks, fun a b listed inStore => ?_, fun w c listed => ?_, rfl⟩
  · show storedByte (contentStore content marks) a = b
    rw [contentStore_eq]
    refine sparseGet_putAll List.Pairwise.nil (cellsOnce.sublist (List.filter_sublist.map _)) ?_
    exact List.mem_filter.2 ⟨listed, decide_eq_true inStore⟩
  · show condition (contentStore content marks) w = c
    rw [contentStore_eq]
    refine sparseGet_putAll List.Pairwise.nil ?_ (List.mem_map_of_mem (f := fun c : WordNo × Condition => (c.1.toNat, c.2)) listed)
    rw [List.map_map]
    have names : (Prod.fst ∘ fun c : WordNo × Condition => (c.1.toNat, c.2)) = BitVec.toNat ∘ Prod.fst := rfl
    rw [names, ← List.map_map]
    exact marksOnce.map fun _ _ => BitVec.eq_of_toNat_eq

/-- Settles O16: one bit of a GOOD word leaves its bytes; every other disturbance puts the bytes given. -/
theorem disturbanceMovesCondition : Obligations.DisturbanceMovesCondition := by
  intro w found raw s h
  refine ⟨rfl, fun bits some => ⟨_, rfl, rfl, (disturb_frame h).1, (disturb_frame h).2, ?_⟩⟩
  show (_ → _ → condition (disturb s.st w bits found raw) w = _ ∧ (disturb s.st w bits found raw).cells = _)
    ∧ (_ → _ → condition (disturb s.st w bits found raw) w = _) ∧ (_ → _ → condition (disturb s.st w bits found raw) w = _)
    ∧ (_ → (∀ k, _ → storedByte (disturb s.st w bits found raw) _ = _)
      ∧ (_ → _ → condition (disturb s.st w bits found raw) w = _))
  rcases disturb_cases (st := s.st) (w := w) (found := found) (raw := raw) some with ⟨one, good, e⟩ | ⟨c, not, e, twice, two, other⟩
      <;> rw [e]
  · have moved : condition (setCondition s.st w .correctable) w = .correctable := by rw [condition_setCondition h, if_pos rfl]
    refine ⟨fun _ _ => ⟨moved, rfl⟩, fun _ k => ?_, fun k => ?_, fun k => absurd ⟨one, good⟩ k⟩
    · rw [good] at k; cases k
    · omega
  · obtain ⟨bytes, condition, -, -⟩ := putWord_frame h w raw c
    rw [condition]
    exact ⟨fun a b => absurd ⟨a, b⟩ not, twice, two, fun _ => ⟨bytes, other⟩⟩

end Sys2Proof.Machine
end

section
/-! The host port: select, the command byte, refusals, the records shown, and the configuration commands. -/

namespace Sys2Proof.Machine

/-! ## Operand bytes -/

section
variable {b : Byte}

theorem channelOf_val {ch : ChannelNo} (h : b.toNat = ch.val) : channelOf b = some ch := by
  have range : b.toNat < 4 := h ▸ ch.isLt
  rw [channelOf, dif_pos range]
  exact congrArg some (Fin.ext h)

theorem channelOf_none (h : 3 < b.toNat) : channelOf b = none := dif_neg (by omega)

theorem windowOf_val {w : WindowNo} (h : b.toNat = w.val) : windowOf b = some w := by
  have range : b.toNat < 8 := h ▸ w.isLt
  rw [windowOf, dif_pos range]
  exact congrArg some (Fin.ext h)

theorem windowOf_none (h : 7 < b.toNat) : windowOf b = none := dif_neg (by omega)

theorem stationOf_val {p : Station} (h : b.toNat = p.val) : stationOf b = some p := by
  have range : b.toNat < 31 := h ▸ p.isLt
  rw [stationOf, dif_pos range]
  exact congrArg some (Fin.ext h)

theorem stationOf_none (h : 30 < b.toNat) : stationOf b = none := dif_neg (by omega)

theorem stationOf_iff {p : Station} : stationOf b = some p ↔ b.toNat = p.val := by
  refine ⟨fun h => ?_, stationOf_val⟩
  unfold stationOf at h; split at h
  · rw [← Option.some.inj h]
  · cases h

theorem timingOf_val {n : Fin 4} (h : b.toNat = n.val) : timingOf b = some n := by
  have range : b.toNat < 4 := h ▸ n.isLt
  rw [timingOf, dif_pos range]
  exact congrArg some (Fin.ext h)

theorem timingOf_none (h : 3 < b.toNat) : timingOf b = none := dif_neg (by omega)

theorem classOf_none (h : 2 < b.toNat) : classOf b = none := by
  unfold classOf; split
  · omega
  · omega
  · omega
  · rfl

theorem classOf_some (h : b.toNat ≤ 2) : ∃ k, classOf b = some k := by
  have cases : b.toNat = 0 ∨ b.toNat = 1 ∨ b.toNat = 2 := by omega
  rcases cases with e | e | e <;> simp [classOf, e]

theorem gateOf_none (h : 1 < b.toNat) : gateOf b = none := by
  unfold gateOf; split
  · omega
  · omega
  · rfl

theorem gateOf_val (h : b.toNat ≤ 1) : gateOf b = some (decide (b = 1)) := by
  have cases : b.toNat = 0 ∨ b.toNat = 1 := by omega
  rcases cases with e | e
  · obtain rfl : b = 0 := BitVec.eq_of_toNat_eq e
    rfl
  · obtain rfl : b = 1 := BitVec.eq_of_toNat_eq e
    rfl

end

/-- The station set of an operand, bit by bit (R180). -/
theorem stationSetOf_bit (v : BitVec 32) (p : Station) :
    (stationSetOf v).getLsbD p.val = v.getLsbD (8 * (3 - p.val / 8) + p.val % 8) := by
  have small := p.isLt
  simp only [stationSetOf, BitVec.getLsbD_setWidth, BitVec.getLsbD_append, BitVec.getLsbD_extractLsb']
  rw [decide_eq_true small, Bool.true_and]
  split
  · rw [decide_eq_true ‹_›, Bool.true_and]; congr 1; omega
  · split
    · rw [decide_eq_true ‹_›, Bool.true_and]; congr 1; omega
    · split
      · rw [decide_eq_true ‹_›, Bool.true_and]; congr 1; omega
      · rw [decide_eq_true (by omega), Bool.true_and]; congr 1; omega

/-! ## Decisions -/

section
variable {s t : State} {α : Type} {c : HostCode} {x : α} {f : α → State → State} {g : State → State} {r : RefusalReason}

/-- The state at the decision point of a command with operands: its bytes have been answered. -/
def atDecision (c : HostCode) (s : State) : State := { s with hp := { s.hp with out := s.hp.out ++ answered c s, sdo := .driven } }

/-- The state at the decision point of a command without operands: the status byte has been shifted out. -/
def afterStatus (s : State) : State := { s with hp := { s.hp with out := s.hp.out ++ [s.hp.status], sdo := .driven } }

/-- A command taken whole that leaves line, table, arbiter and phase as they were. -/
theorem whole_same (live : Live s) (h : Settled s) (ready : ReadyFor c s) (e : f x (atDecision c s) = t) (phase : t.hp.phase = s.hp.phase)
    (label : t.hp.label = s.hp.label) (rt : t.rt = s.rt) (sl : t.sl = s.sl) (own : t.own = s.own) (arb : t.arb = s.arb) :
    happening (withOperands c (.whole x) f) s = .next t :=
  happening_same live h ((withOperands_whole ready x f).trans e) phase label rt sl own arb

/-- The same outside LEAVING, where the label may change too. -/
theorem whole_quiet (live : Live s) (h : Settled s) (ready : ReadyFor c s) (e : f x (atDecision c s) = t) (phase : t.hp.phase ≠ .leaving)
    (arb : t.arb = s.arb) : happening (withOperands c (.whole x) f) s = .next t :=
  happening_quiet live h ((withOperands_whole ready x f).trans e) (loadLeaving_phase phase) arb

theorem whole_refused (live : Live s) (h : Settled s) (ready : ReadyFor c s) (e : f x (atDecision c s) = refuse r (atDecision c s)) :
    happening (withOperands c (.whole x) f) s = .next { s with hp := s.hp.denied (answered c s) r } :=
  whole_same live h ready (e.trans (refuse_shifted r s _)) rfl rfl rfl rfl rfl rfl

theorem whole_shown {record : List Byte} {took : Took} (live : Live s) (h : Settled s) (ready : ReadyFor c s)
    (e : f x (atDecision c s) = present record took (atDecision c s)) :
    happening (withOperands c (.whole x) f) s = .next { s with hp := s.hp.showing (answered c s) record took } :=
  whole_same live h ready (e.trans (present_shifted record took s _)) rfl rfl rfl rfl rfl rfl

/-- The command byte of a command with operands (R168, R169). -/
theorem code_passes (live : Live s) (h : Settled s) (now : s.hp.txn = .command) :
    happening (withOperands c .code f) s = .next { s with hp := { s.hp with
      out := s.hp.out ++ [s.hp.status], sdo := .driven, txn := .operands c (operandCount c) } } :=
  happening_same live h (withOperands_code now f) rfl rfl rfl rfl rfl rfl

theorem command_same (live : Live s) (h : Settled s) (now : s.hp.txn = .command) (e : g (afterStatus s) = t) (phase : t.hp.phase = s.hp.phase)
    (label : t.hp.label = s.hp.label) (rt : t.rt = s.rt) (sl : t.sl = s.sl) (own : t.own = s.own) (arb : t.arb = s.arb) :
    happening (atCommand g) s = .next t :=
  happening_same live h ((atCommand_command now g).trans e) phase label rt sl own arb

theorem command_refused (live : Live s) (h : Settled s) (now : s.hp.txn = .command) (e : g (afterStatus s) = refuse r (afterStatus s)) :
    happening (atCommand g) s = .next { s with hp := s.hp.denied [s.hp.status] r } :=
  command_same live h now (e.trans (refuse_shifted r s _)) rfl rfl rfl rfl rfl rfl

end

/-! ## What SEAL and LEAVE look at -/

section
variable {s : State}

theorem Rights.none_iff {r : Rights} : r.none = true ↔ r = ⟨false, false, false⟩ := by
  obtain ⟨a, b, c⟩ := r
  cases a <;> cases b <;> cases c <;> decide

theorem sealableWindow_iff {w : Window} :
    sealableWindow w = true ↔ w.base + w.length ≤ 512 ∧ (w.length ≠ 0 → w.rights ≠ ⟨false, false, false⟩) := by
  simp only [sealableWindow, Bool.and_eq_true, decide_eq_true_eq, Bool.or_eq_true, Bool.not_eq_true', ← Bool.not_eq_true,
    Rights.none_iff]
  exact and_congr_right fun _ => or_iff_not_imp_left

/-- Which configurations SEAL accepts (R188). -/
theorem sealable_iff : sealable s = true ↔ s.own ≠ 31 ∧ ∀ w : WindowNo,
    (s.su.windows.get w).base + (s.su.windows.get w).length ≤ 512
      ∧ ((s.su.windows.get w).length ≠ 0 → (s.su.windows.get w).rights ≠ ⟨false, false, false⟩) := by
  simp only [sealable, Bool.and_eq_true, decide_eq_true_eq, List.all_eq_true, List.mem_finRange, forall_const, sealableWindow_iff]

theorem channelsSettled_iff :
    channelsSettled s = true ↔ ∀ ch, (s.channel ch).state = .idle ∨ (s.channel ch).state = .faulted := by
  simp only [channelsSettled, List.all_eq_true, List.mem_finRange, forall_const, Bool.or_eq_true, decide_eq_true_eq]

/-- The table's occupancy counts the entries held (R177). -/
theorem tableOccupancy_eq : tableOccupancy s = entryCount s fun _ => true := by
  refine List.countP_congr fun i _ => ?_
  show (s.entry i).isSome = true ↔ (s.entry i).any (fun _ => true) = true
  cases s.entry i <;> simp

end

/-- The status byte by its bits (R181): phase, COMMIT, REFUSED, WRITE-ERROR, READ-ERROR and the attention condition. -/
theorem statusBits (attention readError writeError refused commit : Bool) (p : Phase) :
    let b : Byte := BitVec.ofBool attention ++ BitVec.ofBool readError ++ BitVec.ofBool writeError ++ BitVec.ofBool refused
      ++ BitVec.ofBool commit ++ phaseBits p
    b.extractLsb' 0 3 = (match p with | .config => 0 | .joining => 1 | .running => 2 | .leaving => 3 | .detached => 4)
      ∧ b.getLsbD 3 = commit ∧ b.getLsbD 4 = refused ∧ b.getLsbD 5 = writeError ∧ b.getLsbD 6 = readError
      ∧ b.getLsbD 7 = attention := by
  cases p
  all_goals revert attention readError writeError refused commit; decide

/-- When there is something for the host processor to look at (R165). -/
theorem attention_iff (s : State) : attention s = true ↔
    (s.ev.events ≠ [] ∧ s.ev.eventEnable = true) ∨ (s.nq.records ≠ [] ∧ s.ev.noticeEnable = true)
      ∨ ((s.ev.peerFlags ≠ 0 ∨ s.ev.windowFlags ≠ 0) ∧ s.ev.changeEnable = true) := by
  simp only [attention, Bool.or_eq_true, Bool.and_eq_true, Bool.not_eq_true', decide_eq_true_eq, List.isEmpty_eq_false_iff, or_assoc]

/-! ## The statements -/

/-- Settles O17: the status byte is composed of its bits. -/
theorem selectAssertComposesStatus : Obligations.SelectAssertComposesStatus := by
  intro high s live h off
  refine ⟨statusByte s, ?_, ?_⟩
  · have asserted : assertSelect high s = { s with
        pins := { s.pins with selected := true }
        hp := { s.hp with txn := .command, status := statusByte s, out := [], sdo := if high then .awaitsEdge else .driven } } := by
      simp only [assertSelect, off, live]; rfl
    have := happening_same (f := assertSelect high) live h asserted rfl rfl rfl rfl rfl rfl
    rw [← this, happening]
    show Host.Outcome.next (if s.pins.resetLow then assertSelect high s else settle (assertSelect high s)) = _
    rw [live]; rfl
  · obtain ⟨phase, commit, refused, writeError, readError, seen⟩ :=
      statusBits (attention s) s.hp.readError s.hp.writeError s.hp.refused s.hp.commit s.hp.phase
    exact ⟨phase, commit, refused, writeError, readError, (Bool.eq_iff_iff.1 seen).trans (attention_iff s)⟩

/-- Settles O18: every command with operands passes to OPERANDS alike; STORE-WRITE looks at COMMIT first. -/
theorem commandBytePassesToOperands : Obligations.CommandBytePassesToOperands := by
  intro s live h now next
  refine ⟨code_passes live h now, code_passes live h now, code_passes live h now, code_passes live h now, code_passes live h now,
    code_passes live h now, code_passes live h now, code_passes live h now, code_passes live h now, code_passes live h now,
    code_passes live h now, fun free => ?_, fun busy => ⟨?_, fun a => ?_⟩⟩
  · have passes : takeStoreWrite .code s = withOperands .storeWrite .code decideStoreWrite s := if_neg (by simp [free])
    exact happening_same live h (passes.trans (withOperands_code now _)) rfl rfl rfl rfl rfl rfl
  · exact happening_same live h (if_pos ⟨now, busy⟩) rfl rfl rfl rfl rfl rfl
  · exact happening_same live h (if_pos ⟨now, busy⟩) rfl rfl rfl rfl rfl rfl

/-- Settles O19: the phase is the first thing each of these commands looks at. -/
theorem refusedForPhaseOrCode : Obligations.RefusedForPhaseOrCode := by
  refine ⟨fun s live h => ⟨fun ready phase o => ?_, fun ready phase o => ?_, fun ready phase b => ?_, fun ready phase o => ?_,
    fun ready phase o => ?_, fun ready phase l eight => ?_, fun ready phase b => ?_, fun now phase => ?_, fun now phase => ?_⟩,
    fun b s live h now unknown => ?_⟩
  · exact whole_refused live h ready (if_pos phase)
  · exact whole_refused live h ready (if_pos phase)
  · exact whole_refused live h ready (if_pos phase)
  · exact whole_refused live h ready (if_pos phase)
  · exact whole_refused live h ready (if_pos phase)
  · have taken : execSetLabel (.whole l) s = happening (withOperands .setLabel (.whole l) decideSetLabel) s := by
      simp only [execSetLabel, labelTaken, eight, decide_true, if_true]
    exact taken.trans (whole_refused live h ready (if_pos phase))
  · exact whole_refused live h ready (if_pos phase)
  · exact command_refused live h now (if_pos phase)
  · exact command_refused live h now (if_pos phase)
  · have none : hostCodeOf b = none := by
      by_contra some
      revert unknown some
      revert b
      decide
    have taken : execUnknownCommand b s = happening (atCommand (refuse .unknown)) s := by
      simp only [execUnknownCommand, none, if_true]
    exact taken.trans (command_refused live h now rfl)

end Sys2Proof.Machine
end

section
/-! The host port's decisions: refusals for an operand or for what a command meets, the records shown, the configuration commands, SEAL
and LEAVE. -/

namespace Sys2Proof.Machine

/-- Settles O20: each decision comes to its refusal by the tests before it. -/
theorem refusedForOperandOrUse : Obligations.RefusedForOperandOrUse := by
  intro s live h no
  have channelOrClass {chb cls : Byte} (out : 3 < chb.toNat ∨ 2 < cls.toNat) : channelOf chb = none ∨ classOf cls = none :=
    out.imp channelOf_none classOf_none
  have alive (phase : s.hp.phase = .joining ∨ s.hp.phase = .running ∨ s.hp.phase = .leaving) :
      ¬ (s.hp.phase = .config ∨ s.hp.phase = .detached) := by rcases phase with p | p | p <;> simp [p]
  refine ⟨fun ready phase o => ⟨fun out => ?_, fun cls ch hch => ⟨fun busy => ?_, fun idle head => ?_⟩⟩,
    fun ready phase o => ⟨fun out => ?_, fun cls ch hch busy => ?_⟩,
    fun ready phase b => ⟨fun out => ?_, fun ch hch idle => ?_⟩,
    fun ready b out => ?_, fun ready b out => ?_, fun ready phase o out => ?_, fun ready phase o out => ?_, fun ready phase b out => ?_,
    fun ready a => ⟨fun busy => ?_, fun free out => ?_⟩, fun ready free a out => ?_, fun now busy a => ?_,
    fun now => ⟨fun phase bad => ?_, fun phase bad => ?_⟩⟩
  · refine whole_refused live h ready ?_
    refine (if_neg (not_not.2 phase)).trans ?_
    rcases channelOrClass out with e | e <;> rw [e]
    cases channelOf o.channel <;> rfl
  · obtain ⟨k, hk⟩ := classOf_some cls
    refine whole_refused live h ready ?_
    refine (if_neg (not_not.2 phase)).trans ?_
    rw [channelOf_val hch, hk]
    exact if_pos busy
  · obtain ⟨k, hk⟩ := classOf_some cls
    refine whole_refused live h ready ?_
    refine (if_neg (not_not.2 phase)).trans ?_
    rw [channelOf_val hch, hk]
    exact (if_neg (not_not.2 idle)).trans (if_pos head)
  · refine whole_refused live h ready ?_
    refine (if_neg (not_not.2 phase)).trans ?_
    rcases channelOrClass out with e | e <;> rw [e]
    cases channelOf o.channel <;> rfl
  · obtain ⟨k, hk⟩ := classOf_some cls
    refine whole_refused live h ready ?_
    have same : (atDecision .resume s).channel ch = s.channel ch := rfl
    refine (if_neg (not_not.2 phase)).trans ?_
    rw [channelOf_val hch, hk]
    simp only [same]
    rcases busy with ⟨idle, none⟩ | st | st | st | st
    · rw [idle, none]
    all_goals rw [st]
  · refine whole_refused live h ready ?_
    refine (if_neg (alive phase)).trans ?_
    rw [channelOf_none out]
  · refine whole_refused live h ready ?_
    have same : (atDecision .abort s).channel ch = s.channel ch := rfl
    refine (if_neg (alive phase)).trans ?_
    rw [channelOf_val hch]
    simp only [same, idle]
  · refine whole_refused live h ready ?_
    unfold decideReadChannel; rw [channelOf_none out]
  · refine whole_refused live h ready ?_
    unfold decideReadPeer; rw [stationOf_none out]
  · refine whole_refused live h ready ?_
    refine (if_neg phase).trans ?_
    rcases out with e | e
    · rw [windowOf_none e]
    · rw [gateOf_none e]; cases windowOf o.window <;> rfl
  · refine whole_refused live h ready ?_
    have first : windowOf o.window = none ∨ gateOf o.gate = none ∨ (511 < o.base.toNat ∨ 512 < o.length.toNat) := by
      rcases out with e | e | e | e
      · exact .inl (windowOf_none e)
      · exact .inr (.inr (.inl e))
      · exact .inr (.inr (.inr e))
      · exact .inr (.inl (gateOf_none e))
    refine (if_neg (not_not.2 phase)).trans ?_
    rcases first with e | e | e
    · rw [e]
    · rw [e]; cases windowOf o.window <;> rfl
    · cases windowOf o.window with
      | none => rfl
      | some w =>
        cases gateOf o.gate with
        | none => rfl
        | some g => exact if_pos e
  · refine whole_refused live h ready ?_
    refine (if_neg (not_not.2 phase)).trans ?_
    rw [timingOf_none out]
  · exact whole_refused live h ready (if_pos busy)
  · refine whole_refused live h ready ?_
    have notBusy : ¬ ((atDecision .storeRead s).hp.commit = true) := by rw [Bool.not_eq_true]; exact free
    exact (if_neg notBusy).trans (if_pos out)
  · have passes : takeStoreWrite (.whole a) s = withOperands .storeWrite (.whole a) decideStoreWrite s := if_neg (by simp [free])
    refine happening_same live h (passes.trans ((withOperands_whole ready a _).trans ?_)) rfl rfl rfl rfl rfl rfl
    exact if_pos out
  · have answers : answered .storeWrite s = s.hp.status :: List.replicate (operandCount .storeWrite) 0 := by rw [answered, now]
    refine happening_same live h ((if_pos ⟨now, busy⟩).trans ?_) rfl rfl rfl rfl rfl rfl
    rw [answers]; rfl
  · refine command_refused live h now ?_
    have no : ¬ sealable s = true := by
      rw [sealable_iff]
      rintro ⟨own, windows⟩
      rcases bad with e | ⟨w, e | ⟨len, none⟩⟩
      · exact own e
      · exact absurd (windows w).1 (by omega)
      · exact (windows w).2 len none
    exact (if_neg (not_not.2 phase)).trans (if_pos (Bool.eq_false_iff.2 no))
  · refine command_refused live h now ?_
    have no : ¬ channelsSettled s = true := by
      rw [channelsSettled_iff]
      obtain ⟨ch, idle, faulted⟩ := bad
      exact fun all => (all ch).elim idle faulted
    exact (if_neg (not_not.2 phase)).trans (if_pos (Bool.eq_false_iff.2 no))

/-- Settles O21: each record is copied from the state as it stands, and presented. -/
theorem recordCommandsDecide : Obligations.RecordCommandsDecide := by
  refine ⟨fun s live h => ⟨fun now => ?_, fun ready b ch hch => ?_, fun ready b p hp => ?_⟩,
    fun s live h now => ⟨fun none => ?_, fun e es head => ?_, fun none => ?_, fun n ns head => ?_, ?_⟩⟩
  · refine command_same live h now ?_ rfl rfl rfl rfl rfl rfl
    rw [← tableOccupancy_eq]; rfl
  · refine whole_shown live h ready ?_
    unfold decideReadChannel; rw [channelOf_val hch]; rfl
  · refine whole_shown live h ready ?_
    unfold decideReadPeer; rw [stationOf_val hp]; rfl
  · refine command_same live h now ?_ rfl rfl rfl rfl rfl rfl
    have : (afterStatus s).ev.events = [] := none
    unfold decideTakeEvent; rw [this]; rfl
  · refine command_same live h now ?_ rfl rfl rfl rfl rfl rfl
    have : (afterStatus s).ev.events = e :: es := head
    unfold decideTakeEvent; rw [this]; rfl
  · refine command_same live h now ?_ rfl rfl rfl rfl rfl rfl
    have : (afterStatus s).nq.records = [] := none
    unfold decideTakeNotice; rw [this]; rfl
  · refine command_same live h now ?_ rfl rfl rfl rfl rfl rfl
    have : (afterStatus s).nq.records = n :: ns := head
    unfold decideTakeNotice; rw [this]; rfl
  · exact command_same live h now rfl rfl rfl rfl rfl rfl rfl

/-- Settles O29: the operands pass their checks, and one record is replaced. -/
theorem configurationCommandsSet : Obligations.ConfigurationCommandsSet := by
  refine ⟨stationSetOf_bit, fun s live h phase => ⟨fun ready o w window base length gate => ?_, fun ready l eight => ?_,
    fun ready b n timing => ?_⟩⟩
  · refine whole_same live h ready ?_ rfl rfl rfl rfl rfl rfl
    refine (if_neg (not_not.2 phase)).trans ?_
    rw [windowOf_val window, gateOf_val gate]
    exact if_neg (by omega)
  · have taken : execSetLabel (.whole l) s = happening (withOperands .setLabel (.whole l) decideSetLabel) s := by
      simp only [execSetLabel, labelTaken, eight, decide_true, if_true]
    refine taken.trans (whole_quiet live h ready (if_neg (not_not.2 phase)) ?_ rfl)
    show s.hp.phase ≠ .leaving
    rw [phase]; decide
  · refine whole_same live h ready ?_ rfl rfl rfl rfl rfl rfl
    refine (if_neg (not_not.2 phase)).trans ?_
    rw [timingOf_val timing]; rfl

/-- Settles O30: a sealable configuration passes, and JOINING begins with the HELLO in the holder. -/
theorem sealLoadsHello : Obligations.SealLoadsHello := by
  intro s live h now phase own windows
  have passes : sealable s = true := sealable_iff.2 ⟨own, windows⟩
  refine happening_quiet live h ((atCommand_command now decideSeal).trans ?_) (loadLeaving_phase nofun) rfl
  refine (if_neg (not_not.2 phase)).trans ?_
  exact if_neg fun no => absurd (no.symm.trans passes) Bool.false_ne_true

/-- Settles O31: GATE and MASK set one field each. -/
theorem gateAndMaskSet : Obligations.GateAndMaskSet := by
  refine ⟨fun o w s live h ready phase window gate => ?_, fun b s live h ready => ?_⟩
  · refine whole_same live h ready ?_ rfl rfl rfl rfl rfl rfl
    refine (if_neg phase).trans ?_
    rw [windowOf_val window, gateOf_val gate]; rfl
  · exact whole_same live h ready rfl rfl rfl rfl rfl rfl rfl

/-! ## Leaving (R190) -/

section
variable {s : State}

theorem tableEmpty_iff : tableEmpty s = true ↔ ∀ i, s.entry i = none := by
  simp only [tableEmpty, List.all_eq_true, List.mem_finRange, forall_const, Option.isNone_iff_eq_none]

theorem leavingLoaded_iff {sl : LineUnit} :
    leavingLoaded sl = true ↔ sl.aside.isSome = true ∨ ∃ f, sl.holder = some f ∧ f.flags.leaving = true := by
  simp only [leavingLoaded, Bool.or_eq_true, Option.any_eq_true]

theorem presenceCommitted_iff {sl : LineUnit} :
    presenceCommitted sl = true ↔ (∃ n, sl.claim = .marking n .presence) ∨ sl.claim = .sending .presence := by
  unfold presenceCommitted
  cases sl.claim with
  | idle => simp
  | marking n c => cases c <;> simp
  | sending c => cases c <;> simp

/-- When no LEAVING frame is due (R190). -/
theorem loadLeaving_kept (h : s.hp.phase ≠ .leaving ∨ (∃ i e, s.entry i = some e) ∨ s.sl.aside.isSome = true
    ∨ (∃ f, s.sl.holder = some f ∧ f.flags.leaving = true)) : loadLeaving s = s := by
  refine if_neg fun ⟨leaving, empty, notLoaded⟩ => ?_
  rcases h with phase | ⟨i, e, he⟩ | loaded
  · exact phase leaving
  · rw [tableEmpty_iff.1 empty i] at he; cases he
  · rw [leavingLoaded_iff.2 loaded] at notLoaded; cases notLoaded

/-- When one is due, the line unit loads it. -/
theorem loadLeaving_due (phase : s.hp.phase = .leaving) (empty : ∀ i, s.entry i = none) (aside : s.sl.aside = none)
    (holder : ∀ f, s.sl.holder = some f → f.flags.leaving = false) :
    loadLeaving s = { s with sl := loadLeavingFrame s.own s.hp.label s.sl } := by
  refine if_pos ⟨phase, tableEmpty_iff.2 empty, Bool.eq_false_iff.2 fun loaded => ?_⟩
  rcases leavingLoaded_iff.1 loaded with h | ⟨f, hf, yes⟩
  · rw [aside] at h; cases h
  · rw [holder f hf] at yes; cases yes

variable {own : BitVec 5} {label : List Byte} {sl : LineUnit}

theorem loadLeavingFrame_empty (none : sl.holder = none) :
    loadLeavingFrame own label sl = { sl with holder := some (presenceFrame own label false true) } := by
  simp only [loadLeavingFrame, none]

theorem loadLeavingFrame_replaces {f : Frame} (held : sl.holder = some f) (marking : ∀ n, sl.claim ≠ .marking n .presence)
    (sending : sl.claim ≠ .sending .presence) (hello : f.flags.hello = false) :
    loadLeavingFrame own label sl = { sl with holder := some (presenceFrame own label false true) } := by
  have free : ¬ presenceCommitted sl = true := by
    rw [presenceCommitted_iff]; rintro (⟨n, e⟩ | e)
    · exact marking n e
    · exact sending e
  simp only [loadLeavingFrame, held, if_neg free, hello, Bool.false_eq_true, if_false]

theorem loadLeavingFrame_aside {f : Frame} (held : sl.holder = some f)
    (committed : (∃ n, sl.claim = .marking n .presence) ∨ sl.claim = .sending .presence) :
    loadLeavingFrame own label sl = { sl with aside := some (presenceFrame own label false true) } := by
  simp only [loadLeavingFrame, held, presenceCommitted_iff.2 committed, if_true]

/-- The state that LEAVE, accepted, leaves before the happening is closed. -/
def departing (s : State) : State := { s with hp := { s.hp.done [s.hp.status] with phase := .leaving } }

theorem leave_accepted (live : Live s) (h : Settled s) (now : s.hp.txn = .command) (phase : s.hp.phase = .running)
    (settled : ∀ ch, (s.channel ch).state = .idle ∨ (s.channel ch).state = .faulted) {t : State} (e : loadLeaving (departing s) = t)
    (arb : t.arb = s.arb) : exec .leave s = .next t := by
  have passes : ¬ channelsSettled (afterStatus s) = false := by
    rw [Bool.not_eq_false]; exact channelsSettled_iff.2 settled
  have leaves : atCommand decideLeave s = departing s := by
    rw [atCommand_command now]
    exact (if_neg (not_not.2 phase)).trans (if_neg passes)
  show happening (atCommand decideLeave) s = _
  rw [happening_live live, leaves, settle, e, grantNext_same (by rw [arb]; exact h.1)]

end

/-- Settles O32: what LEAVE leaves is closed at once, and the LEAVING frame is loaded as in any happening in LEAVING. -/
theorem leaveBeginsDeparture : Obligations.LeaveBeginsDeparture := by
  refine ⟨fun _ _ _ _ => rfl, fun _ => rfl, fun s => ⟨loadLeaving_kept, fun phase empty holder aside => ?_,
    fun phase empty aside f held notLeaving => ⟨fun marking sending hello => ?_, fun committed => ?_⟩⟩,
    fun s live h now phase settled => ⟨fun empty holder aside => ?_,
      fun empty aside f held notLeaving => ⟨fun marking sending hello => ?_, fun committed => ?_⟩, fun held => ?_⟩⟩
  · rw [loadLeaving_due phase empty aside (by rw [holder]; nofun), loadLeavingFrame_empty holder]
  · rw [loadLeaving_due phase empty aside (by rw [held]; rintro _ ⟨⟩; exact notLeaving),
      loadLeavingFrame_replaces held marking sending hello]
  · rw [loadLeaving_due phase empty aside (by rw [held]; rintro _ ⟨⟩; exact notLeaving), loadLeavingFrame_aside held committed]
  · refine leave_accepted live h now phase settled ?_ rfl
    refine (loadLeaving_due (s := departing s) rfl empty aside (by rw [show (departing s).sl.holder = none from holder]; nofun)).trans ?_
    exact congrArg (fun sl => { departing s with sl := sl }) (loadLeavingFrame_empty holder)
  · refine leave_accepted live h now phase settled ?_ rfl
    refine (loadLeaving_due (s := departing s) rfl empty aside ?_).trans ?_
    · rw [show (departing s).sl.holder = some f from held]; rintro _ ⟨⟩; exact notLeaving
    · exact congrArg (fun sl => { departing s with sl := sl }) (loadLeavingFrame_replaces held marking sending hello)
  · refine leave_accepted live h now phase settled ?_ rfl
    refine (loadLeaving_due (s := departing s) rfl empty aside ?_).trans ?_
    · rw [show (departing s).sl.holder = some f from held]; rintro _ ⟨⟩; exact notLeaving
    · exact congrArg (fun sl => { departing s with sl := sl }) (loadLeavingFrame_aside held committed)
  · exact leave_accepted live h now phase settled (loadLeaving_kept (.inr (.inl held))) rfl

end Sys2Proof.Machine
end

section
/-! What the operations of a channel do, one rule each: fetching, posting, completing, receiving a notice, draining. -/

namespace Sys2Proof.Machine

section
variable {s t u : State} {f : State → State} {ch : ChannelNo} {cur : Current}

/-! ## A happening that asks for the store -/

/-- A happening that leaves phase, label, table, line and number, and so no LEAVING frame to load, closes with the grant alone. -/
theorem happening_asks (live : Live s) (quiet : loadLeaving s = s) (e : f s = t) (phase : t.hp.phase = s.hp.phase)
    (label : t.hp.label = s.hp.label) (rt : t.rt = s.rt) (sl : t.sl = s.sl) (own : t.own = s.own) :
    happening f s = .next { t with arb := (grantNext { s with arb := t.arb }).arb } := by
  have same : (grantNext t).arb = (grantNext { s with arb := t.arb }).arb := grantNext_arb rfl
  rw [happening_grant live e (loadLeaving_same quiet phase label rt sl own), same]

/-- The release of select is one happening. -/
theorem exec_release (live : Live s) (bits : Fin 8) : exec (.selectRelease bits) s = happening (releaseSelect bits) s := by
  show Host.Outcome.next (if s.pins.resetLow then releaseSelect bits s else settle (releaseSelect bits s)) = _
  rw [happening_live live, live]; rfl

/-! ## Channel records -/

theorem setChannel_setChannel (c d : Channel) : setChannel ch c (setChannel ch d s) = setChannel ch c s := by
  simp only [setChannel, Vector.set_set]

theorem modChannel_eq (g : Channel → Channel) : modChannel ch g s = setChannel ch (g (s.channel ch)) s := rfl

/-- The queue of the channel engine's accesses with one more at its end. -/
def asking (j : Access × CeWork) (s : State) : State := { s with arb := { s.arb with ce := s.arb.ce ++ [j] } }

theorem descriptor_of (h : (s.channel ch).current = some cur) : (s.channel ch).descriptor = some (descriptorOf cur.bytes) := by
  rw [Channel.descriptor, h]; rfl

theorem address_of (h : (s.channel ch).current = some cur) : (s.channel ch).address = cur.address := by
  rw [Channel.address, h]; rfl

/-! ## Fetching (R41) -/

/-- The first access of a fetch at an address. -/
def fetchFirst (ch : ChannelNo) (a : Addr) : Access × CeWork := (.read (BitVec.ofNat 14 (a.toNat / 8)), .fetch ch a [])

theorem startFetch_eq {a : Addr} (h : (s.channel ch).resume = some a) :
    startFetch ch s = asking (fetchFirst ch a) (setChannel ch (s.channel ch).restarted s) := by
  simp only [startFetch, h]; rfl

/-- A channel that has moved on from its descriptor to the fetch of the next (R32, log 29). -/
def Channel.movedOn (c : Channel) (next : Addr) : Channel :=
  { c with state := .active, resume := some next, current := none, line := 0, offset := 0, issued := 0, completed := 0
           allIssued := false, swapResult := none }

theorem stepPast_eq {c : Channel} (h : c.current = some cur) :
    stepPast c = { c with resume := some (descriptorOf cur.bytes).next, current := none, swapResult := none } := by
  simp only [stepPast, Channel.descriptor, h, Option.map_some, Option.some_or]

theorem moveOn_eq (h : (s.channel ch).current = some cur) :
    moveOn ch s = asking (fetchFirst ch (descriptorOf cur.bytes).next)
      (setChannel ch ((s.channel ch).movedOn (descriptorOf cur.bytes).next) s) := by
  have resume : ((modChannel ch (fun c => { stepPast c with state := .active }) s).channel ch).resume
      = some (descriptorOf cur.bytes).next := by
    rw [channel_modChannel_self, stepPast_eq h]
  rw [moveOn, startFetch_eq resume, channel_modChannel_self, modChannel_eq, setChannel_setChannel, stepPast_eq h]
  rfl

/-! ## Posting (R58) -/

theorem offerEvent_posts (e : Event) (room : s.ev.events.length < 32) : offerEvent ch e s = afterPost ch e.kind (pushEvent e s) :=
  if_pos room

theorem offerEvent_holds (e : Event) (full : 32 ≤ s.ev.events.length) :
    offerEvent ch e s = setHeld (s.ce.held ++ [ch]) (setChannel ch { s.channel ch with state := .held, pendingEvent := some e } s) :=
  if_neg (by omega)

/-! ## Completing (R31, R32) -/

theorem any_isBlock {o : Option Op} : o.any Op.isBlock = true ↔ o = some .put ∨ o = some .get := by
  cases o with
  | none => simp
  | some op => cases op <;> simp [Op.isBlock]

theorem any_isRemote {o : Option Op} : o.any Op.isRemote = true ↔ o ≠ none ∧ o ≠ some .await := by
  cases o with
  | none => simp
  | some op => cases op <;> simp [Op.isRemote]

theorem askDoneStatus_eq (h : (s.channel ch).current = some cur) :
    askDoneStatus ch (descriptorOf cur.bytes) s = asking (doneWrite ch (s.channel ch) cur) s := by
  simp only [askDoneStatus, address_of h]; rfl

theorem advanceRemote_eq (h : (s.channel ch).current = some cur) :
    advanceRemote ch (descriptorOf cur.bytes) s = asking (remoteAdvanceWrite ch (s.channel ch) cur) s := by
  simp only [advanceRemote, remoteAdvanceWrite, Bool.and_eq_true, any_isBlock, address_of h]
  split
  · rfl
  · exact askDoneStatus_eq h

theorem advanceLocal_eq (h : (s.channel ch).current = some cur) :
    advanceLocal ch (descriptorOf cur.bytes) s = asking (completionWrite ch (s.channel ch) cur) s := by
  simp only [advanceLocal, completionWrite, Bool.and_eq_true, any_isBlock, address_of h]
  split
  · rfl
  · exact advanceRemote_eq h

theorem startCompletion_eq (h : (s.channel ch).current = some cur) :
    startCompletion ch s = asking (completionWrite ch (s.channel ch) cur) s := by
  simp only [startCompletion, descriptor_of h]
  exact advanceLocal_eq h

/-- An AWAIT has nothing to advance: it is DONE (R31, R32). -/
theorem completionWrite_await {c : Channel} (await : (descriptorOf cur.bytes).op = some .await) :
    completionWrite ch c cur = (statusWrite cur.address 0x01, .doneStatus ch) := by
  simp [completionWrite, remoteAdvanceWrite, doneWrite, await]

/-! ## Receiving a notice (R44) -/

theorem giveNotice_eq (n : Notice) (h : (s.channel ch).current = some cur) (await : (descriptorOf cur.bytes).op = some .await) :
    giveNotice ch n s = asking (noticeWrite ch cur n) (setChannel ch { s.channel ch with state := .active } s) := by
  have now : ((modChannel ch (fun c => { c with state := .active }) s).channel ch).current = some cur := by
    rw [channel_modChannel_self]; exact h
  simp only [giveNotice, descriptor_of h, noticeWrite]
  split
  · rfl
  · rw [startCompletion_eq now, completionWrite_await await]; rfl

theorem settleNotice_waiter {n : Notice} (add : List Notice → List Notice) {w : Waiter} (matched : matchingWaiter s.nq n = some w)
    (h : (s.channel w.channel).current = some cur) (await : (descriptorOf cur.bytes).op = some .await) :
    settleNotice n add s = asking (noticeWrite w.channel cur n)
      (setChannel w.channel { s.channel w.channel with state := .active } (withdrawWaiter w.channel s)) := by
  rw [settleNotice, matched]
  exact giveNotice_eq (s := withdrawWaiter w.channel s) n h await

theorem settleNotice_queue {n : Notice} (add : List Notice → List Notice) (none : matchingWaiter s.nq n = none) :
    settleNotice n add s = { s with nq := { s.nq with records := add s.nq.records } } := by
  rw [settleNotice, none]; rfl

/-! ## Draining (R55, R56) -/

theorem checkDrain_other (h : (s.channel ch).state ≠ .draining) : checkDrain ch s = s := if_neg fun k => h k.1

theorem checkDrain_eq {r : FaultRecord} (h : (s.channel ch).state = .draining) (fault : (s.channel ch).fault = some r) :
    checkDrain ch s
      = if (s.channel ch).outstanding = 0 ∧ writeUnderWay s ch = false then asking (faultWrite ch r) s else s := by
  simp only [checkDrain, h, true_and, fault]
  rfl

theorem writeUnderWay_iff : writeUnderWay s ch = true ↔ ∃ x ∈ s.arb.ce, (∃ r o, x.2 = .getWrite ch r o) ∨ x.2 = .resultWrite ch := by
  simp only [writeUnderWay, List.any_eq_true]
  refine exists_congr fun x => and_congr_right fun _ => ?_
  cases x.2 <;> simp

theorem writeUnderWay_false : writeUnderWay s ch = false ↔ ∀ x ∈ s.arb.ce, (∀ r o, x.2 ≠ .getWrite ch r o) ∧ x.2 ≠ .resultWrite ch := by
  rw [← Bool.not_eq_true, writeUnderWay_iff]
  simp only [not_exists, not_and, not_or]

end

/-! ## The statements -/

/-- Settles O23: the record is out, and an event removed lets the head of the held list post. -/
theorem completionCarriesOut : Obligations.CompletionCarriesOut := by
  intro s record took live h now
  have posts (e : Event) (ch : ChannelNo) (rest : List ChannelNo) (held : s.ce.held = ch :: rest)
      (pending : (s.channel ch).pendingEvent = some e) :
      postHeld { s with hp := s.hp.done record, ev := { s.ev with events := s.ev.events.drop 1 } }
        = afterPost ch e.kind (setChannel ch { s.channel ch with pendingEvent := none }
            { s with hp := s.hp.done record, ev := { s.ev with events := s.ev.events.drop 1 ++ [e] }, ce := { s.ce with held := rest } }) := by
    have same : ({ s with hp := s.hp.done record, ev := { s.ev with events := s.ev.events.drop 1 } } : State).channel ch = s.channel ch := rfl
    simp only [postHeld, held, same, pending]
    rfl
  have removed (took' : took = .event true) :
      completeTransaction s = postHeld { s with hp := s.hp.done record, ev := { s.ev with events := s.ev.events.drop 1 } } := by
    simp only [completeTransaction, now, took', if_true]; rfl
  refine ⟨fun other => ?_, fun took' none => ?_, fun took' ch rest e held pending kind => ?_,
    fun took' ch rest e cur held pending kind current => ?_⟩
  · refine happening_same live h ?_ rfl rfl rfl rfl rfl rfl
    simp only [completeTransaction, now, if_neg other]; rfl
  · refine happening_same live h ((removed took').trans ?_) rfl rfl rfl rfl rfl rfl
    simp only [postHeld, none]
  · refine happening_same live h ((removed took').trans ((posts e ch rest held pending).trans ?_)) rfl rfl rfl rfl rfl rfl
    rcases kind with k | k <;> rw [k]
    all_goals simp only [afterPost, modChannel_eq, setChannel_setChannel, channel_setChannel_self]
    all_goals rfl
  · have moved := (removed took').trans (posts e ch rest held pending)
    simp only [kind, afterPost] at moved
    rw [moveOn_eq (cur := cur), channel_setChannel_self, setChannel_setChannel] at moved
    · exact happening_asks live h.2 moved rfl rfl rfl rfl rfl
    · rw [channel_setChannel_self]; exact current

/-- Settles O24: only a notice set apart and copied change flags have anything to be undone. -/
theorem earlyReleaseUndoes : Obligations.EarlyReleaseUndoes := by
  intro bits s live h selected after
  have released : releaseSelect bits s = toIdle (endTransaction bits { s with pins := { s.pins with selected := false } }) := by
    simp only [releaseSelect, selected, live]; rfl
  refine ⟨fun txn => ?_, fun r n now none => ?_, fun r n w cur now matched current await => ?_, fun r p w now => ?_⟩
  · rw [exec_release live]
    refine happening_same live h (released.trans ?_) rfl rfl rfl rfl rfl rfl
    rcases txn with e | e | ⟨c, n, e⟩ | e | ⟨r, e⟩ | ⟨r, b, e⟩ | ⟨r, e⟩ <;> simp only [endTransaction, undoTake, e] <;> rfl
  · rw [exec_release live]
    refine happening_same live h (released.trans ?_) rfl rfl rfl rfl rfl rfl
    simp only [endTransaction, now, undoTake, returnNotice, settleNotice, none]; rfl
  · have given := settleNotice_waiter (s := { s with pins := { s.pins with selected := false } }) (fun rs => n :: rs) matched current await
    have done : releaseSelect bits s = _ := released.trans (by
      simp only [endTransaction, now, undoTake, returnNotice]
      rw [given])
    rw [exec_release live]
    exact happening_asks live h.2 done rfl rfl rfl rfl rfl
  · rw [exec_release live]
    refine happening_same live h (released.trans ?_) rfl rfl rfl rfl rfl rfl
    simp only [endTransaction, now, undoTake]; rfl

end Sys2Proof.Machine
end

section
/-! The streams of the host port: STORE-READ, STORE-WRITE and its commit, and the bytes of a transaction one by one. -/

namespace Sys2Proof.Machine

section
variable {s t : State}

/-! ## Which work acts on an access that ends -/

theorem endAccess_hp {a : Access} {w : HpWork} {rest : List (Access × HpWork)} (granted : s.arb.granted = some .hp)
    (front : s.arb.hp = (a, w) :: rest) : endAccess s = actHp w (performAccess s.st a).2
      { s with st := (performAccess s.st a).1, arb := { s.arb with hp := rest, granted := none } } := by
  simp only [endAccess, granted, front]; rfl

theorem endAccess_ce {a : Access} {w : CeWork} {rest : List (Access × CeWork)} (granted : s.arb.granted = some .ce)
    (front : s.arb.ce = (a, w) :: rest) : endAccess s = actCe w (performAccess s.st a).2 (accessMade a rest s) := by
  simp only [endAccess, granted, front]; rfl

theorem endAccess_su {a : Access} {w : SuWork} {rest : List (Access × SuWork)} (granted : s.arb.granted = some .su)
    (front : s.arb.su = (a, w) :: rest) : endAccess s = actSu w (performAccess s.st a).2
      { s with st := (performAccess s.st a).1, arb := { s.arb with su := rest, granted := none } } := by
  simp only [endAccess, granted, front]; rfl

/-- The grant takes no access off a list. -/
theorem grantNext_lists (s : State) :
    (grantNext s).arb.hp = s.arb.hp ∧ (grantNext s).arb.ce = s.arb.ce ∧ (grantNext s).arb.su = s.arb.su := by
  unfold grantNext; split
  · exact ⟨rfl, rfl, rfl⟩
  · split <;> exact ⟨rfl, rfl, rfl⟩

theorem grantNext_asked {a : Arbiter} {l : List (Access × HpWork)} (e : a = (grantNext { s with arb := { s.arb with hp := l } }).arb) :
    a = (grantNext { s with arb := { s.arb with hp := a.hp } }).arb ∧ a.hp = l := by
  have same : a.hp = l := e ▸ (grantNext_lists _).1
  exact ⟨by rw [same]; exact e, same⟩

/-! ## STORE-READ -/

/-- Select as it is released. -/
def unselected (s : State) : State := { s with pins := { s.pins with selected := false } }

theorem releaseSelect_eq (live : Live s) (selected : s.pins.selected = true) (bits : Fin 8) :
    releaseSelect bits s = toIdle (endTransaction bits (unselected s)) :=
  (if_neg (by simp [selected])).trans (if_neg (by simp [live]))

/-- What the release of a STORE-READ leaves of its stream (R173). -/
def streamEnded (r : ReadStream) (s : State) : State :=
  modPort (fun p => { p with readError := r.sawBad, refused := false }) s

theorem endReadStream_plain {r : ReadStream} {bits : Fin 8} (no : ¬ (bits ≠ 0 ∧ r.fresh = true ∧ r.word ≠ none)) :
    endReadStream bits r s = streamEnded r (dropStream s) := by
  rw [← Option.isSome_iff_ne_none] at no
  exact congrArg (streamEnded r) (if_neg no)

theorem endReadStream_begun {r : ReadStream} {bits : Fin 8} (yes : bits ≠ 0 ∧ r.fresh = true ∧ r.word ≠ none) :
    endReadStream bits r s = streamEnded r (askHp (.read (wordOf (r.position.toNat + 8))) .dropped (dropStream s)) := by
  rw [← Option.isSome_iff_ne_none] at yes
  exact congrArg (streamEnded r) (if_pos yes)

/-- The stream after the byte at its position (R173). -/
def ReadStream.moved (r : ReadStream) (w : StreamWord) : ReadStream where
  position := r.position + 1
  word := if r.position.toNat % 8 = 7 then r.ahead else some w
  ahead := if r.position.toNat % 8 = 7 then none else r.ahead
  fresh := decide (r.position.toNat % 8 = 7)
  sawBad := r.sawBad || w.bad

/-- The read of the next word, which the first byte out of a word asks for. -/
def nextRead (r : ReadStream) : List (Access × HpWork) :=
  if r.fresh then [(.read (BitVec.ofNat 14 ((r.position.toNat + 8) / 8)), .stream)] else []

theorem streamOut_eq {r : ReadStream} {w : StreamWord} (inHand : r.word = some w) : streamOut r s = { s with
    hp := { s.hp with
      out := s.hp.out ++ [byteAt w.bytes (r.position.toNat % 8)], sdo := .driven, txn := .reading (r.moved w) }
    arb := { s.arb with hp := s.arb.hp ++ nextRead r } } := by
  simp only [streamOut, inHand, nextRead]
  split
  · rfl
  · rw [List.append_nil]; rfl

/-- The stream with a word that has come to hand (R173). -/
def ReadStream.given (r : ReadStream) (w : StreamWord) : ReadStream :=
  if r.word = none then { r with word := some w } else { r with ahead := some w }

theorem streamWord_eq {r : ReadStream} (now : s.hp.txn = .reading r) (b : List Byte) (bad : Bool) :
    streamWord b bad s = { s with hp := { s.hp with txn := .reading (r.given ⟨b, bad⟩) } } := by
  simp only [streamWord, now, ReadStream.given, Option.isNone_iff_eq_none]; rfl

/-! ## The cut of a range into words (R12) -/

theorem writePiece_full {a : Nat} {bytes : List Byte} (refused : Bool) (h : a % 8 = 0 ∧ 8 ≤ bytes.length) :
    (writePiece a bytes refused).1 = .full (BitVec.ofNat 14 (a / 8)) (bytes.take 8) := if_pos (by omega)

theorem writePiece_part {a : Nat} {bytes : List Byte} (refused : Bool) (h : ¬ (a % 8 = 0 ∧ 8 ≤ bytes.length)) :
    (writePiece a bytes refused).1
      = .part (BitVec.ofNat 14 (a / 8)) (a % 8) (bytes.take (min (8 - a % 8) bytes.length)) := if_neg (by omega)

end

/-! ## The statements -/

/-- Settles O25: the stream asks for words one ahead, and its release drops what it asked for. -/
theorem storeReadBeginsAndEnds : Obligations.StoreReadBeginsAndEnds := by
  refine ⟨fun a s live quiet ready free range => ?_, ?_, ?_, fun s x rest live quiet granted front => ?_⟩
  · have begins : decideStoreRead a (atDecision .storeRead s) = _ :=
      (if_neg (by rw [Bool.not_eq_true]; exact free)).trans (if_neg (by omega))
    exact happening_asks live quiet ((withOperands_whole ready a decideStoreRead).trans begins) rfl rfl rfl rfl rfl
  · intro s w r rest live quiet granted front now o came
    have word (b : List Byte) (bad : Bool) (e : actHp .stream o.2 { s with
        st := o.1, arb := { s.arb with hp := rest, granted := none } }
        = streamWord b bad { s with st := o.1, arb := { s.arb with hp := rest, granted := none } }) :
        exec .storeAccessEnd s = came b bad :=
      happening_asks live quiet ((endAccess_hp granted front).trans (e.trans
        (streamWord_eq (s := { s with st := o.1, arb := { s.arb with hp := rest, granted := none } }) now b bad))) rfl rfl rfl rfl rfl
    exact ⟨fun b e => word b false (by rw [e]; rfl), fun b e => word b true (by rw [e]; rfl)⟩
  · intro s r bits live quiet selected now begun released
    have ends : releaseSelect bits s = toIdle (endReadStream bits r (unselected s)) := by
      rw [releaseSelect_eq live selected, endTransaction, show (unselected s).hp.txn = .reading r from now]
    rw [exec_release live]
    refine ⟨fun no => ?_, fun yes => ?_⟩
    · refine (happening_asks live quiet (ends.trans (congrArg toIdle (endReadStream_plain no))) rfl rfl rfl rfl rfl).trans ?_
      simp only [released, List.append_nil]; rfl
    · exact happening_asks live quiet (ends.trans (congrArg toIdle (endReadStream_begun yes))) rfl rfl rfl rfl rfl
  · exact happening_asks live quiet (endAccess_hp granted front) rfl rfl rfl rfl rfl

/-- Settles O26: each state of the transaction has its own byte. -/
theorem streamByteMovesOn : Obligations.StreamByteMovesOn := by
  intro data s live quiet
  refine ⟨fun r w now inHand => ?_, fun h start n now => ?_, fun h now => ?_, fun h b rest took now more => ?_, fun b took now => ?_,
    fun h c left now more => ?_⟩
  · have out : clockByte data s = _ := (by simp only [clockByte, now] : clockByte data s = streamOut r s).trans (streamOut_eq inHand)
    refine ⟨_, happening_asks live quiet out rfl rfl rfl rfl rfl, rfl, ⟨_, rfl, rfl, rfl, rfl, rfl, rfl⟩, ?_, rfl, rfl, rfl⟩
    exact (grantNext_lists _).1
  · refine happening_same live h ?_ rfl rfl rfl rfl rfl rfl
    simp only [clockByte, now]; rfl
  · have zero : clockByte data s = shiftOut [0] s := by simp only [clockByte, now]
    exact happening_same live h zero rfl rfl rfl rfl rfl rfl
  · obtain ⟨c, cs, rfl⟩ := List.exists_cons_of_ne_nil more
    refine happening_same live h ?_ rfl rfl rfl rfl rfl rfl
    simp only [clockByte, now]; rfl
  · have same : clockByte data s = completeTransaction s := by simp only [clockByte, now]; rfl
    show happening (clockByte data) s = happening completeTransaction s
    rw [happening_live live, happening_live live, same]
  · refine happening_same live h ?_ rfl rfl rfl rfl rfl rfl
    simp only [clockByte, now, operandByte, if_pos more]; rfl

/-- Settles O27: the release of a STORE-WRITE is its decision. -/
theorem storeWriteCommits : Obligations.StoreWriteCommits := by
  intro s live h
  refine ⟨fun ready free a range => ?_, ?_⟩
  · have passes : takeStoreWrite (.whole a) s = withOperands .storeWrite (.whole a) decideStoreWrite s := if_neg (by simp [free])
    refine happening_same live h (passes.trans ((withOperands_whole ready a _).trans (if_neg (by omega)))) rfl rfl rfl rfl rfl rfl
  · intro start n selected now released
    have ends (bits : Fin 8) : releaseSelect bits s = toIdle (endWriteStream bits start n (unselected s)) := by
      rw [releaseSelect_eq live selected, endTransaction, show (unselected s).hp.txn = .writing start n from now]
    refine ⟨fun bits none => ?_, fun some long => ?_, fun one short range => ?_⟩
    · rw [exec_release live]
      exact happening_same live h ((ends bits).trans (congrArg toIdle (if_pos none))) rfl rfl rfl rfl rfl rfl
    · rw [exec_release live]
      refine happening_same live h ((ends 0).trans (congrArg toIdle ((if_neg ?_).trans (if_pos long)))) rfl rfl rfl rfl rfl rfl
      simpa using some
    · have begins : endWriteStream 0 start n (unselected s) = beginCommit start n (unselected s) :=
        (if_neg (by simp only [ne_eq, not_true_eq_false, false_or]; omega)).trans (if_neg (by omega))
      rw [exec_release live]
      exact ⟨_, happening_asks live h.2 ((ends 0).trans (congrArg toIdle begins)) rfl rfl rfl rfl rfl, rfl, grantNext_asked rfl⟩

/-- Settles O28: a commit writes its range word by word, by the cut of any range. -/
theorem commitWordEnds : Obligations.CommitWordEnds := by
  refine ⟨?_, fun o => ?_, ?_, ?_⟩
  · intro s a r rest live quiet granted front o skipped
    refine ⟨fun last => ?_, fun more => ?_⟩
    · exact happening_asks live quiet ((endAccess_hp granted front).trans (if_pos last)) rfl rfl rfl rfl rfl
    · exact happening_asks live quiet ((endAccess_hp granted front).trans (if_neg more)) rfl rfl rfl rfl rfl
  · cases o <;> simp [StoreOutcome.isError]
  · intro a bytes refused n
    refine ⟨writePiece_full refused, fun no => ⟨writePiece_part refused no, ?_, ?_⟩, rfl, fun more => ?_⟩
    · omega
    · omega
    · have left : bytes.drop n ≠ [] := more
      rw [ne_eq, List.drop_eq_nil_iff] at left
      show a + n = _
      omega
  · intro a left got n
    refine ⟨rfl, fun more => ?_⟩
    omega

end Sys2Proof.Machine
end

section
/-! Chains: how they are started and given up, how a fetched word ends, and how the writes of a channel end. -/

namespace Sys2Proof.Machine

section
variable {s t : State} {ch : ChannelNo} {cur : Current}

/-! ## The end of an access of the channel engine -/

theorem accessEnd_asks {a : Access} {w : CeWork} {rest : List (Access × CeWork)} (live : Live s) (quiet : loadLeaving s = s)
    (granted : s.arb.granted = some .ce) (front : s.arb.ce = (a, w) :: rest)
    (e : actCe w (performAccess s.st a).2 (accessMade a rest s) = t) (phase : t.hp.phase = s.hp.phase)
    (label : t.hp.label = s.hp.label) (rt : t.rt = s.rt) (sl : t.sl = s.sl) (own : t.own = s.own) :
    exec .storeAccessEnd s = .next { t with arb := (grantNext { s with arb := t.arb }).arb } :=
  happening_asks live quiet ((endAccess_ce granted front).trans e) phase label rt sl own

theorem grantNext_askedCe {a : Arbiter} {l : List (Access × CeWork)}
    (e : a = (grantNext { s with arb := { s.arb with ce := l } }).arb) : a.hp = s.arb.hp ∧ a.su = s.arb.su ∧ a.ce = l
      ∧ a = (grantNext { s with arb := { s.arb with ce := a.ce } }).arb := by
  obtain ⟨hp, ce, su⟩ := grantNext_lists { s with arb := { s.arb with ce := l } }
  have same : a.ce = l := e ▸ ce
  exact ⟨e ▸ hp, e ▸ su, same, by rw [same]; exact e⟩

theorem accessEnd_settles {a : Access} {w : CeWork} {rest : List (Access × CeWork)} (live : Live s)
    (granted : s.arb.granted = some .ce) (front : s.arb.ce = (a, w) :: rest)
    (e : actCe w (performAccess s.st a).2 (accessMade a rest s) = t) : exec .storeAccessEnd s = .next (settle t) := by
  show happening endAccess s = _
  rw [happening_live live, (endAccess_ce granted front).trans e]

/-- No LEAVING frame is due where none was, with the same entries held. -/
theorem loadLeaving_entries (h : loadLeaving s = s) (phase : t.hp.phase = s.hp.phase) (label : t.hp.label = s.hp.label)
    (entries : ∀ i, t.entry i = none ↔ s.entry i = none) (sl : t.sl = s.sl) (own : t.own = s.own) : loadLeaving t = t := by
  have empty : tableEmpty t = tableEmpty s := by rw [Bool.eq_iff_iff, tableEmpty_iff, tableEmpty_iff]; exact forall_congr' entries
  unfold loadLeaving at h ⊢
  rw [phase, empty, sl]
  split
  · rename_i due
    rw [if_pos due] at h
    have same : loadLeavingFrame t.own t.hp.label t.sl = t.sl := by rw [own, label, sl]; exact congrArg State.sl h
    simp only [modLine, same]
  · rfl

/-! ## Starting and giving up -/

theorem startFetch_after {g : Channel → Channel} {a : Addr} (h : (g (s.channel ch)).resume = some a) :
    startFetch ch (modChannel ch g s) = asking (fetchFirst ch a) (setChannel ch (g (s.channel ch)).restarted s) := by
  rw [startFetch_eq (by rw [channel_modChannel_self]; exact h), channel_modChannel_self, modChannel_eq, setChannel_setChannel]

/-- An access of the channel engine's list once a channel has taken ABORT, with or without a turn given up (R62, logs 24 and 25). -/
def abandoned (ch : ChannelNo) (given : Bool) (j : Access × CeWork) : Access × CeWork :=
  if j.2.owner = some ch ∨ (given = true ∧ j.2.isPayload = true) then (j.1, .dropped) else j

theorem giveUpTurn_eq : giveUpTurn ch s = { s with
    ce := { s.ce with turn := if s.ce.turn.any (Turn.isOf ch) then none else s.ce.turn }
    arb := { s.arb with
      ce := s.arb.ce.map fun j => if s.ce.turn.any (Turn.isOf ch) = true ∧ j.2.isPayload = true then (j.1, .dropped) else j } } := by
  unfold giveUpTurn
  split
  · rename_i given; simp only [given, true_and]; rfl
  · rename_i kept
    rw [Bool.not_eq_true] at kept
    simp [kept]

theorem abandoned_twice (given : Bool) (l : List (Access × CeWork)) :
    (l.map fun j => if given = true ∧ j.2.isPayload = true then (j.1, .dropped) else j).map
        (fun j => if decide (j.2.owner = some ch) = true then (j.1, .dropped) else j) = l.map (abandoned ch given) := by
  rw [List.map_map]
  refine List.map_congr_left fun j _ => ?_
  by_cases payload : given = true ∧ j.2.isPayload = true
  · simp [abandoned, payload, CeWork.owner]
  · simp [abandoned, payload]

theorem postAborted_eq : postAborted ch s = { s with ev := { s.ev with events := s.ev.events ++ (if s.ev.events.length < 32 then
    [{ kind := .chainAborted, channel := ch, code := none, address := ((s.channel ch).resume).getD 0, detail := 0 }] else []) } } := by
  unfold postAborted
  split
  · rfl
  · rw [List.append_nil]

theorem abortRunning_eq : abortRunning ch s = { s with
    arb := { s.arb with ce := s.arb.ce.map (abandoned ch (s.ce.turn.any (Turn.isOf ch))) }
    rt := { s.rt with entries := s.rt.entries.map (Option.map (orphaned ch)) }
    nq := { s.nq with waiters := s.nq.waiters.filter fun w => w.channel ≠ ch }
    ce := { s.ce with
      channels := s.ce.channels.set ch.val { (s.channel ch).aborted with outstanding := 0 } ch.isLt
      held := s.ce.held.erase ch
      turn := if s.ce.turn.any (Turn.isOf ch) then none else s.ce.turn }
    ev := { s.ev with events := s.ev.events ++ (if s.ev.events.length < 32 then
      [{ kind := .chainAborted, channel := ch, code := none, address := ((s.channel ch).resume).getD 0, detail := 0 }] else []) } } := by
  have ends : abortRunning ch s = postAborted ch (setChannel ch ((orphanEntries ch s).channel ch).aborted
      (setChannel ch { s.channel ch with outstanding := 0 } { s with
        arb := { s.arb with
          ce := (s.arb.ce.map fun j => if s.ce.turn.any (Turn.isOf ch) = true ∧ j.2.isPayload = true then (j.1, .dropped) else j).map
            fun j => if decide (j.2.owner = some ch) = true then (j.1, .dropped) else j }
        rt := { s.rt with entries := s.rt.entries.map (Option.map (orphaned ch)) }
        nq := { s.nq with waiters := s.nq.waiters.filter fun w => w.channel ≠ ch }
        ce := { s.ce with
          held := s.ce.held.erase ch
          turn := if s.ce.turn.any (Turn.isOf ch) then none else s.ce.turn } })) := by
    rw [abortRunning, giveUpTurn_eq]; rfl
  rw [ends, setChannel_setChannel, orphanEntries, channel_modChannel_self, postAborted_eq, channel_setChannel_self, abandoned_twice]
  rfl

theorem loadLeaving_aborted (quiet : s.hp.phase = .joining ∨ s.hp.phase = .running ∨ loadLeaving s = s) :
    loadLeaving (abortRunning ch s) = abortRunning ch s := by
  rw [abortRunning_eq]
  rcases quiet with p | p | p
  · exact loadLeaving_phase (by show s.hp.phase ≠ .leaving; simp [p])
  · exact loadLeaving_phase (by show s.hp.phase ≠ .leaving; simp [p])
  · refine loadLeaving_entries p rfl rfl (fun i => ?_) rfl rfl
    simp only [State.entry, Vector.get_map, Option.map_eq_none_iff]

end

/-- Settles O33: the fetch begins at the head given, or at the resume address kept. -/
theorem submitAndResumeStartChains : Obligations.SubmitAndResumeStartChains := by
  refine ⟨fun b => rfl, fun o ch k s live quiet ready phase hch cls idle aligned range => ?_,
    fun o ch k a s live quiet ready phase hch cls resume from' => ?_⟩
  · have begins : decideSubmit o (atDecision .submit s) = startFetch ch (modChannel ch (fun c =>
        { c.cleared with cls := k, resume := some (o.head.setWidth 17), state := .active }) (carryOut (atDecision .submit s))) := by
      refine (if_neg (not_not.2 phase)).trans ?_
      rw [channelOf_val hch, cls]
      exact (if_neg (not_not.2 idle)).trans (if_neg (by omega))
    have address : (o.head.setWidth 17).toNat = o.head.toNat := by
      rw [BitVec.toNat_setWidth]; omega
    refine (happening_asks live quiet ((withOperands_whole ready o decideSubmit).trans
      (begins.trans (startFetch_after rfl))) rfl rfl rfl rfl rfl).trans ?_
    rw [← address]; rfl
  · have begins : decideResume o (atDecision .resume s) = restart ch k (atDecision .resume s) := by
      refine (if_neg (not_not.2 phase)).trans ?_
      have same : (atDecision .resume s).channel ch = s.channel ch := rfl
      rw [channelOf_val hch, cls]
      simp only [same]
      rcases from' with e | e <;> rw [e, resume]
    exact happening_asks live quiet ((withOperands_whole ready o decideResume).trans (begins.trans (startFetch_after resume)))
      rfl rfl rfl rfl rfl

/-- Settles O34: what a channel that runs gives up, and what of it stays in the store's lists. -/
theorem abortGivesUpChain : Obligations.AbortGivesUpChain := by
  refine ⟨fun ch w => ⟨?_, ?_⟩, fun ch t => ?_, ?_, fun b ch s live h ready phase hch faulted => ?_,
    fun s x rest live quiet granted front => ?_⟩
  · cases w <;> simp [CeWork.owner]
  · cases w <;> simp [CeWork.isPayload]
  · cases t <;> simp [Turn.isOf]
  · intro b ch s live ready phase hch runs
    have begins : decideAbort b (atDecision .abort s) = abortRunning ch (carryOut (atDecision .abort s)) := by
      refine (if_neg (by rcases phase with p | p | ⟨p, _⟩ <;> simp [atDecision, p])).trans ?_
      have same : (atDecision .abort s).channel ch = s.channel ch := rfl
      rw [channelOf_val hch]
      simp only [same]
      rcases runs with e | e | e | e <;> rw [e]
    have done : withOperands .abort (.whole b) decideAbort s = _ :=
      (withOperands_whole ready b decideAbort).trans (begins.trans abortRunning_eq)
    have quiet := loadLeaving_aborted (ch := ch) (s := carryOut (atDecision .abort s)) (phase.imp_right fun p => p.imp_right fun p =>
      loadLeaving_same (s := s) p.2 rfl rfl rfl rfl rfl)
    rw [abortRunning_eq] at quiet
    exact ⟨_, happening_grant live done quiet, channel_setChannel_self .., 
      fun k other => (channel_setChannel s ch k _).trans (if_neg other), fun i => Vector.get_map ..,
      rfl, rfl, rfl, rfl, rfl, rfl, ⟨rfl, grantNext_askedCe (grantNext_arb rfl)⟩, rfl, rfl, rfl, rfl, rfl, rfl, rfl, rfl⟩
  · have begins : decideAbort b (atDecision .abort s) = modChannel ch Channel.aborted (carryOut (atDecision .abort s)) := by
      refine (if_neg (by rcases phase with p | p | p <;> simp [atDecision, p])).trans ?_
      have same : (atDecision .abort s).channel ch = s.channel ch := rfl
      rw [channelOf_val hch]
      simp only [same, faulted]
    exact happening_same live h ((withOperands_whole ready b decideAbort).trans begins) rfl rfl rfl rfl rfl rfl
  · exact accessEnd_asks live quiet granted front rfl rfl rfl rfl rfl rfl

end Sys2Proof.Machine
end

section
/-! How a fetched word ends, and how the writes of a channel end. -/

namespace Sys2Proof.Machine

section
variable {s t : State} {ch : ChannelNo} {cur : Current}

/-! ## Fetching and checking (R23, R24, R26, R42) -/

theorem failFetch_eq (a : Addr) (code : FaultCode) : failFetch ch a code s = asking (faultWrite ch ⟨code, a, 0⟩)
    (setChannel ch { (s.channel ch).cleared with fault := some ⟨code, a, 0⟩ } s) := rfl

theorem fetchWord_more {a : Addr} {got b : List Byte} (word : b.length = 8) (more : got.length < 24) :
    fetchWord ch a got (.data b) s
      = asking (.read (wordOf (a.toNat + (got.length + 8))), .fetch ch a (got ++ b)) s := by
  have length : (got ++ b).length = got.length + 8 := by rw [List.length_append, word]
  exact (if_pos (by omega)).trans (by rw [length]; rfl)

theorem fetchWord_last {a : Addr} {got b : List Byte} (word : b.length = 8) (last : 24 ≤ got.length) :
    fetchWord ch a got (.data b) s = fetched ch a (got ++ b) s :=
  if_neg (by rw [List.length_append, word]; omega)

theorem fetched_fails {a : Addr} {b : List Byte} {code : FaultCode}
    (failed : (descriptorOf b).check s.own (targetPresent (descriptorOf b) s) = some code) :
    fetched ch a b s = failFetch ch a code s := by
  simp only [fetched, failed]

theorem fetched_passes {a : Addr} {b : List Byte}
    (passed : (descriptorOf b).check s.own (targetPresent (descriptorOf b) s) = none) :
    fetched ch a b s = keepDescriptor ch a b s := by
  simp only [fetched, passed]

/-! ## AWAIT (R43, R117) -/

theorem takeMatching_oldest {tag : BitVec 16} {filter : Byte} {n : Notice} {later : List Notice}
    (matched : noticeMatches n tag filter = true) : ∀ {before : List Notice}, (∀ m ∈ before, noticeMatches m tag filter = false) →
      takeMatching tag filter (before ++ n :: later) = some (n, before ++ later)
  | [], _ => if_pos matched
  | m :: before, others => by
    have rest := takeMatching_oldest (later := later) matched fun k hk => others k (List.mem_cons_of_mem m hk)
    rw [List.cons_append, takeMatching, others m List.mem_cons_self, rest]
    rfl

theorem takeMatching_none {tag : BitVec 16} {filter : Byte} : ∀ {rs : List Notice},
    (∀ m ∈ rs, noticeMatches m tag filter = false) → takeMatching tag filter rs = none
  | [], _ => rfl
  | m :: rs, others => by
    have rest := takeMatching_none fun k hk => others k (List.mem_cons_of_mem m hk)
    rw [takeMatching, others m List.mem_cons_self, rest]
    rfl

theorem startAwait_takes {n : Notice} {rest : List Notice} (current : (s.channel ch).current = some cur)
    (await : (descriptorOf cur.bytes).op = some .await)
    (taken : takeMatching (descriptorOf cur.bytes).tag (descriptorOf cur.bytes).target s.nq.records = some (n, rest)) :
    startAwait ch (descriptorOf cur.bytes) s = asking (noticeWrite ch cur n)
      (setChannel ch { s.channel ch with state := .active } { s with nq := { s.nq with records := rest } }) := by
  simp only [startAwait, taken]
  exact giveNotice_eq (s := { s with nq := { s.nq with records := rest } }) n current await

theorem startAwait_waits {d : Descriptor} (none : takeMatching d.tag d.target s.nq.records = none) :
    startAwait ch d s = { setChannel ch { s.channel ch with state := .awaiting } s with
      nq := { s.nq with waiters := s.nq.waiters ++ [⟨ch, d.tag, d.target⟩] } } := by
  simp only [startAwait, none]; rfl

/-- A channel whose descriptor has passed its checks (R41). -/
def Channel.keeping (c : Channel) (cur : Current) : Channel := { c.restarted with current := some cur }

theorem keepDescriptor_other {a : Addr} {b : List Byte} (other : (descriptorOf b).op ≠ some .await) :
    keepDescriptor ch a b s = setChannel ch ((s.channel ch).keeping ⟨a, b⟩) s := if_neg other

theorem keepDescriptor_takes {a : Addr} {b : List Byte} {n : Notice} {rest : List Notice} (await : (descriptorOf b).op = some .await)
    (taken : takeMatching (descriptorOf b).tag (descriptorOf b).target s.nq.records = some (n, rest)) :
    keepDescriptor ch a b s = asking (noticeWrite ch ⟨a, b⟩ n)
      (setChannel ch { (s.channel ch).keeping ⟨a, b⟩ with state := .active } { s with nq := { s.nq with records := rest } }) := by
  have same : (setChannel ch ((s.channel ch).keeping ⟨a, b⟩) s).channel ch = (s.channel ch).keeping ⟨a, b⟩ := channel_setChannel_self ..
  refine (if_pos await).trans ((startAwait_takes (cur := ⟨a, b⟩)
    (s := setChannel ch ((s.channel ch).keeping ⟨a, b⟩) s) (by rw [same]; rfl) await taken).trans ?_)
  rw [same]
  exact congrArg (asking _) (setChannel_setChannel (s := { s with nq := { s.nq with records := rest } }) ..)

theorem keepDescriptor_waits {a : Addr} {b : List Byte} (await : (descriptorOf b).op = some .await)
    (none : takeMatching (descriptorOf b).tag (descriptorOf b).target s.nq.records = none) :
    keepDescriptor ch a b s = { setChannel ch { (s.channel ch).keeping ⟨a, b⟩ with state := .awaiting } s with
      nq := { s.nq with waiters := s.nq.waiters ++ [⟨ch, (descriptorOf b).tag, (descriptorOf b).target⟩] } } := by
  have same : (setChannel ch ((s.channel ch).keeping ⟨a, b⟩) s).channel ch = (s.channel ch).keeping ⟨a, b⟩ := channel_setChannel_self ..
  refine (if_pos await).trans ((startAwait_waits (s := setChannel ch ((s.channel ch).keeping ⟨a, b⟩) s) none).trans ?_)
  rw [same, setChannel_setChannel]; rfl

/-! ## The end of a completion and of a fault report (R32, R33, R42) -/

theorem modChannel_pushed (g : Channel → Channel) (e : Event) (c : Channel) :
    modChannel ch g (pushEvent e (setChannel ch c s)) = setChannel ch (g c) (pushEvent e s) := by
  have read : (pushEvent e (setChannel ch c s)).channel ch = c := channel_setChannel_self ..
  rw [modChannel_eq, read]
  exact setChannel_setChannel (s := pushEvent e s) ..

/-- The event of a completed descriptor. -/
def doneEvent (ch : ChannelNo) (cur : Current) (k : EventKind) : Event :=
  { kind := k, channel := ch, code := none, address := cur.address, detail := 0 }

/-- The event of a fault report. -/
def faultEvent (ch : ChannelNo) (r : FaultRecord) : Event :=
  { kind := .chainFault, channel := ch, code := some r.code, address := r.address, detail := r.offset }

/-- A channel past a completed descriptor, before it goes on (R32). -/
def Channel.past (c : Channel) (cur : Current) : Channel :=
  { c with resume := some (descriptorOf cur.bytes).next, current := none, swapResult := none }

/-- A channel that becomes HELD with an event (R58). -/
def holding (ch : ChannelNo) (c : Channel) (e : Event) (s : State) : State :=
  setHeld (s.ce.held ++ [ch]) (setChannel ch { c with state := .held, pendingEvent := some e } s)

theorem finishDescriptor_eq (h : (s.channel ch).current = some cur) : finishDescriptor ch s =
    if (descriptorOf cur.bytes).stop then
      offerEvent ch (doneEvent ch cur .chainDone) (setChannel ch ((s.channel ch).past cur) s)
    else if (descriptorOf cur.bytes).notify then offerEvent ch (doneEvent ch cur .descriptorNotify) s
    else moveOn ch s := by
  have past : modChannel ch stepPast s = setChannel ch ((s.channel ch).past cur) s := by rw [modChannel_eq, stepPast_eq h]; rfl
  simp only [finishDescriptor, descriptor_of h, address_of h, past]
  rfl

/-- An event offered after the channel's record was written, where the queue is full. -/
theorem offerEvent_kept {e : Event} {c : Channel} (full : 32 ≤ s.ev.events.length) :
    offerEvent ch e (setChannel ch c s) = holding ch c e s := by
  refine (offerEvent_holds (s := setChannel ch c s) e full).trans ?_
  rw [channel_setChannel_self, setChannel_setChannel]; rfl

theorem finishDescriptor_done (h : (s.channel ch).current = some cur) (stop : (descriptorOf cur.bytes).stop = true)
    (room : s.ev.events.length < 32) : finishDescriptor ch s =
      setChannel ch { (s.channel ch).past cur with state := .idle } (pushEvent (doneEvent ch cur .chainDone) s) := by
  rw [finishDescriptor_eq h, if_pos stop]
  exact (offerEvent_posts (s := setChannel ch ((s.channel ch).past cur) s) (doneEvent ch cur .chainDone) room).trans
    (modChannel_pushed (fun c => { c with state := .idle }) ..)

theorem finishDescriptor_doneHeld (h : (s.channel ch).current = some cur) (stop : (descriptorOf cur.bytes).stop = true)
    (full : 32 ≤ s.ev.events.length) :
    finishDescriptor ch s = holding ch ((s.channel ch).past cur) (doneEvent ch cur .chainDone) s := by
  rw [finishDescriptor_eq h, if_pos stop]
  exact offerEvent_kept full

theorem finishDescriptor_plain (h : (s.channel ch).current = some cur) (stop : (descriptorOf cur.bytes).stop = false)
    (notify : (descriptorOf cur.bytes).notify = false) : finishDescriptor ch s =
      asking (fetchFirst ch (descriptorOf cur.bytes).next) (setChannel ch ((s.channel ch).movedOn (descriptorOf cur.bytes).next) s) := by
  rw [finishDescriptor_eq h, stop, notify]
  exact moveOn_eq h

theorem finishDescriptor_notify (h : (s.channel ch).current = some cur) (stop : (descriptorOf cur.bytes).stop = false)
    (notify : (descriptorOf cur.bytes).notify = true) (room : s.ev.events.length < 32) : finishDescriptor ch s =
      asking (fetchFirst ch (descriptorOf cur.bytes).next) (setChannel ch ((s.channel ch).movedOn (descriptorOf cur.bytes).next)
        (pushEvent (doneEvent ch cur .descriptorNotify) s)) := by
  rw [finishDescriptor_eq h, stop, notify]
  exact (offerEvent_posts _ room).trans (moveOn_eq (s := pushEvent (doneEvent ch cur .descriptorNotify) s) h)

theorem finishDescriptor_notifyHeld (h : (s.channel ch).current = some cur) (stop : (descriptorOf cur.bytes).stop = false)
    (notify : (descriptorOf cur.bytes).notify = true) (full : 32 ≤ s.ev.events.length) :
    finishDescriptor ch s = holding ch (s.channel ch) (doneEvent ch cur .descriptorNotify) s := by
  rw [finishDescriptor_eq h, stop, notify]
  exact offerEvent_holds _ full

theorem reportFault_posts (r : FaultRecord) (room : s.ev.events.length < 32) : reportFault ch r s =
    setChannel ch { s.channel ch with fault := some r, state := .faulted } (pushEvent (faultEvent ch r) s) :=
  (offerEvent_posts (s := modChannel ch (fun c => { c with fault := some r }) s) (faultEvent ch r) room).trans
    (modChannel_pushed (fun c => { c with state := .faulted }) ..)

theorem reportFault_holds (r : FaultRecord) (full : 32 ≤ s.ev.events.length) :
    reportFault ch r s = holding ch { s.channel ch with fault := some r } (faultEvent ch r) s :=
  offerEvent_kept full

theorem advanceEnded_eq {o : StoreOutcome} {next : Descriptor → State → State} {j : Access × CeWork}
    (h : (s.channel ch).current = some cur) (e : next (descriptorOf cur.bytes) s = asking j s) :
    advanceEnded ch o next s = asking (if o.isError then faultWrite ch ⟨.storeError, cur.address, 0⟩ else j) s := by
  simp only [advanceEnded, descriptor_of h]
  split
  · rw [completionFault, address_of h]; rfl
  · exact e

end

/-- Settles O35: the fourth word brings the checks, and an AWAIT that passes starts at once. -/
theorem fetchWordEnds : Obligations.FetchWordEnds := by
  intro s ch a got w rest live quiet granted front st arb channels fails
  have failing {c : FaultCode} (e : fetchWord ch a got (performAccess s.st (.read w)).2 (accessMade (.read w) rest s)
      = failFetch ch a c (accessMade (.read w) rest s)) : exec .storeAccessEnd s = fails c :=
    accessEnd_asks live quiet granted front (e.trans (failFetch_eq a c)) rfl rfl rfl rfl rfl
  refine ⟨fun bad => failing ?_, fun readable more => ?_, ?_⟩
  · rw [performAccess_read_uncorrectable bad]; rfl
  · have data : (performAccess s.st (.read w)).2 = .data (wordBytes s.st w) := by rw [performAccess_read_readable readable]
    have next : actCe (.fetch ch a got) (performAccess s.st (.read w)).2 (accessMade (.read w) rest s) = _ :=
      (congrArg (fetchWord ch a got · _) data).trans (fetchWord_more (wordBytes_length ..) more)
    exact accessEnd_asks live quiet granted front next rfl rfl rfl rfl rfl
  · intro readable last d kept present
    have data : (performAccess s.st (.read w)).2 = .data (wordBytes s.st w) := by rw [performAccess_read_readable readable]
    have checks : fetchWord ch a got (performAccess s.st (.read w)).2 (accessMade (.read w) rest s)
        = fetched ch a (got ++ wordBytes s.st w) (accessMade (.read w) rest s) :=
      (congrArg (fetchWord ch a got · _) data).trans (fetchWord_last (wordBytes_length ..) last)
    have passes (passed : d.check s.own present = none) : fetchWord ch a got (performAccess s.st (.read w)).2 (accessMade (.read w) rest s)
        = keepDescriptor ch a (got ++ wordBytes s.st w) (accessMade (.read w) rest s) :=
      checks.trans (fetched_passes (s := accessMade (.read w) rest s) passed)
    refine ⟨fun c failed => failing (checks.trans (fetched_fails (s := accessMade (.read w) rest s) failed)), fun passed other => ?_, fun passed await => ⟨?_, fun others => ?_⟩⟩
    · have ends := (passes passed).trans (keepDescriptor_other other)
      refine (accessEnd_asks live quiet granted front ends rfl rfl rfl rfl rfl).trans ?_
      simp only [arb, List.append_nil]; rfl
    · intro before n later records matched others
      have taken : takeMatching d.tag d.target s.nq.records = some (n, before ++ later) := by
        rw [records]; exact takeMatching_oldest matched others
      exact accessEnd_asks live quiet granted front
        ((passes passed).trans (keepDescriptor_takes (s := accessMade (.read w) rest s) await taken)) rfl rfl rfl rfl rfl
    · have ends := (passes passed).trans (keepDescriptor_waits (s := accessMade (.read w) rest s) await (takeMatching_none others))
      refine (accessEnd_asks live quiet granted front ends rfl rfl rfl rfl rfl).trans ?_
      simp only [arb, List.append_nil]; rfl

/-- Settles O38: each write of a channel, by what is written and by how its access ended. -/
theorem statusWriteEnds : Obligations.StatusWriteEnds := by
  refine ⟨?_, ?_, ?_, ?_⟩
  · intro s ch x cur rest live quiet granted front written current d c e past next arb fetch after
    have finishes : actCe (.doneStatus ch) (performAccess s.st x).2 (accessMade x rest s) = finishDescriptor ch (accessMade x rest s) := by
      rw [written]; rfl
    refine ⟨fun stop room => ?_, fun stop full => ?_, fun stop notify => ?_, fun stop notify room => ?_, fun stop notify full => ?_⟩
    · have ends := finishes.trans (finishDescriptor_done (s := accessMade x rest s) current stop room)
      refine (accessEnd_asks live quiet granted front ends rfl rfl rfl rfl rfl).trans ?_
      simp only [after, arb, List.append_nil]; rfl
    · have ends := finishes.trans (finishDescriptor_doneHeld (s := accessMade x rest s) current stop full)
      refine (accessEnd_asks live quiet granted front ends rfl rfl rfl rfl rfl).trans ?_
      simp only [after, arb, List.append_nil]; rfl
    · have ends := finishes.trans (finishDescriptor_plain (s := accessMade x rest s) current stop notify)
      refine (accessEnd_asks live quiet granted front ends rfl rfl rfl rfl rfl).trans ?_
      simp only [after, arb, List.append_nil]; rfl
    · have ends := finishes.trans (finishDescriptor_notify (s := accessMade x rest s) current stop notify room)
      refine (accessEnd_asks live quiet granted front ends rfl rfl rfl rfl rfl).trans ?_
      simp only [after, arb, List.append_nil]; rfl
    · have ends := finishes.trans (finishDescriptor_notifyHeld (s := accessMade x rest s) current stop notify full)
      refine (accessEnd_asks live quiet granted front ends rfl rfl rfl rfl rfl).trans ?_
      simp only [after, arb, List.append_nil]; rfl
  · intro s ch x r rest live quiet granted front e after
    refine ⟨fun room => ?_, fun full => ?_⟩
    · refine (accessEnd_asks live quiet granted front (reportFault_posts (s := accessMade x rest s) r room) rfl rfl rfl rfl rfl).trans ?_
      simp only [after, List.append_nil]; rfl
    · refine (accessEnd_asks live quiet granted front (reportFault_holds (s := accessMade x rest s) r full) rfl rfl rfl rfl rfl).trans ?_
      simp only [after, List.append_nil]; rfl
  · intro s ch x cur b rest live quiet granted front refused current r e after
    have faults : actCe (.doneStatus ch) (performAccess s.st x).2 (accessMade x rest s) = reportFault ch r (accessMade x rest s) := by
      have fault : completionFault ((accessMade x rest s).channel ch) = r := by
        rw [completionFault, address_of (s := accessMade x rest s) current]
      rw [refused, ← fault]; rfl
    refine ⟨fun room => ?_, fun full => ?_⟩
    · refine (accessEnd_asks live quiet granted front (faults.trans (reportFault_posts (s := accessMade x rest s) r room))
        rfl rfl rfl rfl rfl).trans ?_
      simp only [after, List.append_nil]; rfl
    · refine (accessEnd_asks live quiet granted front (faults.trans (reportFault_holds (s := accessMade x rest s) r full))
        rfl rfl rfl rfl rfl).trans ?_
      simp only [after, List.append_nil]; rfl
  · intro s ch x work cur rest live granted front current made asks failed fault
    have now : (made.channel ch).current = some cur := current
    refine ⟨?_, ?_, ?_, ?_, ?_⟩
    · rintro rfl
      exact accessEnd_settles live granted front (advanceEnded_eq now (advanceRemote_eq now))
    · rintro rfl
      exact accessEnd_settles live granted front (advanceEnded_eq now (askDoneStatus_eq now))
    · rintro r offset rfl
      refine ⟨fun more => ?_, fun last fine => ?_, fun last bad => ?_⟩
      · exact accessEnd_settles live granted front (if_pos more)
      · exact accessEnd_settles live granted front ((if_neg (not_not.2 last)).trans (if_neg (ne_true_of_eq_false fine)))
      · exact accessEnd_settles live granted front ((if_neg (not_not.2 last)).trans (if_pos bad))
    · rintro rfl
      refine ⟨fun fine => ?_, fun bad => ?_⟩
      · exact accessEnd_settles live granted front (if_neg (ne_true_of_eq_false fine))
      · exact accessEnd_settles live granted front (if_pos bad)
    · rintro r rfl await
      refine ⟨fun more => ?_, fun last fine => ?_, fun last bad => ?_⟩
      · exact accessEnd_settles live granted front (if_pos more)
      · have ends : actCe (.valueWrite ch r) (performAccess s.st x).2 made = startCompletion ch made :=
          (if_neg (not_not.2 last)).trans (if_neg (ne_true_of_eq_false fine))
        rw [startCompletion_eq now, completionWrite_await await] at ends
        exact accessEnd_settles live granted front ends
      · exact accessEnd_settles live granted front ((if_neg (not_not.2 last)).trans (if_pos bad))

end Sys2Proof.Machine
end

section
/-! The checks of a descriptor, and how a block is cut into segments: the arithmetic of descriptors. -/

namespace Sys2Proof.Machine

section
variable {d : Descriptor} {own : BitVec 5} {op : Op}

/-! ## Checks (R24, R25) -/

/-- Checks 2 to 7 of a descriptor with an op. -/
def Descriptor.sound (d : Descriptor) (op : Op) (own : BitVec 5) : Bool :=
  d.next.toNat % 32 = 0 && d.targetOk op own && d.countOk op && d.rangesOk op && d.alignedOk op

theorem check_unsound {present : Bool} (h : d.op = some op) (no : d.sound op own = false) :
    d.check own present = some .badDescriptor := by
  simp only [Descriptor.check, h]
  exact if_neg (ne_true_of_eq_false no)

theorem check_sound {present : Bool} (h : d.op = some op) (yes : d.sound op own = true) :
    d.check own present = if op.isRemote && !present then some .peerAbsent else none := by
  simp only [Descriptor.check, h]
  exact if_pos yes

/-- Checks that decide a remote op: 2 to 7 by a condition, and 8 by the presence of the target. -/
theorem check_remote {ok : Prop} {present : Bool} (h : d.op = some op) (remote : op.isRemote = true) (sound : d.sound op own = true ↔ ok) :
    (¬ ok → d.check own present = some .badDescriptor)
      ∧ (ok → d.check own present = if present then none else some .peerAbsent) := by
  refine ⟨fun no => check_unsound h (Bool.eq_false_iff.2 fun k => no (sound.1 k)), fun yes => ?_⟩
  rw [check_sound h (sound.2 yes), remote]
  cases present <;> rfl

/-- The part of a range from its first line's start to its last line's start. -/
theorem lineCount_block (block : d.op = some .put ∨ d.op = some .get) :
    d.lineCount = (if d.plane then d.lines else 1) ∧ d.localStep = (if d.plane then d.localPitch else 0)
      ∧ d.remoteStep = (if d.plane then d.remotePitch else 0) := by
  have plane : d.hasPlane = d.plane := by rcases block with h | h <;> simp [Descriptor.hasPlane, h, Op.isBlock]
  simp only [Descriptor.lineCount, Descriptor.localStep, Descriptor.remoteStep, plane, and_self]

theorem lineCount_single (single : d.op = some .swap ∨ d.op = some .notice) : d.lineCount = 1 := by
  have plane : d.hasPlane = false := by rcases single with h | h <;> simp [Descriptor.hasPlane, h, Op.isBlock]
  simp only [Descriptor.lineCount, plane, Bool.false_eq_true, if_false]

/-- A last byte at or below the store's last is an end at or below its size. -/
theorem range_le {a m n : Nat} (_ : 1 ≤ n) : a + m + n - 1 ≤ 0x1FFFF ↔ a + m + n ≤ 0x20000 := by omega

theorem sound_block (h : op = .put ∨ op = .get) (is : d.op = some op) : d.sound op own = true ↔
    (d.next.toNat % 32 = 0 ∧ d.target.toNat ≠ own.toNat) ∧ d.target.toNat ≤ 30 ∧ 1 ≤ d.count
      ∧ (d.plane = true → 1 ≤ d.lines ∧ d.lines ≤ 4096)
      ∧ d.localAt.toNat + ((if d.plane then d.lines else 1) - 1) * d.localPitch + d.count ≤ 0x20000
      ∧ d.remoteAt.toNat + ((if d.plane then d.lines else 1) - 1) * d.remotePitch + d.count ≤ 0x20000 := by
  obtain ⟨lines, localStep, remoteStep⟩ := lineCount_block (d := d) (by rcases h with rfl | rfl <;> simp [is])
  have pitch (n : Nat) : ((if d.plane then d.lines else 1) - 1) * (if d.plane then n else 0)
      = ((if d.plane then d.lines else 1) - 1) * n := by cases d.plane <;> simp
  have parts : d.sound op own = true ↔ d.next.toNat % 32 = 0 ∧ (d.target.toNat ≤ 30 ∧ d.target.toNat ≠ own.toNat)
      ∧ (1 ≤ d.count ∧ (d.plane = true → 1 ≤ d.lines ∧ d.lines ≤ 4096))
      ∧ d.localAt.toNat + (d.lineCount - 1) * d.localStep + d.count - 1 ≤ 0x1FFFF
      ∧ d.remoteAt.toNat + (d.lineCount - 1) * d.remoteStep + d.count - 1 ≤ 0x1FFFF := by
    rcases h with rfl | rfl
    all_goals
      simp only [Descriptor.sound, Descriptor.targetOk, Descriptor.countOk, Descriptor.rangesOk, Descriptor.alignedOk,
        Descriptor.localLast, Descriptor.remoteLast, Op.isRemote, if_true, Option.all_some, Bool.and_eq_true, Bool.or_eq_true,
        Bool.not_eq_true', decide_eq_true_eq, and_true, and_assoc]
      cases d.plane <;> simp
  rw [parts, lines, localStep, remoteStep, pitch, pitch]
  constructor
  · rintro ⟨next, ⟨target, own⟩, ⟨count, plane⟩, loc, rem⟩
    exact ⟨⟨next, own⟩, target, count, plane, (range_le count).1 loc, (range_le count).1 rem⟩
  · rintro ⟨⟨next, own⟩, target, count, plane, loc, rem⟩
    exact ⟨next, ⟨target, own⟩, ⟨count, plane⟩, (range_le count).2 loc, (range_le count).2 rem⟩

theorem sound_swap : d.sound .swap own = true ↔ (d.next.toNat % 32 = 0 ∧ d.target.toNat ≠ own.toNat) ∧ d.target.toNat ≤ 30
    ∧ d.localAt.toNat % 4 = 0 ∧ d.remoteAt.toNat % 4 = 0 ∧ d.localAt.toNat + 12 ≤ 0x20000 ∧ d.remoteAt.toNat + 4 ≤ 0x20000 := by
  simp only [Descriptor.sound, Descriptor.targetOk, Descriptor.countOk, Descriptor.rangesOk, Descriptor.alignedOk, Descriptor.localLast,
    Descriptor.remoteLast, Op.isRemote, if_true, Option.all_some, Bool.and_eq_true, decide_eq_true_eq]
  grind

theorem sound_notice : d.sound .notice own = true ↔ (d.next.toNat % 32 = 0 ∧ d.target.toNat ≠ own.toNat) ∧ d.target.toNat ≤ 30
    ∧ d.count = 4 ∧ d.localAt.toNat + 4 ≤ 0x20000 := by
  simp only [Descriptor.sound, Descriptor.targetOk, Descriptor.countOk, Descriptor.rangesOk, Descriptor.alignedOk, Descriptor.localLast,
    Descriptor.remoteLast, Op.isRemote, if_true, Option.all_some, Option.all_none, Bool.and_eq_true, decide_eq_true_eq]
  grind

theorem sound_await : d.sound .await own = true ↔ d.next.toNat % 32 = 0 ∧ d.target.toNat ≠ own.toNat ∧ d.target.toNat ≤ 31
    ∧ (d.count = 4 ∨ d.count = 0 ∧ d.keepValue = false) ∧ (d.keepValue = true → d.localAt.toNat + 4 ≤ 0x20000) := by
  simp only [Descriptor.sound, Descriptor.targetOk, Descriptor.countOk, Descriptor.rangesOk, Descriptor.alignedOk, Descriptor.localLast,
    Descriptor.remoteLast, Op.isRemote, Bool.false_eq_true, if_false, Option.all_none, Bool.and_eq_true, Bool.or_eq_true,
    Bool.not_eq_true', decide_eq_true_eq, and_true]
  cases d.keepValue
  · simp only [Bool.false_eq_true, if_false, Option.all_none, and_true, false_imp_iff]; grind
  · simp only [if_true, Option.all_some, decide_eq_true_eq, true_imp_iff]; grind

/-! ## Segments (R27, R28) -/

/-- The length of the segment at a position: to the end of the remote page or of the line. -/
def Descriptor.cutAt (d : Descriptor) (line offset : Nat) : Nat :=
  min (256 - (d.remoteAt.toNat + line * d.remoteStep + offset) % 256) (d.count - offset)

theorem segmentAt_block (block : d.op = some .put ∨ d.op = some .get) (line offset : Nat) : d.segmentAt line offset =
    { localAt := d.localAt.toNat + line * d.localStep + offset, remoteAt := d.remoteAt.toNat + line * d.remoteStep + offset
      length := d.cutAt line offset, offset := line * d.count + offset
      last := decide (line + 1 = d.lineCount) && decide (offset + d.cutAt line offset = d.count) } := by
  rcases block with h | h <;> simp only [Descriptor.segmentAt, h] <;> rfl

theorem positionAfter_block (block : d.op = some .put ∨ d.op = some .get) (line offset : Nat) : d.positionAfter line offset =
    if offset + d.cutAt line offset < d.count then (line, offset + d.cutAt line offset) else (line + 1, 0) := by
  have length : (d.segmentAt line offset).length = d.cutAt line offset := by rw [segmentAt_block block]
  rcases block with h | h <;> simp only [Descriptor.positionAfter, h, length]

/-- Within a line the cut takes at least a byte, and ends at the end of the line or of a remote page. -/
theorem cutAt_spec {line offset : Nat} (inside : offset < d.count) :
    1 ≤ d.cutAt line offset ∧ offset + d.cutAt line offset ≤ d.count
      ∧ (d.remoteAt.toNat + line * d.remoteStep + offset) / 256
          = (d.remoteAt.toNat + line * d.remoteStep + offset + d.cutAt line offset - 1) / 256
      ∧ (offset + d.cutAt line offset = d.count
          ∨ (d.remoteAt.toNat + line * d.remoteStep + offset + d.cutAt line offset) % 256 = 0) := by
  unfold Descriptor.cutAt
  generalize d.remoteAt.toNat + line * d.remoteStep + offset = remote
  omega

theorem pastEnd_eq : d.pastEnd = (d.lineCount - 1) * 65535 + if d.op = some .put ∨ d.op = some .get then d.count else 1 := by
  simp only [Descriptor.pastEnd, any_isBlock]

theorem advanced_block (block : d.op = some .put ∨ d.op = some .get) :
    d.advancedLocal.toNat = (d.localAt.toNat + if d.plane = true then d.lines * d.localPitch else d.count) % 131072
      ∧ d.advancedRemote.toNat = (d.remoteAt.toNat + if d.plane = true then d.lines * d.remotePitch else d.count) % 131072 := by
  have plane : d.hasPlane = d.plane := by rcases block with h | h <;> simp [Descriptor.hasPlane, h, Op.isBlock]
  simp only [Descriptor.advancedLocal, Descriptor.advancedRemote, plane, BitVec.toNat_ofNat]
  norm_num

end

/-- Settles O36: the checks of each op, by exact arithmetic. -/
theorem fetchChecksDecide : Obligations.FetchChecksDecide := by
  intro d own present common lines pitch remote
  refine ⟨fun none => ?_, fun block => ?_, fun swap => check_remote swap rfl ?_, fun notice => check_remote notice rfl ?_, fun await => ?_⟩
  · simp only [Descriptor.check, none]
  · rcases block with h | h
    · exact check_remote h rfl (sound_block (.inl rfl) h)
    · exact check_remote h rfl (sound_block (.inr rfl) h)
  · exact sound_swap
  · exact sound_notice
  · split
    · rename_i ok; exact check_sound await (sound_await.2 ok)
    · rename_i no; exact check_unsound await (Bool.eq_false_iff.2 fun k => no (sound_await.1 k))

/-- Settles O37: a segment ends at the end of its line or of the remote page, and the next begins where it ends. -/
theorem segmentsCut : Obligations.SegmentsCut := by
  refine ⟨fun d line offset => ⟨fun h => ?_, fun h => ?_⟩, fun d => lineCount_block, fun d => lineCount_single, ?_, ?_⟩
  · simp only [Descriptor.segmentAt, h]
  · simp only [Descriptor.segmentAt, h]
  · intro d free size q
    obtain ⟨line, offset, past⟩ := d.endPosition_past free
    refine ⟨line, offset, fun some small room => ?_⟩
    rw [pastEnd_eq] at past
    have beyond : (d.lineCount - 1) * 65535 + size ≤ 65535 * q.1 + q.2 := past (by omega)
    have inLine : q.2 ≤ 65534 := offset
    omega
  · intro d line offset block inLines inside g remote
    obtain ⟨some, within, page, ends⟩ := cutAt_spec (d := d) (line := line) inside
    have cut : g = _ := segmentAt_block block line offset
    have last : g.last = true ↔ line + 1 = d.lineCount ∧ offset + d.cutAt line offset = d.count := by
      rw [cut, Bool.and_eq_true, decide_eq_true_eq, decide_eq_true_eq]
    have length : g.length = d.cutAt line offset := by rw [cut]
    have byteOffset : g.offset = line * d.count + offset := by rw [cut]
    rw [length]
    refine ⟨by rw [cut], by rw [cut], byteOffset, some, within, page, ends, last, fun more => ?_, advanced_block block⟩
    have notLast : ¬ (line + 1 = d.lineCount ∧ offset + d.cutAt line offset = d.count) := fun k => ne_true_of_eq_false more (last.2 k)
    rw [positionAfter_block block, byteOffset]
    by_cases whole : offset + d.cutAt line offset = d.count
    · rw [if_neg (by omega), if_pos whole]
      refine ⟨rfl, ?_, ?_, ?_⟩
      · show line + 1 < d.lineCount; omega
      · show 0 < d.count; omega
      · rw [segmentAt_block block]
        show (line + 1) * d.count + 0 = line * d.count + offset + d.cutAt line offset
        rw [Nat.add_assoc, whole, Nat.add_mul, Nat.one_mul, Nat.add_zero]
    · rw [if_pos (by omega), if_neg whole]
      refine ⟨rfl, inLines, ?_, ?_⟩
      · show offset + d.cutAt line offset < d.count; omega
      · rw [segmentAt_block block]
        exact (Nat.add_assoc ..).symm

end Sys2Proof.Machine
end

section
/-! The choice of a turn: which channels are eligible, which entry is resent, and to which channel a turn goes. -/

namespace Sys2Proof.Machine

section
variable {s : State} {p : Station} {e : Entry}

/-! ## The entries of a target -/

theorem lowestFree_isSome : (lowestFree s).isSome = true ↔ ∃ i, s.entry i = none := by
  simp only [lowestFree, List.find?_isSome, List.mem_finRange, true_and, Option.isNone_iff_eq_none]

/-- The order of taking lists the held entries, each once. -/
theorem order_perm (listed : OrderListsHeld s) : s.rt.order.Perm ((List.finRange 16).filter fun i => (s.entry i).isSome) :=
  (List.perm_ext_iff_of_nodup listed.1 ((List.nodup_finRange 16).filter _)).2 fun i => by
    rw [listed.2, List.mem_filter]; simp

theorem entriesFor_eq (p : Station) : entriesFor s p
    = s.rt.order.filterMap fun i => ((s.entry i).filter fun e => decide (e.target = p)).map fun e => (i, e) := by
  rw [entriesFor, heldEntries, List.filter_filterMap]
  refine List.filterMap_congr fun i _ => ?_
  cases s.entry i with
  | none => rfl
  | some e => by_cases h : e.target = p <;> simp [Option.filter, h]

theorem entriesFor_length (listed : OrderListsHeld s) (p : Station) :
    (entriesFor s p).length = entryCount s fun e => decide (e.target = p) := by
  have some (i : Slot) : (((s.entry i).filter fun e => decide (e.target = p)).map fun e => (i, e)).isSome
      = ((s.entry i).any fun e => decide (e.target = p)) := by
    cases s.entry i with
    | none => rfl
    | some e => by_cases h : e.target = p <;> simp [Option.filter, h]
  have inHeld (i : Slot) : (((s.entry i).any fun e => decide (e.target = p)) && (s.entry i).isSome)
      = ((s.entry i).any fun e => decide (e.target = p)) := by
    cases s.entry i <;> simp
  rw [entriesFor_eq, List.length_filterMap_eq_countP, (order_perm listed).countP_eq, List.countP_filter, entryCount]
  simp only [some, inHeld]

theorem entriesFor_all (listed : OrderListsHeld s) (test : Entry → Bool) :
    (entriesFor s p).all (fun x => test x.2) = true ↔ ∀ i e, s.entry i = some e → e.target = p → test e = true := by
  rw [List.all_eq_true]
  constructor
  · rintro every i e he rfl
    exact every _ (mem_entriesFor_of listed he)
  · intro every x hx
    exact every x.1 x.2 (mem_entriesFor hx).1 (mem_entriesFor hx).2

theorem inRewind_iff : e.inRewind = true ↔ ∃ charged, e.state = .rewind charged := by
  unfold Entry.inRewind
  cases e.state <;> simp

/-- A target open for new frames (R66). -/
theorem targetOpen_iff (listed : OrderListsHeld s) : targetOpen s p = true ↔ (s.peer p).tx.backoff = none
    ∧ ∀ i e, s.entry i = some e → e.target = p → age s e ≠ 4 ∧ ∀ charged, e.state ≠ .rewind charged := by
  have young (e : Entry) : (!e.inRewind && decide (age s e ≠ 4)) = true ↔ age s e ≠ 4 ∧ ∀ charged, e.state ≠ .rewind charged := by
    rw [Bool.and_eq_true, Bool.not_eq_true', ← Bool.not_eq_true, inRewind_iff, decide_eq_true_eq, not_exists, and_comm]
  rw [targetOpen, Bool.and_eq_true, Option.isNone_iff_eq_none, entriesFor_all listed (fun e => !e.inRewind && decide (age s e ≠ 4))]
  simp only [young]

/-- An entry ready for its resend (R78). -/
theorem readyToResend_iff (listed : OrderListsHeld s) : readyToResend s e = true ↔ (∃ charged, e.state = .rewind charged)
    ∧ (s.peer e.target).tx.backoff = none
    ∧ ∀ j f, s.entry j = some f → f.target = e.target → age s e < age s f → f.state = .queued := by
  have older (f : Entry) : (decide (age s f ≤ age s e) || decide (f.state = .queued)) = true
      ↔ (age s e < age s f → f.state = .queued) := by
    rw [Bool.or_eq_true, decide_eq_true_eq, decide_eq_true_eq, or_iff_not_imp_left, Nat.not_le]
  rw [readyToResend, Bool.and_eq_true, Bool.and_eq_true, inRewind_iff, Option.isNone_iff_eq_none, and_assoc,
    entriesFor_all listed fun f => decide (age s f ≤ age s e) || decide (f.state = .queued)]
  simp only [older]

theorem unissued_iff {c : Channel} {d : Descriptor} :
    c.unissued d = true ↔ (∃ op, d.op = some op ∧ op ≠ .await) ∧ c.allIssued = false := by
  have remote : d.op.any Op.isRemote = true ↔ ∃ op, d.op = some op ∧ op ≠ .await := by
    rw [Option.any_eq_true]
    refine exists_congr fun op => and_congr_right fun _ => ?_
    cases op <;> simp [Op.isRemote]
  rw [Channel.unissued, Bool.and_eq_true, remote, Bool.not_eq_true']

/-- A channel with a descriptor is eligible exactly if its target can be told and everything of R46 holds. -/
theorem eligible_iff {ch : ChannelNo} : eligible s ch = true ↔ ∃ d p, (s.channel ch).descriptor = some d ∧ stationOf d.target = some p
    ∧ (s.channel ch).state = .active ∧ (s.channel ch).unissued d = true ∧ (lowestFree s).isSome = true
    ∧ (entriesFor s p).length < 4 ∧ targetOpen s p = true := by
  cases hd : (s.channel ch).descriptor with
  | none => simp [eligible, hd]
  | some d =>
    cases hp : stationOf d.target with
    | none => simp [eligible, hd, hp]
    | some p => simp [eligible, hd, hp, and_assoc]

/-- The first held entry in the order of taking that passes a test. -/
theorem heldEntries_find {test : Entry → Bool} {i : Slot} : ((heldEntries s).find? fun x => test x.2) = some (i, e)
    ↔ ∃ before later, s.rt.order = before ++ i :: later ∧ s.entry i = some e ∧ test e = true
      ∧ ∀ j ∈ before, ∀ f, s.entry j = some f → ¬ test f = true := by
  have any (j : Slot) : (((s.entry j).map fun f => (j, f)).any fun x => test x.2) = (s.entry j).any test := by
    cases s.entry j <;> rfl
  rw [heldEntries, List.find?_filterMap, Option.bind_eq_some_iff]
  simp only [any]
  constructor
  · rintro ⟨k, found, picked⟩
    obtain ⟨f, hf, same⟩ := Option.map_eq_some_iff.1 picked
    cases same
    obtain ⟨passes, before, later, order, others⟩ := List.find?_eq_some_iff_append.1 found
    refine ⟨before, later, order, hf, by simpa [hf] using passes, fun j hj f hf' => ?_⟩
    have no := others j hj
    rw [hf'] at no
    simpa using no
  · rintro ⟨before, later, order, he, passes, others⟩
    refine ⟨i, List.find?_eq_some_iff_append.2 ⟨by simpa [he] using passes, before, later, order, fun j hj => ?_⟩, by rw [he]; rfl⟩
    cases hf : s.entry j with
    | none => rfl
    | some f => simpa using others j hj f hf

/-- The entry resent is the first ready one in the order of taking. -/
theorem chooseResend_iff {i : Slot} : chooseResend s = some (i, e) ↔ ∃ before later, s.rt.order = before ++ i :: later
    ∧ s.entry i = some e ∧ readyToResend s e = true ∧ ∀ j ∈ before, ∀ f, s.entry j = some f → ¬ readyToResend s f = true :=
  heldEntries_find

/-! ## The rotation (R47) -/

theorem fromPointer_at (p : ChannelNo) : ∀ i : Fin 4, ((fromPointer p)[i.val]'i.isLt - p).val = i.val := by
  revert p; decide

theorem fromPointer_of (p k : ChannelNo) : (fromPointer p)[(k - p).val]'(k - p).isLt = k := by
  revert p k; decide

theorem find_fromPointer {p ch : ChannelNo} {test : ChannelNo → Bool} (h : (fromPointer p).find? test = some ch) :
    test ch = true ∧ ∀ k, test k = true → (ch - p).val ≤ (k - p).val := by
  obtain ⟨yes, i, hi, rfl, before⟩ := List.find?_eq_some_iff_getElem.1 h
  refine ⟨yes, fun k hk => ?_⟩
  refine (fromPointer_at p ⟨i, hi⟩).trans_le ?_
  by_contra earlier
  have no : (!test k) = true :=
    (congrArg (fun c => !test c) (fromPointer_of p k)).symm.trans (before (k - p).val (Nat.lt_of_not_le earlier))
  rw [hk] at no
  exact Bool.false_ne_true no

theorem chooseInClass_some {k : ChainClass} {ch : ChannelNo} (h : chooseInClass s k = some ch) : (s.channel ch).cls = k
    ∧ eligible s ch = true
    ∧ ∀ j, (s.channel j).cls = k → eligible s j = true → (ch - s.ce.rotation.get k).val ≤ (j - s.ce.rotation.get k).val := by
  obtain ⟨yes, first⟩ := find_fromPointer h
  simp only [Bool.and_eq_true, decide_eq_true_eq] at yes first
  exact ⟨yes.1, yes.2, fun j cls el => first j ⟨cls, el⟩⟩

theorem chooseInClass_none {k : ChainClass} : chooseInClass s k = none ↔ ∀ ch, (s.channel ch).cls = k → eligible s ch = false := by
  have every (ch : ChannelNo) : ch ∈ fromPointer (s.ce.rotation.get k) := by
    have this := List.getElem_mem (l := fromPointer (s.ce.rotation.get k)) (ch - s.ce.rotation.get k).isLt
    rwa [fromPointer_of] at this
  simp only [chooseInClass, List.find?_eq_none, every, true_imp_iff, Bool.and_eq_true, decide_eq_true_eq, not_and, Bool.not_eq_true]

/-- The channel chosen is the choice of a class above which no class has one. -/
theorem chooseChannel_some {ch : ChannelNo} (h : chooseChannel s = some ch) : ∃ k, chooseInClass s k = some ch
    ∧ ∀ m, (classByte m).toNat < (classByte k).toNat → chooseInClass s m = none := by
  rw [chooseChannel, Option.or_eq_some_iff, Option.or_eq_some_iff] at h
  rcases h with first | ⟨noUrgent, first | ⟨noNormal, first⟩⟩
  · exact ⟨.urgent, first, fun m lower => by cases m <;> simp [classByte] at lower⟩
  · refine ⟨.normal, first, fun m lower => ?_⟩
    cases m with
    | urgent => exact noUrgent
    | normal => exact absurd lower (Nat.lt_irrefl _)
    | bulk => simp [classByte] at lower
  · exact ⟨.bulk, first, fun m lower => by cases m <;> simp [classByte] at lower <;> assumption⟩

end

/-- Settles O39: eligibility and readiness are read off the entries held for the target. -/
theorem eligibleByTable : Obligations.EligibleByTable := by
  intro s listed
  refine ⟨fun ch => ?_, ?_⟩
  · rw [eligible_iff]
    constructor
    · rintro ⟨d, p, hd, target, active, unissued, free, few, isOpen⟩
      obtain ⟨cur, current, rfl⟩ := Option.map_eq_some_iff.1 hd
      obtain ⟨⟨op, hop, remote⟩, left⟩ := unissued_iff.1 unissued
      obtain ⟨backoff, young⟩ := (targetOpen_iff listed).1 isOpen
      rw [entriesFor_length listed] at few
      exact ⟨cur, op, p, current, hop, remote, target, active, left, lowestFree_isSome.1 free, few, backoff, young⟩
    · rintro ⟨cur, op, p, current, hop, remote, target, active, left, free, few, backoff, young⟩
      exact ⟨descriptorOf cur.bytes, p, descriptor_of current, target, active, unissued_iff.2 ⟨⟨op, hop, remote⟩, left⟩,
        lowestFree_isSome.2 free, by rw [entriesFor_length listed]; exact few, (targetOpen_iff listed).2 ⟨backoff, young⟩⟩
  · intro ready i e
    have same (f : Entry) : ready f ↔ readyToResend s f = true := (readyToResend_iff listed).symm
    rw [chooseResend_iff]
    simp only [same]

/-- Settles O40: the classes are asked in their order, each from its pointer on. -/
theorem turnChoice : Obligations.TurnChoice := by
  intro s
  refine ⟨?_, fun ch chosen => ?_⟩
  · simp only [chooseChannel, Option.or_eq_none_iff, chooseInClass_none]
    constructor
    · rintro ⟨urgent, normal, bulk⟩ ch
      cases cls : (s.channel ch).cls with
      | urgent => exact urgent ch cls
      | normal => exact normal ch cls
      | bulk => exact bulk ch cls
    · exact fun no => ⟨fun ch _ => no ch, fun ch _ => no ch, fun ch _ => no ch⟩
  · obtain ⟨k, found, higher⟩ := chooseChannel_some chosen
    obtain ⟨rfl, yes, first⟩ := chooseInClass_some found
    refine ⟨yes, fun j hj => ⟨?_, fun same => first j same hj⟩⟩
    by_contra lower
    have no := chooseInClass_none.1 (higher _ (Nat.lt_of_not_le lower)) j rfl
    rw [hj] at no
    cases no

end Sys2Proof.Machine
end

section
/-! Issue turns: a channel's turn and a resend turn, with a payload to read and without one. -/

namespace Sys2Proof.Machine

section
variable {s t : State} {ch : ChannelNo} {d : Descriptor} {p : Station} {i : Slot} {e : Entry} {k : RequestKind} {cur : Current}

/-! ## The free entry and the position after a segment -/

theorem lowestFree_iff : lowestFree s = some i ↔ s.entry i = none ∧ ∀ j, j < i → s.entry j ≠ none := by
  rw [lowestFree, List.find?_eq_some_iff_getElem]
  simp only [List.getElem_finRange, Option.isNone_iff_eq_none, Bool.not_eq_true', ← Bool.not_eq_true, List.length_finRange]
  constructor
  · rintro ⟨free, n, hn, rfl, before⟩
    exact ⟨free, fun j hj => before j.val hj⟩
  · rintro ⟨free, before⟩
    exact ⟨free, i.val, i.isLt, rfl, fun j hj => before ⟨j, hj.trans i.isLt⟩ hj⟩

theorem lowestFree_none_iff : lowestFree s = none ↔ ∀ i, s.entry i ≠ none := by
  rw [lowestFree, List.find?_eq_none]
  simp only [List.mem_finRange, true_imp_iff, Option.isNone_iff_eq_none, ne_eq]

theorem rotation_move (r : Rotation) (k m : ChainClass) : (r.move k ch).get m = if m = k then ch else r.get m := by
  cases k <;> cases m <;> rfl

/-- Where line and offset stand after the segment a channel has come to (R48, log 13). -/
def Descriptor.nextPosition (d : Descriptor) (c : Channel) (draws : Nat) : Nat × Nat :=
  if (d.segmentAt c.line c.offset).last then d.endPosition (Config.freePosition draws) else d.positionAfter c.line c.offset

/-- Where a channel's line and offset may stand after a segment. -/
def Stands (d : Descriptor) (c : Channel) (line offset : Nat) : Prop :=
  let size := if d.op = some .put ∨ d.op = some .get then d.count else 1
  if (d.segmentAt c.line c.offset).last = true then
    line ≤ 4095 ∧ offset ≤ 65534
      ∧ (d.lineCount < 4096 ∨ (d.lineCount = 4096 ∧ size < 65535) → d.lineCount ≤ line ∨ (line + 1 = d.lineCount ∧ size ≤ offset))
  else (line, offset) = d.positionAfter c.line c.offset

theorem stands_next (b : List Byte) (c : Channel) (draws : Nat) :
    Stands (descriptorOf b) c ((descriptorOf b).nextPosition c draws).1 ((descriptorOf b).nextPosition c draws).2 := by
  unfold Stands Descriptor.nextPosition
  have count : (descriptorOf b).count ≤ 65535 := Nat.le_of_lt_succ (num16At b 8).isLt
  generalize descriptorOf b = d at count
  intro size
  have small : size ≤ 65535 := by simp only [size]; split <;> omega
  split
  · obtain ⟨line, offset, past⟩ := d.endPosition_past (Config.freePosition draws)
    rw [pastEnd_eq] at past
    generalize d.endPosition (Config.freePosition draws) = q at line offset past
    refine ⟨line, offset, fun room => ?_⟩
    by_cases none : d.lineCount = 0
    · exact .inl (none ▸ Nat.zero_le _)
    · have beyond : (d.lineCount - 1) * 65535 + size ≤ 65535 * q.1 + q.2 := past (by omega)
      omega
  · rfl

theorem passSegment_eq (more : (s.channel ch).allIssued = false) : passSegment ch d s =
    setChannel ch { s.channel ch with
      line := (d.nextPosition (s.channel ch) s.draws).1, offset := (d.nextPosition (s.channel ch) s.draws).2
      allIssued := (d.segmentAt (s.channel ch).line (s.channel ch).offset).last }
      { s with draws := s.draws + if (d.segmentAt (s.channel ch).line (s.channel ch).offset).last then 1 else 0 } := by
  unfold passSegment Descriptor.nextPosition
  cases last : (d.segmentAt (s.channel ch).line (s.channel ch).offset).last with
  | true => simp only [last]; rfl
  | false =>
    refine (if_neg (ne_true_of_eq_false last)).trans ?_
    simp only [Bool.false_eq_true, if_false, Nat.add_zero]
    rw [← more]; rfl

/-! ## A request placed (R67, R68) -/

/-- The entry that a channel's segment takes. -/
def newEntry (s : State) (ch : ChannelNo) (d : Descriptor) (k : RequestKind) (p : Station) : Entry :=
  let g := d.segmentAt (s.channel ch).line (s.channel ch).offset
  { channel := ch, orphan := false, kind := k, target := p, sequence := (s.peer p).tx.nextSeq, localAt := BitVec.ofNat 17 g.localAt
    remoteAt := BitVec.ofNat 17 g.remoteAt, length := g.length, tag := d.tag, offset := g.offset
    final := decide (k = .write) && d.final && g.last, sync := (s.peer p).tx.syncNeeded, tries := 1, state := .queued }

/-- A request placed: its entry taken, its frame at the end of the request queue, and its segment passed. -/
def placing (s : State) (ch : ChannelNo) (d : Descriptor) (k : RequestKind) (p : Station) (i : Slot) (read : List Byte) : State :=
  let c := s.channel ch
  let g := d.segmentAt c.line c.offset
  let q := d.nextPosition c s.draws
  { s with
    ce := { s.ce with channels := s.ce.channels.set ch.val { c with
      line := q.1, offset := q.2, allIssued := g.last, issued := c.issued + 1, outstanding := c.outstanding + 1 } ch.isLt }
    rt := { entries := s.rt.entries.set i.val (some (newEntry s ch d k p)) i.isLt, order := s.rt.order ++ [i] }
    peers := s.peers.set p.val { s.peer p with
      tx := { (s.peer p).tx with nextSeq := (s.peer p).tx.nextSeq + 1, held := (s.peer p).tx.held + 1, syncNeeded := false } } p.isLt
    sl := { s.sl with requestQueue := s.sl.requestQueue ++ [⟨i, requestFrame s.own (newEntry s ch d k p) read, false⟩] }
    draws := s.draws + if g.last then 1 else 0 }

theorem passSegment_set {c : Channel} (more : c.allIssued = false) : passSegment ch d (setChannel ch c s) =
    setChannel ch { c with
      line := (d.nextPosition c s.draws).1, offset := (d.nextPosition c s.draws).2, allIssued := (d.segmentAt c.line c.offset).last }
      { s with draws := s.draws + if (d.segmentAt c.line c.offset).last then 1 else 0 } := by
  have read : (setChannel ch c s).channel ch = c := channel_setChannel_self ..
  rw [passSegment_eq (by rw [read]; exact more), read]
  exact setChannel_setChannel (s := { s with draws := s.draws + if (d.segmentAt c.line c.offset).last then 1 else 0 }) ..

theorem takeEntry_eq (free : lowestFree s = some i) (more : (s.channel ch).allIssued = false) (read : List Byte) :
    takeEntry ch d k p (d.segmentAt (s.channel ch).line (s.channel ch).offset) read s = placing s ch d k p i read := by
  simp only [takeEntry, free]
  exact passSegment_set (c := { s.channel ch with issued := (s.channel ch).issued + 1, outstanding := (s.channel ch).outstanding + 1 })
    (s := { s with
      rt := { entries := s.rt.entries.set i.val (some (newEntry s ch d k p)) i.isLt, order := s.rt.order ++ [i] }
      peers := s.peers.set p.val { s.peer p with
        tx := { (s.peer p).tx with nextSeq := (s.peer p).tx.nextSeq + 1, held := (s.peer p).tx.held + 1, syncNeeded := false } } p.isLt
      sl := { s.sl with requestQueue := s.sl.requestQueue ++ [⟨i, requestFrame s.own (newEntry s ch d k p) read, false⟩] } }) more

theorem placing_entry (read : List Byte) : (placing s ch d k p i read).entry i = some (newEntry s ch d k p) := by
  simp [placing, State.entry, Vector.get_eq_getElem]

/-- Its frame carries FINAL exactly if the entry does. -/
theorem requestFrame_new (read : List Byte) : requestFrame s.own (newEntry s ch d k p) read = {
    kind := .request k
    flags := { sync := (s.peer p).tx.syncNeeded
               final := decide (k = .write) && d.final && (d.segmentAt (s.channel ch).line (s.channel ch).offset).last
               hello := false, leaving := false }
    sender := s.own.setWidth 8, target := BitVec.ofNat 8 p.val, sequence := (s.peer p).tx.nextSeq
    address := BitVec.ofNat 17 (d.segmentAt (s.channel ch).line (s.channel ch).offset).remoteAt
    length := BitVec.ofNat 16 (d.segmentAt (s.channel ch).line (s.channel ch).offset).length, code := 0
    payload := if k = .notice then [d.tag.extractLsb' 8 8, d.tag.extractLsb' 0 8] ++ read else read } := by
  have final : (decide (k = .write) && (newEntry s ch d k p).final) = (newEntry s ch d k p).final := by
    simp only [newEntry]
    cases decide (k = .write) <;> simp
  show ({ kind := _, flags := { sync := _, final := decide (k = .write) && (newEntry s ch d k p).final }, .. } : Frame) = _
  rw [final]; rfl

/-! ## A channel's turn (R45 to R49) -/

/-- A segment passed without a frame (R49). -/
def passing (s : State) (ch : ChannelNo) (d : Descriptor) : State :=
  let c := s.channel ch
  let g := d.segmentAt c.line c.offset
  let q := d.nextPosition c s.draws
  { s with
    ce := { s.ce with channels := s.ce.channels.set ch.val { c with line := q.1, offset := q.2, allIssued := g.last } ch.isLt }
    draws := s.draws + if g.last then 1 else 0 }

theorem failInTurn_eq (current : (s.channel ch).current = some cur) (more : (s.channel ch).allIssued = false) (code : FaultCode) :
    failInTurn ch code s = failSegment ch code
      ((descriptorOf cur.bytes).segmentAt (s.channel ch).line (s.channel ch).offset).offset (passing s ch (descriptorOf cur.bytes)) := by
  simp only [failInTurn, descriptor_of current, passSegment_eq more]
  rfl

theorem finishChannelTurn_places (current : (s.channel ch).current = some cur)
    (request : (descriptorOf cur.bytes).op.bind Op.request = some k) (present : (s.peer p).status = .present)
    (free : lowestFree s = some i) (more : (s.channel ch).allIssued = false) (read : List Byte) :
    finishChannelTurn ch p read s = placing (setTurn none s) ch (descriptorOf cur.bytes) k p i read := by
  simp only [finishChannelTurn, descriptor_of current, request, present, if_true]
  exact takeEntry_eq (s := setTurn none s) free more read

theorem finishChannelTurn_absent (current : (s.channel ch).current = some cur)
    (request : (descriptorOf cur.bytes).op.bind Op.request = some k) (absent : (s.peer p).status ≠ .present)
    (more : (s.channel ch).allIssued = false) (read : List Byte) : finishChannelTurn ch p read s = failSegment ch .peerAbsent
      ((descriptorOf cur.bytes).segmentAt (s.channel ch).line (s.channel ch).offset).offset
      (passing (setTurn none s) ch (descriptorOf cur.bytes)) := by
  simp only [finishChannelTurn, descriptor_of current, request, absent, if_false]
  exact failInTurn_eq (s := setTurn none s) current more .peerAbsent

/-- The rotation past a channel that is given a turn (R47). -/
def rotated (s : State) (ch : ChannelNo) : State :=
  { s with ce := { s.ce with rotation := s.ce.rotation.move (s.channel ch).cls (ch + 1) } }

theorem takeTurn_channel (idle : s.ce.turn = none) (room : s.sl.requestQueue.length < 4) (noResend : chooseResend s = none)
    (chosen : chooseChannel s = some ch) (current : (s.channel ch).current = some cur)
    (request : (descriptorOf cur.bytes).op.bind Op.request = some k) (target : stationOf (descriptorOf cur.bytes).target = some p) :
    takeTurn s = beginTurn (.channel ch p) ((descriptorOf cur.bytes).segmentAt (s.channel ch).line (s.channel ch).offset).localAt
      (payloadSize k ((descriptorOf cur.bytes).segmentAt (s.channel ch).line (s.channel ch).offset).length) (rotated s ch) := by
  have go : ¬ (s.ce.turn.isSome ∨ 4 ≤ s.sl.requestQueue.length) := by rw [idle]; simp; omega
  refine (if_neg go).trans ?_
  simp only [noResend, chosen, beginChannelTurn, descriptor_of current, request, target]
  rfl

theorem takeTurn_resend (idle : s.ce.turn = none) (room : s.sl.requestQueue.length < 4) (chosen : chooseResend s = some (i, e)) :
    takeTurn s = beginTurn (.resend i) e.localAt.toNat (payloadSize e.kind e.length) s := by
  have go : ¬ (s.ce.turn.isSome ∨ 4 ≤ s.sl.requestQueue.length) := by rw [idle]; simp; omega
  refine (if_neg go).trans ?_
  simp only [chosen]; rfl

/-! ## A resend turn (R79, R80) -/

/-- The entry after its resend. -/
def resentEntry (s : State) (e : Entry) : Entry :=
  { e with
    tries := if e.state = .rewind true then e.tries + 1 else e.tries, sync := e.sync || (s.peer e.target).tx.syncNeeded
    state := .queued }

theorem finishResend_eq (held : s.entry i = some e) (read : List Byte) : finishResend i read s = { s with
    ce := { s.ce with turn := none }
    rt := { s.rt with entries := s.rt.entries.set i.val (some (resentEntry s e)) i.isLt }
    peers := s.peers.set e.target.val { s.peer e.target with
      tx := { (s.peer e.target).tx with syncNeeded := false } } e.target.isLt
    sl := { s.sl with requestQueue := s.sl.requestQueue ++ [⟨i, requestFrame s.own (resentEntry s e) read, false⟩] } } := by
  have charge (state : EntryState) (same : e.state = state) : (state = .rewind true → resentEntry s e = { e with
      tries := e.tries + 1, sync := e.sync || (s.peer e.target).tx.syncNeeded, state := .queued }) ∧ (state ≠ .rewind true →
        resentEntry s e = { e with sync := e.sync || (s.peer e.target).tx.syncNeeded, state := .queued }) := by
    subst same
    exact ⟨fun h => by rw [resentEntry, if_pos h], fun h => by rw [resentEntry, if_neg h]⟩
  cases h : e.state with
  | rewind charged =>
    cases charged with
    | true => rw [(charge _ h).1 rfl]; simp only [finishResend, held, h]; rfl
    | false => rw [(charge _ h).2 (by simp)]; simp only [finishResend, held, h]; rfl
  | queued => rw [(charge _ h).2 (by simp)]; simp only [finishResend, held, h]; rfl
  | waiting _ => rw [(charge _ h).2 (by simp)]; simp only [finishResend, held, h]; rfl

theorem finishResend_freed (freed : s.entry i = none) (read : List Byte) : finishResend i read s = setTurn none s := by
  simp only [finishResend, freed]

theorem failResend_freed (freed : s.entry i = none) : failResend i s = setTurn none s := by
  simp only [failResend, freed]

theorem failResend_eq (held : s.entry i = some e) :
    failResend i s = needSync e.target (failEntry .storeError i e (setTurn none s)) := by
  simp only [failResend, held]

/-! ## The end of a payload read -/

theorem payloadWord_more {r : RangeRead} {b : List Byte} {x : Turn} (turn : s.ce.turn = some x) (left : r.left ≠ 0) :
    payloadWord r (.data b) s = asking ((readPiece r.next r.left (r.inHand b)).1, .payload (readPiece r.next r.left (r.inHand b)).2) s := by
  simp only [payloadWord, turn, StoreOutcome.read?, if_neg left]; rfl

theorem payloadWord_last {r : RangeRead} {b : List Byte} {x : Turn} (turn : s.ce.turn = some x) (left : r.left = 0) :
    payloadWord r (.data b) s = finishTurn x (r.inHand b) s := by
  simp only [payloadWord, turn, StoreOutcome.read?, if_pos left]

theorem payloadWord_refused {r : RangeRead} {b : List Byte} {x : Turn} (turn : s.ce.turn = some x) :
    payloadWord r (.storeError b) s = failTurn x s := by
  simp only [payloadWord, turn, StoreOutcome.read?]

theorem eligible_more (yes : eligible s ch = true) : (s.channel ch).allIssued = false := by
  obtain ⟨d, p, -, -, -, unissued, -⟩ := eligible_iff.1 yes
  exact (unissued_iff.1 unissued).2

theorem chooseResend_held (chosen : chooseResend s = some (i, e)) : s.entry i = some e := by
  obtain ⟨_, _, -, held, -⟩ := chooseResend_iff.1 chosen
  exact held

end

/-- Settles O41: a turn begins with its payload read or ends at once, and a payload read ends its turn. -/
theorem turnIssuesOrResends : Obligations.TurnIssuesOrResends := by
  unfold Obligations.TurnIssuesOrResends
  intro placed passed resent stands
  have places (s : State) (ch : ChannelNo) (cur : Current) (k : RequestKind) (p : Station) (i : Slot) (read : List Byte) :
      placing (setTurn none s) ch (descriptorOf cur.bytes) k p i read = placed s ch cur k p i read
        ((descriptorOf cur.bytes).nextPosition (s.channel ch) s.draws).1
        ((descriptorOf cur.bytes).nextPosition (s.channel ch) s.draws).2 := by
    simp only [placing, requestFrame_new]; rfl
  have resends {s : State} {i : Slot} {e : Entry} (held : s.entry i = some e) (read : List Byte) :
      finishResend i read s = resent s i e read := finishResend_eq held read
  refine ⟨fun s i => lowestFree_iff, fun s => lowestFree_none_iff, fun n => ⟨rfl, rfl, rfl, rfl⟩, ⟨rfl, rfl, rfl, rfl, rfl⟩,
    fun r k m ch => rotation_move r k m, fun own e read => rfl, ?_, ?_, ?_⟩
  · intro s ch cur k p live h idle room noResend chosen current request target d c g moved
    have begins := takeTurn_channel idle room noResend chosen current request target
    have more := eligible_more (chooseChannel_eligible chosen)
    refine ⟨fun _ some => ?_, ?_, ?_⟩
    · exact happening_asks live h.2 (begins.trans (if_neg some)) rfl rfl rfl rfl rfl
    · rintro rfl present i free
      have ends : takeTurn s = placing (setTurn none (rotated s ch)) ch d .read p i [] :=
        begins.trans ((if_pos rfl).trans (finishChannelTurn_places (s := rotated s ch) current request present free more []))
      refine ⟨_, _, stands_next cur.bytes c s.draws, (happening_quiet live h ends ?_ rfl).trans (congrArg _ (places moved ch cur .read p i []))⟩
      exact loadLeaving_kept (.inr (.inl ⟨i, _, placing_entry []⟩))
    · rintro rfl absent
      have ends : takeTurn s = failSegment ch .peerAbsent g.offset (passing (setTurn none (rotated s ch)) ch d) :=
        begins.trans ((if_pos rfl).trans (finishChannelTurn_absent (s := rotated s ch) current request absent more []))
      refine ⟨_, _, stands_next cur.bytes c s.draws, (happening_live live takeTurn).trans ?_⟩
      rw [ends]; rfl
  · intro s i e live h idle room chosen n
    have begins := takeTurn_resend idle room chosen
    have held := chooseResend_held chosen
    refine ⟨fun some => ?_, fun none => ?_⟩
    · exact happening_asks live h.2 (begins.trans (if_neg some)) rfl rfl rfl rfl rfl
    · refine happening_quiet live h (begins.trans ((if_pos none).trans (resends held []))) ?_ rfl
      exact loadLeaving_kept (.inr (.inl ⟨i, _, entry_setEntry_self (s := s) i _⟩))
  · intro s x r rest live granted front made o
    have ends {t : State} (e : payloadWord r (performAccess s.st x).2 made = t) : exec .storeAccessEnd s = .next (settle t) :=
      accessEnd_settles live granted front e
    have lastWord {b : List Byte} {x : Turn} (data : o = .data b) (turn : s.ce.turn = some x) (left : r.left = 0) :
        payloadWord r o made = finishTurn x (r.inHand b) made :=
      (congrArg (payloadWord r · made) data).trans (payloadWord_last (s := made) turn left)
    have refusedWord {b : List Byte} {x : Turn} (error : o = .storeError b) (turn : s.ce.turn = some x) :
        payloadWord r o made = failTurn x made :=
      (congrArg (payloadWord r · made) error).trans (payloadWord_refused (s := made) turn)
    refine ⟨?_, ?_, ?_, ?_⟩
    · intro b data left turn p
      obtain ⟨t, ht⟩ := Option.ne_none_iff_exists'.1 turn
      exact ends ((congrArg (payloadWord r · made) data).trans (payloadWord_more ht left))
    · intro ch p cur k turn current more request d c g
      refine ⟨fun b data left present i free => ?_, fun b data left absent => ?_, fun b error => ?_⟩
      · refine ⟨_, _, stands_next cur.bytes c s.draws, ends ?_⟩
        exact (lastWord data turn left).trans
          ((finishChannelTurn_places (s := made) current request present free more _).trans (places made ch cur k p i _))
      · refine ⟨_, _, stands_next cur.bytes c s.draws, ends ?_⟩
        exact (lastWord data turn left).trans (finishChannelTurn_absent (s := made) current request absent more _)
      · refine ⟨_, _, stands_next cur.bytes c s.draws, ends ?_⟩
        exact (refusedWord error turn).trans (failInTurn_eq (s := setTurn none made) current more .storeError)
    · intro i turn freed b how
      rcases how with ⟨data, left⟩ | error
      · exact ends ((lastWord data turn left).trans (finishResend_freed (s := made) freed _))
      · exact ends ((refusedWord error turn).trans (failResend_freed (s := made) freed))
    · intro i e turn held
      refine ⟨fun b data left => ?_, fun b error => ?_⟩
      · exact ends ((lastWord data turn left).trans (resends (s := made) held _))
      · exact ends ((refusedWord error turn).trans (failResend_eq (s := made) held))

end Sys2Proof.Machine
end

section
/-! Freeing an entry, a segment done and a segment failed: what each leaves, in closed form. -/

namespace Sys2Proof.Machine

section
variable {s t u : State} {ch : ChannelNo} {cur : Current} {i : Slot} {e : Entry} {p : Station}

/-! ## Freeing an entry (R36, R64, R70) -/

theorem freeEntry_eq : freeEntry i e s = { s with
    rt := { entries := s.rt.entries.set i.val none i.isLt, order := s.rt.order.erase i }
    peers := s.peers.set e.target.val { s.peer e.target with
      tx := { (s.peer e.target).tx with held := (s.peer e.target).tx.held - 1 } } e.target.isLt
    ce := { s.ce with channels :=
      if e.orphan then s.ce.channels
      else s.ce.channels.set e.channel.val { s.channel e.channel with outstanding := (s.channel e.channel).outstanding - 1 } e.channel.isLt }
    sl := { s.sl with requestQueue :=
      if e.state = .queued then withdrawn (requestCommitted s.sl) i s.sl.requestQueue else s.sl.requestQueue } } := by
  unfold freeEntry
  split <;> split <;> rfl

theorem freeEntry_peer (q : Station) : (freeEntry i e s).peer q = if q = e.target then
    { s.peer q with tx := { (s.peer q).tx with held := (s.peer q).tx.held - 1 } } else s.peer q := by
  rw [freeEntry_eq]
  refine (peer_setPeer (s := s) e.target q _).trans ?_
  split
  · rename_i h; rw [h]
  · rfl

theorem freeEntry_channel : (freeEntry i e s).channel ch = if ch = e.channel ∧ e.orphan = false then
    { s.channel ch with outstanding := (s.channel ch).outstanding - 1 } else s.channel ch := by
  rw [freeEntry_eq]
  cases e.orphan with
  | true => simp only [Bool.true_eq_false, and_false, if_false]; rfl
  | false =>
    refine (channel_setChannel s e.channel ch _).trans ?_
    by_cases h : ch = e.channel <;> simp [h]

theorem requestCommitted_iff {sl : LineUnit} :
    requestCommitted sl = true ↔ (∃ n, sl.claim = .marking n .request) ∨ sl.claim = .sending .request := by
  unfold requestCommitted
  cases sl.claim with
  | idle => simp
  | marking n c => cases c <;> simp
  | sending c => cases c <;> simp

theorem withdrawn_free {committed : Bool} (free : committed = false) (q : List QueuedFrame) :
    withdrawn committed i q = q.filter fun g => decide (g.slot ≠ i) := by
  subst free
  cases q <;> rfl

theorem withdrawn_nil (committed : Bool) : withdrawn committed i [] = [] := by cases committed <;> rfl

/-! ## A segment that fails (R55, R56) -/

theorem writeUnderWay_same (h : t.arb.ce = s.arb.ce) : writeUnderWay t ch = writeUnderWay s ch := by unfold writeUnderWay; rw [h]

theorem writeUnderWay_giveUp : writeUnderWay (giveUpTurn ch s) ch = writeUnderWay s ch := by
  rw [giveUpTurn_eq, Bool.eq_iff_iff, writeUnderWay_iff, writeUnderWay_iff]
  simp only [List.mem_map]
  constructor
  · rintro ⟨_, ⟨j, hj, rfl⟩, how⟩
    split at how
    · rcases how with ⟨r, o, h⟩ | h <;> cases h
    · exact ⟨j, hj, how⟩
  · rintro ⟨j, hj, how⟩
    refine ⟨j, ⟨j, hj, if_neg ?_⟩, how⟩
    rintro ⟨-, payload⟩
    rcases how with ⟨r, o, h⟩ | h <;> rw [h] at payload <;> cases payload

/-- A channel that drains, with its fault. -/
def Channel.draining (c : Channel) (r : FaultRecord) : Channel := { c with state := .draining, fault := some r }

theorem failSegment_active (active : (s.channel ch).state = .active) (current : (s.channel ch).current = some cur) (code : FaultCode)
    (offset : Nat) : failSegment ch code offset s =
      if (s.channel ch).outstanding = 0 ∧ writeUnderWay s ch = false then
        asking (faultWrite ch ⟨code, cur.address, offset⟩)
          (setChannel ch ((s.channel ch).draining ⟨code, cur.address, offset⟩) (giveUpTurn ch s))
      else setChannel ch ((s.channel ch).draining ⟨code, cur.address, offset⟩) (giveUpTurn ch s) := by
  have drains : failSegment ch code offset s
      = checkDrain ch (setChannel ch ((s.channel ch).draining ⟨code, cur.address, offset⟩) (giveUpTurn ch s)) := by
    simp only [failSegment, active, modChannel_eq, giveUpTurn_channel, address_of current]; rfl
  have read := channel_setChannel_self (s := giveUpTurn ch s) ch ((s.channel ch).draining ⟨code, cur.address, offset⟩)
  have way : writeUnderWay (setChannel ch ((s.channel ch).draining ⟨code, cur.address, offset⟩) (giveUpTurn ch s)) ch
      = writeUnderWay s ch := (writeUnderWay_same rfl).trans writeUnderWay_giveUp
  rw [drains, checkDrain_eq (by rw [read]; rfl) (by rw [read]; rfl), read, way]
  rfl

theorem failSegment_draining {r : FaultRecord} (draining : (s.channel ch).state = .draining) (fault : (s.channel ch).fault = some r)
    (code : FaultCode) (offset : Nat) : failSegment ch code offset s =
      if (s.channel ch).outstanding = 0 ∧ writeUnderWay s ch = false then asking (faultWrite ch r) s else s := by
  simp only [failSegment, draining]
  exact checkDrain_eq draining fault

theorem failSegment_other (active : (s.channel ch).state ≠ .active) (draining : (s.channel ch).state ≠ .draining) (code : FaultCode)
    (offset : Nat) : failSegment ch code offset s = s := by
  unfold failSegment
  split
  · contradiction
  · contradiction
  · rfl

/-! ## A segment that is done (R50, R54) -/

theorem completeIfDone_eq (current : (s.channel ch).current = some cur) (active : (s.channel ch).state = .active)
    (remote : (descriptorOf cur.bytes).op.any Op.isRemote = true) : completeIfDone ch s =
      if (s.channel ch).allIssued = true ∧ (s.channel ch).completed = (s.channel ch).issued ∧ writeUnderWay s ch = false then
        asking (completionWrite ch (s.channel ch) cur) s
      else s := by
  have unissued : (s.channel ch).unissued (descriptorOf cur.bytes) = false ↔ (s.channel ch).allIssued = true := by
    rw [Channel.unissued, remote, Bool.true_and, Bool.not_eq_false']
  simp only [completeIfDone, descriptor_of current, startCompletion_eq current, active, remote, unissued, true_and]

/-- A channel with one more segment completed. -/
def Channel.counted (c : Channel) : Channel := { c with completed := c.completed + 1 }

theorem segmentDone_active (current : (s.channel ch).current = some cur) (active : (s.channel ch).state = .active)
    (remote : (descriptorOf cur.bytes).op.any Op.isRemote = true) : segmentDone ch s =
      if (s.channel ch).allIssued = true ∧ (s.channel ch).completed + 1 = (s.channel ch).issued ∧ writeUnderWay s ch = false then
        asking (completionWrite ch (s.channel ch) cur) (setChannel ch (s.channel ch).counted s)
      else setChannel ch (s.channel ch).counted s := by
  have read := channel_setChannel_self (s := s) ch (s.channel ch).counted
  have completes := completeIfDone_eq (s := setChannel ch (s.channel ch).counted s) (ch := ch) (cur := cur)
    (by rw [read]; exact current) (by rw [read]; exact active) remote
  rw [read, writeUnderWay_same (s := s) (by rfl)] at completes
  refine (checkDrain_other ?_).trans completes
  have stays : ((completeIfDone ch (setChannel ch (s.channel ch).counted s)).channel ch) = (s.channel ch).counted := by
    rw [completes]; split <;> exact read
  have state : (s.channel ch).counted.state = .active := active
  refine fun k => ?_
  have drains := (congrArg Channel.state stays).symm.trans k
  rw [state] at drains; cases drains

theorem segmentDone_draining {r : FaultRecord} (draining : (s.channel ch).state = .draining) (fault : (s.channel ch).fault = some r) :
    segmentDone ch s = if (s.channel ch).outstanding = 0 ∧ writeUnderWay s ch = false then
        asking (faultWrite ch r) (setChannel ch (s.channel ch).counted s)
      else setChannel ch (s.channel ch).counted s := by
  have read := channel_setChannel_self (s := s) ch (s.channel ch).counted
  have state : (s.channel ch).counted.state = .draining := draining
  have waits : completeIfDone ch (setChannel ch (s.channel ch).counted s) = setChannel ch (s.channel ch).counted s := by
    simp only [completeIfDone]
    split
    · rfl
    · exact if_neg fun k => by rw [read, state] at k; cases k.1
  have ends := checkDrain_eq (s := setChannel ch (s.channel ch).counted s) (ch := ch) (r := r)
    (by rw [read]; exact draining) (by rw [read]; exact fault)
  rw [read, writeUnderWay_same (s := s) (by rfl)] at ends
  exact (congrArg (checkDrain ch) waits).trans ends

end

end Sys2Proof.Machine
end

section
/-! Freeing every entry of a station: what it leaves of table, peers and line, and what it does not look at. -/

namespace Sys2Proof.Machine

section
variable {s t u : State} {ch : ChannelNo} {i : Slot} {e : Entry} {p : Station} {code : FaultCode}

/-! ## What freeing does not look at -/

/-- A change of the state that the request table, the channels, their accesses and the transmit parts do not meet. -/
structure Apart (m : State → State) : Prop where
  rt : ∀ s, (m s).rt = s.rt
  ce : ∀ s, (m s).ce = s.ce
  arb : ∀ s, (m s).arb = s.arb
  queue : ∀ s, (m s).sl.requestQueue = s.sl.requestQueue
  claim : ∀ s, (m s).sl.claim = s.sl.claim
  withRt : ∀ s rt, m { s with rt := rt } = { m s with rt := rt }
  withCe : ∀ s ce, m { s with ce := ce } = { m s with ce := ce }
  withArb : ∀ s arb, m { s with arb := arb } = { m s with arb := arb }
  withQueue : ∀ s q, m { s with sl := { s.sl with requestQueue := q } } = { m s with sl := { (m s).sl with requestQueue := q } }
  withTx : ∀ s p g, m (modTx p g s) = modTx p g (m s)

variable {m n : State → State}

theorem Apart.comp (a : Apart m) (b : Apart n) : Apart fun s => m (n s) where
  rt s := (a.rt _).trans (b.rt s)
  ce s := (a.ce _).trans (b.ce s)
  arb s := (a.arb _).trans (b.arb s)
  queue s := (a.queue _).trans (b.queue s)
  claim s := (a.claim _).trans (b.claim s)
  withRt s rt := (congrArg m (b.withRt s rt)).trans (a.withRt _ rt)
  withCe s ce := (congrArg m (b.withCe s ce)).trans (a.withCe _ ce)
  withArb s arb := (congrArg m (b.withArb s arb)).trans (a.withArb _ arb)
  withQueue s q := (congrArg m (b.withQueue s q)).trans (a.withQueue _ q)
  withTx s p g := (congrArg m (b.withTx s p g)).trans (a.withTx _ p g)

theorem Apart.channel (a : Apart m) (ch : ChannelNo) : (m s).channel ch = s.channel ch := by rw [State.channel, a.ce]; rfl

theorem Apart.entry (a : Apart m) (i : Slot) : (m s).entry i = s.entry i := by rw [State.entry, a.rt]; rfl

theorem Apart.modChannel (a : Apart m) (ch : ChannelNo) (g : Channel → Channel) : modChannel ch g (m s) = m (modChannel ch g s) := by
  have same := a.withCe s { s.ce with channels := s.ce.channels.set ch.val (g (s.channel ch)) ch.isLt }
  refine Eq.trans ?_ same.symm
  show { m s with ce := { (m s).ce with channels := (m s).ce.channels.set ch.val (g ((m s).channel ch)) ch.isLt } } = _
  rw [a.channel, a.ce]

theorem Apart.asking (a : Apart m) (j : Access × CeWork) : asking j (m s) = m (asking j s) := by
  refine Eq.trans ?_ (a.withArb s { s.arb with ce := s.arb.ce ++ [j] }).symm
  rw [Machine.asking, a.arb]

theorem Apart.giveUpTurn (a : Apart m) (ch : ChannelNo) : giveUpTurn ch (m s) = m (giveUpTurn ch s) := by
  unfold Machine.giveUpTurn
  rw [a.ce]
  split
  · have dropped : dropCe CeWork.isPayload (m s) = m (dropCe CeWork.isPayload s) := by
      refine Eq.trans ?_ (a.withArb s (dropCe CeWork.isPayload s).arb).symm
      rw [dropCe, a.arb]; rfl
    rw [dropped]
    refine Eq.trans ?_ (a.withCe (dropCe CeWork.isPayload s) { s.ce with turn := none }).symm
    rw [setTurn, a.ce]; rfl
  · rfl

theorem Apart.checkDrain (a : Apart m) (ch : ChannelNo) : checkDrain ch (m s) = m (checkDrain ch s) := by
  have way : writeUnderWay (m s) ch = writeUnderWay s ch := writeUnderWay_same (by rw [a.arb])
  simp only [Machine.checkDrain, a.channel, way]
  rw [apply_ite m]
  refine if_congr Iff.rfl ?_ rfl
  cases (s.channel ch).fault with
  | none => rfl
  | some r => exact a.asking _

theorem Apart.failSegment (a : Apart m) (ch : ChannelNo) (code : FaultCode) (offset : Nat) :
    failSegment ch code offset (m s) = m (failSegment ch code offset s) := by
  unfold Machine.failSegment
  rw [a.channel]
  split
  · rw [a.giveUpTurn, a.modChannel, a.checkDrain]
  · exact a.checkDrain ch
  · rfl

theorem Apart.freeEntry (a : Apart m) (i : Slot) (e : Entry) : freeEntry i e (m s) = m (freeEntry i e s) := by
  have table (s : State) : setOrder ((m s).rt.order.erase i) (setEntry i none (m s)) = m (setOrder (s.rt.order.erase i) (setEntry i none s)) := by
    refine Eq.trans ?_ (a.withRt s (setOrder (s.rt.order.erase i) (setEntry i none s)).rt).symm
    rw [setOrder, setEntry, a.rt]; rfl
  have line (u : State) : modLine (fun sl => { sl with requestQueue := withdrawn (requestCommitted sl) i sl.requestQueue }) (m u)
      = m (modLine (fun sl => { sl with requestQueue := withdrawn (requestCommitted sl) i sl.requestQueue }) u) := by
    refine Eq.trans ?_ (a.withQueue u (withdrawn (requestCommitted u.sl) i u.sl.requestQueue)).symm
    simp only [modLine, a.queue, requestCommitted, a.claim]
  simp only [Machine.freeEntry, table, ← a.withTx]
  by_cases orphan : e.orphan = true <;> by_cases queued : e.state = .queued
  · rw [if_pos orphan, if_pos queued, if_pos orphan, if_pos queued]; exact line _
  · rw [if_pos orphan, if_neg queued, if_pos orphan, if_neg queued]
  · rw [if_neg orphan, if_pos queued, if_neg orphan, if_pos queued, a.modChannel]; exact line _
  · rw [if_neg orphan, if_neg queued, if_neg orphan, if_neg queued, a.modChannel]

theorem Apart.failEntry (a : Apart m) (code : FaultCode) (i : Slot) (e : Entry) : failEntry code i e (m s) = m (failEntry code i e s) := by
  simp only [Machine.failEntry, a.freeEntry, a.failSegment]
  rw [apply_ite m]

/-- Freeing the entries of a station and a change that they do not meet may change places. -/
theorem Apart.failAll (a : Apart m) (p : Station) (code : FaultCode) : failAll p code (m s) = m (failAll p code s) := by
  have fold : ∀ (l : List (Slot × Entry)) (s : State), l.foldl (fun s x => Machine.failEntry code x.1 x.2 s) (m s)
      = m (l.foldl (fun s x => Machine.failEntry code x.1 x.2 s) s) := by
    intro l
    induction l with
    | nil => exact fun s => rfl
    | cons x l ih => exact fun s => (congrArg (l.foldl _) (a.failEntry code x.1 x.2)).trans (ih _)
  have entries : entriesFor (m s) p = entriesFor s p := by
    simp only [entriesFor, heldEntries, a.rt, a.entry]
  rw [Machine.failAll, entries]
  exact fold _ s

/-- The clock. -/
theorem apart_now (now : Nat) : Apart fun s => { s with now := now } where
  rt _ := rfl
  ce _ := rfl
  arb _ := rfl
  queue _ := rfl
  claim _ := rfl
  withRt _ _ := rfl
  withCe _ _ := rfl
  withArb _ _ := rfl
  withQueue _ _ := rfl
  withTx _ _ _ := rfl

/-- What of the line unit is neither request queue nor claim. -/
theorem apart_line {g : LineUnit → LineUnit} (queue : ∀ sl, (g sl).requestQueue = sl.requestQueue) (claim : ∀ sl, (g sl).claim = sl.claim)
    (withQueue : ∀ sl q, g { sl with requestQueue := q } = { g sl with requestQueue := q }) : Apart (modLine g) where
  rt _ := rfl
  ce _ := rfl
  arb _ := rfl
  queue s := queue s.sl
  claim s := claim s.sl
  withRt _ _ := rfl
  withCe _ _ := rfl
  withArb _ _ := rfl
  withQueue s q := congrArg (fun sl => ({ s with sl := sl } : State)) (withQueue s.sl q)
  withTx _ _ _ := rfl

theorem apart_storeLabel (p : Station) (l : List Byte) : Apart (storeLabel p l) where
  rt _ := rfl
  ce _ := rfl
  arb _ := rfl
  queue _ := rfl
  claim _ := rfl
  withRt _ _ := rfl
  withCe _ _ := rfl
  withArb _ _ := rfl
  withQueue _ _ := rfl
  withTx s q g := by
    have same (f h : Peer → Peer) (comm : p = q → f (h (s.peer q)) = h (f (s.peer q))) :
        setPeer p (f ((setPeer q (h (s.peer q)) s).peer p)) (setPeer q (h (s.peer q)) s)
          = setPeer q (h ((setPeer p (f (s.peer p)) s).peer q)) (setPeer p (f (s.peer p)) s) := by
      rw [peer_setPeer, peer_setPeer]
      by_cases eq : p = q
      · subst eq
        simp only [if_true, comm rfl]
        simp only [setPeer, Vector.set_set]
      · rw [if_neg eq, if_neg fun k => eq k.symm]
        simp only [setPeer]
        rw [Vector.set_comm _ _ fun k => eq (Fin.ext k)]
    exact same (fun r => { r with label := l }) (fun r => { r with tx := g r.tx }) fun _ => rfl

/-! ## What freeing a station's entries changes -/

/-- What freeing entries of a station can change: table, channels, the turn, the channel engine's accesses, the request queue, and the
station's held count. -/
def Freeing (p : Station) (s t : State) : Prop :=
  ∃ rt channels turn asked queue held, t = { s with
    rt := rt
    ce := { s.ce with channels := channels, turn := turn }
    arb := { s.arb with ce := asked }
    sl := { s.sl with requestQueue := queue }
    peers := s.peers.set p.val { s.peer p with tx := { (s.peer p).tx with held := held } } p.isLt }

theorem setPeer_peer (p : Station) : s.peers.set p.val (s.peer p) p.isLt = s.peers := Vector.set_getElem_self _

theorem Freeing.refl (p : Station) (s : State) : Freeing p s s := by
  refine ⟨s.rt, s.ce.channels, s.ce.turn, s.arb.ce, s.sl.requestQueue, (s.peer p).tx.held, ?_⟩
  exact congrArg (fun peers => { s with peers := peers }) (setPeer_peer p).symm

theorem Freeing.trans (h : Freeing p s t) (k : Freeing p t u) : Freeing p s u := by
  obtain ⟨rt, channels, turn, asked, queue, held, rfl⟩ := h
  obtain ⟨rt', channels', turn', asked', queue', held', rfl⟩ := k
  refine ⟨rt', channels', turn', asked', queue', held', ?_⟩
  have read := peer_setPeer_self (s := s) p { s.peer p with tx := { (s.peer p).tx with held := held } }
  have peer : State.peer { s with
      rt := rt, ce := { s.ce with channels := channels, turn := turn }, arb := { s.arb with ce := asked }
      sl := { s.sl with requestQueue := queue }
      peers := s.peers.set p.val { s.peer p with tx := { (s.peer p).tx with held := held } } p.isLt } p
      = { s.peer p with tx := { (s.peer p).tx with held := held } } := read
  rw [peer]
  simp only [Vector.set_set]

theorem freeEntry_freeing (i : Slot) (e : Entry) : Freeing e.target s (freeEntry i e s) := by
  rw [freeEntry_eq]; exact ⟨_, _, _, _, _, _, rfl⟩

theorem Freeing.chain (p : Station) {channels : Vector Channel 4} {turn : Option Turn} {asked : List (Access × CeWork)}
    (h : t = { s with ce := { s.ce with channels := channels, turn := turn }, arb := { s.arb with ce := asked } }) : Freeing p s t := by
  subst h
  refine ⟨s.rt, channels, turn, asked, s.sl.requestQueue, (s.peer p).tx.held, ?_⟩
  exact congrArg (fun peers => ({ s with
    ce := { s.ce with channels := channels, turn := turn }, arb := { s.arb with ce := asked }, peers := peers } : State))
    (setPeer_peer p).symm

theorem giveUpTurn_chain (ch : ChannelNo) : ∃ turn asked,
    giveUpTurn ch s = { s with ce := { s.ce with turn := turn }, arb := { s.arb with ce := asked } } := ⟨_, _, giveUpTurn_eq⟩

theorem checkDrain_chain (ch : ChannelNo) : ∃ asked, checkDrain ch s = { s with arb := { s.arb with ce := asked } } := by
  simp only [checkDrain]; split
  · split <;> exact ⟨_, rfl⟩
  · exact ⟨_, rfl⟩

/-- A segment that fails changes channels, turn and accesses alone. -/
theorem failSegment_chain (ch : ChannelNo) (code : FaultCode) (offset : Nat) : ∃ channels turn asked, failSegment ch code offset s
    = { s with ce := { s.ce with channels := channels, turn := turn }, arb := { s.arb with ce := asked } } := by
  unfold failSegment; split
  · obtain ⟨turn, asked, given⟩ := giveUpTurn_chain (s := s) ch
    rw [given]
    obtain ⟨last, drained⟩ := checkDrain_chain (s := modChannel ch
      (fun c => { c with state := .draining, fault := some ⟨code, c.address, offset⟩ })
      { s with ce := { s.ce with turn := turn }, arb := { s.arb with ce := asked } }) ch
    exact ⟨_, _, _, drained⟩
  · obtain ⟨last, drained⟩ := checkDrain_chain (s := s) ch
    exact ⟨_, _, _, drained⟩
  · exact ⟨_, _, _, rfl⟩

theorem failEntry_freeing (code : FaultCode) (i : Slot) (e : Entry) : Freeing e.target s (failEntry code i e s) := by
  simp only [failEntry]; split
  · exact freeEntry_freeing i e
  · obtain ⟨channels, turn, asked, failed⟩ := failSegment_chain (s := freeEntry i e s) e.channel code e.offset
    exact (freeEntry_freeing i e).trans (.chain _ failed)

theorem failAll_freeing (p : Station) (code : FaultCode) : Freeing p s (failAll p code s) := by
  have fold : ∀ (l : List (Slot × Entry)) (s : State), (∀ x ∈ l, x.2.target = p) →
      Freeing p s (l.foldl (fun s x => failEntry code x.1 x.2 s) s) := by
    intro l
    induction l with
    | nil => exact fun s _ => .refl p s
    | cons x l ih =>
      intro s all
      have first : Freeing p s (failEntry code x.1 x.2 s) := all x List.mem_cons_self ▸ failEntry_freeing code x.1 x.2
      exact first.trans (ih _ fun y hy => all y (List.mem_cons_of_mem x hy))
  exact fold _ s fun x hx => (mem_entriesFor hx).2

theorem Freeing.peer_self (h : Freeing p s t) : ∃ held, t.peer p = { s.peer p with tx := { (s.peer p).tx with held := held } } := by
  obtain ⟨_, _, _, _, _, held, rfl⟩ := h
  exact ⟨held, peer_setPeer_self (s := s) p _⟩

theorem Freeing.peer_other (h : Freeing p s t) {q : Station} (other : q ≠ p) : t.peer q = s.peer q := by
  obtain ⟨_, _, _, _, _, held, rfl⟩ := h
  exact (peer_setPeer (s := s) p q _).trans (if_neg other)

theorem failEntry_entry (code : FaultCode) (i j : Slot) (e : Entry) :
    (failEntry code i e s).entry j = if j = i then none else s.entry j := by
  rw [← freeEntry_entry, State.entry, (failEntry_rt code i e).1]; rfl

/-- The station's entries are gone, and the others stay. -/
theorem failAll_entry (listed : OrderListsHeld s) (p : Station) (code : FaultCode) (j : Slot) :
    (failAll p code s).entry j = (s.entry j).filter fun e => decide (e.target ≠ p) := by
  have fold : ∀ (l : List (Slot × Entry)) (s : State), (l.foldl (fun s x => failEntry code x.1 x.2 s) s).entry j
      = if j ∈ l.map Prod.fst then none else s.entry j := by
    intro l
    induction l with
    | nil => exact fun s => by simp
    | cons x l ih =>
      intro s
      rw [List.foldl_cons, ih, failEntry_entry]
      by_cases here : j = x.1 <;> by_cases later : j ∈ l.map Prod.fst <;> simp [here, later]
  have mem : j ∈ (entriesFor s p).map Prod.fst ↔ ∃ e, s.entry j = some e ∧ e.target = p := by
    rw [List.mem_map]
    constructor
    · rintro ⟨x, hx, rfl⟩
      exact ⟨x.2, mem_entriesFor hx⟩
    · rintro ⟨e, he, rfl⟩
      exact ⟨_, mem_entriesFor_of listed he, rfl⟩
  rw [failAll, fold]
  split
  · rename_i freed
    obtain ⟨e, he, target⟩ := mem.1 freed
    simp [he, target, Option.filter]
  · rename_i kept
    cases he : s.entry j with
    | none => rfl
    | some e =>
      have other : e.target ≠ p := fun target => kept (mem.2 ⟨e, he, target⟩)
      simp [other, Option.filter]

/-! ## What closes a happening -/

theorem loadLeavingFrame_queue (own : BitVec 5) (label : List Byte) (sl : LineUnit) :
    (loadLeavingFrame own label sl).requestQueue = sl.requestQueue := by
  unfold loadLeavingFrame
  split
  · rfl
  · split
    · rfl
    · split <;> rfl

theorem loadLeaving_queue : (loadLeaving s).sl.requestQueue = s.sl.requestQueue := by
  unfold loadLeaving
  split
  · exact loadLeavingFrame_queue ..
  · rfl

/-- What closes a happening leaves all but the grant, and presence holder and frame kept aside. -/
theorem settle_eq (s : State) : settle s = { s with sl := (loadLeaving s).sl, arb := (grantNext s).arb } := by
  have line : loadLeaving s = { s with sl := (loadLeaving s).sl } := by
    obtain ⟨sl, h⟩ := loadLeaving_only s
    rw [h]
  have same : (grantNext (loadLeaving s)).arb = (grantNext s).arb := grantNext_arb (by rw [line])
  obtain ⟨arb, h⟩ := grantNext_only (loadLeaving s)
  rw [settle, ← same, h, line]

theorem settle_queue : (settle s).sl.requestQueue = s.sl.requestQueue := by
  rw [settle_eq]; exact loadLeaving_queue

theorem settle_ce : (settle s).ce = s.ce := by rw [settle_eq]

theorem settle_arb : (settle s).arb = (grantNext s).arb := by rw [settle_eq]

/-- Where no LEAVING frame is due, what closes a happening leaves the line unit. -/
theorem settle_sl (quiet : s.hp.phase ≠ .leaving) : (settle s).sl = s.sl := by
  rw [settle_eq]; show (loadLeaving s).sl = s.sl; rw [loadLeaving_phase quiet]

end

end Sys2Proof.Machine
end

section
/-! Replies: the entry a reply matches, what a fitting and an unfitting reply do, and the loss of a target. -/

namespace Sys2Proof.Machine

section
variable {s t u : State} {ch : ChannelNo} {i : Slot} {e : Entry} {p : Station} {f : Frame} {rest : List Frame} {q : Byte}

/-! ## The entry a reply matches (R71) -/

theorem matchEntry_eq : matchEntry s p q
    = (heldEntries s).find? fun x => decide (x.2.target = p) && decide (x.2.sequence = q) := by
  rw [matchEntry, entriesFor, List.find?_filter]
  simp only [Bool.decide_and, Bool.decide_eq_true]

theorem matchEntry_iff : matchEntry s p q = some (i, e) ↔ ∃ before later, s.rt.order = before ++ i :: later ∧ s.entry i = some e
    ∧ (e.target = p ∧ e.sequence = q) ∧ ∀ j ∈ before, ∀ f, s.entry j = some f → ¬ (f.target = p ∧ f.sequence = q) := by
  rw [matchEntry_eq]
  refine (heldEntries_find (test := fun f => decide (f.target = p) && decide (f.sequence = q))).trans ?_
  simp only [Bool.and_eq_true, decide_eq_true_eq]

theorem matchEntry_none : matchEntry s p q = none
    ↔ ∀ i ∈ s.rt.order, ∀ e, s.entry i = some e → ¬ (e.target = p ∧ e.sequence = q) := by
  rw [matchEntry_eq, List.find?_eq_none]
  simp only [Bool.and_eq_true, decide_eq_true_eq, heldEntries, List.mem_filterMap, Option.map_eq_some_iff]
  constructor
  · intro none i hi e he
    exact none (i, e) ⟨i, hi, e, he, rfl⟩
  · rintro none x ⟨i, hi, e, he, rfl⟩
    exact none i hi e he

/-! ## Taking a reply -/

/-- A reply taken from the inbound buffer, before it is acted on. -/
def replyTaken (rest : List Frame) (s : State) : State := modLine (fun sl => { sl with inReplies := rest }) s

theorem apart_replyTaken (rest : List Frame) : Apart (replyTaken rest) := 
  apart_line (g := fun sl => { sl with inReplies := rest }) (fun _ => rfl) (fun _ => rfl) fun _ _ => rfl

/-- A station that was UNREACHABLE is heard from (R151). -/
theorem hearFrom_lost (lost : (s.peer p).status = .unreachable) : hearFrom p s = broughtBack p s := by
  have read := peer_setPeer_self (s := s) p { s.peer p with status := .present }
  refine (if_pos lost).trans ?_
  simp only [needSync, modTx, setStatus, read]
  simp only [flagPeer, setPeer, Vector.set_set, broughtBack]

theorem hearFrom_known (known : (s.peer p).status ≠ .unreachable) : hearFrom p s = s := if_neg known

theorem broughtBack_status : ((broughtBack p s).peer p).status = .present :=
  congrArg Peer.status (peer_setPeer_self (s := s) p _)

theorem takeReply_unmatched (front : s.sl.inReplies = f :: rest) (sender : stationOf f.sender = some p)
    (known : (s.peer p).status ≠ .unreachable) (none : matchEntry s p f.sequence = none) : takeReply s = replyTaken rest s := by
  have heard : hearFrom p (replyTaken rest s) = replyTaken rest s := hearFrom_known known
  have unmatched : matchEntry (replyTaken rest s) p f.sequence = Option.none := none
  simp only [takeReply, front, sender]
  rw [show modLine (fun sl => { sl with inReplies := rest }) s = replyTaken rest s from rfl, heard, unmatched]

theorem takeReply_matched (front : s.sl.inReplies = f :: rest) (sender : stationOf f.sender = some p)
    (known : (s.peer p).status ≠ .unreachable) (found : matchEntry s p f.sequence = some (i, e)) :
    takeReply s = actOnReply i e f (replyTaken rest s) := by
  have heard : hearFrom p (replyTaken rest s) = replyTaken rest s := hearFrom_known known
  have matched : matchEntry (replyTaken rest s) p f.sequence = some (i, e) := found
  simp only [takeReply, front, sender]
  rw [show modLine (fun sl => { sl with inReplies := rest }) s = replyTaken rest s from rfl, heard, matched]

theorem takeReply_lost (front : s.sl.inReplies = f :: rest) (sender : stationOf f.sender = some p)
    (lost : (s.peer p).status = .unreachable) : takeReply s = takeReply (broughtBack p s) := by
  have heard : hearFrom p (replyTaken rest s) = replyTaken rest (broughtBack p s) := hearFrom_lost (s := replyTaken rest s) lost
  have again : hearFrom p (replyTaken rest (broughtBack p s)) = replyTaken rest (broughtBack p s) :=
    hearFrom_known (by rw [show (replyTaken rest (broughtBack p s)).peer p = (broughtBack p s).peer p from rfl, broughtBack_status]; simp)
  have front' : (broughtBack p s).sl.inReplies = f :: rest := front
  simp only [takeReply, front, front', sender]
  rw [show modLine (fun sl => { sl with inReplies := rest }) s = replyTaken rest s from rfl,
    show modLine (fun sl => { sl with inReplies := rest }) (broughtBack p s) = replyTaken rest (broughtBack p s) from rfl, heard, again]

/-! ## Replies that do not fit -/

theorem nakOf_none (h : f.code = 0x00 ∨ 0x06 < f.code.toNat) : nakOf f.code = none := by
  rcases h with h | h
  · rw [h]; rfl
  · unfold nakOf
    split
    · omega
    · omega
    · omega
    · omega
    · omega
    · omega
    · rfl

theorem swapOf_none (h : f.code ≠ 0x10 ∧ f.code ≠ 0x11) : swapOf f.code = none := by
  unfold swapOf
  split
  · rename_i sixteen; exact absurd (BitVec.eq_of_toNat_eq sixteen) h.1
  · rename_i seventeen; exact absurd (BitVec.eq_of_toNat_eq seventeen) h.2
  · rfl

theorem actOnReply_ack_unfit (kind : f.kind = .reply .ack) (unfit : e.kind = .read ∨ e.kind = .swap) : actOnReply i e f s = s := by
  rcases unfit with k | k <;> simp only [actOnReply, kind, k]

theorem actOnReply_data_unfit (kind : f.kind = .reply .readData) (unfit : e.kind ≠ .read ∨ f.length.toNat ≠ e.length) :
    actOnReply i e f s = s := by
  cases k : e.kind with
  | read => simp only [actOnReply, kind, k]; exact if_neg (unfit.resolve_left fun no => no k)
  | write => simp only [actOnReply, kind, k]
  | swap => simp only [actOnReply, kind, k]
  | notice => simp only [actOnReply, kind, k]

theorem actOnReply_swap_unfit (kind : f.kind = .reply .swapReply) (unfit : e.kind ≠ .swap ∨ (f.code ≠ 0x10 ∧ f.code ≠ 0x11)) :
    actOnReply i e f s = s := by
  cases k : e.kind with
  | swap => simp only [actOnReply, kind, k, swapOf_none (unfit.resolve_left fun no => no k)]
  | read => simp only [actOnReply, kind, k]
  | write => simp only [actOnReply, kind, k]
  | notice => simp only [actOnReply, kind, k]

theorem actOnReply_nak_unfit (kind : f.kind = .reply .nak) (unfit : f.code = 0x00 ∨ 0x06 < f.code.toNat) : actOnReply i e f s = s := by
  simp only [actOnReply, kind, nakOf_none unfit]

/-! ## Replies that fit -/

theorem actOnReply_ack (kind : f.kind = .reply .ack) (fits : e.kind = .write ∨ e.kind = .notice) :
    actOnReply i e f s = succeedAck i e s := by
  rcases fits with k | k <;> simp only [actOnReply, kind, k]

theorem actOnReply_data (kind : f.kind = .reply .readData) (fits : e.kind = .read) (length : f.length.toNat = e.length) :
    actOnReply i e f s = succeedRead i e f.payload s := by
  simp only [actOnReply, kind, fits, length, if_true]

theorem actOnReply_swap {result : SwapResult} (kind : f.kind = .reply .swapReply) (fits : e.kind = .swap)
    (code : f.code = 0x10 ∧ result = .swapped ∨ f.code = 0x11 ∧ result = .unchanged) :
    actOnReply i e f s = succeedSwap i e result f.payload s := by
  rcases code with ⟨code, rfl⟩ | ⟨code, rfl⟩ <;> simp only [actOnReply, kind, fits, code] <;> rfl

theorem actOnReply_nak {c : NakCode} (kind : f.kind = .reply .nak) (code : nakOf f.code = some c) :
    actOnReply i e f s = actOnNak i e c s := by
  simp only [actOnReply, kind, code]

theorem replyData_whole {payload : List Byte} {n : Nat} (whole : n ≤ payload.length) :
    replyData s payload n = payload.take n ∧ drawFree payload n s = s := by
  have none : n - payload.length = 0 := by omega
  simp only [replyData, drawFree, none, List.range_zero, List.map_nil, List.append_nil, Nat.add_zero, and_self]

theorem succeedRead_eq {payload : List Byte} (whole : e.length ≤ payload.length) : succeedRead i e payload s =
    if e.orphan then freeEntry i e s
    else asking ((writePiece e.localAt.toNat (payload.take e.length) false).1,
      .getWrite e.channel (writePiece e.localAt.toNat (payload.take e.length) false).2 e.offset) (freeEntry i e s) := by
  simp only [succeedRead, (replyData_whole (s := s) whole).1, (replyData_whole (s := freeEntry i e s) whole).2]
  rfl

theorem succeedSwap_eq {payload : List Byte} {result : SwapResult} (whole : 4 ≤ payload.length) : succeedSwap i e result payload s =
    if e.orphan then freeEntry i e s
    else asking (.part (BitVec.ofNat 14 ((e.localAt.toNat + 8) / 8)) ((e.localAt.toNat + 8) % 8) (payload.take 4), .resultWrite e.channel)
      (modChannel e.channel (fun c => { c with swapResult := some result }) (freeEntry i e s)) := by
  simp only [succeedSwap, (replyData_whole (s := s) whole).1, (replyData_whole (s := freeEntry i e s) whole).2]
  rfl

/-! ## A target that no longer answers for its entries -/

/-- A presence frame asked for is loaded into an empty holder in RUNNING and LEAVING (R150). -/
theorem askPresence_eq : askPresence s = { s with sl := { s.sl with
    holder := if s.hp.phase = .running ∨ s.hp.phase = .leaving then some (s.sl.holder.getD (presenceFrame s.own s.hp.label false false))
    else s.sl.holder } } := by
  unfold askPresence
  cases holder : s.sl.holder with
  | none =>
    split
    · rename_i asks; rw [if_pos asks.1]; rfl
    · rename_i no; rw [if_neg fun k => no ⟨k, rfl⟩, ← holder]
  | some f =>
    rw [if_neg (by simp), Option.getD_some, ite_self, ← holder]

/-- The state a NAK NOT-JOINED leaves (R77). -/
def unjoined (p : Station) (rest : List Frame) (s : State) : State :=
  let g := failAll p .notJoined s
  { g with
    peers := g.peers.set p.val { g.peer p with tx := { (g.peer p).tx with syncNeeded := true, backoff := none } } p.isLt
    sl := { g.sl with
      inReplies := rest
      holder := if s.hp.phase = .running ∨ s.hp.phase = .leaving then
          some (s.sl.holder.getD (presenceFrame s.own s.hp.label false false)) else s.sl.holder } }

theorem needSync_stopBackoff : needSync p (stopBackoff p s) = { s with
    peers := s.peers.set p.val { s.peer p with tx := { (s.peer p).tx with syncNeeded := true, backoff := none } } p.isLt } := by
  have read := peer_setPeer_self (s := s) p { s.peer p with tx := { (s.peer p).tx with backoff := none } }
  simp only [needSync, stopBackoff, modTx, read]
  simp only [setPeer, Vector.set_set]

theorem nakNotJoined_eq : nakNotJoined p (replyTaken rest s) = unjoined p rest s := by
  obtain ⟨rt, channels, turn, asked, queue, held, freed⟩ := failAll_freeing (s := s) p .notJoined
  have hp : (failAll p .notJoined s).hp = s.hp := by rw [freed]
  have own : (failAll p .notJoined s).own = s.own := by rw [freed]
  have holder : (failAll p .notJoined s).sl.holder = s.sl.holder := by rw [freed]
  rw [nakNotJoined, (apart_replyTaken rest).failAll, needSync_stopBackoff, askPresence_eq]
  simp only [unjoined, ← hp, ← own, ← holder]
  rfl

end

end Sys2Proof.Machine
end

section
/-! What a reply leaves. -/

namespace Sys2Proof.Machine

section
variable {s t : State} {i : Slot} {e : Entry} {p : Station} {f : Frame} {rest : List Frame}

/-- A reply that is discarded leaves nothing but its place in the buffer. -/
theorem replyTake_discards (live : Live s) (h : Settled s) (ends : takeReply s = replyTaken rest s) :
    exec .replyTake s = .next { s with sl := { s.sl with inReplies := rest } } :=
  happening_quiet live h ends (loadLeaving_holder h.2 rfl rfl rfl rfl rfl rfl rfl) rfl

theorem replyTake_settles (live : Live s) (ends : takeReply s = t) : exec .replyTake s = .next (settle t) := by
  show happening takeReply s = _
  rw [happening_live live, ends]

/-- What the loss of a target for a NAK NOT-JOINED leaves, piece by piece. -/
theorem unjoined_settled (listed : OrderListsHeld s) : (∀ j, (settle (unjoined p rest s)).entry j = (s.entry j).filter fun g => decide (g.target ≠ p))
    ∧ (∀ ch, (settle (unjoined p rest s)).channel ch = (failAll p .notJoined s).channel ch)
    ∧ ((settle (unjoined p rest s)).peer p).tx.syncNeeded = true ∧ ((settle (unjoined p rest s)).peer p).tx.backoff = none
    ∧ ((settle (unjoined p rest s)).peer p).status = (s.peer p).status
    ∧ (s.hp.phase = .running →
        (settle (unjoined p rest s)).sl.holder = some (s.sl.holder.getD (presenceFrame s.own s.hp.label false false))) := by
  obtain ⟨held, peer⟩ := (failAll_freeing (s := s) p .notJoined).peer_self
  have peers : (settle (unjoined p rest s)).peer p
      = { (failAll p .notJoined s).peer p with tx := { ((failAll p .notJoined s).peer p).tx with syncNeeded := true, backoff := none } } := by
    rw [settle_eq]; exact peer_setPeer_self (s := failAll p .notJoined s) p _
  refine ⟨fun j => ?_, fun ch => ?_, by rw [peers], by rw [peers], by rw [peers, peer], fun running => ?_⟩
  · rw [settle_eq]; exact failAll_entry listed p .notJoined j
  · rw [settle_eq]; rfl
  · obtain ⟨_, _, _, _, _, _, freed⟩ := failAll_freeing (s := s) p .notJoined
    have phase : (unjoined p rest s).hp.phase = .running := by
      show (failAll p .notJoined s).hp.phase = _
      rw [freed]; exact running
    rw [settle_sl (by rw [phase]; simp)]
    exact if_pos (.inl running)

theorem freeEntry_queue : (freeEntry i e s).sl.requestQueue
    = if e.state = .queued then withdrawn (requestCommitted s.sl) i s.sl.requestQueue else s.sl.requestQueue := by
  rw [freeEntry_eq]

/-! ## A channel that begins to drain -/

theorem isOf_iff {ch : ChannelNo} {x : Turn} : x.isOf ch = true ↔ ∃ p, x = .channel ch p := by
  cases x <;> simp [Turn.isOf]

theorem anyIsOf_iff {ch : ChannelNo} {x : Option Turn} : x.any (Turn.isOf ch) = true ↔ ∃ p, x = some (.channel ch p) := by
  rw [Option.any_eq_true]
  constructor
  · rintro ⟨y, rfl, is⟩
    obtain ⟨p, rfl⟩ := isOf_iff.1 is
    exact ⟨p, rfl⟩
  · rintro ⟨p, rfl⟩
    exact ⟨_, rfl, isOf_iff.2 ⟨p, rfl⟩⟩

/-- A channel that begins to drain, with the accesses it then asks for. -/
def drained (ch : ChannelNo) (r : FaultRecord) (more : List (Access × CeWork)) (s : State) : State :=
  let g := setChannel ch ((s.channel ch).draining r) (giveUpTurn ch s)
  { g with arb := { g.arb with ce := g.arb.ce ++ more } }

theorem drained_nil {ch : ChannelNo} {r : FaultRecord} :
    drained ch r [] s = setChannel ch ((s.channel ch).draining r) (giveUpTurn ch s) := by
  simp only [drained, List.append_nil]

theorem drains_spec {ch : ChannelNo} {r : FaultRecord} (more : List (Access × CeWork)) :
    (drained ch r more s).channel ch = (s.channel ch).draining r
    ∧ (∀ k, k ≠ ch → (drained ch r more s).channel k = s.channel k)
    ∧ drained ch r more s = { s with
        ce := { s.ce with channels := (drained ch r more s).ce.channels, turn := (drained ch r more s).ce.turn }
        arb := { s.arb with ce := (drained ch r more s).arb.ce } }
    ∧ ((∀ p, s.ce.turn ≠ some (.channel ch p)) → (drained ch r more s).ce.turn = s.ce.turn ∧ (giveUpTurn ch s).arb.ce = s.arb.ce)
    ∧ ∀ p, s.ce.turn = some (.channel ch p) → (drained ch r more s).ce.turn = none
      ∧ (giveUpTurn ch s).arb.ce = s.arb.ce.map fun j => if j.2.isPayload then (j.1, .dropped) else j := by
  refine ⟨channel_setChannel_self (s := giveUpTurn ch s) ch _,
    fun k other => (channel_setChannel (giveUpTurn ch s) ch k _).trans ((if_neg other).trans giveUpTurn_channel), ?_, fun no => ?_,
    fun p turn => ?_⟩
  · simp only [drained, giveUpTurn_eq]; rfl
  · have kept : giveUpTurn ch s = s := if_neg fun k => by
      obtain ⟨p, turn⟩ := anyIsOf_iff.1 k
      exact no p turn
    have turn : (giveUpTurn ch s).ce.turn = s.ce.turn := by rw [kept]
    exact ⟨turn, by rw [kept]⟩
  · have given := anyIsOf_iff.2 ⟨p, turn⟩
    have dropped : giveUpTurn ch s = setTurn none (dropCe CeWork.isPayload s) := if_pos given
    have turn : (giveUpTurn ch s).ce.turn = none := by rw [dropped]; rfl
    exact ⟨turn, by rw [dropped]; rfl⟩

end

/-- Settles O42: a reply by the entry it matches and by what of it fits. -/
theorem ackCompletesSegment : Obligations.AckCompletesSegment := by
  refine ⟨fun s p q => ⟨fun i e => matchEntry_iff, matchEntry_none⟩, fun s ch => writeUnderWay_iff, ?_⟩
  intro noted
  refine ⟨fun s f rest p live h front sender => ⟨fun lost => ?_, ?_⟩, fun i e s => ?_, ?_, ?_⟩
  · show happening takeReply s = happening takeReply (broughtBack p s)
    have live' : Live (broughtBack p s) := live
    rw [happening_live live, happening_live live', takeReply_lost front sender lost]
  · intro known taken
    refine ⟨fun none => replyTake_discards live h (takeReply_unmatched front sender known none), ?_⟩
    intro i e found freed asks fails
    have target : e.target = p := by
      obtain ⟨_, _, -, -, ⟨target, -⟩, -⟩ := matchEntry_iff.1 found
      exact target
    have acts := takeReply_matched front sender known found
    have naks {c : NakCode} (kind : f.kind = .reply .nak) (code : nakOf f.code = some c) :
        takeReply s = actOnNak i e c (replyTaken rest s) := acts.trans (actOnReply_nak kind code)
    have lost (kind : f.kind = .reply .nak) (code : f.code = 0x05) : takeReply s = unjoined p rest s :=
      (naks kind (c := .notJoined) (by rw [code]; rfl)).trans
        ((congrArg (nakNotJoined · (replyTaken rest s)) target).trans nakNotJoined_eq)
    refine ⟨fun kind unfit => replyTake_discards live h (acts.trans (actOnReply_ack_unfit kind unfit)),
      fun kind unfit => replyTake_discards live h (acts.trans (actOnReply_data_unfit kind unfit)),
      fun kind unfit => replyTake_discards live h (acts.trans (actOnReply_swap_unfit kind unfit)),
      fun kind unfit => replyTake_discards live h (acts.trans (actOnReply_nak_unfit kind unfit)),
      fun kind fits => replyTake_settles live (acts.trans (actOnReply_ack kind fits)), ?_, ?_, ?_⟩
    · intro kind fits length whole w
      rw [replyTake_settles live (acts.trans ((actOnReply_data kind fits length).trans (succeedRead_eq whole)))]
      split <;> rfl
    · intro kind fits whole result code slot
      rw [replyTake_settles live (acts.trans ((actOnReply_swap kind fits code).trans (succeedSwap_eq whole)))]
      split <;> rfl
    · intro kind
      refine ⟨fun code => ?_, fun code => ?_, fun code => ?_, fun code listed => ?_, ?_⟩
      · exact replyTake_settles live (naks kind (c := .denied) (by rw [code]; rfl))
      · exact replyTake_settles live (naks kind (c := .store) (by rw [code]; rfl))
      · exact replyTake_settles live (naks kind (c := .malformed) (by rw [code]; rfl))
      · exact ⟨_, replyTake_settles live (lost kind code), unjoined_settled listed⟩
      · intro code g t
        exact ⟨replyTake_settles live (lost kind code), settle_arb.trans (grantNext_arb rfl), settle_ce, settle_queue⟩
  · refine ⟨_, rfl, ?_, fun j => freeEntry_entry i j e, ?_, fun p => freeEntry_peer p, fun ch => freeEntry_channel,
      fun sent => ?_, fun queued => ⟨fun empty => ?_, fun free free' => ?_, fun committed q qs queue => ?_⟩⟩
    · rw [freeEntry_eq]
    · rw [freeEntry_eq]
    · rw [freeEntry_queue, if_neg sent]
    · rw [freeEntry_queue, if_pos queued, empty, withdrawn_nil]
    · have notCommitted : requestCommitted s.sl = false :=
        Bool.eq_false_iff.2 fun k => (requestCommitted_iff.1 k).elim (fun ⟨n, hn⟩ => free n hn) free'
      rw [freeEntry_queue, if_pos queued, withdrawn_free notCommitted]
    · rw [freeEntry_queue, if_pos queued, requestCommitted_iff.2 committed, queue]; rfl
  · intro s ch cur current c counted
    refine ⟨fun active some other => ?_, fun draining r fault => ?_⟩
    · rw [segmentDone_active current active (any_isRemote.2 ⟨some, other⟩)]
      split
      · rfl
      · simp only [counted, c, List.append_nil]; rfl
    · rw [segmentDone_draining draining fault]
      split
      · rfl
      · simp only [counted, c, List.append_nil]; rfl
  · intro s ch code offset c ends
    have ends_iff : ends ↔ (s.channel ch).outstanding = 0 ∧ writeUnderWay s ch = false := and_congr_right fun _ => writeUnderWay_false.symm
    have payloads (l : List (Access × CeWork)) : (l.map fun j => if j.2.isPayload then (j.1, .dropped) else j)
        = l.map fun j => match j.2 with | .payload _ => (j.1, .dropped) | _ => j :=
      List.map_congr_left fun j _ => by cases j.2 <;> rfl
    refine ⟨fun cur active current => ?_, fun draining r fault => ⟨fun last => ?_, fun more => ?_⟩, fun active draining => ?_⟩
    · have failed := failSegment_active active current code offset
      by_cases last : ends
      · rw [if_pos (ends_iff.1 last)] at failed
        obtain ⟨chan, others, frame, noTurn, turn⟩ := drains_spec (s := s) (ch := ch)
          (r := ⟨code, cur.address, offset⟩) [faultWrite ch ⟨code, cur.address, offset⟩]
        exact ⟨_, failed, chan, others, _, _, rfl, frame, fun _ => rfl, fun no => absurd last no, noTurn,
          fun p hp => ⟨(turn p hp).1, (turn p hp).2.trans (payloads _)⟩⟩
      · rw [if_neg fun k => last (ends_iff.2 k)] at failed
        obtain ⟨chan, others, frame, noTurn, turn⟩ := drains_spec (s := s) (ch := ch) (r := ⟨code, cur.address, offset⟩) []
        rw [drained_nil] at chan others frame noTurn turn
        exact ⟨_, failed, chan, others, _, [], (List.append_nil _).symm, frame, fun k => absurd k last, fun _ => rfl, noTurn,
          fun p hp => ⟨(turn p hp).1, (turn p hp).2.trans (payloads _)⟩⟩
    · rw [failSegment_draining draining fault, if_pos (ends_iff.1 last)]; rfl
    · rw [failSegment_draining draining fault, if_neg fun k => more (ends_iff.2 k)]
    · exact failSegment_other active draining code offset

end Sys2Proof.Machine
end

section
/-! Entries that go back, targets declared UNREACHABLE, deadlines and backoffs. -/

namespace Sys2Proof.Machine

section
variable {s t : State} {i : Slot} {e : Entry} {p : Station} {f : Frame} {rest : List Frame} {m : State → State}

/-! ## Ages (R65) -/

theorem age_eq : age s e = ((s.peer e.target).tx.nextSeq.toNat + 256 - e.sequence.toNat) % 256 := by
  have small := e.sequence.isLt
  rw [age, BitVec.toNat_sub]
  omega

theorem isOldest_iff (listed : OrderListsHeld s) :
    isOldest s e = true ↔ ∀ j f, s.entry j = some f → f.target = e.target → age s f ≤ age s e := by
  rw [isOldest, entriesFor_all listed fun f => decide (age s f ≤ age s e)]
  simp only [decide_eq_true_eq]

theorem entriesFor_any (listed : OrderListsHeld s) (test : Entry → Bool) :
    (entriesFor s p).any (fun x => test x.2) = true ↔ ∃ i e, s.entry i = some e ∧ e.target = p ∧ test e = true := by
  rw [List.any_eq_true]
  constructor
  · rintro ⟨x, hx, passes⟩
    exact ⟨x.1, x.2, (mem_entriesFor hx).1, (mem_entriesFor hx).2, passes⟩
  · rintro ⟨i, e, he, rfl, passes⟩
    exact ⟨_, mem_entriesFor_of listed he, passes⟩

/-! ## A target declared UNREACHABLE (R85, R149) -/

theorem declareUnreachable_eq : declareUnreachable p s =
    let g := failAll p .peerUnreachable s
    { g with
      peers := g.peers.set p.val { g.peer p with
        status := .unreachable, tx := { (g.peer p).tx with syncNeeded := true, backoff := none } } p.isLt
      ev := { g.ev with peerFlags := g.ev.peerFlags ||| (1#31 <<< p.val) } } := by
  have read := peer_setPeer_self (s := failAll p .peerUnreachable s) p { (failAll p .peerUnreachable s).peer p with
    tx := { ((failAll p .peerUnreachable s).peer p).tx with syncNeeded := true, backoff := none } }
  have synced : needSync p (stopBackoff p (failAll p .peerUnreachable s)) = setPeer p { (failAll p .peerUnreachable s).peer p with
    tx := { ((failAll p .peerUnreachable s).peer p).tx with syncNeeded := true, backoff := none } } (failAll p .peerUnreachable s) :=
    needSync_stopBackoff
  simp only [declareUnreachable, synced, setStatus, read, flagPeer]
  simp only [setPeer, Vector.set_set]

/-- What declaring a target UNREACHABLE leaves of table, channels, records and flags, and what it does not touch. -/
structure Declared (p : Station) (s t : State) : Prop where
  entries : ∀ j, t.entry j = (s.entry j).filter fun g => decide (g.target ≠ p)
  channels : ∀ ch, t.channel ch = (failAll p .peerUnreachable s).channel ch
  status : (t.peer p).status = .unreachable
  sync : (t.peer p).tx.syncNeeded = true
  backoff : (t.peer p).tx.backoff = none
  sequence : (t.peer p).tx.nextSeq = (s.peer p).tx.nextSeq
  receive : (t.peer p).rx = (s.peer p).rx
  others : ∀ q, q ≠ p → t.peer q = s.peer q
  events : t.ev = { s.ev with peerFlags := s.ev.peerFlags ||| (1#31 <<< p.val) }
  outside : t.st = s.st ∧ t.su = s.su ∧ t.nq = s.nq ∧ t.hp = s.hp ∧ t.own = s.own ∧ t.now = s.now

theorem settle_declared (listed : OrderListsHeld s) : Declared p s (settle (declareUnreachable p s)) := by
  have frees := failAll_freeing (s := s) p .peerUnreachable
  obtain ⟨held, peer⟩ := frees.peer_self
  have self : (settle (declareUnreachable p s)).peer p = { (failAll p .peerUnreachable s).peer p with
      status := .unreachable, tx := { ((failAll p .peerUnreachable s).peer p).tx with syncNeeded := true, backoff := none } } := by
    rw [settle_eq, declareUnreachable_eq]; exact peer_setPeer_self (s := failAll p .peerUnreachable s) p _
  have other (q : Station) (h : q ≠ p) : (settle (declareUnreachable p s)).peer q = s.peer q := by
    rw [settle_eq, declareUnreachable_eq]
    exact (peer_setPeer (s := failAll p .peerUnreachable s) p q _).trans ((if_neg h).trans (frees.peer_other h))
  obtain ⟨_, _, _, _, _, _, freed⟩ := frees
  constructor
  case entries => intro j; rw [settle_eq, declareUnreachable_eq]; exact failAll_entry listed p .peerUnreachable j
  case channels => intro ch; rw [settle_eq, declareUnreachable_eq]; rfl
  case status => rw [self]
  case sync => rw [self]
  case backoff => rw [self]
  case sequence => rw [self, peer]
  case receive => rw [self, peer]
  case others => exact other
  case events =>
    have same : (failAll p .peerUnreachable s).ev = s.ev := by rw [freed]
    rw [settle_eq, declareUnreachable_eq, ← same]
  case outside =>
    rw [settle_eq, declareUnreachable_eq]
    show (failAll p .peerUnreachable s).st = _ ∧ (failAll p .peerUnreachable s).su = _ ∧ (failAll p .peerUnreachable s).nq = _
      ∧ (failAll p .peerUnreachable s).hp = _ ∧ (failAll p .peerUnreachable s).own = _ ∧ (failAll p .peerUnreachable s).now = _
    rw [freed]; exact ⟨rfl, rfl, rfl, rfl, rfl, rfl⟩

theorem Apart.failAll_channel (a : Apart m) (ch : ChannelNo) (code : FaultCode) :
    (Machine.failAll p code (m s)).channel ch = (Machine.failAll p code s).channel ch := by
  rw [a.failAll, a.channel]

theorem happening_settles {f : State → State} (live : Live s) (e : f s = t) : happening f s = .next (settle t) := by
  rw [happening_live live, e]

end

/-- Settles O43: a refusal that is not final acts on an entry in WAITING alone. -/
theorem nakRewindsEntry : Obligations.NakRewindsEntry := by
  refine ⟨fun s e => ⟨age_eq, isOldest_iff⟩, ?_⟩
  intro s f rest p i e live h front sender present found kind after
  obtain ⟨_, _, -, held, ⟨rfl, -⟩, -⟩ := matchEntry_iff.1 found
  have acts := takeReply_matched front sender (by rw [present]; simp) found
  have naks {c : NakCode} (code : nakOf f.code = some c) : takeReply s = actOnNak i e c (replyTaken rest s) :=
    acts.trans (actOnReply_nak kind code)
  have kept {v : EntryState} {t : TransmitPart} (ends : takeReply s = { s with
      sl := { s.sl with inReplies := rest }
      rt := { s.rt with entries := s.rt.entries.set i.val (some { e with state := v }) i.isLt }
      peers := s.peers.set e.target.val { s.peer e.target with tx := t } e.target.isLt }) : exec .replyTake s = after v t :=
    happening_quiet live h ends (loadLeaving_kept (.inr (.inl ⟨i, _, entry_setEntry_self (s := s) i _⟩))) rfl
  refine ⟨fun code notWaiting => ?_, fun deadline waiting => ?_⟩
  · refine replyTake_discards live h ?_
    rcases code with code | code
    · rw [naks (c := .sequence) (by rw [code]; rfl)]
      cases state : e.state with
      | waiting deadline => exact absurd state (notWaiting deadline)
      | queued => simp only [actOnNak, state]
      | rewind charged => simp only [actOnNak, state]
    · rw [naks (c := .busy) (by rw [code]; rfl)]
      cases state : e.state with
      | waiting deadline => exact absurd state (notWaiting deadline)
      | queued => simp only [actOnNak, state]
      | rewind charged => simp only [actOnNak, state]
  · have sequence (code : f.code = 0x03) : takeReply s = nakSequence i e (replyTaken rest s) :=
      (naks (c := .sequence) (by rw [code]; rfl)).trans (by simp only [actOnNak, waiting])
    have busy (code : f.code = 0x04) : takeReply s = nakBusy i e (replyTaken rest s) :=
      (naks (c := .busy) (by rw [code]; rfl)).trans (by simp only [actOnNak, waiting])
    have lost (code : f.code = 0x03) (oldest : isOldest s e = true) (spent : 4 ≤ e.tries) :
        takeReply s = declareUnreachable e.target (replyTaken rest s) :=
      (sequence code).trans ((if_neg (ne_of_eq_of_ne oldest (by simp))).trans (if_neg (by omega)))
    refine ⟨fun code young => kept ?_, fun code oldest left => kept ?_, fun code oldest spent listed => ?_, ?_, fun code spent => ?_,
      fun code left => kept ?_⟩
    · refine (sequence code).trans ((if_pos young).trans ?_)
      exact congrArg (fun peers => ({ s with
        sl := { s.sl with inReplies := rest }
        rt := { s.rt with entries := s.rt.entries.set i.val (some { e with state := .rewind false }) i.isLt }
        peers := peers } : State)) (setPeer_peer e.target).symm
    · exact (sequence code).trans ((if_neg (ne_of_eq_of_ne oldest (by simp))).trans (if_pos left))
    · obtain ⟨entries, channels, status, sync, backoff, -, -, others, events, -⟩ :=
        settle_declared (s := replyTaken rest s) (p := e.target) listed
      exact ⟨_, replyTake_settles live (lost code oldest spent), entries,
        fun ch => (channels ch).trans ((apart_replyTaken rest).failAll_channel ch _), status, sync, backoff, others, events⟩
    · intro code oldest spent g t
      have ends := (lost code oldest spent).trans declareUnreachable_eq
      simp only [(apart_replyTaken rest).failAll] at ends
      exact ⟨replyTake_settles live ends, settle_arb.trans (grantNext_arb rfl), settle_ce, settle_queue⟩
    · exact replyTake_settles live ((busy code).trans (if_neg (by omega)))
    · exact (busy code).trans (if_pos left)

/-- Settles O44: a passed deadline sends the target's unanswered entries back, or the target is lost. -/
theorem deadlineAndBackoffEnd : Obligations.DeadlineAndBackoffEnd := by
  intro s live h listed
  refine ⟨fun i e deadline held waiting => ?_, fun p time running => ?_⟩
  · have passes : passDeadline i s = if (entriesFor s e.target).any fun x => x.2.unanswered && decide (4 ≤ x.2.tries)
        then declareUnreachable e.target { s with now := max s.now deadline } else goBack e.target { s with now := max s.now deadline } := by
      simp only [passDeadline, held, waiting]
    have spent : (entriesFor s e.target).any (fun x => x.2.unanswered && decide (4 ≤ x.2.tries)) = true
        ↔ ∃ j f, s.entry j = some f ∧ f.target = e.target ∧ f.state ≠ .queued ∧ 4 ≤ f.tries := by
      rw [entriesFor_any listed fun f => f.unanswered && decide (4 ≤ f.tries)]
      simp only [Entry.unanswered, Bool.and_eq_true, decide_eq_true_eq]
    refine ⟨fun left => ?_, fun over' => ?_⟩
    · have none : ¬ (entriesFor s e.target).any (fun x => x.2.unanswered && decide (4 ≤ x.2.tries)) = true := fun k => by
        obtain ⟨j, f, hf, target, state, tries⟩ := spent.1 k
        exact absurd (left j f hf target state) (by omega)
      have entries (j : Slot) : (goBack e.target { s with now := max s.now deadline }).entry j = (s.entry j).map fun f =>
          if f.target = e.target ∧ f.state ≠ .queued then { f with state := .rewind true } else f := by
        simp only [goBack, State.entry, Vector.get_map]
        refine congrArg (Option.map · _) (funext fun f => ?_)
        simp only [rewound, Entry.unanswered, decide_eq_true_eq]
      have still : ∃ j f, (goBack e.target { s with now := max s.now deadline }).entry j = some f :=
        ⟨i, _, (entries i).trans (by rw [held]; exact Option.map_some ..)⟩
      exact ⟨_, happening_quiet live h (passes.trans (if_neg none)) (loadLeaving_kept (.inr (.inl still))) rfl, entries, rfl⟩
    · have ends := passes.trans (if_pos (spent.2 over'))
      obtain ⟨entries, channels, status, sync, backoff, sequence, receive, others, events, st, su, nq, hp, own, now⟩ :=
        settle_declared (s := { s with now := max s.now deadline }) (p := e.target) listed
      have same := declareUnreachable_eq (p := e.target) (s := { s with now := max s.now deadline })
      simp only [(apart_now (max s.now deadline)).failAll] at same
      refine ⟨_, happening_settles live ends, entries,
        fun ch => (channels ch).trans ((apart_now (max s.now deadline)).failAll_channel ch _), status, sync, backoff, sequence, receive,
        others, events, st, su, nq, hp, own, now, congrArg settle same, ?_⟩
      rw [same]
      exact ⟨settle_arb.trans (grantNext_arb rfl), settle_ce, settle_queue⟩
  · have ends : endBackoff p s = stopBackoff p { s with now := max s.now time } := by simp only [endBackoff, running]
    exact happening_same live h ends rfl rfl rfl rfl rfl rfl

end Sys2Proof.Machine
end

section
/-! Windows, the form of a request, notices and their waiters, and requests turned away or refused. -/

namespace Sys2Proof.Machine

section
variable {s t : State} {p : Station} {k : RequestKind} {f : Frame} {rest : List Frame} {g : State → State}

/-! ## The window check (R91) -/

theorem find_finRange {n : Nat} {test : Fin n → Bool} {i : Fin n} :
    (List.finRange n).find? test = some i ↔ test i = true ∧ ∀ j, j < i → ¬ test j = true := by
  rw [List.find?_eq_some_iff_getElem]
  simp only [List.getElem_finRange, List.length_finRange, Bool.not_eq_true']
  constructor
  · rintro ⟨yes, m, hm, rfl, before⟩
    exact ⟨yes, fun j hj => ne_true_of_eq_false (before j.val hj)⟩
  · rintro ⟨yes, before⟩
    exact ⟨yes, i.val, i.isLt, rfl, fun j hj => Bool.eq_false_iff.2 (before ⟨j, hj.trans i.isLt⟩ hj)⟩

theorem allow_iff {r : Rights} (checked : k = .read ∨ k = .write ∨ k = .swap) : r.allow k = true
    ↔ (k = .read ∧ r.read = true) ∨ (k = .write ∧ r.write = true) ∨ (k = .swap ∧ r.swap = true) := by
  rcases checked with rfl | rfl | rfl <;> simp [Rights.allow]

theorem windowPasses_iff {w : Window} {first last : Nat} (checked : k = .read ∨ k = .write ∨ k = .swap) :
    windowPasses w p k first last = true ↔ w.isOpen = true ∧ w.length ≠ 0 ∧ 256 * w.base ≤ first
      ∧ last ≤ 256 * (w.base + w.length) - 1
      ∧ ((k = .read ∧ w.rights.read = true) ∨ (k = .write ∧ w.rights.write = true) ∨ (k = .swap ∧ w.rights.swap = true))
      ∧ w.senders.getLsbD p.val = true := by
  simp only [windowPasses, Bool.and_eq_true, decide_eq_true_eq, allow_iff checked, and_assoc]
  refine and_congr_right fun _ => and_congr_right fun some => and_congr_right fun _ => and_congr_left fun _ => ?_
  omega

/-! ## The form of a request (R102) -/

theorem inBounds_iff : inBounds f = true ↔ 1 ≤ f.length.toNat ∧ f.address.toNat % 256 + f.length.toNat ≤ 256 := by
  simp only [inBounds, Bool.and_eq_true, decide_eq_true_eq]
  omega

theorem length_eq_iff {n : Nat} (small : n < 2 ^ 16) : f.length.toNat = n ↔ f.length = BitVec.ofNat 16 n := by
  rw [← BitVec.toNat_inj, BitVec.toNat_ofNat, Nat.mod_eq_of_lt small]

/-! ## Taking a request -/

/-- A happening that leaves phase, label, table, number, holder and commitment closes with the grant alone. -/
theorem happening_asks_line (live : Live s) (quiet : loadLeaving s = s) (e : g s = t) (phase : t.hp.phase = s.hp.phase)
    (label : t.hp.label = s.hp.label) (rt : t.rt = s.rt) (own : t.own = s.own) (holder : t.sl.holder = s.sl.holder)
    (aside : t.sl.aside = s.sl.aside) (claim : t.sl.claim = s.sl.claim) :
    happening g s = .next { t with arb := (grantNext { s with arb := t.arb }).arb } := by
  have committed : presenceCommitted t.sl = presenceCommitted s.sl := by unfold presenceCommitted; rw [claim]
  have same : (grantNext t).arb = (grantNext { s with arb := t.arb }).arb := grantNext_arb rfl
  rw [happening_grant live e (loadLeaving_holder quiet phase label rt own holder aside committed), same]

/-- The same from a settled state where the arbiter stays. -/
theorem happening_line (live : Live s) (h : Settled s) (e : g s = t) (phase : t.hp.phase = s.hp.phase)
    (label : t.hp.label = s.hp.label) (rt : t.rt = s.rt) (own : t.own = s.own) (holder : t.sl.holder = s.sl.holder)
    (aside : t.sl.aside = s.sl.aside) (claim : t.sl.claim = s.sl.claim) (arb : t.arb = s.arb) : happening g s = .next t := by
  have committed : presenceCommitted t.sl = presenceCommitted s.sl := by unfold presenceCommitted; rw [claim]
  exact happening_quiet live h e (loadLeaving_holder h.2 phase label rt own holder aside committed) arb

/-- A request taken from the inbound buffer. -/
def requestTaken (rest : List Frame) (s : State) : State := modLine (fun sl => { sl with inRequests := rest }) s

/-- The service unit is free to take a request (R95, R96). -/
structure Takes (s : State) (f : Frame) (rest : List Frame) : Prop where
  phase : s.hp.phase = .running ∨ s.hp.phase = .leaving
  free : s.su.execution = none
  front : s.sl.inRequests = f :: rest

theorem Takes.goes (h : Takes s f rest) : ¬ ((s.hp.phase ≠ .running ∧ s.hp.phase ≠ .leaving) ∨ s.su.execution.isSome = true) := by
  rintro (⟨running, leaving⟩ | busy)
  · exact h.phase.elim running leaving
  · rw [h.free] at busy; cases busy

theorem takeRequest_full (h : Takes s f rest) (full : 8 ≤ s.sl.replyQueue.length) : takeRequest s = requestTaken rest s := by
  refine (if_neg h.goes).trans ?_
  simp only [h.front, if_pos full]; rfl

theorem takeRequest_serves (h : Takes s f rest) (room : s.sl.replyQueue.length < 8) (sender : stationOf f.sender = some p)
    (kind : f.kind = .request k) : takeRequest s = serve p k f (requestTaken rest s) := by
  refine (if_neg h.goes).trans ?_
  simp only [h.front, if_neg (Nat.not_le.2 room), sender, kind]; rfl

theorem serve_present (present : (s.peer p).status = .present) : serve p k f s = classify p k f s := by
  have known : hearFrom p s = s := hearFrom_known (by rw [present]; simp)
  exact (if_neg (by rw [present]; simp)).trans (congrArg (classify p k f) known)

theorem serve_lost (lost : (s.peer p).status = .unreachable) : serve p k f s = classify p k f (broughtBack p s) :=
  (if_neg (by rw [lost]; simp)).trans (congrArg (classify p k f) (hearFrom_lost lost))

theorem Takes.broughtBack (h : Takes s f rest) (p : Station) : Takes (broughtBack p s) f rest := ⟨h.phase, h.free, h.front⟩

theorem takeRequest_lost (h : Takes s f rest) (room : s.sl.replyQueue.length < 8) (sender : stationOf f.sender = some p)
    (kind : f.kind = .request k) (lost : (s.peer p).status = .unreachable) : takeRequest s = takeRequest (Machine.broughtBack p s) := by
  have back : ((requestTaken rest (Machine.broughtBack p s)).peer p).status = .present := broughtBack_status (s := s)
  rw [takeRequest_serves h room sender kind, takeRequest_serves (h.broughtBack p) room sender kind, serve_present back]
  exact serve_lost (s := requestTaken rest s) lost

/-! ## Classification (R98, R101) -/

theorem classify_duplicate {c : CacheRecord} (duplicate : duplicateRecord s p k f.sequence = some c) :
    classify p k f s = answerDuplicate p f c.outcome s := by
  simp only [classify, duplicate]

theorem classify_late (new : duplicateRecord s p k f.sequence = none) (late : f.sequence ≠ (s.peer p).rx.expected)
    (sync : f.flags.sync = false) : classify p k f s = answer f (.nak .sequence) s := by
  simp only [classify, new]
  exact if_neg fun h => h.elim late fun yes => ne_true_of_eq_false sync yes

theorem classify_busy (new : duplicateRecord s p k f.sequence = none) (inTurn : f.sequence = (s.peer p).rx.expected ∨ f.flags.sync = true)
    (notice : k = .notice) (full : 16 ≤ s.nq.records.length + setApart s) : classify p k f s = answer f (.nak .busy) s := by
  simp only [classify, new]
  exact (if_pos inTurn).trans (if_pos ⟨notice, decide_eq_true full⟩)

theorem classify_accepts (new : duplicateRecord s p k f.sequence = none)
    (inTurn : f.sequence = (s.peer p).rx.expected ∨ f.flags.sync = true)
    (room : k = .notice → s.nq.records.length + setApart s < 16) : classify p k f s = acceptRequest p k f s := by
  simp only [classify, new]
  refine (if_pos inTurn).trans (if_neg fun ⟨notice, full⟩ => ?_)
  have full' := of_decide_eq_true full
  have room' := room notice
  omega

/-! ## Acceptance (R92, R99) -/

/-- A sender's receive part after a request is accepted, with its outcome. -/
def cachedWith (k : RequestKind) (f : Frame) (o : Option CacheOutcome) (r : ReceivePart) : ReceivePart where
  expected := f.sequence + 1
  cache := ((if f.flags.sync then [] else if r.cache.length < 4 then r.cache else r.cache.drop 1)
      ++ [(⟨f.sequence, k, none⟩ : CacheRecord)]).map fun (c : CacheRecord) =>
    if c.outcome = none then { c with outcome := o } else c

/-- The accepted request's record, and an outcome filled in or none. -/
def accepting (p : Station) (k : RequestKind) (f : Frame) (o : Option CacheOutcome) (s : State) : State :=
  setPeer p { s.peer p with rx := cachedWith k f o (s.peer p).rx } s

theorem accepting_none : modRx p (acceptInto k f) s = accepting p k f none s := by
  have same (r : ReceivePart) : acceptInto k f r = cachedWith k f none r := by
    have idle (l : List CacheRecord) : (l.map fun c => if c.outcome = none then { c with outcome := none } else c) = l := by
      refine (List.map_congr_left fun c _ => ?_).trans (List.map_id l)
      split
      · rename_i h; rw [← h]; rfl
      · rfl
    exact congrArg (fun l => ({ expected := f.sequence + 1, cache := l } : ReceivePart)) (idle _).symm
  rw [modRx, same]; rfl

theorem fillOutcome_accepting (o : CacheOutcome) : fillOutcome p o (modRx p (acceptInto k f) s) = accepting p k f (some o) s := by
  have read := peer_setPeer_self (s := s) p { s.peer p with rx := acceptInto k f (s.peer p).rx }
  simp only [fillOutcome, modRx, read, accepting]
  simp only [setPeer, Vector.set_set]
  rfl

theorem acceptRequest_malformed (bad : wellFormedRequest k f = false) :
    acceptRequest p k f s = answer f (.nak .malformed) (accepting p k f (some .malformed) s) :=
  (if_pos bad).trans (congrArg (answer f (.nak .malformed)) (fillOutcome_accepting .malformed))

theorem acceptRequest_denied (good : wellFormedRequest k f = true) (other : k ≠ .notice)
    (none : windowUsed s p k (requestRange k f).1 (requestRange k f).2 = none) :
    acceptRequest p k f s = answer f (.nak .denied) (accepting p k f (some .denied) s) := by
  have closed : windowUsed (modRx p (acceptInto k f) s) p k (requestRange k f).1 (requestRange k f).2 = Option.none := none
  refine (if_neg (by rw [good]; simp)).trans ((if_neg other).trans ?_)
  simp only [closed]
  exact congrArg (answer f (.nak .denied)) (fillOutcome_accepting .denied)

theorem acceptRequest_window {w : WindowNo} (good : wellFormedRequest k f = true) (other : k ≠ .notice)
    (used : windowUsed s p k (requestRange k f).1 (requestRange k f).2 = some w) :
    acceptRequest p k f s = beginRequest p k f (shutSingleUse w k f (accepting p k f none s)) := by
  have passes : windowUsed (modRx p (acceptInto k f) s) p k (requestRange k f).1 (requestRange k f).2 = some w := used
  refine (if_neg (by rw [good]; simp)).trans ((if_neg other).trans ?_)
  simp only [passes]
  rw [accepting_none]

theorem acceptRequest_notice (good : wellFormedRequest .notice f = true) :
    acceptRequest p .notice f s = beginRequest p .notice f (modRx p (acceptInto .notice f) s) :=
  (if_neg (by rw [good]; simp)).trans (if_pos rfl)

/-- With no frame in the holder and none due, either the phase is another, or an entry is held, or a frame is kept aside. -/
theorem quiet_without_holder (quiet : loadLeaving s = s) (none : s.sl.holder = none) :
    s.hp.phase ≠ .leaving ∨ (∃ i e, s.entry i = some e) ∨ s.sl.aside.isSome = true := by
  by_contra no
  simp only [not_or, not_not, not_exists, Bool.not_eq_true, Option.isSome_eq_false_iff, Option.isNone_iff_eq_none] at no
  obtain ⟨phase, entries, aside⟩ := no
  have due := loadLeaving_due phase (fun i => Option.eq_none_iff_forall_ne_some.2 fun e => entries i e) aside
    (fun f hf => by rw [none] at hf; cases hf)
  rw [quiet] at due
  have loaded : s.sl.holder = (loadLeavingFrame s.own s.hp.label s.sl).holder := congrArg (fun u : State => u.sl.holder) due
  rw [loadLeavingFrame_empty none, none] at loaded
  cases loaded

end

/-- Settles O45: the windows are tried from the lowest on. -/
theorem windowCheck : Obligations.WindowCheck := by
  intro s p k first last checked passes
  have same (n : WindowNo) : windowPasses (s.su.windows.get n) p k first last = true ↔ passes n := windowPasses_iff checked
  refine ⟨fun n => ?_, ?_⟩
  · rw [windowUsed, find_finRange]
    simp only [same]
  · rw [windowUsed, List.find?_eq_none]
    simp only [List.mem_finRange, true_imp_iff, same]

/-- Settles O47: the form of each kind. -/
theorem requestForm : Obligations.RequestForm := by
  intro f
  refine ⟨?_, ?_, ?_, ?_⟩
  · simp only [wellFormedRequest, Bool.and_eq_true, inBounds_iff, decide_eq_true_eq, and_assoc]
  · simp only [wellFormedRequest, Bool.and_eq_true, inBounds_iff, decide_eq_true_eq, and_assoc, List.length_eq_zero_iff]
  · simp only [wellFormedRequest, Bool.and_eq_true, decide_eq_true_eq, and_assoc, length_eq_iff (f := f) (n := 8) (by omega)]; rfl
  · simp only [wellFormedRequest, Bool.and_eq_true, decide_eq_true_eq, length_eq_iff (f := f) (n := 6) (by omega)]; rfl

/-- Settles O50: a filter is 31 or a station's number, and the waiters are asked in their order. -/
theorem noticeMatch : Obligations.NoticeMatch := by
  refine ⟨fun n tag filter small => ?_, fun q n w => ?_⟩
  · have byte : filter = stationByte n.sender ↔ filter.toNat = n.sender.val := by
      have sender := n.sender.isLt
      rw [← BitVec.toNat_inj, stationByte, BitVec.toNat_ofNat, Nat.mod_eq_of_lt (by omega)]
    simp only [noticeMatches, Bool.and_eq_true, Bool.or_eq_true, decide_eq_true_eq, byte]
  · rw [matchingWaiter, List.find?_eq_some_iff_append]
    simp only [Bool.not_eq_true']
    tauto

/-- Settles O46: the tests of a request in their order. -/
theorem requestRefused : Obligations.RequestRefused := by
  refine ⟨fun f => ⟨rfl, rfl, rfl⟩, fun s => ⟨fun ⟨r, n, now⟩ => by simp only [setApart, now], fun no => ?_⟩, ?_⟩
  · unfold setApart
    split
    · rename_i r n now; exact absurd now (no r n)
    · rfl
  · intro s f rest p k live h phase free front sender kind r nak answeredBy accepted inTurn
    have takes : Takes s f rest := ⟨phase, free, front⟩
    refine ⟨fun full => ?_, fun room => ⟨fun absent => ?_, fun lost => ?_, fun present => ?_⟩⟩
    · exact happening_line live h (takeRequest_full takes full) rfl rfl rfl rfl rfl rfl rfl rfl
    · have serves : takeRequest s = askPresence (answer f (.nak .notJoined) (requestTaken rest s)) :=
        (takeRequest_serves takes room sender kind).trans (if_pos absent)
      rw [askPresence_eq] at serves
      have asked : takeRequest s = { s with
          sl := { answeredBy 0x05 with holder := some (s.sl.holder.getD (presenceFrame s.own s.hp.label false false)) } } :=
        serves.trans (congrArg (fun holder => ({ s with sl := { answeredBy 0x05 with holder := holder } } : State)) (if_pos phase))
      refine happening_quiet live h asked ?_ rfl
      cases holder : s.sl.holder with
      | some g => exact loadLeaving_holder h.2 rfl rfl rfl rfl holder.symm rfl rfl
      | none => exact loadLeaving_kept ((quiet_without_holder h.2 holder).imp_right fun k => k.imp_right .inl)
    · show happening takeRequest s = happening takeRequest (broughtBack p s)
      have live' : Live (broughtBack p s) := live
      rw [happening_live live, happening_live live', takeRequest_lost takes room sender kind lost]
    · have serves : takeRequest s = classify p k f (requestTaken rest s) :=
        (takeRequest_serves takes room sender kind).trans (serve_present (s := requestTaken rest s) present)
      refine ⟨fun new late sync => ?_, fun ⟨new, turn⟩ notice full => ?_, fun ⟨new, turn⟩ room' bad => ?_,
        fun ⟨new, turn⟩ other good none => ?_⟩
      · exact happening_line live h (serves.trans (classify_late (s := requestTaken rest s) new late sync)) rfl rfl rfl rfl rfl rfl rfl rfl
      · exact happening_line live h (serves.trans (classify_busy (s := requestTaken rest s) new turn notice full))
          rfl rfl rfl rfl rfl rfl rfl rfl
      · have accepts := serves.trans (classify_accepts (s := requestTaken rest s) new turn room')
        exact happening_line live h (accepts.trans (acceptRequest_malformed bad)) rfl rfl rfl rfl rfl rfl rfl rfl
      · have accepts := serves.trans (classify_accepts (s := requestTaken rest s) new turn fun notice => absurd notice other)
        exact happening_line live h (accepts.trans (acceptRequest_denied (s := requestTaken rest s) good other none))
          rfl rfl rfl rfl rfl rfl rfl rfl

end Sys2Proof.Machine
end

section
/-! Requests accepted and begun, duplicates answered, and the accesses of a request in execution. -/

namespace Sys2Proof.Machine

section
variable {s t : State} {p : Station} {k : RequestKind} {f : Frame} {rest : List Frame} {q : Byte}

/-! ## Duplicates (R98, R100) -/

theorem duplicateRecord_iff {c : CacheRecord} : duplicateRecord s p k q = some c ↔ ∃ before later,
    (s.peer p).rx.cache = before ++ c :: later ∧ c.sequence = q ∧ c.kind = k ∧ ∀ b ∈ before, ¬ (b.sequence = q ∧ b.kind = k) := by
  rw [duplicateRecord, List.find?_eq_some_iff_append]
  simp only [Bool.and_eq_true, decide_eq_true_eq, Bool.not_eq_true', ← Bool.not_eq_true]
  constructor
  · rintro ⟨⟨sequence, kind⟩, before, later, cache, others⟩
    exact ⟨before, later, cache, sequence, kind, others⟩
  · rintro ⟨before, later, cache, sequence, kind, others⟩
    exact ⟨⟨sequence, kind⟩, before, later, cache, others⟩

theorem duplicateRecord_none : duplicateRecord s p k q = none ↔ ∀ c ∈ (s.peer p).rx.cache, ¬ (c.sequence = q ∧ c.kind = k) := by
  simp only [duplicateRecord, List.find?_eq_none, Bool.and_eq_true, decide_eq_true_eq]

theorem answerDuplicate_cached {o : CacheOutcome} {a : Answer} (cached : cachedAnswer o = some a) :
    answerDuplicate p f (some o) s = answer f a s := by
  simp only [answerDuplicate, cached]

theorem answerDuplicate_reads (bounds : 1 ≤ f.length.toNat ∧ f.address.toNat % 256 + f.length.toNat ≤ 256 ∧ f.payload = []) :
    answerDuplicate p f (some .readData) s = beginRead p f true s := by
  obtain ⟨some, inPage, empty⟩ := bounds
  exact if_pos (by rw [Bool.and_eq_true, inBounds_iff, decide_eq_true_eq, empty]; exact ⟨⟨some, inPage⟩, rfl⟩)

theorem answerDuplicate_malformed (no : ¬ (1 ≤ f.length.toNat ∧ f.address.toNat % 256 + f.length.toNat ≤ 256 ∧ f.payload = [])) :
    answerDuplicate p f (some .readData) s = answer f (.nak .malformed) s := by
  refine if_neg fun h => ?_
  rw [Bool.and_eq_true, inBounds_iff, decide_eq_true_eq, List.length_eq_zero_iff] at h
  exact no ⟨h.1.1, h.1.2, h.2⟩

/-! ## A NOTICE delivered (R108, R116) -/

theorem conclude_accepting (o : CacheOutcome) (a : Answer) :
    conclude p f o a (modRx p (acceptInto k f) s) = answer f a (accepting p k f (some o) s) :=
  congrArg (answer f a) (fillOutcome_accepting o)

/-- The notice of a NOTICE request. -/
def noticeOf (p : Station) (f : Frame) : Notice := { sender := p, tag := num16At f.payload 0, value := f.payload.drop 2 }

theorem beginRequest_queued (none : matchingWaiter s.nq (noticeOf p f) = none) :
    beginRequest p .notice f (modRx p (acceptInto .notice f) s)
      = answer f .ack (accepting p .notice f (some .ack) { s with nq := { s.nq with records := s.nq.records ++ [noticeOf p f] } }) := by
  have arrives : noticeArrives (noticeOf p f) (modRx p (acceptInto .notice f) s)
      = modRx p (acceptInto .notice f) { s with nq := { s.nq with records := s.nq.records ++ [noticeOf p f] } } :=
    settleNotice_queue (s := modRx p (acceptInto .notice f) s) _ none
  exact (congrArg (conclude p f .ack .ack) arrives).trans (conclude_accepting .ack .ack)

theorem beginRequest_delivered {w : Waiter} {cur : Current} (matched : matchingWaiter s.nq (noticeOf p f) = some w)
    (current : (s.channel w.channel).current = some cur) (await : (descriptorOf cur.bytes).op = some .await) :
    beginRequest p .notice f (modRx p (acceptInto .notice f) s) = answer f .ack (accepting p .notice f (some .ack)
      (asking (noticeWrite w.channel cur (noticeOf p f))
        (setChannel w.channel { s.channel w.channel with state := .active } (withdrawWaiter w.channel s)))) := by
  have arrives : noticeArrives (noticeOf p f) (modRx p (acceptInto .notice f) s)
      = modRx p (acceptInto .notice f) (asking (noticeWrite w.channel cur (noticeOf p f))
        (setChannel w.channel { s.channel w.channel with state := .active } (withdrawWaiter w.channel s))) :=
    settleNotice_waiter (s := modRx p (acceptInto .notice f) s) _ matched current await
  exact (congrArg (conclude p f .ack .ack) arrives).trans (conclude_accepting .ack .ack)

theorem wellFormed_notice (length : f.length = 6) (payload : f.payload.length = 6) : wellFormedRequest .notice f = true := by
  simp only [wellFormedRequest, length, payload]; rfl

/-! ## A window used (R105) -/

theorem shutSingleUse_shuts {w : WindowNo} (shuts : k = .write ∧ f.flags.final = true ∧ (s.su.windows.get w).singleUse = true) :
    shutSingleUse w k f s = flagWindow w (setGate w false s) := if_pos shuts

theorem shutSingleUse_stays {w : WindowNo} (no : ¬ (k = .write ∧ f.flags.final = true ∧ (s.su.windows.get w).singleUse = true)) :
    shutSingleUse w k f s = s := if_neg no

/-- A gate that is set as it stands changes nothing. -/
theorem windows_same (w : WindowNo) :
    s.su.windows.set w.val { s.su.windows.get w with isOpen := (s.su.windows.get w).isOpen } w.isLt = s.su.windows :=
  Vector.set_getElem_self _

/-! ## A request in execution (R95) -/

/-- The state in which the granted access of the service unit has been made. -/
def serviceMade (x : Access) (rest : List (Access × SuWork)) (s : State) : State :=
  { s with st := (performAccess s.st x).1, arb := { s.arb with su := rest, granted := none } }

theorem actSu_write {x : Execution} {r : RangeWrite} {o : StoreOutcome} (now : s.su.execution = some x) :
    actSu (.write r) o s = remoteWrite x r o s := by simp only [actSu, now]

theorem actSu_read {x : Execution} {r : RangeRead} {o : StoreOutcome} (now : s.su.execution = some x) :
    actSu (.read r) o s = remoteRead x r o s := by simp only [actSu, now]

theorem actSu_swap {x : Execution} {o : StoreOutcome} (now : s.su.execution = some x) :
    actSu .swap o s = remoteSwap x o s := by simp only [actSu, now]

end

/-- Settles O48: acceptance by kind, and a duplicate by the outcome in its record. -/
theorem noticeAcceptedAndDuplicate : Obligations.NoticeAcceptedAndDuplicate := by
  refine ⟨fun s p k q => ⟨fun c => duplicateRecord_iff, duplicateRecord_none⟩, ?_⟩
  intro s f rest p k live h phase free front room sender present kind r reply cached asks readFirst n
  have takes : Takes s f rest := ⟨phase, free, front⟩
  have serves : takeRequest s = classify p k f (requestTaken rest s) :=
    (takeRequest_serves takes room sender kind).trans (serve_present (s := requestTaken rest s) present)
  refine ⟨fun new turn => ⟨?_, ?_⟩, fun c duplicate => ?_⟩
  · rintro rfl room' length payload
    have accepts := serves.trans ((classify_accepts (s := requestTaken rest s) new turn fun _ => room').trans
      (acceptRequest_notice (wellFormed_notice length payload)))
    refine ⟨fun none => ?_, fun w cur matched current await => ?_⟩
    · exact happening_line live h (accepts.trans (beginRequest_queued (s := requestTaken rest s) none)) rfl rfl rfl rfl rfl rfl rfl rfl
    · exact happening_asks_line live h.2 (accepts.trans (beginRequest_delivered (s := requestTaken rest s) matched current await))
        rfl rfl rfl rfl rfl rfl rfl
  · intro good w used shuts begun isOpen
    have begins (other : k ≠ .notice) : takeRequest s
        = beginRequest p k f (shutSingleUse w k f (accepting p k f none (requestTaken rest s))) :=
      serves.trans ((classify_accepts (s := requestTaken rest s) new turn fun notice => absurd notice other).trans
        (acceptRequest_window (s := requestTaken rest s) good other used))
    have open' (j : Access × SuWork) (e : takeRequest s = (let u := beginExecution p f false (accepting p k f none (requestTaken rest s))
        { u with arb := { u.arb with su := u.arb.su ++ [j] } })) : exec .requestTake s = begun isOpen s.ev.windowFlags j := by
      refine (happening_asks_line live h.2 e rfl rfl rfl rfl rfl rfl rfl).trans ?_
      simp only [begun, isOpen, windows_same]
      rfl
    refine ⟨?_, ?_, ?_⟩
    · rintro rfl first
      refine ⟨fun yes => ?_, fun no => open' _ ?_⟩
      · have e := (begins (by simp)).trans (congrArg (beginRequest p .write f)
          (shutSingleUse_shuts (s := accepting p .write f none (requestTaken rest s)) yes))
        exact happening_asks_line live h.2 e rfl rfl rfl rfl rfl rfl rfl
      · exact (begins (by simp)).trans (congrArg (beginRequest p .write f)
          (shutSingleUse_stays (s := accepting p .write f none (requestTaken rest s)) no))
    · rintro rfl
      exact open' _ ((begins (by simp)).trans (congrArg (beginRequest p .read f) (shutSingleUse_stays fun no => by cases no.1)))
    · rintro rfl
      exact open' _ ((begins (by simp)).trans (congrArg (beginRequest p .swap f) (shutSingleUse_stays fun no => by cases no.1)))
  · have answers : takeRequest s = answerDuplicate p f c.outcome (requestTaken rest s) :=
      serves.trans (classify_duplicate (s := requestTaken rest s) duplicate)
    have replies {o : CacheOutcome} {a : Answer} (outcome : c.outcome = some o) (a' : cachedAnswer o = some a) :
        exec .requestTake s = .next { s with
          sl := { s.sl with inRequests := rest, replyQueue := s.sl.replyQueue ++ [replyFrame s.own f a] } } :=
      happening_line live h (answers.trans ((congrArg (answerDuplicate p f · (requestTaken rest s)) outcome).trans
        (answerDuplicate_cached a'))) rfl rfl rfl rfl rfl rfl rfl rfl
    refine ⟨fun o => replies o rfl, fun old o => replies o rfl, fun old o => replies o rfl, fun o => replies o rfl, fun o => replies o rfl,
      fun o => replies o rfl, ?_⟩
    intro o bounds
    refine ⟨fun inside => ?_, fun no => ?_⟩
    · exact happening_asks_line live h.2 (answers.trans ((congrArg (answerDuplicate p f · (requestTaken rest s)) o).trans
        (answerDuplicate_reads inside))) rfl rfl rfl rfl rfl rfl rfl
    · exact happening_line live h (answers.trans ((congrArg (answerDuplicate p f · (requestTaken rest s)) o).trans
        (answerDuplicate_malformed no))) rfl rfl rfl rfl rfl rfl rfl rfl

/-- Settles O49: a further word is asked for, or the outcome fills the record and the reply is placed. -/
theorem requestAccessEnds : Obligations.RequestAccessEnds := by
  intro s x work f p again rest live quiet granted front execution o arb goesOn ends
  have now : (serviceMade x rest s).su.execution = some ⟨f, p, again⟩ := execution
  have next {a : Access} {w : SuWork} (e : actSu work o (serviceMade x rest s) = askSu a w (serviceMade x rest s)) :
      exec .storeAccessEnd s = goesOn a w :=
    happening_asks_line live quiet ((endAccess_su granted front).trans e) rfl rfl rfl rfl rfl rfl rfl
  have last {c : CacheOutcome} {a : Answer} {kind : ReplyKind} {length : BitVec 16} {code : Byte} {payload : List Byte}
      (e : actSu work o (serviceMade x rest s) = endExecution ⟨f, p, again⟩ c a (serviceMade x rest s))
      (frame : replyFrame s.own f a = {
        kind := .reply kind, flags := { sync := false, final := false, hello := false, leaving := false }
        sender := s.own.setWidth 8, target := f.sender, sequence := f.sequence, address := f.address, length := length
        code := code, payload := payload }) : exec .storeAccessEnd s = ends c kind length code payload := by
    simp only [ends, arb, List.append_nil, ← frame]
    cases again <;> exact happening_asks_line live quiet ((endAccess_su granted front).trans e) rfl rfl rfl rfl rfl rfl rfl
  refine ⟨?_, ?_, ?_⟩
  · rintro r rfl refused
    refine ⟨fun more => next ?_, fun done fine => last (a := .ack) ?_ rfl, fun done bad => last (a := .nak .store) ?_ rfl⟩
    · exact (actSu_write now).trans (if_pos more)
    · exact (actSu_write now).trans ((if_neg (not_not.2 done)).trans (if_neg (ne_true_of_eq_false fine)))
    · exact (actSu_write now).trans ((if_neg (not_not.2 done)).trans (if_pos bad))
  · rintro r rfl
    refine ⟨fun bytes data left => next ?_, fun bytes data left => last (a := .readData (r.inHand bytes)) ?_ rfl,
      fun bytes error => last (a := .nak .store) ?_ rfl⟩
    · rw [data]; exact (actSu_read now).trans (if_neg left)
    · rw [data]; exact (actSu_read now).trans (if_pos left)
    · rw [error]; exact actSu_read now
  · rintro rfl
    refine ⟨fun old swapped => last (a := .swapReply .swapped old) ?_ rfl, fun old unchanged => last (a := .swapReply .unchanged old) ?_ rfl,
      fun bytes error => last (a := .nak .store) ?_ rfl⟩
    · rw [swapped]; exact actSu_swap now
    · rw [unchanged]; exact actSu_swap now
    · rw [error]; exact actSu_swap now

end Sys2Proof.Machine
end

section
/-! Claim windows and transmissions. -/

namespace Sys2Proof.Machine

section
variable {s t : State} {sl : LineUnit} {c : Committed} {w : ClaimWindow} {n : Fin 62} {others : List (BitVec 5)} {f : Frame}

/-! ## When no LEAVING frame is due -/

/-- Where none is due, one of the conditions of R190 fails, or a HELLO that is not committed is in the holder. -/
theorem quiet_cases (quiet : loadLeaving s = s) : (s.hp.phase ≠ .leaving ∨ (∃ i e, s.entry i = some e) ∨ s.sl.aside.isSome = true
      ∨ (∃ f, s.sl.holder = some f ∧ f.flags.leaving = true))
    ∨ ∃ f, s.sl.holder = some f ∧ f.flags.hello = true ∧ presenceCommitted s.sl = false := by
  by_contra no
  simp only [not_or, not_not, not_exists, not_and, Bool.not_eq_true, Bool.not_eq_false, Option.isSome_eq_false_iff,
    Option.isNone_iff_eq_none] at no
  obtain ⟨⟨phase, entries, aside, unmarked⟩, committed⟩ := no
  have due := loadLeaving_due phase (fun i => Option.eq_none_iff_forall_ne_some.2 fun e => entries i e) aside unmarked
  rw [quiet] at due
  have line : s.sl = loadLeavingFrame s.own s.hp.label s.sl := congrArg State.sl due
  cases holder : s.sl.holder with
  | none =>
    have loaded := congrArg LineUnit.holder line
    rw [loadLeavingFrame_empty holder, holder] at loaded
    cases loaded
  | some f =>
    cases hello : f.flags.hello with
    | true =>
      have kept := congrArg LineUnit.aside line
      rw [loadLeavingFrame_aside holder (presenceCommitted_iff.1 (committed f holder hello)), aside] at kept
      cases kept
    | false =>
      cases first : presenceCommitted s.sl with
      | true =>
        have kept := congrArg LineUnit.aside line
        rw [loadLeavingFrame_aside holder (presenceCommitted_iff.1 first), aside] at kept
        cases kept
      | false =>
        have loaded := congrArg LineUnit.holder line
        have free := mt presenceCommitted_iff.2 (ne_true_of_eq_false first)
        rw [loadLeavingFrame_replaces holder (fun n e => free (.inl ⟨n, e⟩)) (fun e => free (.inr e)) hello] at loaded
        have leaving := unmarked _ loaded
        cases leaving

/-- None is due over a HELLO that is not committed. -/
theorem loadLeaving_hello (holder : s.sl.holder = some f) (hello : f.flags.hello = true) (free : presenceCommitted s.sl = false) :
    loadLeaving s = s := by
  unfold loadLeaving
  split
  · have same : loadLeavingFrame s.own s.hp.label s.sl = s.sl := by
      simp only [loadLeavingFrame, holder, free, hello, Bool.false_eq_true, if_false, if_true]
    rw [modLine, same]
  · rfl

/-- What does not touch holder, frame kept aside and table, and leaves no new commitment, leaves no LEAVING frame due. -/
theorem quiet_kept (quiet : loadLeaving s = s) (phase : t.hp.phase = s.hp.phase) (rt : t.rt = s.rt) (holder : t.sl.holder = s.sl.holder)
    (aside : t.sl.aside = s.sl.aside) (free : presenceCommitted t.sl = false) : loadLeaving t = t := by
  rcases quiet_cases quiet with kept | ⟨f, hf, hello, -⟩
  · refine loadLeaving_kept ?_
    have entry (i : Slot) : t.entry i = s.entry i := by rw [State.entry, rt]; rfl
    rw [phase, holder, aside]
    simpa only [entry] using kept
  · exact loadLeaving_hello (holder.trans hf) hello free

/-- In a phase without a HELLO in the holder, the commitment does not matter. -/
theorem quiet_marked (quiet : loadLeaving s = s) (inJoining : HelloInJoining s) (phase : t.hp.phase = s.hp.phase) (rt : t.rt = s.rt)
    (holder : t.sl.holder = s.sl.holder) (aside : t.sl.aside = s.sl.aside) : loadLeaving t = t := by
  have entry (i : Slot) : t.entry i = s.entry i := by rw [State.entry, rt]; rfl
  refine loadLeaving_kept ?_
  rw [phase, holder, aside]
  simp only [entry]
  rcases quiet_cases quiet with kept | ⟨f, hf, hello, -⟩
  · exact kept
  · exact .inl (by rw [inJoining.1 f hf hello]; simp)

/-! ## Claiming (R136 to R139) -/

theorem transmits_eq (p : Phase) : transmits p = decide (p = .joining ∨ p = .running ∨ p = .leaving) := by cases p <;> rfl

theorem claimIn_closed (closed : w.takesPart = false ∨ w.claimed = true) (m : Nat) : claimIn sl w m = none := if_pos closed

theorem claimIn_reply (takes : w.takesPart = true) (unclaimed : w.claimed = false) {m : Nat} (slot : m = w.replySlot)
    (waiting : sl.replyQueue ≠ []) : claimIn sl w m = some .reply :=
  (if_neg (by simp [takes, unclaimed])).trans (if_pos ⟨slot, waiting⟩)

theorem claimIn_request (takes : w.takesPart = true) (unclaimed : w.claimed = false) {m : Nat} (later : w.replySlot < w.requestSlot)
    (slot : m = w.requestSlot) : claimIn sl w m
      = if sl.holder.isSome then some .presence else if sl.requestQueue ≠ [] then some .request else none :=
  (if_neg (by simp [takes, unclaimed])).trans ((if_neg fun k => by omega).trans (if_pos slot))

theorem claimIn_silent {m : Nat} (later : w.replySlot < w.requestSlot)
    (silent : w.takesPart = false ∨ (m = w.replySlot ∧ sl.replyQueue = [])
      ∨ (m = w.requestSlot ∧ sl.holder = none ∧ sl.requestQueue = []) ∨ (m ≠ w.replySlot ∧ m ≠ w.requestSlot)) :
    claimIn sl w m = none := by
  unfold claimIn
  split
  · rfl
  · rename_i active
    rcases silent with out | ⟨slot, empty⟩ | ⟨slot, none, empty⟩ | ⟨reply, request⟩
    · exact absurd (.inl out) active
    · rw [if_neg fun k => k.2 empty, if_neg (by omega)]
    · rw [if_neg fun k => by omega, if_pos slot, none, empty]; rfl
    · rw [if_neg fun k => reply k.1, if_neg request]

/-- The slot in which a claim drives its mark. -/
def marking (n : Fin 62) (c : Committed) (w : ClaimWindow) (s : State) : State :=
  modLine (fun sl => { sl with claim := .marking n c, window := some { w with claimed := true } }) s

theorem beginSlot_marks (idle : s.sl.claim = .idle) (window : s.sl.window = some w) (claims : claimIn s.sl w n.val = some c) :
    beginSlot n s = marking n c w s := by
  simp only [beginSlot, idle, window, claims]; rfl

theorem beginSlot_silent (idle : s.sl.claim = .idle) (window : s.sl.window = some w) (silent : claimIn s.sl w n.val = none) :
    beginSlot n s = s := by
  simp only [beginSlot, idle, window, silent]

/-- The beginning of a slot drives a mark, or does nothing. -/
theorem beginSlot_cases : beginSlot n s = s ∨ ∃ c w, s.sl.claim = .idle ∧ beginSlot n s = marking n c w s := by
  unfold beginSlot
  split
  · rename_i w idle window
    split
    · rename_i c claims; exact .inr ⟨c, w, idle, rfl⟩
    · exact .inl rfl
  · exact .inl rfl

theorem marking_settled (h : Settled s) (inJoining : HelloInJoining s) : settle (marking n c w s) = marking n c w s := by
  rw [settle, quiet_marked (t := marking n c w s) h.2 inJoining rfl rfl rfl rfl]
  exact grantNext_same h.1

theorem beginSlot_settled (h : Settled s) (inJoining : HelloInJoining s) : settle (beginSlot n s) = beginSlot n s := by
  rcases beginSlot_cases (s := s) (n := n) with same | ⟨c, w, -, marks⟩
  · rw [same, settle, h.2, grantNext_same h.1]
  · rw [marks, marking_settled h inJoining]

theorem endSlot_wins (claim : s.sl.claim = .marking n c) (own : others.foldl (fun line number => line &&& number) s.own = s.own) :
    endSlot n others s = modLine (fun sl => { sl with claim := .sending c, window := none }) s := by
  simp only [endSlot, claim]
  exact (if_neg (not_not.2 rfl)).trans (if_pos own)

theorem endSlot_defers (claim : s.sl.claim = .marking n c) (other : others.foldl (fun line number => line &&& number) s.own ≠ s.own) :
    endSlot n others s = modLine defer s := by
  simp only [endSlot, claim]
  exact (if_neg (not_not.2 rfl)).trans (if_neg other)

theorem loadAside_none (none : sl.aside = none) : loadAside sl = sl := by simp only [loadAside, none]

theorem loadAside_empty {l : Frame} (aside : sl.aside = some l) (none : sl.holder = none) :
    loadAside sl = { sl with holder := some l, aside := Option.none } := by simp only [loadAside, aside, none]

theorem loadAside_over {l : Frame} (aside : sl.aside = some l) (holder : sl.holder = some f) :
    loadAside sl = { sl with holder := some (if f.flags.hello then f else l), aside := none } := by
  simp only [loadAside, aside, holder]
  split
  · rw [← holder]
  · rfl

end

/-- Settles O53: a window by its slots. -/
theorem claimWindowRuns : Obligations.ClaimWindowRuns := by
  intro s live h
  refine ⟨fun idle => ?_, ?_, fun n w idle window claimed => ?_, fun n others inJoining => ?_, ?_⟩
  · intro place
    refine ⟨?_, ?_⟩
    · have opens : openWindow s = modLine (fun sl => { sl with window := some (ownWindow s) }) s := if_neg (not_not.2 idle)
      refine happening_line live h (opens.trans ?_) rfl rfl rfl rfl rfl rfl rfl rfl
      simp only [ownWindow, transmits_eq]; rfl
    · have ends : endWindow s = if s.hp.phase = .detached then modLine (fun sl => { sl with window := none }) s
          else modLine (fun sl => { sl with window := none, rotor := 0 }) s := if_neg (not_not.2 idle)
      refine happening_line live h (ends.trans ?_) rfl rfl rfl rfl rfl rfl rfl rfl
      split <;> rfl
  · intro n w idle window unclaimed later marks
    have marked {c : Committed} (claims : claimIn s.sl w n.val = some c) (quiet : loadLeaving (marking n c w s) = marking n c w s) :
        exec (.claimSlot n .begins) s = marks c := happening_quiet live h (beginSlot_marks idle window claims) quiet rfl
    refine ⟨fun takes slot some => ?_, fun inJoining takes slot some => ?_, fun takes slot none some => ?_, fun silent => ?_⟩
    · exact marked (claimIn_reply takes unclaimed slot some) (quiet_kept h.2 rfl rfl rfl rfl rfl)
    · refine marked ((claimIn_request takes unclaimed later slot).trans (if_pos (Option.isSome_iff_ne_none.2 some)))
        (quiet_marked h.2 inJoining rfl rfl rfl rfl)
    · refine marked ((claimIn_request takes unclaimed later slot).trans ((if_neg (by simp [none])).trans (if_pos some)))
        (quiet_kept h.2 rfl rfl rfl rfl rfl)
    · exact happening_same live h (beginSlot_silent idle window (claimIn_silent later silent)) rfl rfl rfl rfl rfl rfl
  · exact happening_same live h (beginSlot_silent idle window (claimIn_closed (.inr claimed) n.val)) rfl rfl rfl rfl rfl rfl
  · have begins : exec (.claimSlot n .begins) s = .next (beginSlot n s) :=
      (happening_live live _).trans (congrArg Host.Outcome.next (beginSlot_settled h inJoining))
    have live' : Live (beginSlot n s) := by
      rcases beginSlot_cases (s := s) (n := n) with same | ⟨c, w, -, marks⟩
      · rw [same]; exact live
      · rw [marks]; exact live
    exact ⟨_, begins, (happening_live live _).trans (happening_live live' _).symm⟩
  · intro n what others claim shows
    refine ⟨fun own => ?_, fun other none => ?_, ?_⟩
    · refine happening_quiet live h (endSlot_wins claim own) (loadLeaving_holder h.2 rfl rfl rfl rfl rfl rfl ?_) rfl
      show presenceCommitted { s.sl with claim := .sending what, window := Option.none } = _
      cases what <;> simp only [presenceCommitted, claim]
    · have defers : modLine defer s = { s with
          sl := { s.sl with claim := .idle, requestQueue := s.sl.requestQueue.filter fun q => !q.withdrawn } } :=
        congrArg (fun sl => ({ s with sl := sl } : State)) (loadAside_none none)
      exact happening_quiet live h ((endSlot_defers claim other).trans defers) (quiet_kept h.2 rfl rfl rfl rfl rfl) rfl
    · intro other l aside leaving defers
      have deferred {held : Frame} (e : defer s.sl = { s.sl with
          claim := .idle, requestQueue := s.sl.requestQueue.filter fun q => !q.withdrawn, holder := some held, aside := none })
          (how : held.flags.leaving = true ∨ held.flags.hello = true) : exec (.claimSlot n (.ends others)) s = defers held := by
        refine happening_quiet live h ((endSlot_defers claim other).trans (congrArg (fun sl => ({ s with sl := sl } : State)) e)) ?_ rfl
        rcases how with left | hello
        · exact loadLeaving_kept (.inr (.inr (.inr ⟨held, rfl, left⟩)))
        · exact loadLeaving_hello (f := held) rfl hello rfl
      refine ⟨fun f holder => deferred (loadAside_over aside holder) ?_, fun none => deferred (loadAside_empty aside none) (.inl leaving)⟩
      split
      · rename_i hello; exact .inr hello
      · exact .inl leaving

/-! ## The end of a transmission (R140) -/

section
variable {s : State} {f : Frame} {q : QueuedFrame}

/-- The line unit after this frame has gone out, but for the queue or holder it came from. -/
def sentLine (s : State) (f : Frame) : LineUnit := { s.sl with
  claim := .idle, rotor := ⟨(s.own.toNat + 1) % 31, Nat.mod_lt _ (by decide)⟩, lastSent := frameBytes f }

theorem endTransmission_reply {fs : List Frame} (claim : s.sl.claim = .sending .reply) (queue : s.sl.replyQueue = f :: fs) :
    endTransmission s = { s with sl := { sentLine s f with replyQueue := fs } } := by
  simp only [endTransmission, claim, reportFrame, modLine, afterSending, sentFrame, queue]; rfl

theorem endTransmission_request {qs : List QueuedFrame} (claim : s.sl.claim = .sending .request) (queue : s.sl.requestQueue = q :: qs) :
    endTransmission s = if q.withdrawn then { s with sl := { sentLine s q.frame with requestQueue := qs } }
      else reportSent q { s with sl := { sentLine s q.frame with requestQueue := qs } } := by
  simp only [endTransmission, claim, reportFrame, modLine, afterSending, sentFrame, queue]; rfl

theorem endTransmission_presence (claim : s.sl.claim = .sending .presence) (holder : s.sl.holder = some f) :
    endTransmission s = reportPresence f { s with sl := loadAside { sentLine s f with holder := none } } := by
  simp only [endTransmission, claim, reportFrame, modLine, afterSending, sentFrame, holder]; rfl

theorem reportSent_none (entry : s.entry q.slot = none) : reportSent q s = s := by
  unfold reportSent; rw [entry]

theorem reportSent_other {e : Entry} (entry : s.entry q.slot = some e) (other : ¬ (e.state = .queued ∧ e.sequence = q.frame.sequence)) :
    reportSent q s = s := by
  unfold reportSent; rw [entry]; exact if_neg other

theorem reportSent_waits {e : Entry} (entry : s.entry q.slot = some e) (state : e.state = .queued)
    (sequence : e.sequence = q.frame.sequence) :
    reportSent q s = setEntry q.slot (some { e with state := .waiting (s.now + s.timeout) }) s := by
  unfold reportSent; rw [entry]; exact if_pos ⟨state, sequence⟩

/-- A report of no entry's frame changes nothing. -/
theorem reportSent_stale (stale : ∀ e, s.entry q.slot = some e → e.state = .queued → e.sequence ≠ q.frame.sequence) :
    reportSent q s = s := by
  cases entry : s.entry q.slot with
  | none => exact reportSent_none entry
  | some e => exact reportSent_other entry fun k => stale e entry k.1 k.2

theorem reportPresence_hello (hello : f.flags.hello = true) (phase : s.hp.phase = .joining) :
    reportPresence f s = { s with hp := { s.hp with phase := .running } } := if_pos ⟨hello, phase⟩

theorem reportPresence_leaving (hello : f.flags.hello = false) (leaving : f.flags.leaving = true) (phase : s.hp.phase = .leaving) :
    reportPresence f s = { s with hp := { s.hp with phase := .detached } } :=
  (if_neg (by simp [hello])).trans (if_pos ⟨leaving, phase⟩)

theorem reportPresence_unmarked (hello : f.flags.hello = false ∨ s.hp.phase ≠ .joining)
    (leaving : f.flags.leaving = false ∨ s.hp.phase ≠ .leaving) : reportPresence f s = s :=
  (if_neg (by rcases hello with h | h <;> simp [h])).trans (if_neg (by rcases leaving with h | h <;> simp [h]))

/-- An unmarked frame on its way out in LEAVING, with none kept aside, leaves an entry held. -/
theorem entry_of_sending (quiet : loadLeaving s = s) (phase : s.hp.phase = .leaving) (claim : s.sl.claim = .sending .presence)
    (holder : s.sl.holder = some f) (leaving : f.flags.leaving = false) (aside : s.sl.aside = none) : ∃ i e, s.entry i = some e := by
  rcases quiet_cases quiet with (other | held | kept | ⟨g, hg, left⟩) | ⟨g, -, -, free⟩
  · exact absurd phase other
  · exact held
  · rw [aside] at kept; cases kept
  · rw [holder] at hg; cases hg; rw [leaving] at left; cases left
  · rw [presenceCommitted_iff.2 (.inr claim)] at free; cases free

end

/-- Settles O54: the frame leaves the line unit and reports, each kind by its rule. -/
theorem transmissionReports : Obligations.TransmissionReports := by
  intro s live h
  refine ⟨fun t => ?_, fun f fs claim queue => ?_, fun q qs e claim queue withdrawn entry state sequence => ?_,
    fun q qs claim queue stale => ?_, fun f l claim holder aside phase unmarked leaving => ?_, fun f claim holder aside => ?_⟩
  · rfl
  · exact happening_quiet live h (endTransmission_reply claim queue) (quiet_kept h.2 rfl rfl rfl rfl rfl) rfl
  · have waits := (endTransmission_request claim queue).trans ((if_neg (ne_true_of_eq_false withdrawn)).trans
      (reportSent_waits (s := { s with sl := { sentLine s q.frame with requestQueue := qs } }) entry state sequence))
    refine happening_quiet live h waits (loadLeaving_kept (.inr (.inl ⟨q.slot, { e with state := .waiting (s.now + s.timeout) }, ?_⟩))) rfl
    exact entry_setEntry_self ..
  · refine happening_quiet live h ((endTransmission_request claim queue).trans ?_) (quiet_kept h.2 rfl rfl rfl rfl rfl) rfl
    split
    · rfl
    · rename_i kept
      exact reportSent_stale (stale.resolve_left kept)
  · have loads : loadAside { sentLine s f with holder := none } = { sentLine s f with holder := some l, aside := none } :=
      loadAside_empty aside rfl
    have ends := endTransmission_presence claim holder
    rw [loads, reportPresence_unmarked (.inr (by show s.hp.phase ≠ _; simp [phase])) (.inl unmarked)] at ends
    exact happening_quiet live h ends (loadLeaving_kept (.inr (.inr (.inr ⟨l, rfl, leaving⟩)))) rfl
  · have ends := endTransmission_presence claim holder
    rw [show loadAside { sentLine s f with holder := none } = { sentLine s f with holder := none } from loadAside_none aside] at ends
    refine ⟨fun hello phase => ?_, fun hello leaving phase => ?_, fun hello leaving phase => ?_⟩
    · exact happening_quiet live h (ends.trans (reportPresence_hello hello phase)) (loadLeaving_kept (.inl (by simp))) rfl
    · exact happening_quiet live h (ends.trans (reportPresence_leaving hello leaving phase)) (loadLeaving_kept (.inl (by simp))) rfl
    · refine happening_quiet live h (ends.trans (reportPresence_unmarked (.inl hello) (.inl leaving))) (loadLeaving_kept ?_) rfl
      rcases phase with running | departing
      · exact .inl (by show s.hp.phase ≠ _; simp [running])
      · exact .inr (.inl (entry_of_sending (s := s) h.2 departing claim holder leaving aside))

end Sys2Proof.Machine
end

section
/-! Frames received: routing, presence frames, and the failures a presence frame hands over. -/

namespace Sys2Proof.Machine

section
variable {s t g : State} {ch k : ChannelNo} {i : Slot} {e : Entry} {p : Station} {code : FaultCode} {f : Frame} {b : List Byte}

/-! ## The failures handed over, and the first of them -/

/-- A segment that fails begins the draining of its channel if that is ACTIVE, and leaves every other channel. -/
theorem failSegment_channel (offset : Nat) : (failSegment ch code offset s).channel k
    = if k = ch ∧ (s.channel ch).state = .active then (s.channel ch).draining ⟨code, (s.channel ch).address, offset⟩ else s.channel k := by
  unfold failSegment
  split
  · rename_i active
    obtain ⟨asked, drains⟩ := checkDrain_chain (ch := ch) (s := modChannel ch
      (fun c => { c with state := .draining, fault := some ⟨code, c.address, offset⟩ }) (giveUpTurn ch s))
    rw [drains]
    refine (channel_setChannel _ ch k _).trans ?_
    rw [giveUpTurn_channel, giveUpTurn_channel]
    by_cases here : k = ch
    · rw [if_pos here, if_pos ⟨here, active⟩]; rfl
    · rw [if_neg here, if_neg fun h => here h.1]
  · rename_i draining
    obtain ⟨asked, drains⟩ := checkDrain_chain (ch := ch) (s := s)
    rw [drains, if_neg fun h => by rw [draining] at h; cases h.2]; rfl
  · rename_i active _
    rw [if_neg fun h => active h.2]

theorem failEntry_orphan (orphan : e.orphan = true) : failEntry code i e s = freeEntry i e s := if_pos orphan

theorem failEntry_owned (orphan : e.orphan = false) : failEntry code i e s = failSegment e.channel code e.offset (freeEntry i e s) :=
  if_neg (ne_true_of_eq_false orphan)

/-- A channel that the entry is not of does not hear of its failure. -/
theorem failEntry_unheard (other : ¬ (e.channel = ch ∧ e.orphan = false)) : (failEntry code i e s).channel ch = s.channel ch := by
  have freed : (freeEntry i e s).channel ch = s.channel ch := freeEntry_channel.trans (if_neg fun h => other ⟨h.1.symm, h.2⟩)
  cases orphan : e.orphan with
  | true => rw [failEntry_orphan orphan, freed]
  | false =>
    rw [failEntry_owned orphan, failSegment_channel, if_neg fun h => other ⟨h.1.symm, orphan⟩, freed]

/-- The channel of a failed entry, if it is ACTIVE, drains with the fault record of that entry. -/
theorem failEntry_first {cur : Current} (channel : e.channel = ch) (owned : e.orphan = false) (active : (s.channel ch).state = .active)
    (current : (s.channel ch).current = some cur) : ((failEntry code i e s).channel ch).state = .draining
      ∧ ((failEntry code i e s).channel ch).fault = some ⟨code, cur.address, e.offset⟩ := by
  subst channel
  have freed : (freeEntry i e s).channel e.channel
      = { s.channel e.channel with outstanding := (s.channel e.channel).outstanding - 1 } :=
    freeEntry_channel.trans (if_pos ⟨rfl, owned⟩)
  have drains : (failEntry code i e s).channel e.channel
      = Channel.draining { s.channel e.channel with outstanding := (s.channel e.channel).outstanding - 1 } ⟨code, cur.address, e.offset⟩ := by
    rw [failEntry_owned owned, failSegment_channel, freed, if_pos ⟨rfl, active⟩]
    simp only [Channel.address, current]; rfl
  rw [drains]
  exact ⟨rfl, rfl⟩

/-- A channel that drains keeps its fault record when an entry fails. -/
theorem failEntry_draining (draining : (s.channel ch).state = .draining) : ((failEntry code i e s).channel ch).state = .draining
    ∧ ((failEntry code i e s).channel ch).fault = (s.channel ch).fault := by
  have freed : ((freeEntry i e s).channel ch).state = .draining ∧ ((freeEntry i e s).channel ch).fault = (s.channel ch).fault := by
    rw [freeEntry_channel]; split
    · exact ⟨draining, rfl⟩
    · exact ⟨draining, rfl⟩
  cases orphan : e.orphan with
  | true => rw [failEntry_orphan orphan]; exact freed
  | false =>
    have same : (failSegment e.channel code e.offset (freeEntry i e s)).channel ch = (freeEntry i e s).channel ch := by
      rw [failSegment_channel, if_neg]
      rintro ⟨rfl, active⟩
      rw [freed.1] at active; cases active
    rw [failEntry_owned orphan, same]; exact freed

/-- The failures of a list of entries, handed over one after another. -/
def failEach (code : FaultCode) (l : List (Slot × Entry)) (s : State) : State := l.foldl (fun s x => failEntry code x.1 x.2 s) s

theorem failEach_unheard {l : List (Slot × Entry)} (other : ∀ x ∈ l, ¬ (x.2.channel = ch ∧ x.2.orphan = false)) :
    (failEach code l s).channel ch = s.channel ch := by
  induction l generalizing s with
  | nil => rfl
  | cons x l ih =>
    exact (ih fun y hy => other y (List.mem_cons_of_mem x hy)).trans (failEntry_unheard (other x List.mem_cons_self))

theorem failEach_draining {l : List (Slot × Entry)} (draining : (s.channel ch).state = .draining) :
    ((failEach code l s).channel ch).state = .draining ∧ ((failEach code l s).channel ch).fault = (s.channel ch).fault := by
  induction l generalizing s with
  | nil => exact ⟨draining, rfl⟩
  | cons x l ih =>
    obtain ⟨state, fault⟩ := failEntry_draining (code := code) (i := x.1) (e := x.2) draining
    obtain ⟨last, kept⟩ := ih state
    exact ⟨last, kept.trans fault⟩

theorem failAll_eq : failAll p code s = failEach code (entriesFor s p) s := rfl

/-- The entry of a slot, if it is held for the station. -/
def heldFor (s : State) (p : Station) (i : Slot) : Option (Slot × Entry) :=
  ((s.entry i).filter fun e => decide (e.target = p)).map fun e => (i, e)

theorem heldFor_iff {x : Slot × Entry} : heldFor s p i = some x ↔ x.1 = i ∧ s.entry i = some x.2 ∧ x.2.target = p := by
  unfold heldFor
  cases s.entry i with
  | none => simp
  | some e =>
    by_cases target : e.target = p
    · simp only [Option.filter, target, decide_true, if_true, Option.map_some, Option.some.injEq]
      constructor
      · rintro rfl; exact ⟨rfl, rfl, target⟩
      · rintro ⟨rfl, rfl, -⟩; rfl
    · simp only [Option.filter, target, decide_false, Bool.false_eq_true, if_false, Option.map_none, reduceCtorEq, Option.some.injEq, false_iff]
      rintro ⟨-, rfl, ours⟩; exact target ours

theorem entriesFor_listed : entriesFor s p = s.rt.order.filterMap (heldFor s p) := entriesFor_eq p

/-- The entries for a station, as the order of taking lists them before, at and after a slot. -/
theorem entriesFor_split {before later : List Slot} (order : s.rt.order = before ++ i :: later) (entry : s.entry i = some e)
    (target : e.target = p) :
    entriesFor s p = before.filterMap (heldFor s p) ++ (i, e) :: later.filterMap (heldFor s p) := by
  have here : heldFor s p i = some (i, e) := heldFor_iff.2 ⟨rfl, entry, target⟩
  rw [entriesFor_listed, order, List.filterMap_append, List.filterMap_cons_some here]

/-- One after another, over the order of taking. -/
theorem failAll_order : failAll p code s = s.rt.order.foldl (fun u i =>
    (((s.entry i).filter fun e => decide (e.target = p)).map fun e => failEntry code i e u).getD u) s := by
  rw [failAll, entriesFor_eq, List.foldl_filterMap]
  congr 1
  funext u i
  cases (s.entry i).filter fun e => decide (e.target = p) <;> rfl

/-! ## A frame taken from the line (R127 to R130) -/

/-- The line unit after a good frame: the rotor goes past its sender, and the window is over. -/
def heardLine (p : Station) (sl : LineUnit) : LineUnit :=
  { sl with window := none, rotor := ⟨(p.val + 1) % 31, Nat.mod_lt _ (by decide)⟩ }

/-- The state after a good frame of a station, whatever is made of it. -/
def heard (p : Station) (s : State) : State := modLine (heardLine p) s

theorem takeFrame_transmits {c : Committed} (claim : s.sl.claim = .sending c) : takeFrame b s = s :=
  if_pos (by simp [claim])

theorem takeFrame_none (idle : s.sl.claim = .idle) (deaf : receiveBytes b = .failed ∨ s.hp.phase = .detached) :
    takeFrame b s = { s with sl := { s.sl with window := none } } := by
  refine (if_neg (not_not.2 idle)).trans ?_
  by_cases phase : s.hp.phase = .detached
  · exact if_pos phase
  · refine (if_neg phase).trans ?_
    rw [deaf.resolve_right phase]; rfl

theorem takeFrame_unknown (idle : s.sl.claim = .idle) (phase : s.hp.phase ≠ .detached) (received : receiveBytes b = .unknownKind p) :
    takeFrame b s = heard p s := by
  refine (if_neg (not_not.2 idle)).trans ((if_neg phase).trans ?_)
  rw [received]; rfl

theorem takeFrame_good (idle : s.sl.claim = .idle) (phase : s.hp.phase ≠ .detached) (received : receiveBytes b = .good p f) :
    takeFrame b s = if passesFilters s f then routeFrame p f (heard p s) else heard p s := by
  refine (if_neg (not_not.2 idle)).trans ((if_neg phase).trans ?_)
  rw [received]; rfl

theorem passesFilters_presence (kind : f.kind = .presence) : passesFilters s f = true ↔ f.sender ≠ s.own.setWidth 8
    ∧ (f.target = 31 ∨ f.target = s.own.setWidth 8) ∧ f.payload.length = 8 ∧ (f.flags.hello = false ∨ f.flags.leaving = false) := by
  rw [← ownByte]
  simp only [passesFilters, kind, Bool.and_eq_true, Bool.or_eq_true, decide_eq_true_eq, Bool.not_eq_true', Bool.and_eq_false_iff]
  tauto

theorem passesFilters_request {k : RequestKind} (kind : f.kind = .request k) : passesFilters s f = true ↔ f.sender ≠ s.own.setWidth 8
    ∧ f.target = s.own.setWidth 8 ∧ s.hp.phase ≠ .config ∧ s.hp.phase ≠ .joining := by
  rw [← ownByte]
  simp only [passesFilters, kind, Bool.and_eq_true, Bool.or_eq_true, decide_eq_true_eq, reduceCtorEq, false_and, or_false, and_assoc]
  cases s.hp.phase <;> simp

theorem passesFilters_reply {k : ReplyKind} (kind : f.kind = .reply k) : passesFilters s f = true ↔ f.sender ≠ s.own.setWidth 8
    ∧ f.target = s.own.setWidth 8 ∧ s.hp.phase ≠ .config := by
  rw [← ownByte]
  simp only [passesFilters, kind, Bool.and_eq_true, Bool.or_eq_true, decide_eq_true_eq, reduceCtorEq, false_and, or_false, and_assoc]
  cases s.hp.phase <;> simp

/-! ## A presence frame (R144 to R148) -/

/-- The state with a new record of a station, with its change flag set or not, and the frame and holder of the line unit. -/
def recorded (p : Station) (r : Peer) (flag : Bool) (holder : Option Frame) (g : State) : State := { g with
  peers := g.peers.set p.val r p.isLt
  ev := { g.ev with peerFlags := g.ev.peerFlags ||| (if flag then 1#31 <<< p.val else 0) }
  sl := { heardLine p g.sl with holder := holder } }

theorem noteStatus_eq (v : PeerStatus) (always : Bool) : noteStatus p v always s = { s with
    peers := s.peers.set p.val { s.peer p with status := v } p.isLt
    ev := { s.ev with peerFlags := s.ev.peerFlags ||| (if always || decide ((s.peer p).status ≠ v) then 1#31 <<< p.val else 0) } } := by
  simp only [noteStatus, Bool.or_eq_true, decide_eq_true_eq]
  split
  · rfl
  · have unflagged : s.ev.peerFlags ||| 0 = s.ev.peerFlags := BitVec.or_zero
    rw [unflagged]; rfl

/-- The record after R94 and R87: both parts reset. -/
def resetPeer (status : PeerStatus) (label : List Byte) : Peer where
  status := status
  label := label
  tx := { nextSeq := 0, held := 0, syncNeeded := false, backoff := none }
  rx := { expected := 0, cache := [] }

theorem apart_heard (l : List Byte) : Apart fun s => storeLabel p l (heard p s) :=
  (apart_storeLabel p l).comp (apart_line (fun _ => rfl) (fun _ => rfl) fun _ _ => rfl)

/-- Both parts of a record reset after its entries were freed, and its status noted. -/
theorem noteStatus_reset (l : List Byte) (v : PeerStatus) (always : Bool) :
    noteStatus p v always (resetReceive p (resetTransmit p code (storeLabel p l (heard p s))))
      = recorded p (resetPeer v l) (always || decide ((s.peer p).status ≠ v)) s.sl.holder (failAll p code s) := by
  have frees := failAll_freeing (s := s) p code
  obtain ⟨held, peer⟩ := frees.peer_self
  obtain ⟨_, _, _, _, _, _, freed⟩ := frees
  have holder : (failAll p code s).sl.holder = s.sl.holder := by rw [freed]
  have status : ((failAll p code s).peer p).status = (s.peer p).status := by rw [peer]
  have reset : resetReceive p (resetTransmit p code (storeLabel p l (heard p s)))
      = setPeer p (resetPeer ((s.peer p).status) l) (heard p (failAll p code s)) := by
    rw [resetTransmit, (apart_heard l).failAll, ← status]
    simp only [resetReceive, modRx, modTx, storeLabel, peer_setPeer_self]
    simp only [setPeer, Vector.set_set]
    rfl
  rw [reset, noteStatus_eq, peer_setPeer_self, recorded, ← holder]
  simp only [setPeer, Vector.set_set]
  rfl

theorem takePresence_inConfig (phase : s.hp.phase = .config) : takePresence p f (heard p s)
    = recorded p { s.peer p with label := f.payload, status := if f.flags.leaving then .absent else .present }
        (f.flags.hello || decide ((s.peer p).status ≠ if f.flags.leaving then .absent else .present)) s.sl.holder s := by
  refine (if_pos phase).trans ?_
  rw [noteStatus_eq, storeLabel, peer_setPeer_self]
  simp only [setPeer, Vector.set_set]
  rfl

theorem takePresence_hello (phase : s.hp.phase ≠ .config) (hello : f.flags.hello = true) : takePresence p f (heard p s)
    = recorded p (resetPeer .present f.payload) true (if s.hp.phase = .running ∨ s.hp.phase = .leaving then
        some (s.sl.holder.getD (presenceFrame s.own s.hp.label false false)) else s.sl.holder) (failAll p .peerRestarted s) := by
  obtain ⟨_, _, _, _, _, _, freed⟩ := failAll_freeing (s := s) p .peerRestarted
  have own : (failAll p .peerRestarted s).own = s.own := by rw [freed]
  have port : (failAll p .peerRestarted s).hp = s.hp := by rw [freed]
  refine (if_neg phase).trans ((if_pos hello).trans ?_)
  rw [helloFrom, noteStatus_reset, askPresence_eq]
  simp only [recorded, Bool.true_or, own, port]

theorem takePresence_leaving (phase : s.hp.phase ≠ .config) (hello : f.flags.hello = false) (leaving : f.flags.leaving = true) :
    takePresence p f (heard p s)
      = recorded p (resetPeer .absent f.payload) (decide ((s.peer p).status ≠ .absent)) s.sl.holder (failAll p .peerLeft s) := by
  refine (if_neg phase).trans ((if_neg (ne_true_of_eq_false hello)).trans ((if_pos leaving).trans ?_))
  rw [leavingFrom, noteStatus_reset, Bool.false_or]

theorem takePresence_unmarked (phase : s.hp.phase ≠ .config) (hello : f.flags.hello = false) (leaving : f.flags.leaving = false) :
    takePresence p f (heard p s) = unmarkedFrom p (storeLabel p f.payload (heard p s)) :=
  (if_neg phase).trans ((if_neg (ne_true_of_eq_false hello)).trans (if_neg (ne_true_of_eq_false leaving)))

/-- A record whose label alone is new. -/
theorem storeLabel_recorded (l : List Byte) :
    storeLabel p l (heard p s) = recorded p { s.peer p with label := l } false s.sl.holder s := by
  have unflagged : s.ev.peerFlags ||| 0 = s.ev.peerFlags := BitVec.or_zero
  simp only [recorded, Bool.false_eq_true, if_false, unflagged]
  rfl

theorem unmarkedFrom_recorded (l : List Byte) (known : (s.peer p).status ≠ .self) : unmarkedFrom p (storeLabel p l (heard p s))
    = recorded p { s.peer p with
        label := l, status := .present
        tx := { (s.peer p).tx with syncNeeded := (s.peer p).tx.syncNeeded || decide ((s.peer p).status ≠ .present) } }
        (decide ((s.peer p).status ≠ .present)) s.sl.holder s := by
  have read : (storeLabel p l (heard p s)).peer p = { s.peer p with label := l } := peer_setPeer_self _ p _
  by_cases present : (s.peer p).status = .present
  · have same : unmarkedFrom p (storeLabel p l (heard p s)) = storeLabel p l (heard p s) :=
      if_neg (by rw [read]; simp [present])
    rw [same, storeLabel_recorded]
    simp only [present, ne_eq, not_true_eq_false, decide_false, Bool.or_false]
  · have lost : unmarkedFrom p (storeLabel p l (heard p s)) = noteStatus p .present false (needSync p (storeLabel p l (heard p s))) := by
      refine if_pos ?_
      rw [read]
      revert known present
      cases (s.peer p).status <;> simp
    rw [lost, noteStatus_eq]
    simp only [needSync, modTx, peer_setPeer_self, read, recorded, ne_eq, present, not_false_eq_true, decide_true, Bool.or_true]
    simp only [setPeer, storeLabel, Vector.set_set]
    rfl

/-! ## What closes the happening -/

theorem settle_line : ∃ holder aside, (settle s).sl = { s.sl with holder := holder, aside := aside } := by
  rw [settle_eq]
  show ∃ holder aside, (loadLeaving s).sl = { s.sl with holder := holder, aside := aside }
  unfold loadLeaving
  split
  · exact loadLeavingFrame_only s.own s.hp.label s.sl
  · exact ⟨_, _, rfl⟩

/-- What a presence frame leaves of each block. -/
structure Recorded (p : Station) (r : Peer) (flag : Bool) (holder : Option Frame) (s g t : State) : Prop where
  settled : t = settle (recorded p r flag holder g)
  rotor : t.sl.rotor = ⟨(p.val + 1) % 31, Nat.mod_lt _ (by decide)⟩
  window : t.sl.window = none
  record : t.peer p = r
  others : ∀ q, q ≠ p → t.peer q = s.peer q
  outside : t.st = s.st ∧ t.hp = s.hp ∧ t.su = s.su ∧ t.nq = s.nq ∧ t.own = s.own ∧ t.pins = s.pins
  events : t.ev = { s.ev with peerFlags := s.ev.peerFlags ||| (if flag then 1#31 <<< p.val else 0) }
  table : t.rt = g.rt
  channels : t.ce = g.ce
  arbiter : t.arb = (grantNext g).arb
  queue : t.sl.requestQueue = g.sl.requestQueue
  loaded : s.hp.phase ≠ .leaving → t.sl.holder = holder

theorem settle_recorded {r : Peer} {flag : Bool} {holder : Option Frame} (frees : Freeing p s g) :
    Recorded p r flag holder s g (settle (recorded p r flag holder g)) := by
  have others (q : Station) (other : q ≠ p) : (settle (recorded p r flag holder g)).peer q = s.peer q := by
    rw [settle_eq]
    exact (peer_setPeer (s := g) p q r).trans ((if_neg other).trans (frees.peer_other other))
  obtain ⟨h, a, line⟩ := settle_line (s := recorded p r flag holder g)
  obtain ⟨_, _, _, _, _, _, freed⟩ := frees
  have outside : g.st = s.st ∧ g.hp = s.hp ∧ g.su = s.su ∧ g.nq = s.nq ∧ g.own = s.own ∧ g.pins = s.pins := by
    rw [freed]; exact ⟨rfl, rfl, rfl, rfl, rfl, rfl⟩
  have events : g.ev = s.ev := by rw [freed]
  constructor
  case settled => rfl
  case rotor => rw [line]; rfl
  case window => rw [line]; rfl
  case record => rw [settle_eq]; exact peer_setPeer_self (s := g) p r
  case others => exact others
  case outside => rw [settle_eq]; exact outside
  case events => rw [settle_eq, ← events]; rfl
  case table => rw [settle_eq]; rfl
  case channels => rw [settle_eq]; rfl
  case arbiter => exact settle_arb.trans (grantNext_arb rfl)
  case queue => exact settle_queue
  case loaded =>
    intro phase
    have quiet : (recorded p r flag holder g).hp.phase ≠ .leaving := by rw [← outside.2.1] at phase; exact phase
    rw [settle_sl quiet]; rfl

theorem Recorded.flagged {r : Peer} {flag : Bool} {holder : Option Frame} (h : Recorded p r flag holder s g t) {yes : Prop}
    (iff : flag = true ↔ yes) : (yes → t.ev = { s.ev with peerFlags := s.ev.peerFlags ||| (1#31 <<< p.val) }) ∧ (¬ yes → t.ev = s.ev) := by
  have unflagged : s.ev.peerFlags ||| 0 = s.ev.peerFlags := BitVec.or_zero
  refine ⟨fun yes => ?_, fun no => ?_⟩
  · rw [h.events, iff.2 yes]; rfl
  · rw [h.events, Bool.eq_false_iff.2 fun k => no (iff.1 k)]
    simp only [Bool.false_eq_true, if_false, unflagged]

/-- Every presence frame leaves a record of this form, with the label of the frame. -/
theorem takePresence_recorded : ∃ r flag holder g, Freeing p s g ∧ r.label = f.payload
    ∧ takePresence p f (heard p s) = recorded p r flag holder g := by
  by_cases phase : s.hp.phase = .config
  · exact ⟨_, _, _, s, .refl p s, rfl, takePresence_inConfig phase⟩
  · cases hello : f.flags.hello with
    | true => exact ⟨_, _, _, _, failAll_freeing p _, rfl, takePresence_hello phase hello⟩
    | false =>
      cases leaving : f.flags.leaving with
      | true => exact ⟨_, _, _, _, failAll_freeing p _, rfl, takePresence_leaving phase hello leaving⟩
      | false =>
        by_cases own : (s.peer p).status = .self
        · have same : unmarkedFrom p (storeLabel p f.payload (heard p s)) = storeLabel p f.payload (heard p s) := by
            have read : (storeLabel p f.payload (heard p s)).peer p = { s.peer p with label := f.payload } := peer_setPeer_self _ p _
            exact if_neg (by rw [read]; simp [own])
          exact ⟨_, _, _, s, .refl p s, rfl,
            (takePresence_unmarked phase hello leaving).trans (same.trans (storeLabel_recorded f.payload))⟩
        · exact ⟨_, _, _, s, .refl p s, rfl,
            (takePresence_unmarked phase hello leaving).trans (unmarkedFrom_recorded f.payload own)⟩

/-! ## What is received (R127, R183) -/

theorem byteAt_take {l : List Byte} {n j : Nat} (within : j < n) : byteAt (l.take n) j = byteAt l j := by
  rw [byteAt, byteAt, List.getD_eq_getElem?_getD, List.getD_eq_getElem?_getD, List.getElem?_take_of_lt within]

/-- A frame of the right length and check is looked at by its sender and its kind. -/
theorem receiveBytes_whole (long : 14 ≤ b.length) (short : b.length ≤ 270)
    (check : frameCheck (b.take (b.length - 4)) = b.drop (b.length - 4)) : receiveBytes b
      = ((stationOf (byteAt b 1)).map fun p =>
          ((frameOf ((b.take (b.length - 4)).take 10) ((b.take (b.length - 4)).drop 10)).map (Received.good p)).getD
            (.unknownKind p)).getD .failed := by
  refine (if_neg ?_).trans ?_
  · simp only [Bool.or_eq_true, decide_eq_true_eq, check, ne_eq, not_true_eq_false, or_false]; omega
  · rw [byteAt_take (by omega)]
    cases stationOf (byteAt b 1) with
    | none => rfl
    | some p => cases frameOf ((b.take (b.length - 4)).take 10) ((b.take (b.length - 4)).drop 10) <;> rfl

theorem receiveBytes_spoilt (spoilt : b.length < 14 ∨ 270 < b.length ∨ frameCheck (b.take (b.length - 4)) ≠ b.drop (b.length - 4)) :
    receiveBytes b = .failed :=
  if_pos (by simpa only [Bool.or_eq_true, decide_eq_true_eq, or_assoc] using spoilt)

theorem receiveBytes_failed (failed : b.length < 14 ∨ 270 < b.length ∨ frameCheck (b.take (b.length - 4)) ≠ b.drop (b.length - 4)
    ∨ 30 < (byteAt b 1).toNat) : receiveBytes b = .failed := by
  by_cases spoilt : b.length < 14 ∨ 270 < b.length ∨ frameCheck (b.take (b.length - 4)) ≠ b.drop (b.length - 4)
  · exact receiveBytes_spoilt spoilt
  · simp only [not_or, Nat.not_lt, not_not] at spoilt
    obtain ⟨long, short, check⟩ := spoilt
    have sender : 30 < (byteAt b 1).toNat := by
      rcases failed with h | h | h | h
      · omega
      · omega
      · exact absurd check h
      · exact h
    rw [receiveBytes_whole long short check, stationOf_none sender]; rfl

theorem kindOf_none {n : BitVec 4} (unknown : n ∉ [0x1, 0x2, 0x3, 0x4, 0x5, 0x8, 0x9, 0xA, 0xB]) : kindOf n = none := by
  have nibbles : frameKinds.map kindNibble = [0x1, 0x2, 0x3, 0x4, 0x5, 0x8, 0x9, 0xA, 0xB] := rfl
  rw [← nibbles] at unknown
  refine List.find?_eq_none.2 fun k hk is => unknown ?_
  rw [← of_decide_eq_true is]
  exact List.mem_map_of_mem hk

theorem receiveBytes_unknown (long : 14 ≤ b.length) (short : b.length ≤ 270)
    (check : frameCheck (b.take (b.length - 4)) = b.drop (b.length - 4)) (sender : stationOf (byteAt b 1) = some p)
    (unknown : (byteAt b 0).extractLsb' 4 4 ∉ [0x1, 0x2, 0x3, 0x4, 0x5, 0x8, 0x9, 0xA, 0xB]) : receiveBytes b = .unknownKind p := by
  rw [receiveBytes_whole long short check, sender, frameOf, byteAt_take (by omega), byteAt_take (by omega), kindOf_none unknown]; rfl

/-! ## Where a good frame goes (R129, R130) -/

theorem routeFrame_presence (kind : f.kind = .presence) : routeFrame p f s = takePresence p f s := by
  unfold routeFrame; rw [kind]

theorem routeFrame_request {k : RequestKind} (kind : f.kind = .request k) : routeFrame p f s
    = { s with sl := { s.sl with inRequests := if s.sl.inRequests.length < 4 then s.sl.inRequests ++ [f] else s.sl.inRequests } } := by
  unfold routeFrame; rw [kind]
  show (if s.sl.inRequests.length < 4 then _ else s) = _
  split <;> rfl

theorem routeFrame_reply {k : ReplyKind} (kind : f.kind = .reply k) : routeFrame p f s
    = { s with sl := { s.sl with inReplies := if s.sl.inReplies.length < 4 then s.sl.inReplies ++ [f] else s.sl.inReplies } } := by
  unfold routeFrame; rw [kind]
  show (if s.sl.inReplies.length < 4 then _ else s) = _
  split <;> rfl

/-- Every good frame sets the rotor and ends the window. -/
theorem takeFrame_rotor (idle : s.sl.claim = .idle) (phase : s.hp.phase ≠ .detached) (received : receiveBytes b = .good p f) :
    (settle (takeFrame b s)).sl.rotor = (heardLine p s.sl).rotor ∧ (settle (takeFrame b s)).sl.window = none := by
  have kept {u : State} (rotor : u.sl.rotor = (heardLine p s.sl).rotor) (window : u.sl.window = none) :
      (settle u).sl.rotor = (heardLine p s.sl).rotor ∧ (settle u).sl.window = none := by
    obtain ⟨h, a, line⟩ := settle_line (s := u)
    rw [line]; exact ⟨rotor, window⟩
  rw [takeFrame_good idle phase received]
  split
  · cases kind : f.kind with
    | presence =>
      obtain ⟨r, flag, holder, g, -, -, takes⟩ := takePresence_recorded (s := s) (p := p) (f := f)
      rw [routeFrame_presence kind, takes]; exact kept rfl rfl
    | request k => rw [routeFrame_request kind]; exact kept rfl rfl
    | reply k => rw [routeFrame_reply kind]; exact kept rfl rfl
  · exact kept rfl rfl

theorem passesFilters_not (no : f.sender = s.own.setWidth 8 ∨ (f.target ≠ s.own.setWidth 8 ∧ (f.kind ≠ .presence ∨ f.target ≠ 31))
    ∨ (f.kind = .presence ∧ (f.payload.length ≠ 8 ∨ (f.flags.hello = true ∧ f.flags.leaving = true)))) : ¬ passesFilters s f = true := by
  intro passes
  cases kind : f.kind with
  | presence =>
    obtain ⟨sender, target, length, flags⟩ := (passesFilters_presence kind).1 passes
    rcases no with own | ⟨other, ⟨⟩ | all⟩ | ⟨-, wrong | ⟨hello, leaving⟩⟩
    · exact sender own
    · contradiction
    · exact target.elim all other
    · exact wrong length
    · rw [hello, leaving] at flags; rcases flags with k | k <;> cases k
  | request k =>
    obtain ⟨sender, target, -⟩ := (passesFilters_request kind).1 passes
    rcases no with own | ⟨other, -⟩ | ⟨presence, -⟩
    · exact sender own
    · exact other target
    · rw [kind] at presence; cases presence
  | reply k =>
    obtain ⟨sender, target, -⟩ := (passesFilters_reply kind).1 passes
    rcases no with own | ⟨other, -⟩ | ⟨presence, -⟩
    · exact sender own
    · exact other target
    · rw [kind] at presence; cases presence

end

/-- Settles O51: a frame by what is received, its filters and its kind. -/
theorem frameEndRoutes : Obligations.FrameEndRoutes := by
  intro b s live h
  have taken {t : State} (e : takeFrame b s = t) (hp : t.hp = s.hp) (rt : t.rt = s.rt) (own : t.own = s.own)
      (holder : t.sl.holder = s.sl.holder) (aside : t.sl.aside = s.sl.aside) (claim : t.sl.claim = s.sl.claim) (arb : t.arb = s.arb) :
      exec (.frameEnd b) s = .next t :=
    happening_line live h e (by rw [hp]) (by rw [hp]) rt own holder aside claim arb
  refine ⟨fun ⟨c, claim⟩ => taken (takeFrame_transmits claim) rfl rfl rfl rfl rfl rfl rfl, receiveBytes_failed,
    fun long short check p sender unknown => receiveBytes_unknown long short check sender unknown, ?_⟩
  intro idle line
  refine ⟨fun deaf => taken (takeFrame_none idle deaf) rfl rfl rfl rfl rfl rfl rfl, fun phase => ?_⟩
  refine ⟨fun p received => taken (takeFrame_unknown idle phase received) rfl rfl rfl rfl rfl rfl rfl, fun p f received => ?_⟩
  have discards (no : ¬ passesFilters s f = true) : exec (.frameEnd b) s = .next { s with sl := line p } :=
    taken ((takeFrame_good idle phase received).trans (if_neg no)) rfl rfl rfl rfl rfl rfl rfl
  have routes (passes : passesFilters s f = true) : takeFrame b s = routeFrame p f (heard p s) :=
    (takeFrame_good idle phase received).trans (if_pos passes)
  refine ⟨⟨_, happening_live live _, takeFrame_rotor idle phase received⟩, fun no => discards (passesFilters_not no),
    fun sender target => ⟨fun k kind => ⟨fun early => discards fun passes => ?_, fun late => ?_⟩,
      fun k kind => ⟨fun early => discards fun passes => ?_, fun late => ?_⟩⟩⟩
  · obtain ⟨-, -, config, joining⟩ := (passesFilters_request kind).1 passes
    exact early.elim config joining
  · have passes := (passesFilters_request kind).2 ⟨sender, target, by rcases late with h | h <;> simp [h], by rcases late with h | h <;> simp [h]⟩
    exact taken ((routes passes).trans (routeFrame_request kind)) rfl rfl rfl rfl rfl rfl rfl
  · exact ((passesFilters_reply kind).1 passes).2.2 early
  · exact taken ((routes ((passesFilters_reply kind).2 ⟨sender, target, late⟩)).trans (routeFrame_reply kind)) rfl rfl rfl rfl rfl rfl rfl

/-- Settles O52: each presence frame by the record it leaves. -/
theorem helloRestartsPeer : Obligations.HelloRestartsPeer := by
  refine ⟨?_, fun s p code => ?_, fun s p code ch => ⟨fun unnamed => ?_, ?_⟩⟩
  · intro b p f s live listed idle received sender target kind length marks phase
    have passes : passesFilters s f = true := (passesFilters_presence kind).2 ⟨sender, target, length, marks⟩
    have takes : takeFrame b s = takePresence p f (heard p s) :=
      (takeFrame_good idle phase received).trans ((if_pos passes).trans (routeFrame_presence kind))
    obtain ⟨r, flag, holder, g, frees, label, records⟩ := takePresence_recorded (s := s) (p := p) (f := f)
    have leaves := settle_recorded (r := r) (flag := flag) (holder := holder) frees
    obtain ⟨st, hp, su, nq, own, pins⟩ := leaves.outside
    rw [← records, ← takes] at leaves st hp su nq own pins
    refine ⟨settle (takeFrame b s), happening_live live _, leaves.rotor, leaves.window, ?_, leaves.others, st, hp, su, nq, own, pins, ?_⟩
    · rw [leaves.record, label]
    intro flagged bothReset line flags heardAs lost
    have reset {status : PeerStatus} {flag : Bool} {holder : Option Frame} {code : FaultCode}
        (e : takeFrame b s = recorded p (resetPeer status f.payload) flag holder (failAll p code s)) :
        Recorded p (resetPeer status f.payload) flag holder s (failAll p code s) (settle (takeFrame b s)) := by
      rw [e]; exact settle_recorded (failAll_freeing p code)
    have both {status : PeerStatus} {flag : Bool} {holder : Option Frame} {code : FaultCode}
        (k : Recorded p (resetPeer status f.payload) flag holder s (failAll p code s) (settle (takeFrame b s))) : bothReset code := by
      refine ⟨by rw [k.record]; rfl, by rw [k.record]; rfl, fun i => ?_, fun ch => ?_⟩
      · rw [← failAll_entry listed p code i, State.entry, k.table]; rfl
      · rw [State.channel, k.channels]; rfl
    have ends {status : PeerStatus} {flag : Bool} {holder : Option Frame} {code : FaultCode}
        (k : Recorded p (resetPeer status f.payload) flag holder s (failAll p code s) (settle (takeFrame b s))) :
        lost code status flag holder := by
      obtain ⟨_, _, _, _, _, _, freed⟩ := failAll_freeing (s := s) p code
      have events : (failAll p code s).ev = s.ev := by rw [freed]
      refine ⟨k.settled.trans ?_, k.arbiter, k.channels, k.queue⟩
      simp only [flags, ← events]; rfl
    refine ⟨fun config => ?_, fun sealed => ⟨fun hello => ?_, fun leaving => ?_, fun hello leaving known => ?_⟩⟩
    · have e := takes.trans (takePresence_inConfig config)
      have k := settle_recorded (r := { s.peer p with label := f.payload, status := if f.flags.leaving then .absent else .present })
        (flag := f.flags.hello || decide ((s.peer p).status ≠ if f.flags.leaving then .absent else .present))
        (holder := s.sl.holder) (.refl p s)
      rw [← e] at k
      have status : ((settle (takeFrame b s)).peer p).status = if f.flags.leaving then .absent else .present := by rw [k.record]
      have flag : (f.flags.hello || decide ((s.peer p).status ≠ if f.flags.leaving then .absent else .present))
          = (f.flags.hello || decide (((settle (takeFrame b s)).peer p).status ≠ (s.peer p).status)) := by
        rw [status]; congr 2; exact propext ne_comm
      refine ⟨k.table, k.channels, k.loaded (by rw [config]; simp), by rw [k.record], by rw [k.record], status,
        k.flagged ?_, ?_⟩
      · rw [flag, Bool.or_eq_true, decide_eq_true_eq]
      · rw [← flag]; exact k.settled
    · have k := reset (takes.trans (takePresence_hello sealed hello))
      refine ⟨by rw [k.record]; rfl, both k, k.flagged (by simp), fun running => ?_, fun joining => ?_, ends k⟩
      · rw [k.loaded (by rw [running]; simp), if_pos (.inl running)]
      · rw [k.loaded (by rw [joining]; simp), if_neg (by rw [joining]; simp)]
    · have hello : f.flags.hello = false := marks.resolve_right (by rw [leaving]; simp)
      have k := reset (takes.trans (takePresence_leaving sealed hello leaving))
      exact ⟨by rw [k.record]; rfl, both k, k.flagged decide_eq_true_iff, k.loaded, ends k⟩
    · have e := takes.trans ((takePresence_unmarked sealed hello leaving).trans (unmarkedFrom_recorded f.payload known))
      have k := settle_recorded (r := { s.peer p with
          label := f.payload, status := .present
          tx := { (s.peer p).tx with syncNeeded := (s.peer p).tx.syncNeeded || decide ((s.peer p).status ≠ .present) } })
        (flag := decide ((s.peer p).status ≠ .present)) (holder := s.sl.holder) (.refl p s)
      rw [← e] at k
      exact ⟨by rw [k.record], by rw [k.record], k.table, k.channels, by rw [k.record], k.flagged decide_eq_true_iff, k.loaded, k.settled⟩
  · rw [failAll_order]
    congr 1
    funext u i
    cases s.entry i with
    | none => rfl
    | some e =>
      by_cases target : e.target = p
      · simp only [Option.filter, target, decide_true, if_true, Option.map_some, Option.getD_some]; rfl
      · simp only [Option.filter, target, decide_false, Bool.false_eq_true, if_false, Option.map_none, Option.getD_none]
  · rw [failAll_eq, entriesFor_listed]
    refine failEach_unheard fun x hx ours => ?_
    obtain ⟨i, hi, found⟩ := List.mem_filterMap.1 hx
    obtain ⟨-, entry, target⟩ := heldFor_iff.1 found
    exact unnamed i hi x.2 entry ⟨target, ours⟩
  · intro before i later e cur order entry ours earlier active current
    obtain ⟨target, channel, owned⟩ := ours
    have unheard : (failEach code (before.filterMap (heldFor s p)) s).channel ch = s.channel ch := by
      refine failEach_unheard fun x hx mine => ?_
      obtain ⟨j, hj, found⟩ := List.mem_filterMap.1 hx
      obtain ⟨-, held, for_p⟩ := heldFor_iff.1 found
      exact earlier j hj x.2 held ⟨for_p, mine⟩
    obtain ⟨drains, fault⟩ := failEntry_first (code := code) (i := i) (s := failEach code (before.filterMap (heldFor s p)) s)
      channel owned (by rw [unheard]; exact active) (by rw [unheard]; exact current)
    obtain ⟨last, kept⟩ := failEach_draining (code := code) (l := later.filterMap (heldFor s p)) drains
    have all : failAll p code s = failEach code (later.filterMap (heldFor s p))
        (failEntry code i e (failEach code (before.filterMap (heldFor s p)) s)) := by
      rw [failAll_eq, entriesFor_split order entry target, failEach, List.foldl_append]; rfl
    rw [all]
    exact ⟨last, kept.trans fault⟩

end Sys2Proof.Machine
end

section
/-! The numbers that bytes hold, and the bytes of host commands (R180). -/

namespace Sys2Proof.Machine

/-! ## Numbers and bytes -/

section
variable {n : Nat}

/-- A byte after a number, most significant first. -/
theorem toNat_append_byte (x : BitVec n) (b : Byte) : (x ++ b).toNat = 256 * x.toNat + b.toNat := by
  rw [BitVec.toNat_append, ← Nat.shiftLeft_add_eq_or_of_lt b.isLt, Nat.shiftLeft_eq]; omega

theorem toNat_extract_byte (x : BitVec n) (start : Nat) : (x.extractLsb' start 8).toNat = x.toNat / 2 ^ start % 256 := by
  rw [BitVec.extractLsb'_toNat, Nat.shiftRight_eq_div_pow]

theorem bytes16_append (a b : Byte) : bytes16 (a ++ b) = [a, b] := by
  have big := toNat_append_byte a b
  simp only [bytes16, List.cons.injEq, and_true]
  constructor <;> refine BitVec.eq_of_toNat_eq ?_ <;> rw [toNat_extract_byte, big] <;> omega

theorem bytes24_append (a b c : Byte) : bytes24 (a ++ b ++ c) = [a, b, c] := by
  have big : (a ++ b ++ c).toNat = 256 * (256 * a.toNat + b.toNat) + c.toNat := by rw [toNat_append_byte, toNat_append_byte]
  simp only [bytes24, List.cons.injEq, and_true]
  refine ⟨?_, ?_, ?_⟩ <;> refine BitVec.eq_of_toNat_eq ?_ <;> rw [toNat_extract_byte, big] <;> omega

theorem bytes32_append (a b c d : Byte) : bytes32 (a ++ b ++ c ++ d) = [a, b, c, d] := by
  have big : (a ++ b ++ c ++ d).toNat = 256 * (256 * (256 * a.toNat + b.toNat) + c.toNat) + d.toNat := by
    rw [toNat_append_byte, toNat_append_byte, toNat_append_byte]
  simp only [bytes32, List.cons.injEq, and_true]
  refine ⟨?_, ?_, ?_, ?_⟩ <;> refine BitVec.eq_of_toNat_eq ?_ <;> rw [toNat_extract_byte, big] <;> omega

theorem append_bytes16 (v : BitVec 16) : v.extractLsb' 8 8 ++ v.extractLsb' 0 8 = v := by
  refine BitVec.eq_of_toNat_eq ?_
  rw [toNat_append_byte, toNat_extract_byte, toNat_extract_byte]
  omega

theorem append_bytes24 (v : BitVec 24) : v.extractLsb' 16 8 ++ v.extractLsb' 8 8 ++ v.extractLsb' 0 8 = v := by
  refine BitVec.eq_of_toNat_eq ?_
  rw [toNat_append_byte, toNat_append_byte, toNat_extract_byte, toNat_extract_byte, toNat_extract_byte]
  omega

theorem append_bytes32 (v : BitVec 32) :
    v.extractLsb' 24 8 ++ v.extractLsb' 16 8 ++ v.extractLsb' 8 8 ++ v.extractLsb' 0 8 = v := by
  refine BitVec.eq_of_toNat_eq ?_
  rw [toNat_append_byte, toNat_append_byte, toNat_append_byte, toNat_extract_byte, toNat_extract_byte, toNat_extract_byte,
    toNat_extract_byte]
  omega

end

/-! ## The operand bytes of a host command -/

section
variable {ops b : List Byte} {i : Instr} {c : HostCode}

theorem hostCodeOf_codeByte (c : HostCode) : hostCodeOf (codeByte c) = some c := by cases c <;> rfl

theorem codeByte_of {x : Byte} (code : hostCodeOf x = some c) : codeByte c = x := of_decide_eq_true (List.find?_some code :)

theorem hostCommandOf_code : hostCommandOf (codeByte c :: ops) = operandsOf c ops := by
  rw [hostCommandOf, hostCodeOf_codeByte]

theorem bare_iff {j : Instr} : (if ops = [] then some j else none) = some i ↔ ops = [] ∧ j = i := by
  by_cases empty : ops = [] <;> simp [empty]

theorem one_iff {f : Byte → Instr} : one f ops = some i ↔ ∃ a, ops = [a] ∧ f a = i := by
  constructor
  · intro h; unfold one at h; split at h
    · cases h; exact ⟨_, rfl, rfl⟩
    · cases h
  · rintro ⟨a, rfl, rfl⟩; rfl

theorem two_iff {f : Byte → Byte → Instr} : two f ops = some i ↔ ∃ a b, ops = [a, b] ∧ f a b = i := by
  constructor
  · intro h; unfold two at h; split at h
    · cases h; exact ⟨_, _, rfl, rfl⟩
    · cases h
  · rintro ⟨a, b, rfl, rfl⟩; rfl

theorem three_iff (f : BitVec 24 → Instr) : three f ops = some i ↔ ∃ a, ops = bytes24 a ∧ f a = i := by
  constructor
  · intro h; unfold three at h; split at h
    · cases h; exact ⟨_, (bytes24_append _ _ _).symm, rfl⟩
    · cases h
  · rintro ⟨a, rfl, rfl⟩
    exact congrArg (fun a => some (f a)) (append_bytes24 a)

theorem submitOf_iff : submitOf ops = some i ↔ ∃ o : SubmitOps, ops = [o.channel, o.cls] ++ bytes24 o.head ∧ .submit (.whole o) = i := by
  constructor
  · intro h; unfold submitOf at h; split at h
    · rename_i ch cl a b d
      cases h
      exact ⟨⟨ch, cl, a ++ b ++ d⟩, congrArg ([ch, cl] ++ ·) (bytes24_append a b d).symm, rfl⟩
    · cases h
  · rintro ⟨o, rfl, rfl⟩
    exact congrArg (fun a => some (Instr.submit (.whole ⟨o.channel, o.cls, a⟩))) (append_bytes24 o.head)

theorem setWindowOf_iff : setWindowOf ops = some i ↔ ∃ o : WindowOps, ops = windowBytes o ∧ .setWindow (.whole o) = i := by
  constructor
  · intro h; unfold setWindowOf at h; split at h
    · rename_i w b1 b0 l1 l0 r s0 s1 s2 s3 u g
      cases h
      refine ⟨⟨w, b1 ++ b0, l1 ++ l0, r, s0 ++ s1 ++ s2 ++ s3, u, g⟩, ?_, rfl⟩
      simp only [windowBytes, bytes16_append, bytes32_append]; rfl
    · cases h
  · rintro ⟨o, rfl, rfl⟩
    have read : setWindowOf (windowBytes o) = some (.setWindow (.whole ⟨o.window, o.base.extractLsb' 8 8 ++ o.base.extractLsb' 0 8,
        o.length.extractLsb' 8 8 ++ o.length.extractLsb' 0 8, o.rights,
        o.senders.extractLsb' 24 8 ++ o.senders.extractLsb' 16 8 ++ o.senders.extractLsb' 8 8 ++ o.senders.extractLsb' 0 8,
        o.singleUse, o.gate⟩)) := rfl
    rw [read, append_bytes16, append_bytes16, append_bytes32]

theorem label_iff : (if ops.length = 8 then some (Instr.setLabel (.whole ops)) else none) = some i
    ↔ ops.length = 8 ∧ .setLabel (.whole ops) = i := by
  by_cases eight : ops.length = 8 <;> simp [eight]

/-- The bytes that a whole host command was read from are its bytes. -/
theorem hostBytes_of_operands (read : operandsOf c ops = some i) : hostBytes i = some (codeByte c :: ops) := by
  cases c with
  | status => obtain ⟨rfl, rfl⟩ := bare_iff.1 read; rfl
  | storeRead => obtain ⟨a, rfl, rfl⟩ := (three_iff fun a => .storeRead (.whole a)).1 read; rfl
  | storeWrite => obtain ⟨a, rfl, rfl⟩ := (three_iff fun a => .storeWrite (.whole a)).1 read; rfl
  | takeEvent => obtain ⟨rfl, rfl⟩ := bare_iff.1 read; rfl
  | takeNotice => obtain ⟨rfl, rfl⟩ := bare_iff.1 read; rfl
  | takeChanges => obtain ⟨rfl, rfl⟩ := bare_iff.1 read; rfl
  | submit => obtain ⟨o, rfl, rfl⟩ := submitOf_iff.1 read; rfl
  | resume => obtain ⟨ch, cl, rfl, rfl⟩ := two_iff.1 read; rfl
  | abort => obtain ⟨a, rfl, rfl⟩ := one_iff.1 read; rfl
  | readChannel => obtain ⟨a, rfl, rfl⟩ := one_iff.1 read; rfl
  | readPeer => obtain ⟨a, rfl, rfl⟩ := one_iff.1 read; rfl
  | setWindow => obtain ⟨o, rfl, rfl⟩ := setWindowOf_iff.1 read; rfl
  | setLabel => obtain ⟨-, rfl⟩ := label_iff.1 read; rfl
  | setTiming => obtain ⟨a, rfl, rfl⟩ := one_iff.1 read; rfl
  | sealStation => obtain ⟨rfl, rfl⟩ := bare_iff.1 read; rfl
  | gate => obtain ⟨w, g, rfl, rfl⟩ := two_iff.1 read; rfl
  | mask => obtain ⟨a, rfl, rfl⟩ := one_iff.1 read; rfl
  | leave => obtain ⟨rfl, rfl⟩ := bare_iff.1 read; rfl

/-- What is taken whole, spelled by its command byte and its operand bytes, is read as itself. -/
theorem taken_reads {α : Type} {t : Taken α} {bytes : α → List Byte} {j : Taken α → Instr} (spelled : wholeBytes bytes t = some b)
    (reads : ∀ x, t = .whole x → hostCommandOf (bytes x) = some (j (.whole x))) : hostCommandOf b = some (j t) := by
  cases t with
  | code => cases spelled
  | whole x => cases spelled; exact reads x rfl

/-- A whole host command is read from its bytes. -/
theorem hostCommandOf_hostBytes (formed : i.wellFormed = true) (bytes : hostBytes i = some b) : hostCommandOf b = some i := by
  have code (c : HostCode) {ops : List Byte} {i : Instr} (read : operandsOf c ops = some i) : hostCommandOf (codeByte c :: ops) = some i :=
    hostCommandOf_code.trans read
  cases i with
  | status => cases bytes; rfl
  | takeEvent => cases bytes; rfl
  | takeNotice => cases bytes; rfl
  | takeChanges => cases bytes; rfl
  | sealStation => cases bytes; rfl
  | leave => cases bytes; rfl
  | storeRead t => exact taken_reads bytes fun a _ => code .storeRead ((three_iff fun a => .storeRead (.whole a)).2 ⟨a, rfl, rfl⟩)
  | storeWrite t => exact taken_reads bytes fun a _ => code .storeWrite ((three_iff fun a => .storeWrite (.whole a)).2 ⟨a, rfl, rfl⟩)
  | submit t => exact taken_reads bytes fun o _ => code .submit (submitOf_iff.2 ⟨o, rfl, rfl⟩)
  | resume t => exact taken_reads bytes fun o _ => code .resume rfl
  | abort t => exact taken_reads bytes fun a _ => code .abort rfl
  | readChannel t => exact taken_reads bytes fun a _ => code .readChannel rfl
  | readPeer t => exact taken_reads bytes fun a _ => code .readPeer rfl
  | setWindow t => exact taken_reads bytes fun o _ => code .setWindow (setWindowOf_iff.2 ⟨o, rfl, rfl⟩)
  | setLabel t =>
    refine taken_reads bytes fun l whole => code .setLabel (label_iff.2 ⟨?_, rfl⟩)
    subst whole
    exact of_decide_eq_true formed
  | setTiming t => exact taken_reads bytes fun a _ => code .setTiming rfl
  | gate t => exact taken_reads bytes fun o _ => code .gate rfl
  | mask t => exact taken_reads bytes fun a _ => code .mask rfl
  | unknownCommand x =>
    cases bytes
    have unknown : hostCodeOf x = none := Option.isNone_iff_eq_none.1 formed
    rw [hostCommandOf, unknown]; rfl
  | _ => cases bytes

end

/-- Settles O4: what is read from the bytes spells them, and back. -/
theorem hostCommandBytesRoundTrip : Obligations.HostCommandBytesRoundTrip := by
  refine ⟨fun i b => hostCommandOf_hostBytes, fun b i read => ?_, fun x a l o r g w => ?_, fun c => ?_⟩
  · cases b with
    | nil => cases read
    | cons x ops =>
      rw [hostCommandOf] at read
      split at read
      · obtain ⟨rfl, rfl⟩ := bare_iff.1 read; rfl
      · rename_i c code
        rw [← codeByte_of code]; exact hostBytes_of_operands read
  · exact ⟨rfl, rfl, rfl, rfl, rfl, rfl, rfl, rfl, rfl, rfl, rfl, rfl, rfl, rfl, rfl, rfl, rfl, rfl, rfl⟩
  · cases c <;> rfl

end Sys2Proof.Machine
end

section
/-! The bytes of a frame, and its check (R126, R183). -/

namespace Sys2Proof.Machine

/-! ## The check register, bit by bit (R126) -/

section
variable {r y : BitVec 32} {b : Byte}

/-- One bit into the check register: the generator is added where the bit that leaves differs from the one that goes in. -/
def checkBit (r : BitVec 32) (bit : Bool) : BitVec 32 := if r.msb = bit then r <<< 1 else (r <<< 1) ^^^ 0x04C11DB7

/-- A shift of the register with something added to it takes in the bit that was added at its top. -/
theorem checkShift_xor : checkShift (r ^^^ y) = checkBit r y.msb ^^^ (y <<< 1) := by
  rw [checkShift, checkBit, BitVec.msb_xor, BitVec.shiftLeft_xor_distrib, checkGenerator]
  cases r.msb <;> cases y.msb
  · rfl
  · exact (BitVec.xor_assoc ..).trans ((congrArg _ (BitVec.xor_comm ..)).trans (BitVec.xor_assoc ..).symm)
  · exact (BitVec.xor_assoc ..).trans ((congrArg _ (BitVec.xor_comm ..)).trans (BitVec.xor_assoc ..).symm)
  · rfl

/-- A byte at the top of the register, `k` of its bits gone. -/
def topByte (b : Byte) (k : Nat) : BitVec 32 := b.setWidth 32 <<< (24 + k)

theorem topByte_shift (k : Nat) : topByte b k <<< 1 = topByte b (k + 1) := BitVec.shiftLeft_add _ _ _ |>.symm

theorem topByte_msb {k : Nat} (left : k < 8) : (topByte b k).msb = b.getLsbD (7 - k) := by
  rw [topByte, BitVec.msb_eq_getLsbD_last, BitVec.getLsbD_shiftLeft, BitVec.getLsbD_setWidth]
  have within : ¬ 31 < 24 + k := by omega
  have place : 31 - (24 + k) = 7 - k := by omega
  have small : 7 - k < 32 := by omega
  simp [within, place, small]

theorem topByte_end : topByte b 8 = 0#32 := BitVec.shiftLeft_eq_zero (Nat.le_refl 32)

/-- A byte goes into the register bit by bit, the most significant first. -/
theorem checkByte_bits : checkByte r b = ((List.range 8).map fun k => b.getLsbD (7 - k)).foldl checkBit r := by
  have bits : (List.range 8).map (fun k => b.getLsbD (7 - k)) = [b.getLsbD 7, b.getLsbD 6, b.getLsbD 5, b.getLsbD 4, b.getLsbD 3,
    b.getLsbD 2, b.getLsbD 1, b.getLsbD 0] := rfl
  have step {r : BitVec 32} {k : Nat} (left : k < 8) :
      checkShift (r ^^^ topByte b k) = checkBit r (b.getLsbD (7 - k)) ^^^ topByte b (k + 1) := by
    rw [checkShift_xor, topByte_msb left, topByte_shift]
  have start : b.setWidth 32 <<< 24 = topByte b 0 := rfl
  rw [bits, checkByte, start, step (by omega), step (by omega), step (by omega), step (by omega), step (by omega), step (by omega),
    step (by omega), step (by omega), topByte_end, BitVec.xor_zero]
  rfl

theorem checkRegister_eq (body : List Byte) : checkRegister body = body.foldl checkByte 0xFFFFFFFF := by
  have each (r : BitVec 32) : (body.flatMap fun x => (List.range 8).map fun k => x.getLsbD (7 - k)).foldl checkBit r
      = body.foldl checkByte r := by
    induction body generalizing r with
    | nil => rfl
    | cons x body ih => rw [List.flatMap_cons, List.foldl_append, ← checkByte_bits, ih]; rfl
  exact each _

end

/-! ## The fields of a record -/

section
variable {f : Frame}

theorem bigEndian_bytes16 (v : BitVec 16) : bigEndian (bytes16 v) = v.toNat := by
  simp only [bigEndian, bytes16, List.foldl_cons, List.foldl_nil, toNat_extract_byte]; omega

theorem bigEndian_bytes32 (v : BitVec 32) : bigEndian (bytes32 v) = v.toNat := by
  simp only [bigEndian, bytes32, List.foldl_cons, List.foldl_nil, toNat_extract_byte]; omega

theorem toNat_address_top (a : Addr) : ((a.extractLsb' 16 1).setWidth 8).toNat = a.toNat / 65536 := by
  rw [BitVec.toNat_setWidth, BitVec.extractLsb'_toNat, Nat.shiftRight_eq_div_pow]; omega

theorem bigEndian_addrBytes (a : Addr) : bigEndian (addrBytes a) = a.toNat := by
  simp only [bigEndian, addrBytes, List.foldl_cons, List.foldl_nil, toNat_extract_byte, toNat_address_top]; omega

/-! ## A frame's bytes -/

theorem frameCheck_length (body : List Byte) : (frameCheck body).length = 4 := rfl

theorem frameCheck_field (body : List Byte) : bigEndian (frameCheck body) = (~~~ checkRegister body).toNat := by
  rw [frameCheck, bigEndian_bytes32, checkRegister_eq]

theorem frameBody_length (f : Frame) : (headerBytes f ++ f.payload).length = 10 + f.payload.length := by
  rw [List.length_append]; rfl

theorem frameBytes_length (f : Frame) : (frameBytes f).length = 14 + f.payload.length := by
  rw [frameBytes, List.length_append, frameBody_length, frameCheck_length]; omega

theorem frameBytes_body (f : Frame) : (frameBytes f).take (10 + f.payload.length) = headerBytes f ++ f.payload :=
  List.take_left' (frameBody_length f)

theorem frameBytes_check (f : Frame) : (frameBytes f).drop (10 + f.payload.length) = frameCheck (headerBytes f ++ f.payload) :=
  List.drop_left' (frameBody_length f)

theorem kindOf_kindNibble (k : FrameKind) : kindOf (kindNibble k) = some k := by
  cases k with
  | presence => rfl
  | request k => cases k <;> rfl
  | reply k => cases k <;> rfl

theorem extract_kind (k : BitVec 4) (flags : BitVec 4) : (k ++ flags).extractLsb' 4 4 = k := BitVec.extractLsb'_append_eq_left

theorem extract_flags (k : BitVec 4) (flags : BitVec 4) : (k ++ flags).extractLsb' 0 4 = flags := BitVec.extractLsb'_append_eq_right

/-- A bit appended to a number is its lowest. -/
theorem getLsbD_append_bit_zero {n : Nat} (x : BitVec n) (bit : Bool) : (x ++ BitVec.ofBool bit).getLsbD 0 = bit := by
  rw [BitVec.getLsbD_append]; cases bit <;> rfl

theorem getLsbD_append_bit_succ {n : Nat} (x : BitVec n) (bit : Bool) (j : Nat) :
    (x ++ BitVec.ofBool bit).getLsbD (j + 1) = x.getLsbD j := by
  rw [BitVec.getLsbD_append, if_neg (by omega)]; rfl

/-- The three lowest bits, appended one after another. -/
theorem getLsbD_three {n : Nat} (x : BitVec n) (a b c : Bool) : (x ++ BitVec.ofBool a ++ BitVec.ofBool b ++ BitVec.ofBool c).getLsbD 2 = a
    ∧ (x ++ BitVec.ofBool a ++ BitVec.ofBool b ++ BitVec.ofBool c).getLsbD 1 = b
    ∧ (x ++ BitVec.ofBool a ++ BitVec.ofBool b ++ BitVec.ofBool c).getLsbD 0 = c := by
  refine ⟨?_, ?_, getLsbD_append_bit_zero _ _⟩
  · rw [getLsbD_append_bit_succ, getLsbD_append_bit_succ, getLsbD_append_bit_zero]
  · rw [getLsbD_append_bit_succ, getLsbD_append_bit_zero]

theorem flagNibble_bits (g : FrameFlags) : (flagNibble g).getLsbD 3 = g.sync ∧ (flagNibble g).getLsbD 2 = g.final
    ∧ (flagNibble g).getLsbD 1 = g.hello ∧ (flagNibble g).getLsbD 0 = g.leaving := by
  obtain ⟨final, hello, leaving⟩ := getLsbD_three (BitVec.ofBool g.sync) g.final g.hello g.leaving
  refine ⟨?_, final, hello, leaving⟩
  refine (getLsbD_append_bit_succ _ _ 2).trans ((getLsbD_append_bit_succ _ _ 1).trans ((getLsbD_append_bit_succ _ _ 0).trans ?_))
  cases g.sync <;> rfl

theorem flagsOf_flagNibble (g : FrameFlags) : flagsOf (flagNibble g) = g := by
  obtain ⟨sync, final, hello, leaving⟩ := flagNibble_bits g
  rw [flagsOf, sync, final, hello, leaving]

theorem addr_of_bytes (a : Addr) :
    ((a.extractLsb' 16 1).setWidth 8 ++ a.extractLsb' 8 8 ++ a.extractLsb' 0 8).setWidth 17 = a := by
  refine BitVec.eq_of_toNat_eq ?_
  rw [BitVec.toNat_setWidth, toNat_append_byte, toNat_append_byte, toNat_address_top, toNat_extract_byte, toNat_extract_byte]
  omega

/-- A frame is read from its header over its payload. -/
theorem frameOf_header (f : Frame) : frameOf (headerBytes f) f.payload = some f := by
  have first : byteAt (headerBytes f) 0 = kindNibble f.kind ++ flagNibble f.flags := rfl
  have address : addrAt (headerBytes f) 4 = f.address := addr_of_bytes f.address
  have length : num16At (headerBytes f) 7 = f.length := append_bytes16 f.length
  rw [frameOf, first, extract_kind, extract_flags, kindOf_kindNibble, flagsOf_flagNibble, address, length]
  rfl

theorem receiveBytes_frameBytes {p : Station} (sender : stationOf f.sender = some p) (fits : f.payload.length ≤ 256) :
    receiveBytes (frameBytes f) = .good p f := by
  have body : (frameBytes f).length - 4 = 10 + f.payload.length := by rw [frameBytes_length]; omega
  have check : frameCheck ((frameBytes f).take ((frameBytes f).length - 4)) = (frameBytes f).drop ((frameBytes f).length - 4) := by
    rw [body, frameBytes_body, frameBytes_check]
  have second : byteAt (frameBytes f) 1 = f.sender := rfl
  have header : (headerBytes f ++ f.payload).take 10 = headerBytes f := List.take_left' rfl
  have payload : (headerBytes f ++ f.payload).drop 10 = f.payload := List.drop_left' rfl
  rw [receiveBytes_whole (by rw [frameBytes_length]; omega) (by rw [frameBytes_length]; omega) check, second, sender, body,
    frameBytes_body, header, payload, frameOf_header]
  rfl

end

/-- Settles O5: header, payload and check, each as it is sent and read. -/
theorem frameBytesRoundTrip : Obligations.FrameBytesRoundTrip := by
  refine ⟨fun p f sender fits => ⟨frameBytes_length f, receiveBytes_frameBytes sender fits⟩, ?_, fun body => ⟨rfl, ?_⟩,
    fun b p => stationOf_iff⟩
  · intro f b
    have first : byteAt b 0 = kindNibble f.kind ++ flagNibble f.flags := rfl
    have low (j : Nat) (within : j < 4) : (byteAt b 0).getLsbD j = (flagNibble f.flags).getLsbD j := by
      rw [first, BitVec.getLsbD_append, if_pos within]
    obtain ⟨sync, final, hello, leaving⟩ := flagNibble_bits f.flags
    refine ⟨?_, (low 3 (by omega)).trans sync, (low 2 (by omega)).trans final, (low 1 (by omega)).trans hello,
      (low 0 (by omega)).trans leaving, rfl, rfl, rfl, bigEndian_addrBytes f.address, bigEndian_bytes16 f.length, rfl, ?_, ?_⟩
    · rw [first, extract_kind]
      cases f.kind with
      | presence => rfl
      | request k => cases k <;> rfl
      | reply k => cases k <;> rfl
    · have rest : b.drop 10 = f.payload ++ frameCheck (headerBytes f ++ f.payload) := rfl
      rw [rest, List.take_left' rfl]
    · rw [frameBytes_body, ← frameCheck_field, recordField, frameBytes_check, List.take_of_length_le (frameCheck_length _).le]
  · rw [recordField, List.drop_zero, List.take_of_length_le (frameCheck_length _).le, frameCheck_field]

end Sys2Proof.Machine
end

section
/-! The records of the host port, and descriptors, byte for byte (R180 to R185). -/

namespace Sys2Proof.Machine

section
variable {b : List Byte} {n : Nat}

/-! ## Fields of numbers -/

theorem bigEndian_nat16 (small : n < 65536) : bigEndian (nat16 n) = n := by
  simp only [bigEndian, nat16, List.foldl_cons, List.foldl_nil, BitVec.toNat_ofNat]; omega

theorem bigEndian_nat32 (small : n < 4294967296) : bigEndian (nat32 n) = n := by
  simp only [bigEndian, nat32, List.foldl_cons, List.foldl_nil, BitVec.toNat_ofNat]; omega

theorem toNat_byte (small : n < 256) : (BitVec.ofNat 8 n).toNat = n := by
  rw [BitVec.toNat_ofNat]; omega

theorem bigEndian_addrBytes? (a : Option Addr) : bigEndian (addrBytes? a) = (a.map BitVec.toNat).getD 0 := by
  rw [addrBytes?, bigEndian_addrBytes]; cases a <;> rfl

theorem toNat_append_bit (x : BitVec n) (bit : Bool) : (x ++ BitVec.ofBool bit).toNat = 2 * x.toNat + bit.toNat := by
  rw [BitVec.toNat_append, BitVec.toNat_ofBool, ← Nat.shiftLeft_add_eq_or_of_lt bit.toNat_lt, Nat.shiftLeft_eq]; omega

/-- Three flags over nothing are a number below 8. -/
theorem toNat_three_bits (x y z : Bool) : (0#5 ++ BitVec.ofBool x ++ BitVec.ofBool y ++ BitVec.ofBool z).toNat < 8 := by
  have hx := x.toNat_lt
  have hy := y.toNat_lt
  have hz := z.toNat_lt
  rw [toNat_append_bit, toNat_append_bit, toNat_append_bit, BitVec.toNat_ofNat]; omega

/-- The bytes of a run, one by one. -/
theorem take_drop_byteAt {j m : Nat} (within : j < b.length) : (b.drop j).take (m + 1) = byteAt b j :: (b.drop (j + 1)).take m := by
  rw [List.drop_eq_getElem_cons within, List.take_succ_cons, byteAt, List.getD_eq_getElem _ _ within]

theorem recordField_two {j : Nat} (within : j + 1 < b.length) : recordField b j 2 = (num16At b j).toNat := by
  rw [recordField, take_drop_byteAt (by omega), take_drop_byteAt within, List.take_zero, num16At, toNat_append_byte, bigEndian]
  simp only [List.foldl_cons, List.foldl_nil]; omega

theorem recordField_address {j : Nat} (within : j + 2 < b.length) : recordField b j 3 % 131072 = (addrAt b j).toNat := by
  rw [recordField, take_drop_byteAt (by omega), take_drop_byteAt (by omega), take_drop_byteAt within, List.take_zero, addrAt,
    BitVec.toNat_setWidth, toNat_append_byte, toNat_append_byte, bigEndian]
  simp only [List.foldl_cons, List.foldl_nil]; omega

/-! ## Sets of stations -/

theorem stationSetOf_append (v w x y : Byte) : stationSetOf (v ++ w ++ x ++ y) = (y ++ x ++ w ++ v).setWidth 31 := by
  have bytes := bytes32_append v w x y
  simp only [bytes32, List.cons.injEq, and_true] at bytes
  obtain ⟨hv, hw, hx, hy⟩ := bytes
  rw [stationSetOf, hv, hw, hx, hy]

theorem stationSetOf_bytes (f : BitVec 31) :
    stationSetOf (f.extractLsb' 0 8 ++ f.extractLsb' 8 8 ++ f.extractLsb' 16 8 ++ (f.extractLsb' 24 7).setWidth 8) = f := by
  have top : ((f.extractLsb' 24 7).setWidth 8).toNat = f.toNat / 16777216 := by
    rw [BitVec.toNat_setWidth, BitVec.extractLsb'_toNat, Nat.shiftRight_eq_div_pow]; omega
  refine BitVec.eq_of_toNat_eq ?_
  rw [stationSetOf_append, BitVec.toNat_setWidth, toNat_append_byte, toNat_append_byte, toNat_append_byte, top, toNat_extract_byte,
    toNat_extract_byte, toNat_extract_byte]
  omega

theorem flagCount_eq (f : BitVec 31) : flagCount f = ((List.finRange 31).filter fun i => f.getLsbD i.val).length := by
  have range : List.range 31 = (List.finRange 31).map fun i => i.val := by rw [List.map_coe_finRange_eq_range]
  rw [flagCount, range, List.countP_map, List.countP_eq_length_filter]; rfl

theorem flagCount_small (f : BitVec 31) : flagCount f < 256 := by
  have most : flagCount f ≤ 31 := List.countP_le_length
  omega

/-! ## Records -/

theorem eventByte (k : EventKind) (ch : ChannelNo) : eventKindByte k <<< 4 ||| BitVec.ofNat 8 ch.val = eventKindByte k <<< 4 + BitVec.ofNat 8 ch.val := by
  revert ch; cases k <;> decide

theorem presenceMarks_bits (c : Channel) : (presenceMarks c).getLsbD 0 = c.resume.isSome ∧ (presenceMarks c).getLsbD 1 = c.current.isSome
    ∧ (presenceMarks c).getLsbD 2 = c.fault.isSome ∧ (presenceMarks c).getLsbD 3 = c.pendingEvent.isSome ∧ (presenceMarks c).toNat < 16 := by
  obtain ⟨fault, current, resume⟩ := getLsbD_three (0#4 ++ BitVec.ofBool c.pendingEvent.isSome) c.fault.isSome c.current.isSome c.resume.isSome
  refine ⟨resume, current, fault, ?_, ?_⟩
  · exact (getLsbD_append_bit_succ _ _ 2).trans ((getLsbD_append_bit_succ _ _ 1).trans ((getLsbD_append_bit_succ _ _ 0).trans
      (getLsbD_append_bit_zero _ _)))
  · have hp := c.pendingEvent.isSome.toNat_lt
    have hf := c.fault.isSome.toNat_lt
    have hc := c.current.isSome.toNat_lt
    have hr := c.resume.isSome.toNat_lt
    rw [presenceMarks, toNat_append_bit, toNat_append_bit, toNat_append_bit, toNat_append_bit, BitVec.toNat_ofNat]; omega

/-- The fields of a channel record one after another, each with what follows it. -/
def channelFields (c : Channel) : List Byte :=
  [channelStateByte c.state, classByte c.cls, presenceMarks c, BitVec.ofNat 8 c.outstanding]
    ++ (addrBytes? c.resume ++ (addrBytes? (c.current.map Current.address)
    ++ (nat16 c.line ++ (nat16 c.offset ++ (nat32 c.issued ++ (nat32 c.completed
    ++ ([codeByteOf (c.fault.map FaultRecord.code), (c.pendingEvent.map fun e => eventKindByte e.kind).getD 0]
    ++ (addrBytes? (c.fault.map FaultRecord.address)
    ++ ([(c.swapResult.map swapByte).getD 0]
    ++ (nat32 ((c.fault.map FaultRecord.offset).getD 0)
    ++ (c.current.map Current.bytes).getD (List.replicate 32 0)))))))))))

theorem channelRecord_fields (c : Channel) : channelRecord c = channelFields c := by
  simp only [channelRecord, channelFields, List.append_assoc]

theorem channelFields_length (c : Channel) (sized : ∀ d, c.current = some d → d.bytes.length = 32) : (channelFields c).length = 64 := by
  have rest : (channelFields c).length = ((c.current.map Current.bytes).getD (List.replicate 32 0)).length + 32 := rfl
  rw [rest]
  cases current : c.current with
  | none => rfl
  | some d => rw [Option.map_some, Option.getD_some, sized d current]

end

/-- Settles O22: each field of each record where its layout has it. -/
theorem recordLayouts : Obligations.RecordLayouts := by
  refine ⟨fun e detail => ⟨rfl, ?_, ?_, ?_, bigEndian_nat32 detail⟩, fun n value => ⟨?_, rfl, rfl, bigEndian_bytes16 n.tag, rfl⟩, ?_, ?_,
    fun f w => ⟨rfl, stationSetOf_bytes f, ?_, rfl⟩, ?_, fun p => ?_, fun r => ?_, fun e => ?_, fun k => ?_, fun c => ?_⟩
  · refine (eventByte e.kind e.channel).trans ?_
    cases e.kind <;> rfl
  · show codeByteOf e.code = _
    cases e.code <;> rfl
  · exact bigEndian_nat16 (by omega)
  · show n.value.length + 4 = 8
    omega
  · intro c sized outstanding line offset issued completed faultOffset r
    obtain ⟨resume, current, fault, pending, marks⟩ := presenceMarks_bits c
    have fields : r = channelFields c := channelRecord_fields c
    clear_value r
    subst fields
    refine ⟨channelFields_length c sized, ?_, ?_, resume, current, fault, pending, marks, toNat_byte outstanding,
      (bigEndian_addrBytes? c.resume).trans ?_, (bigEndian_addrBytes? _).trans ?_, bigEndian_nat16 line, bigEndian_nat16 offset,
      bigEndian_nat32 issued, bigEndian_nat32 completed, ?_, ?_, (bigEndian_addrBytes? _).trans ?_, ?_, (bigEndian_nat32 ?_).trans ?_, ?_⟩
    · show channelStateByte c.state = _
      cases c.state <;> rfl
    · show classByte c.cls = _
      cases c.cls <;> rfl
    · cases c.resume <;> rfl
    · cases c.current <;> rfl
    · show codeByteOf (c.fault.map FaultRecord.code) = _
      cases c.fault <;> rfl
    · show (c.pendingEvent.map fun e => eventKindByte e.kind).getD 0 = _
      cases c.pendingEvent with
      | none => rfl
      | some e =>
        obtain ⟨kind, channel, code, address, detail⟩ := e
        cases kind <;> rfl
    · cases c.fault <;> rfl
    · show (c.swapResult.map swapByte).getD 0 = _
      cases c.swapResult with
      | none => rfl
      | some result => cases result <;> rfl
    · cases record : c.fault with
      | none => decide
      | some f => exact faultOffset f record
    · cases c.fault <;> rfl
    · show (c.current.map Current.bytes).getD (List.replicate 32 0) = _
      cases c.current <;> rfl
  · intro s p label held r
    obtain ⟨flag, backoff, sync⟩ := getLsbD_three 0#5 (s.ev.peerFlags.getLsbD p.val) (s.peer p).tx.backoff.isSome (s.peer p).tx.syncNeeded
    refine ⟨?_, ?_, sync, backoff, flag, toNat_three_bits _ _ _, rfl, toNat_byte held, rfl, rfl, rfl⟩
    · show (shownLabel s p).length + 8 = 16
      omega
    · show peerStatusByte (s.peer p).status = _
      cases (s.peer p).status <;> rfl
  · exact (toNat_byte (flagCount_small f)).trans (flagCount_eq f)
  · intro b length d flag
    refine ⟨(recordField_address (by omega)).symm, rfl, rfl, rfl, rfl, rfl, rfl, rfl, rfl, rfl, ?_, ?_, ?_, ?_, ?_, ?_, ?_⟩
    · exact (recordField_two (by omega)).symm
    · exact (recordField_two (by omega)).symm
    · exact (recordField_two (by omega)).symm
    · exact (recordField_address (by omega)).symm
    · exact (recordField_address (by omega)).symm
    · exact (recordField_two (by omega)).symm
    · exact (recordField_two (by omega)).symm
  · cases p <;> rfl
  · cases r with
    | none => rfl
    | some reason => cases reason <;> rfl
  · obtain ⟨change, notice, event⟩ := getLsbD_three 0#5 e.changeEnable e.noticeEnable e.eventEnable
    exact ⟨event, notice, change, toNat_three_bits _ _ _⟩
  · cases k <;> rfl
  · cases c <;> rfl

end Sys2Proof.Machine
end
